-- ==== Sys2Proof/Word.lean ====
section
/-! DEFINITION. The word types of the Adnar (R4, R131): bytes, 32-bit registers, 64-bit words, and the causal clock of R289. -/
namespace Sys2Proof

/-- One byte of any memory. -/
abbrev Byte := BitVec 8

/-- One lane register (R19) and every 32-bit field. -/
abbrev Word := BitVec 32

/-- A register pair, an instruction word, a record word (R4). -/
abbrev DWord := BitVec 64

/-- A causal clock (R289): sixteen 16-bit entries, entry m for member m of the reach. -/
abbrev Clock := List (BitVec 16)

/-- The clock all of whose entries are zero. -/
def Clock.zero : Clock := List.replicate 16 0

end Sys2Proof
end

