-- ==== Sys2Proof/Syntax/Types.lean ====
section
/-! DEFINITION. The data that the operations of the opcode table carry: operand forms, modifiers, command entries, packets, layouts and
the arguments of the admin, management and physical events. The operations themselves are in Syntax.lean. -/
namespace Sys2Proof

/-- The guard fields G and GN of a full word (R78, R79). -/
structure Hdr where
  g  : BitVec 4
  gn : Bool
  deriving DecidableEq, Repr, Inhabited

/-- Condition codes of icmp, wcmp and kwait (Table 7.1). -/
inductive Cond | eq | ne | lt | le | gt | ge
  deriving DecidableEq, Repr, Inhabited

/-- Rounding modes (R156). -/
inductive Rm | rne | rz | rdn | rup
  deriving DecidableEq, Repr, Inhabited

/-- Overflow policies (R157). -/
inductive Ov | sat | inf | nan | trap
  deriving DecidableEq, Repr, Inhabited

/-- Format codes (Table 8.1). -/
inductive Fmt | f32 | f16 | bf16 | lg6 | i8 | n8 | i32 | n32
  deriving DecidableEq, Repr, Inhabited

/-- The three binary floating-point formats (R150). -/
inductive Fty | f32 | f16 | bf16
  deriving DecidableEq, Repr, Inhabited

/-- The formats cvt accepts on either side (R183). -/
inductive Cty | flt (f : Fty) | i8 | n8 | i32 | n32
  deriving DecidableEq, Repr, Inhabited

/-- The rounding, overflow and flush fields of a float word (Table 5.4). -/
structure FMod where
  rm  : Rm
  ov  : Ov
  ftz : Bool
  deriving DecidableEq, Repr, Inhabited

/-- Memory scopes (Table 5.5). -/
inductive Scope | crew | wg | core | pkg | reach | dom
  deriving DecidableEq, Repr, Inhabited

/-- The three memory spaces of ld, st, atom and cas (Table 10.1). -/
inductive Space | near | spill | basin
  deriving DecidableEq, Repr, Inhabited

/-- Access widths (Table 10.3). -/
inductive Width | i8 | n8 | b16 | b32 | b64 | b128
  deriving DecidableEq, Repr, Inhabited

/-- The two widths of cas, casf, fflag, kst and kld. -/
inductive Width2 | b32 | b64
  deriving DecidableEq, Repr, Inhabited

/-- Atomic operations (Table 10.4). -/
inductive Aop | add | min | max | and | or | xor | exch
  deriving DecidableEq, Repr, Inhabited

/-- Atomic types (Table 10.4). -/
inductive Aty | i32 | n32 | f32
  deriving DecidableEq, Repr, Inhabited

/-- The count of a 32-bit shift: a register, or SH with I = 1 (R135). -/
inductive Shift5 | reg (b : BitVec 8) | imm (n : BitVec 5)
  deriving DecidableEq, Repr, Inhabited

/-- The count of wshl (R138). -/
inductive Shift6 | reg (b : BitVec 8) | imm (n : BitVec 6)
  deriving DecidableEq, Repr, Inhabited

/-- The modes of vote (R142). -/
inductive VoteMode | any | all | eq
  deriving DecidableEq, Repr, Inhabited

/-- The modes of lperm (R143). -/
inductive PermMode | sel | back | fwd | flip | rot
  deriving DecidableEq, Repr, Inhabited

/-- The source lane of bcast (R144). -/
inductive BcastSrc | reg (b : BitVec 8) | imm (k : BitVec 3) | first
  deriving DecidableEq, Repr, Inhabited

/-- The reductions of cred (R145). -/
inductive CredOp | add | min | max | and | or | xor | fadd | fmin | fmax
  deriving DecidableEq, Repr, Inhabited

/-- The conditions of fcmp (Table 9.3). -/
inductive FCond | eq | ne | lt | le | gt | ge | num | nan | equ | ltu | leu | gtu | geu
  deriving DecidableEq, Repr, Inhabited

/-- A tile handle: an immediate index and phase, or a handle register (R199, R202). -/
inductive TileH | imm (idx : BitVec 8) (ph : Bool) | reg (r : BitVec 8)
  deriving DecidableEq, Repr, Inhabited

/-- A muster operand: an immediate index 0-31, or a register (R298). -/
inductive MusterH | imm (k : BitVec 5) | reg (r : BitVec 8)
  deriving DecidableEq, Repr, Inhabited

/-- One operand slot: an immediate index 0-63, or a handle register (R234). -/
inductive SlotH | imm (k : BitVec 6) | reg (r : BitVec 8)
  deriving DecidableEq, Repr, Inhabited

/-- The two slots of xmac, of one form (R234). -/
inductive SlotPair | imm (a b : BitVec 6) | reg (a b : BitVec 8)
  deriving DecidableEq, Repr, Inhabited

/-- Source of msend and destination of mpost: a tile, or the box of a manifest (R275). -/
inductive WEnd | tile (t : TileH) | box (man : BitVec 4) (c : BitVec 8)
  deriving DecidableEq, Repr, Inhabited

/-- The half operations of the pair word (Table 5.8). -/
inductive HalfOp
  | iadd | isub | imin | imax | and | or | xor | mov | fadd | fmul | fmin | fmax | pkadd | pkmul
  | shl | shr | sar | movi6 | fneg | fabs
  deriving DecidableEq, Repr, Inhabited

/-- One half of a pair word (Table 5.7). -/
structure Half where
  op : HalfOp
  d  : BitVec 8
  s  : BitVec 8
  g  : BitVec 3
  x  : BitVec 6
  deriving DecidableEq, Repr, Inhabited

/-- Context `ctx` of virtual device `vd` (R44). -/
structure CtxRef where
  vd  : Nat
  ctx : Nat
  deriving DecidableEq, Repr, Inhabited

/-- The fields of a command entry (R47, Table 3.2) that the type uses. -/
structure Entry where
  cnt   : BitVec 8
  cmp   : BitVec 3
  w64   : Bool
  irq   : Bool
  addr  : DWord
  value : DWord
  mask  : DWord
  deriving DecidableEq, Repr, Inhabited

/-- The structures of Table 4.3 that the rota serves. -/
inductive Struct
  | basin (core : Nat) | barge (core : Nat) | ctlb (core : Nat) | l2tlb (die : Nat) | walk (stack : Nat)
  | hbm (channel : Nat) | cp | disp | items | wharf | fibre (f : Nat)
  deriving DecidableEq, Repr, Inhabited

/-- Packet types (Table 15.2). -/
inductive PType | read | write | atom | cas | red | flag | reply | heart | close | msg
  deriving DecidableEq, Repr, Inhabited

/-- Reply status (Table 15.2) and message status (Table 16.1). -/
inductive PStat | ok | closed | access | full
  deriving DecidableEq, Repr, Inhabited

/-- Message packet kinds (Table 16.1). -/
inductive MKind | eager | rts | pull | data | ack | nack
  deriving DecidableEq, Repr, Inhabited

/-- A packet as its header, clock flit, data and tag flit give it (Tables 15.2 and 16.1). `tag` is the tag of R250. What follows it from `svd` on, `mseq` and its
like of Table 16.1 apart, has no place in a header (log 21): the sender's VDID, the CNT bit of the leaf that the request went through (R226), an INTEGRITY
answer (R311), the leaf's KeyID where it is not the working one (R338), the clock at which the tag flit left the source (R256), and whether the packet's tag
check fails at its receiver (R251). -/
structure Packet where
  typ   : PType := .read
  aop   : Aop := .add
  aty   : Aty := .i32
  wd    : Width := .b32
  slot  : Nat := 0
  src   : Nat := 0
  dst   : Nat := 0
  keyid : Nat := 0
  stat  : PStat := .ok
  sw    : Bool := false
  det   : Bool := false
  lseq  : BitVec 16 := 0
  pa    : Nat := 0
  rtag  : Nat := 0
  wseq  : BitVec 16 := 0
  bmask : BitVec 64 := 0
  clock : Option Clock := none
  data  : List Byte := []
  orig  : Nat := 0
  ctr   : Nat := 0
  tag   : BitVec 128 := 0
  kind  : MKind := .eager
  dvd   : Nat := 0
  svd   : Nat := 0
  srank : Nat := 0
  off   : Nat := 0
  mtag  : Word := 0
  mseq  : BitVec 16 := 0
  mlen  : Nat := 0
  rxid  : Nat := 0
  cnt   : Bool := false
  bad   : Bool := false
  lkey  : Option Nat := none
  left  : Nat := 0
  garbled : Bool := false
  deriving DecidableEq, Repr, Inhabited

/-- A Kiteline broadcast (R282) with its clock flit and its tag flit. -/
structure Bcast where
  faa   : Bool := false
  w64   : Bool := false
  rel   : Bool := false
  slot  : Nat := 0
  src   : Nat := 0
  keyid : Nat := 0
  addr  : Nat := 0
  lane  : Nat := 0
  qidx  : Nat := 0
  data  : DWord := 0
  clock : Clock := Clock.zero
  ctr   : Nat := 0
  tag   : BitVec 128 := 0
  deriving DecidableEq, Repr, Inhabited

/-- What the management processors record of a tenant across the domain (R63, R250, R266): its slot mask, its KeyIDs and the packages where it holds a world. -/
structure Tenancy where
  tenant : Nat
  mask   : BitVec 16 := 0
  keys   : List Nat := []
  pkgs   : List Nat := []
  deriving DecidableEq, Repr, Inhabited

/-- Timing classes (R13). -/
inductive TClass | isolated | opn
  deriving DecidableEq, Repr, Inhabited

/-- One allotment of a layout (Table 1.1). Ranges are (first, length); banks name the partition they serve. -/
structure Allot where
  world   : Nat := 0
  tenant  : Nat := 0
  cls     : TClass := .isolated
  parts   : List (Nat × Nat) := []
  banks   : List (Nat × Nat × Nat) := []
  basin   : List (Nat × Nat × Nat) := []
  stack   : Nat := 0
  tlb     : Nat := 16
  l2      : Nat := 256
  walkers : Nat := 1
  pad     : Nat := 1
  watts   : Nat := 0
  keys    : List Nat := []
  deriving DecidableEq, Repr, Inhabited

/-- An entry of the gift table (R73). -/
inductive Gift | world (w : Nat) | house
  deriving DecidableEq, Repr, Inhabited

/-- A partition layout (R350). `owners` gives the owner of slot k. `rotaL` and `rotaS` are the values it states (R62). -/
structure Layout where
  gen    : Nat := 0
  rotaL  : Nat := 1
  rotaS  : Nat := 64
  allots : List Allot := []
  owners : List (Option Nat) := []
  f      : Nat := 8
  gift   : List Gift := []
  deriving DecidableEq, Repr, Inhabited

/-- The two masters (R346). -/
inductive Master | host | mgmt
  deriving DecidableEq, Repr, Inhabited

/-- What VD_CREATE gives a VD (R11, R273, R319, R217): the driver's choices, and for a VD that has moved here the %cycle at which it froze (R335). -/
structure VdArgs where
  vdid    : Nat
  tenant  : Nat
  uqSize  : Nat
  root    : Nat
  stack   : Nat
  ctxArea : Nat
  ctxKey  : Nat
  frames  : List (Nat × Nat)
  frozen  : Option Nat := none
  deriving DecidableEq, Repr, Inhabited

/-- What CTX_CREATE gives a context (R44, R331). -/
structure CtxArgs where
  eptr : Nat
  key  : Nat
  ring : Nat
  size : Nat
  deriving DecidableEq, Repr, Inhabited

/-- Scope of an invalidation (R225): all, or a range of addresses. -/
inductive InvScope | all | range (va len : Nat)
  deriving DecidableEq, Repr, Inhabited

/-- A writable-region record (Table 24.2), as REGION gives it: its four words. -/
structure RegionArgs where
  words : List DWord := []
  deriving DecidableEq, Repr, Inhabited

/-- A sealed region as SEAL gives it (R343). -/
structure SealArgs where
  num   : Nat
  pfn   : Nat
  len   : Nat
  keyid : Nat
  tree  : Nat
  deriving DecidableEq, Repr, Inhabited

/-- The keys that INSTALL carries (Table 24.1). -/
structure Keys where
  data1 : BitVec 256 := 0
  data2 : BitVec 256 := 0
  integ : BitVec 256 := 0
  fabric : BitVec 256 := 0
  reserved : BitVec 256 := 0
  deriving DecidableEq, Repr, Inhabited

/-- A breakpoint comparator (R324). -/
structure Comparator where
  code  : Nat := 0
  index : Nat := 0
  on    : Bool := false
  deriving DecidableEq, Repr, Inhabited

/-- A unit that can be taken out of service (R357); a fibre of another package is one of which the management processors tell this one (R247, R257). -/
inductive HwUnit | core (c : Nat) | fibre (f : Nat) | bank (stack n : Nat) | peerFibre (pkg f : Nat)
  deriving DecidableEq, Repr, Inhabited

/-- A register of a master's window that has no row of its own (R346, R348, R349, R356), or a place outside every window. -/
inductive RegName
  | fqBase (vd : Nat) | fqSize (vd : Nat) | fqProd (vd : Nat) | fqCons (vd : Nat) | counterT (vd : Nat) | vecMask (vd : Nat) | context (c : CtxRef)
  | adminProd | adminCons | health | bootFail | errorRecords | powerLimit | tempLimit | other (addr : Nat)
  deriving DecidableEq, Repr, Inhabited

/-- A master's access to a register: which one, the virtual function that asks where it is not the physical one, and whether it reads. -/
structure RegReq where
  reg  : RegName
  vf   : Option Nat := none
  read : Bool := false
  deriving DecidableEq, Repr, Inhabited

/-- What an SPDM message asks before a session stands (R347, R352): the version, or a session, whose authentication succeeds or fails. -/
inductive SpdmMsg | version | session (authentic : Bool)
  deriving DecidableEq, Repr, Inhabited

/-- A request for measurements (R354): an index, or 255 for all of them, and the nonce. -/
structure MeasReq where
  index : Nat := 255
  nonce : List Byte := []
  deriving DecidableEq, Repr, Inhabited

/-- The signature of a firmware image (R352): the digest of the public key that it was made under, and whether it verifies under that key (log 18). -/
structure ImageSig where
  key   : List Byte := []
  valid : Bool := true
  deriving DecidableEq, Repr, Inhabited

/-- Where an error was found (R311, R355), or what else an error record names: a unit taken out of service (R357), a limit passed (R358), a line that
fails its check in a sweep (R341). -/
inductive ErrSite
  | hbm (pa : Nat) | near (core off : Nat) | spill (core part off : Nat) | basin (die off : Nat)
  | reg (crew lane r : Nat) | slot (wg part s off : Nat) | acc (wg part a elem : Nat) | icache (core part va : Nat)
  | unit (u : HwUnit) | limits | mac (line : Nat) | pred (crew lane p : Nat) | kite (vd addr : Nat)
  deriving DecidableEq, Repr, Inhabited

/-- Which engine of a matrix unit (R231). -/
inductive MEngine | fill | array
  deriving DecidableEq, Repr, Inhabited

end Sys2Proof
end

