-- ==== Sys2Proof/Syntax.lean ====
section
/-! DEFINITION. The operations of the Adnar: one constructor per row of the opcode table. The first 164 are instruction
words of Rosyn; the others are the steps of the engines, the masters and the links, with the data that they act on. Those that the model's own code
never makes stand last: compiled Lean gives data to the first 244 constructors of a type only. -/
namespace Sys2Proof

/-- One row of the opcode table with its operands. -/
inductive Instr
  -- Control flow (R121-R129), traps (R314-R317)
  | bra (h : Hdr) (off : BitVec 32)
  | brx (h : Hdr) (a : BitVec 8)
  | call (h : Hdr) (d : BitVec 8) (off : BitVec 32)
  | callx (h : Hdr) (d a : BitVec 8)
  | ret (h : Hdr) (a : BitVec 8)
  | jmark (h : Hdr) (k : BitVec 2)
  | join (h : Hdr) (k : BitVec 2)
  | exit (h : Hdr)
  | yield (h : Hdr)
  | nop (h : Hdr)
  | itake (h : Hdr) (d : BitVec 8)
  | drain (h : Hdr)
  | trap (h : Hdr) (imm : BitVec 31)
  | tret (h : Hdr) (nxt : Bool)
  | brk (h : Hdr) (code : BitVec 8)
  -- Integer arithmetic (R132-R134)
  | iadd (h : Hdr) (d a b : BitVec 8) (sat u : Bool)
  | iaddc (h : Hdr) (d a b : BitVec 8) (ci co : BitVec 4)
  | isub (h : Hdr) (d a b : BitVec 8) (sat u : Bool)
  | isubb (h : Hdr) (d a b : BitVec 8) (ci co : BitVec 4)
  | imul (h : Hdr) (d a b : BitVec 8)
  | imulh (h : Hdr) (d a b : BitVec 8) (u : Bool)
  | imad (h : Hdr) (d a b c : BitVec 8) (sat u : Bool)
  | idiv (h : Hdr) (la : BitVec 4) (d a b : BitVec 8) (u : Bool)
  | irem (h : Hdr) (la : BitVec 4) (d a b : BitVec 8) (u : Bool)
  | imin (h : Hdr) (d a b : BitVec 8) (u : Bool)
  | imax (h : Hdr) (d a b : BitVec 8) (u : Bool)
  | iclamp (h : Hdr) (d a b c : BitVec 8) (u : Bool)
  | ineg (h : Hdr) (d a : BitVec 8) (sat : Bool)
  | iabs (h : Hdr) (d a : BitVec 8) (sat : Bool)
  -- Logic, shifts, bit fields, moves (R135, R136)
  | iand (h : Hdr) (d a b : BitVec 8)
  | ior (h : Hdr) (d a b : BitVec 8)
  | ixor (h : Hdr) (d a b : BitVec 8)
  | iandn (h : Hdr) (d a b : BitVec 8)
  | inot (h : Hdr) (d a : BitVec 8)
  | shl (h : Hdr) (d a : BitVec 8) (k : Shift5)
  | shr (h : Hdr) (d a : BitVec 8) (k : Shift5)
  | sar (h : Hdr) (d a : BitVec 8) (k : Shift5)
  | rotl (h : Hdr) (d a : BitVec 8) (k : Shift5)
  | rotr (h : Hdr) (d a : BitVec 8) (k : Shift5)
  | popc (h : Hdr) (d a : BitVec 8)
  | clz (h : Hdr) (d a : BitVec 8)
  | ctz (h : Hdr) (d a : BitVec 8)
  | brev (h : Hdr) (d a : BitVec 8)
  | bfx (h : Hdr) (d a b : BitVec 8) (u : Bool)
  | bfi (h : Hdr) (d a b c : BitVec 8)
  | sel (h : Hdr) (d a b : BitVec 8) (p : BitVec 4)
  | mov (h : Hdr) (d a : BitVec 8)
  | movi (h : Hdr) (d : BitVec 8) (imm : BitVec 31)
  | movh (h : Hdr) (d a : BitVec 8) (imm : BitVec 16)
  -- Comparisons and 64-bit arithmetic (R137, R138)
  | icmp (h : Hdr) (cc : Cond) (u : Bool) (pd : BitVec 4) (a b : BitVec 8) (pc : BitVec 4)
  | wadd (h : Hdr) (d a b : BitVec 8)
  | wshl (h : Hdr) (d a : BitVec 8) (k : Shift6)
  | wcmp (h : Hdr) (cc : Cond) (u : Bool) (pd : BitVec 4) (a b : BitVec 8) (pc : BitVec 4)
  | waddi (h : Hdr) (d a : BitVec 8) (imm : BitVec 31)
  | wmad (h : Hdr) (d a b c : BitVec 8) (u : Bool)
  -- Predicates (R139, R140), lanes (R141-R146), special registers (R147)
  | pand (h : Hdr) (pd pa pb : BitVec 4) (na nb : Bool)
  | por (h : Hdr) (pd pa pb : BitVec 4) (na nb : Bool)
  | pxor (h : Hdr) (pd pa pb : BitVec 4) (na nb : Bool)
  | pnot (h : Hdr) (pd pa : BitVec 4) (na : Bool)
  | pset (h : Hdr) (a b : BitVec 8)
  | pget (h : Hdr) (d : BitVec 8)
  | vote (h : Hdr) (mode : VoteMode) (pd pa : BitVec 4)
  | ballot (h : Hdr) (d : BitVec 8) (pa : BitVec 4)
  | lperm (h : Hdr) (mode : PermMode) (pv : BitVec 4) (d a b : BitVec 8)
  | bcast (h : Hdr) (d a : BitVec 8) (src : BcastSrc)
  | cred (h : Hdr) (op : CredOp) (scan u : Bool) (d a : BitVec 8)
  | matchLanes (h : Hdr) (w : Bool) (d a : BitVec 8)
  | sget (h : Hdr) (d n : BitVec 8)
  | sset (h : Hdr) (a : BitVec 8)
  -- Floating point and conversion (R171-R189)
  | fadd (h : Hdr) (ty : Fty) (m : FMod) (d a b : BitVec 8)
  | fsub (h : Hdr) (ty : Fty) (m : FMod) (d a b : BitVec 8)
  | fmul (h : Hdr) (ty : Fty) (m : FMod) (d a b : BitVec 8)
  | ffma (h : Hdr) (ty : Fty) (m : FMod) (d a b c : BitVec 8)
  | fmin (h : Hdr) (ty : Fty) (ftz : Bool) (d a b : BitVec 8)
  | fmax (h : Hdr) (ty : Fty) (ftz : Bool) (d a b : BitVec 8)
  | frcp (h : Hdr) (la : BitVec 4) (ov : Ov) (ftz : Bool) (d a : BitVec 8)
  | frsq (h : Hdr) (la : BitVec 4) (ov : Ov) (ftz : Bool) (d a : BitVec 8)
  | fsqrt (h : Hdr) (la : BitVec 4) (ov : Ov) (ftz : Bool) (d a : BitVec 8)
  | fex2 (h : Hdr) (la : BitVec 4) (ov : Ov) (ftz : Bool) (d a : BitVec 8)
  | flg2 (h : Hdr) (la : BitVec 4) (ov : Ov) (ftz : Bool) (d a : BitVec 8)
  | fsin (h : Hdr) (la : BitVec 4) (ov : Ov) (ftz : Bool) (d a : BitVec 8)
  | fcos (h : Hdr) (la : BitVec 4) (ov : Ov) (ftz : Bool) (d a : BitVec 8)
  | ftanh (h : Hdr) (la : BitVec 4) (ov : Ov) (ftz : Bool) (d a : BitVec 8)
  | fcmp (h : Hdr) (cc : FCond) (ty : Fty) (ftz : Bool) (pd : BitVec 4) (a b : BitVec 8) (pc : BitVec 4)
  | fclass (h : Hdr) (ty : Fty) (ftz : Bool) (d a : BitVec 8)
  | frnd (h : Hdr) (ty : Fty) (rm : Rm) (ftz : Bool) (d a : BitVec 8)
  | pkadd (h : Hdr) (bf : Bool) (m : FMod) (d a b : BitVec 8)
  | pkmul (h : Hdr) (bf : Bool) (m : FMod) (d a b : BitVec 8)
  | pkfma (h : Hdr) (bf : Bool) (m : FMod) (d a b c : BitVec 8)
  | cvt (h : Hdr) (dst src : Cty) (m : FMod) (d a : BitVec 8)
  | nq (h : Hdr) (ov : Ov) (ftz : Bool) (d a b : BitVec 8)
  | nqFs (h : Hdr) (fs : BitVec 3) (d a : BitVec 8)
  | nx (h : Hdr) (ty : Fty) (m : FMod) (d a b : BitVec 8)
  | nxFs (h : Hdr) (ty : Fty) (fs : BitVec 3) (d a : BitVec 8)
  | bscale (h : Hdr) (ftz : Bool) (d a : BitVec 8)
  | bscaleFold (h : Hdr) (ftz : Bool) (d a b : BitVec 8)
  -- Near memory and the Basin (R190-R198), tiles (R199-R206), barriers and fences (R297, R298)
  | ld (h : Hdr) (la : BitVec 4) (sp : Space) (wd : Width) (d a : BitVec 8) (ofs : BitVec 10)
  | st (h : Hdr) (sp : Space) (wd : Width) (a b : BitVec 8) (ofs : BitVec 10)
  | atom (h : Hdr) (la : BitVec 4) (op : Aop) (sp : Space) (ty : Aty) (d a b : BitVec 8) (ofs : BitVec 8)
  | cas (h : Hdr) (la : BitVec 4) (sp : Space) (wd : Width2) (d a b c : BitVec 8) (ofs : BitVec 10)
  | tset (h : Hdr) (rdy : Bool) (t : TileH) (a b : BitVec 8)
  | tdrain (h : Hdr) (t : TileH)
  | tfree (h : Hdr) (t : TileH)
  | tstat (h : Hdr) (map : Bool) (d : BitVec 8) (t : TileH)
  | twait (h : Hdr) (t : TileH)
  | cwait (h : Hdr) (t : TileH) (a : BitVec 8)
  | bar (h : Hdr) (m : MusterH)
  | barv (h : Hdr) (d : BitVec 8) (m : MusterH)
  | barw (h : Hdr) (m : MusterH) (a : BitVec 8)
  | fence (h : Hdr) (sc : Scope)
  -- The Barge (R208)
  | cpy (h : Hdr) (t : TileH) (man : BitVec 4) (a : BitVec 8)
  | cpo (h : Hdr) (t : TileH) (man : BitVec 4) (a : BitVec 8)
  | cpbIn (h : Hdr) (t : TileH) (man : BitVec 4) (a b : BitVec 8)
  | cpbOut (h : Hdr) (t : TileH) (man : BitVec 4) (a b : BitVec 8)
  | cpreWarm (h : Hdr) (man : BitVec 4) (a : BitVec 8)
  | cpreMig (h : Hdr) (man : BitVec 4) (a : BitVec 8)
  -- The matrix unit (R234-R243)
  | xclaim (h : Hdr) (o : SlotH)
  | xrel (h : Hdr) (o : SlotH)
  | xfill (h : Hdr) (o : SlotH) (t : TileH) (b : BitVec 8) (fs : BitVec 3)
  | xmac (h : Hdr) (sat : Bool) (acc : BitVec 3) (os : SlotPair) (fs : BitVec 3)
  | xwait (h : Hdr)
  | xfence (h : Hdr)
  | xclr (h : Hdr) (acc : BitVec 3)
  | xrd (h : Hdr) (la : BitVec 4) (d : BitVec 8) (acc : BitVec 3) (a : BitVec 8)
  | xst (h : Hdr) (a : BitVec 8) (acc : BitVec 3) (fs : BitVec 3) (hist : Option (BitVec 3))
  | xhcfg (h : Hdr) (hs : BitVec 3) (a : BitVec 8)
  | xhrd (h : Hdr) (d : BitVec 8) (hs : BitVec 3) (a : BitVec 8)
  -- Far memory (R258-R264)
  | ldf (h : Hdr) (la : BitVec 4) (wd : Width) (d a : BitVec 8) (ofs : BitVec 10)
  | stf (h : Hdr) (wd : Width) (a b : BitVec 8) (mask : Option (BitVec 8)) (ofs : BitVec 10)
  | atomf (h : Hdr) (la : BitVec 4) (op : Aop) (ty : Aty) (d a b : BitVec 8) (ofs : BitVec 10)
  | casf (h : Hdr) (la : BitVec 4) (wd : Width2) (d a b c : BitVec 8) (ofs : BitVec 10)
  | redf (h : Hdr) (op : Aop) (ty : Aty) (sw : Bool) (a b : BitVec 8) (ofs : BitVec 9)
  | fencef (h : Hdr) (sc : Scope)
  | fflag (h : Hdr) (wd : Width2) (a b : BitVec 8) (ofs : BitVec 10)
  -- The Wharf (R275-R279) and the Kiteline (R285-R287)
  | msend (h : Hdr) (nr : Bool) (d a b : BitVec 8) (e : WEnd)
  | mpost (h : Hdr) (cw nr : Bool) (d a b : BitVec 8) (e : WEnd)
  | mcancel (h : Hdr) (a : BitVec 8)
  | mprobe (h : Hdr) (la : BitVec 4) (d a b : BitVec 8)
  | mtest (h : Hdr) (la : BitVec 4) (d a : BitVec 8)
  | mwait (h : Hdr) (d a : BitVec 8)
  | kst (h : Hdr) (rel : Bool) (wd : Width2) (a b : BitVec 8) (ofs : BitVec 10)
  | kfaa (h : Hdr) (la : BitVec 4) (rel : Bool) (d a b : BitVec 8) (ofs : BitVec 10)
  | kld (h : Hdr) (acq : Bool) (wd : Width2) (d a : BitVec 8) (ofs : BitVec 10)
  | kwait (h : Hdr) (cc : Cond) (u acq : Bool) (a b c : BitVec 8) (ofs : BitVec 10)
  -- The pair word (R90-R92): one constructor per operation of the first half, the second half as data
  | pairIadd (g : BitVec 3) (d s : BitVec 8) (h1 : Half)
  | pairIsub (g : BitVec 3) (d s : BitVec 8) (h1 : Half)
  | pairImin (g : BitVec 3) (d s : BitVec 8) (h1 : Half)
  | pairImax (g : BitVec 3) (d s : BitVec 8) (h1 : Half)
  | pairAnd (g : BitVec 3) (d s : BitVec 8) (h1 : Half)
  | pairOr (g : BitVec 3) (d s : BitVec 8) (h1 : Half)
  | pairXor (g : BitVec 3) (d s : BitVec 8) (h1 : Half)
  | pairMov (g : BitVec 3) (d s : BitVec 8) (h1 : Half)
  | pairFadd (g : BitVec 3) (d s : BitVec 8) (h1 : Half)
  | pairFmul (g : BitVec 3) (d s : BitVec 8) (h1 : Half)
  | pairFmin (g : BitVec 3) (d s : BitVec 8) (h1 : Half)
  | pairFmax (g : BitVec 3) (d s : BitVec 8) (h1 : Half)
  | pairPkadd (g : BitVec 3) (d s : BitVec 8) (h1 : Half)
  | pairPkmul (g : BitVec 3) (d s : BitVec 8) (h1 : Half)
  | pairShl (g : BitVec 3) (d s : BitVec 8) (x : BitVec 5) (h1 : Half)
  | pairShr (g : BitVec 3) (d s : BitVec 8) (x : BitVec 5) (h1 : Half)
  | pairSar (g : BitVec 3) (d s : BitVec 8) (x : BitVec 5) (h1 : Half)
  | movi6 (g : BitVec 3) (d : BitVec 8) (x : BitVec 6) (h1 : Half)
  | fneg (g : BitVec 3) (d s : BitVec 8) (h1 : Half)
  | fabs (g : BitVec 3) (d s : BitVec 8) (h1 : Half)
  -- The host's doorbell and the command entries (R45-R56)
  | doorbell (c : CtxRef)
  | endE (c : CtxRef)
  | launch (c : CtxRef) (e : Entry)
  | skipif (c : CtxRef) (e : Entry)
  | jump (c : CtxRef) (e : Entry)
  | callEntry (c : CtxRef) (e : Entry)
  | retEntry (c : CtxRef)
  | signal (c : CtxRef) (e : Entry)
  | waitv (c : CtxRef) (e : Entry)
  | waitvReread (c : CtxRef) (e : Entry)
  | measure (c : CtxRef) (e : Entry)
  | receipt (c : CtxRef) (e : Entry)
  -- Placement, items, fills, the rota (R57-R66, R119, R207, R359)
  | placeWorkgroup (vd grid : Nat)
  | coresidentPass (vd grid : Nat)
  | crewsReady (wg : Nat)
  | itemMove (grid core : Nat)
  | icacheFill (fill : Nat)
  | requestAccept (st : Struct) (world : Nat)
  | basinResult (op : Nat)
  | fixedLatencyComplete (crew lane entry : Nat)
  -- The Barge and translation (R208-R226)
  | bargeBeat (req line : Nat)
  | chunkDone (req chunk : Nat)
  | bargeRequestEnd (req : Nat)
  | translationComplete (job : Nat)
  | faultRecordDeferred (vd : Nat)
  | replayedAccess (vd job : Nat)
  | sideLogReissue (vd entry : Nat)
  -- The fabric (R246-R266, R290-R293)
  | homePerform (far : Nat)
  | flagSend (crew lane : Nat)
  | replyPacket (p : Packet)
  | heartSend (slot fibre : Nat)
  | requestTimeout (far : Nat)
  | packetDropTimeout (p : Packet)
  | clockEntryRaise (vd : Nat)
  -- Messages (R267-R279, R304-R306)
  | eager (p : Packet)
  | rts (p : Packet)
  | pull (p : Packet)
  | data (p : Packet)
  | ack (p : Packet)
  | nack (p : Packet)
  | messageResend (vd send : Nat)
  | matchStep (vd : Nat)
  | landingBeat (vd rx : Nat)
  | receiveComplete (vd rx : Nat)
  | wharfResult (crew lane entry : Nat)
  -- The Kiteline (R280-R287)
  | kitelineHolding (slot member : Nat) (bs : List Bcast)
  | broadcastApply (b : Bcast)
  | starSwitchover
  -- The matrix engines (R231-R233)
  | matrixOpStart (core part : Nat) (e : MEngine)
  | xfillComplete (core part : Nat)
  | xmacComplete (core part : Nat)
  | xclrComplete (core part : Nat)
  | xstComplete (core part : Nat)
  -- Traps, retirement (R310-R313, R328-R331), restoring and debug stops (R322-R325)
  | handlerModeEntry (crew : Nat)
  | deferredTrap (crew : Nat)
  | workgroupRetire (wg : Nat)
  | completionBitSet (wg : Nat)
  | gridRetire (grid : Nat)
  | workgroupRestore (vd wg : Nat)
  | breakpointStop (crew : Nat)
  -- The world's slots and switches (R71-R76, R266, R318-R319, R326-R327, R361)
  | firstRound (vd : Nat)
  | slotRelease (vd : Nat)
  | slotReturn (vd : Nat)
  | haltEffect (vd : Nat)
  | resumeEffect (vd : Nat)
  | switchBoundary (out inc : Nat)
  | padEnd (out inc : Nat)
  | teardownBoundary (vd : Nat)
  | teardownRelease (vd : Nat)
  | keyErase (key : Nat)
  | zeroingPass (stack : Nat)
  | snapCopy (vd : Nat)
  | rollSweep (region : Nat)
  | invalidateComplete (vd inv : Nat)
  | sealingPass (num : Nat)
  | regionZeroing (idx : Nat)
  | layoutApply
  | fuseAdvance (target : Nat) (authentic : Bool)
  | refreshWindow (found : List (Nat × Bool))
  -- Admin commands (R348, Table 25.2)
  | vdCreate (a : VdArgs)
  | schedule (vd world : Nat)
  | halt (vd : Nat)
  | resume (vd : Nat)
  | replace (out inc allot : Nat)
  | teardown (vd : Nat)
  | ctxCreate (c : CtxRef) (a : CtxArgs)
  | ranks (vd my : Nat) (table : List (Nat × Word))
  | replay (vd : Nat) (fid : Option Nat)
  | invalidate (vd : Nat) (sc : InvScope)
  | counters (vd va len : Nat)
  | snap (vd area bitmap : Nat)
  | save (vd : Nat)
  | region (r : RegionArgs)
  | roll (idx : Nat)
  | seal (vd : Nat) (a : SealArgs)
  | reseal (num : Nat)
  | debugArm (vd : Nat) (on : Bool)
  | debugComparators (vd : Nat) (cs : List Comparator)
  | debugStopWorld (vd : Nat) (on : Bool)
  | debugStop (vd crew : Nat)
  | debugStep (vd crew : Nat)
  | debugResume (vd crew : Nat)
  | debugRecordRead (vd crew : Nat)
  | debugRecordWrite (vd crew : Nat) (rec : List DWord)
  | unfreezeMgmt
  | adminUnlistedCode (code : BitVec 8)
  -- The management port, boot, keys and health (R346-R358)
  | layoutWrite (l : Layout)
  | layoutCommit
  | mgmtRestart (shadowOk : Bool)
  | boot
  | recoveryLoad (version : Nat) (sig : ImageSig)
  | coldReset
  | spdmSession (m : Master) (q : SpdmMsg)
  | getMeasurements (m : Master) (q : MeasReq)
  | install (m : Master) (key : Nat) (k : Keys)
  | grant (m : Master) (key vd : Nat)
  | unfreeze (m other : Master)
  | emergencyHalt
  | emergClear
  | registerWrite (m : Master) (r : RegReq) (v : Nat)
  | domainFormation (pkg : Nat) (members : List Nat) (rotaL rotaS : Nat) (tenants : List Tenancy)
  | hostLinkAccess (write : Bool) (pa : Nat) (bytes : List Byte)
  | sramPatrolScrub (site : ErrSite) (fatal : Bool)
  | powerLoss
  -- What comes from outside: packets of other packages, failing links and units
  | readPacket (p : Packet)
  | writePacket (p : Packet)
  | atomPacket (p : Packet)
  | casPacket (p : Packet)
  | redPacket (p : Packet)
  | flagPacket (p : Packet)
  | heartPacket (p : Packet)
  | closePacket (p : Packet)
  | linkReplay (fibre : Nat) (p : Packet)
  | kitelineLinkFail (member : Nat)
  | unitOutOfService (u : HwUnit)
  | detourTransit (fibre slot : Nat) (p : Packet)
  deriving DecidableEq, Repr, Inhabited

end Sys2Proof
end

