-- ==== Sys2Proof/Decode.lean ====
section
/-! DEFINITION. The decoder and the encoder of the Rosyn instruction words (R77-R95 and each chapter's encoding tables). The decoder is
total on the 64-bit words and rejects by the trap that R95 names; what depends on the crew (the register count, the banks, the role) is
checked at issue. -/
namespace Sys2Proof

/-- Why a word is no instruction (rows 1 and 2 of Table 5.13, as far as the word alone decides). -/
inductive Reject | illegalOpcode | illegalEncoding
  deriving DecidableEq, Repr, Inhabited

/-- The fields of Format A (Table 5.1). Formats B and C regroup the same bits: IMM is B, C and FN together, OFF32 is D, A, B and C. -/
structure FmtA where
  op : BitVec 7
  la : BitVec 4
  g  : BitVec 4
  gn : Bool
  d  : BitVec 8
  a  : BitVec 8
  b  : BitVec 8
  c  : BitVec 8
  fn : BitVec 15
  deriving DecidableEq, Repr, Inhabited

def FmtA.ofWord (w : DWord) : FmtA where
  op := w.extractLsb' 56 7
  la := w.extractLsb' 52 4
  g  := w.extractLsb' 48 4
  gn := w.getLsbD 47
  d  := w.extractLsb' 39 8
  a  := w.extractLsb' 31 8
  b  := w.extractLsb' 23 8
  c  := w.extractLsb' 15 8
  fn := w.extractLsb' 0 15

def FmtA.toWord (f : FmtA) : DWord :=
  0#1 ++ f.op ++ f.la ++ f.g ++ BitVec.ofBool f.gn ++ f.d ++ f.a ++ f.b ++ f.c ++ f.fn

/-- IMM of Format B (Table 5.2). -/
def FmtA.imm (f : FmtA) : BitVec 31 := f.b ++ f.c ++ f.fn

/-- OFF32 of Format C (Table 5.3). -/
def FmtA.off (f : FmtA) : BitVec 32 := f.d ++ f.a ++ f.b ++ f.c

def FmtA.hdr (f : FmtA) : Hdr := ⟨f.g, f.gn⟩

/-- `some i` when the fields are legal. -/
def legal (c : Bool) (i : Instr) : Option Instr := if c then some i else none

/-- Are all bits of FN outside the mask 0? -/
def fnOnly (fn mask : BitVec 15) : Bool := fn &&& ~~~mask == 0#15

/-- A field of FN. -/
def fnBits (fn : BitVec 15) (lo n : Nat) : Nat := fn.toNat / 2 ^ lo % 2 ^ n
def fnBit (fn : BitVec 15) (k : Nat) : Bool := fn.getLsbD k

/-- A value placed in FN. -/
def fnAt (v lo : Nat) : BitVec 15 := BitVec.ofNat 15 (v * 2 ^ lo)

def even8 (r : BitVec 8) : Bool := !r.getLsbD 0
def quad8 (r : BitVec 8) : Bool := r.toNat % 4 == 0
def predOk (p : BitVec 4) : Bool := decide (p.toNat ≤ 11)
def predSrcOk (p : BitVec 4) : Bool := decide (p.toNat ≤ 12)

/-- A predicate in an 8-bit field (R84). -/
def predField (x : BitVec 8) : Bool := decide (x.toNat ≤ 11)
def predSrcField (x : BitVec 8) : Bool := decide (x.toNat ≤ 12)

def Cond.code : Cond → Nat | .eq => 0 | .ne => 1 | .lt => 2 | .le => 3 | .gt => 4 | .ge => 5
def Cond.ofCode : Nat → Option Cond
  | 0 => some .eq | 1 => some .ne | 2 => some .lt | 3 => some .le | 4 => some .gt | 5 => some .ge | _ => none

def Rm.code : Rm → Nat | .rne => 0 | .rz => 1 | .rdn => 2 | .rup => 3
def Rm.ofCode : Nat → Rm | 0 => .rne | 1 => .rz | 2 => .rdn | _ => .rup
def Ov.code : Ov → Nat | .sat => 0 | .inf => 1 | .nan => 2 | .trap => 3
def Ov.ofCode : Nat → Ov | 0 => .sat | 1 => .inf | 2 => .nan | _ => .trap

def Fty.code : Fty → Nat | .f32 => 0 | .f16 => 1 | .bf16 => 2
def Fty.ofCode : Nat → Option Fty | 0 => some .f32 | 1 => some .f16 | 2 => some .bf16 | _ => none

def Cty.code : Cty → Nat | .flt t => t.code | .i8 => 4 | .n8 => 5 | .i32 => 6 | .n32 => 7
def Cty.ofCode : Nat → Option Cty
  | 0 => some (.flt .f32) | 1 => some (.flt .f16) | 2 => some (.flt .bf16)
  | 4 => some .i8 | 5 => some .n8 | 6 => some .i32 | 7 => some .n32 | _ => none

def FCond.code : FCond → Nat
  | .eq => 0 | .ne => 1 | .lt => 2 | .le => 3 | .gt => 4 | .ge => 5 | .num => 6 | .nan => 7
  | .equ => 8 | .ltu => 9 | .leu => 10 | .gtu => 11 | .geu => 12
def FCond.ofCode : Nat → Option FCond
  | 0 => some .eq | 1 => some .ne | 2 => some .lt | 3 => some .le | 4 => some .gt | 5 => some .ge | 6 => some .num | 7 => some .nan
  | 8 => some .equ | 9 => some .ltu | 10 => some .leu | 11 => some .gtu | 12 => some .geu | _ => none

def Scope.code : Scope → Nat | .crew => 0 | .wg => 1 | .core => 2 | .pkg => 3 | .reach => 4 | .dom => 5
def Scope.ofCode : Nat → Option Scope
  | 0 => some .crew | 1 => some .wg | 2 => some .core | 3 => some .pkg | 4 => some .reach | 5 => some .dom | _ => none

def Space.code : Space → Nat | .near => 0 | .spill => 1 | .basin => 2
def Space.ofCode : Nat → Option Space | 0 => some .near | 1 => some .spill | 2 => some .basin | _ => none

def Width.code : Width → Nat | .i8 => 0 | .n8 => 1 | .b16 => 2 | .b32 => 3 | .b64 => 4 | .b128 => 5
def Width.ofCode : Nat → Option Width
  | 0 => some .i8 | 1 => some .n8 | 2 => some .b16 | 3 => some .b32 | 4 => some .b64 | 5 => some .b128 | _ => none

/-- May the register field hold an operand of this width (Table 10.3)? -/
def Width.regOk : Width → BitVec 8 → Bool
  | .b64, r => even8 r
  | .b128, r => quad8 r
  | .i8, _ => true
  | .n8, _ => true
  | .b16, _ => true
  | .b32, _ => true

def Width2.code : Width2 → Nat | .b32 => 3 | .b64 => 4
def Width2.ofCode : Nat → Option Width2 | 3 => some .b32 | 4 => some .b64 | _ => none
def Width2.regOk : Width2 → BitVec 8 → Bool
  | .b32, _ => true
  | .b64, r => even8 r

def Aop.code : Aop → Nat | .add => 0 | .min => 1 | .max => 2 | .and => 3 | .or => 4 | .xor => 5 | .exch => 6
def Aop.ofCode : Nat → Option Aop
  | 0 => some .add | 1 => some .min | 2 => some .max | 3 => some .and | 4 => some .or | 5 => some .xor | 6 => some .exch | _ => none
def Aty.code : Aty → Nat | .i32 => 0 | .n32 => 1 | .f32 => 2
def Aty.ofCode : Nat → Option Aty | 0 => some .i32 | 1 => some .n32 | 2 => some .f32 | _ => none

/-- Which types an atomic operation accepts (Table 10.4). -/
def Aop.accepts : Aop → Aty → Bool
  | .add, _ => true
  | .min, _ => true
  | .max, _ => true
  | .and, t => t == .i32
  | .or, t => t == .i32
  | .xor, t => t == .i32
  | .exch, t => t == .i32

def VoteMode.code : VoteMode → Nat | .any => 0 | .all => 1 | .eq => 2
def VoteMode.ofCode : Nat → Option VoteMode | 0 => some .any | 1 => some .all | 2 => some .eq | _ => none
def PermMode.code : PermMode → Nat | .sel => 0 | .back => 1 | .fwd => 2 | .flip => 3 | .rot => 4
def PermMode.ofCode : Nat → Option PermMode
  | 0 => some .sel | 1 => some .back | 2 => some .fwd | 3 => some .flip | 4 => some .rot | _ => none
def CredOp.code : CredOp → Nat
  | .add => 0 | .min => 1 | .max => 2 | .and => 3 | .or => 4 | .xor => 5 | .fadd => 6 | .fmin => 7 | .fmax => 8
def CredOp.ofCode : Nat → Option CredOp
  | 0 => some .add | 1 => some .min | 2 => some .max | 3 => some .and | 4 => some .or | 5 => some .xor
  | 6 => some .fadd | 7 => some .fmin | 8 => some .fmax | _ => none

def HalfOp.code : HalfOp → Nat
  | .iadd => 0 | .isub => 1 | .imin => 2 | .imax => 3 | .and => 4 | .or => 5 | .xor => 6 | .mov => 7
  | .fadd => 8 | .fmul => 9 | .fmin => 10 | .fmax => 11 | .pkadd => 12 | .pkmul => 13
  | .shl => 14 | .shr => 15 | .sar => 16 | .movi6 => 17 | .fneg => 18 | .fabs => 19
def HalfOp.ofCode : Nat → Option HalfOp
  | 0 => some .iadd | 1 => some .isub | 2 => some .imin | 3 => some .imax | 4 => some .and | 5 => some .or | 6 => some .xor
  | 7 => some .mov | 8 => some .fadd | 9 => some .fmul | 10 => some .fmin | 11 => some .fmax | 12 => some .pkadd | 13 => some .pkmul
  | 14 => some .shl | 15 => some .shr | 16 => some .sar | 17 => some .movi6 | 18 => some .fneg | 19 => some .fabs | _ => none

/-- Special registers: assigned numbers, and those of 64 bits (Table 7.6). -/
def sregAssigned (n : BitVec 8) : Bool := decide (n.toNat ≤ 0x1A)
def sregWide (n : BitVec 8) : Bool := (decide (6 ≤ n.toNat) && decide (n.toNat ≤ 8)) || n == 0x11#8 || n == 0x1A#8

/-- The fields X and S that Table 5.8 lets a half use. -/
def Half.ok (h : Half) : Bool :=
  match h.op with
  | .shl => decide (h.x.toNat < 32)
  | .shr => decide (h.x.toNat < 32)
  | .sar => decide (h.x.toNat < 32)
  | .movi6 => h.s == 0#8
  | .iadd => h.x == 0#6 | .isub => h.x == 0#6 | .imin => h.x == 0#6 | .imax => h.x == 0#6
  | .and => h.x == 0#6 | .or => h.x == 0#6 | .xor => h.x == 0#6 | .mov => h.x == 0#6
  | .fadd => h.x == 0#6 | .fmul => h.x == 0#6 | .fmin => h.x == 0#6 | .fmax => h.x == 0#6
  | .pkadd => h.x == 0#6 | .pkmul => h.x == 0#6 | .fneg => h.x == 0#6 | .fabs => h.x == 0#6

/-- May the word carry a lookahead here (R87)? -/
def laBasin (la : BitVec 4) (sp : Space) : Bool := la == 0#4 || sp == .basin

def hdrOk (h : Hdr) : Bool := decide (h.g.toNat ≤ 12)

/-- iadd and isub take U only with SAT (Table 7.2). -/
def satU (sat u : Bool) : Bool := sat || !u

/-- The operand values that the instructions' own descriptions allow, as far as the word alone decides (R82-R84). -/
def operandsOk (i : Instr) : Bool :=
  match i with
  | .iadd _ _ _ _ sat u => satU sat u
  | .isub _ _ _ _ sat u => satU sat u
  | .iaddc _ _ _ _ ci co => predSrcOk ci && predOk co
  | .isubb _ _ _ _ ci co => predSrcOk ci && predOk co
  | .sel _ _ _ _ p => predSrcOk p
  | .icmp _ _ _ pd _ _ pc => predOk pd && predSrcOk pc
  | .wcmp _ _ _ pd a b pc => predOk pd && predSrcOk pc && even8 a && even8 b
  | .wadd _ d a b => even8 d && even8 a && even8 b
  | .wshl _ d a _ => even8 d && even8 a
  | .waddi _ d a _ => even8 d && even8 a
  | .wmad _ d _ _ c _ => even8 d && even8 c
  | .pand _ pd pa pb _ _ => predOk pd && predSrcOk pa && predSrcOk pb
  | .por _ pd pa pb _ _ => predOk pd && predSrcOk pa && predSrcOk pb
  | .pxor _ pd pa pb _ _ => predOk pd && predSrcOk pa && predSrcOk pb
  | .pnot _ pd pa _ => predOk pd && predSrcOk pa
  | .vote _ _ pd pa => predOk pd && predSrcOk pa
  | .ballot _ _ pa => predSrcOk pa
  | .lperm _ _ pv _ _ _ => predOk pv || pv == 15#4
  | .cred _ op _ u _ _ => !(u && (op == .fadd || op == .fmin || op == .fmax))
  | .matchLanes _ w _ a => !w || even8 a
  | .sget _ d n => sregAssigned n && (!sregWide n || even8 d)
  | .fcmp _ _ _ _ pd _ _ pc => predOk pd && predSrcOk pc
  | .ld _ la sp wd d _ _ => laBasin la sp && wd.regOk d
  | .st _ _ wd _ b _ => wd.regOk b
  | .atom _ la op sp ty _ _ _ _ => laBasin la sp && op.accepts ty
  | .cas _ la sp wd d _ b c _ => laBasin la sp && wd.regOk d && wd.regOk b && wd.regOk c
  | .tstat _ map d _ => !map || even8 d
  | .cwait _ _ a => even8 a
  | .xrd _ _ d _ _ => quad8 d
  | .ldf _ _ wd d a _ => even8 a && wd.regOk d
  | .stf _ wd a b _ _ => even8 a && wd.regOk b
  | .atomf _ _ op ty _ a _ _ => even8 a && op.accepts ty
  | .casf _ _ wd d a b c _ => even8 a && wd.regOk d && wd.regOk b && wd.regOk c
  | .redf _ op ty _ a _ _ => even8 a && op.accepts ty && op != .exch
  | .fflag _ wd a b _ => even8 a && wd.regOk b
  | .msend _ _ _ _ b _ => even8 b
  | .mpost _ _ _ _ a b _ => even8 a && even8 b
  | .mprobe _ _ d _ b => even8 d && even8 b
  | .mtest _ _ d _ => even8 d
  | .mwait _ d _ => even8 d
  | .kst _ _ wd _ b _ => wd.regOk b
  | .kld _ _ wd d _ _ => wd.regOk d
  | _ => true

/-- Control flow and traps (Tables 6.3 and 21.2). -/
def fieldsControl (f : FmtA) : Option Instr :=
  let h := f.hdr
  let z := f.la == 0#4
  let bc := f.b == 0#8 && f.c == 0#8
  let none4 := z && f.d == 0#8 && f.a == 0#8 && bc && f.fn == 0#15
  match f.op.toNat with
  | 0x00 => legal (z && f.fn == 0#15) (.bra h f.off)
  | 0x01 => legal (z && f.d == 0#8 && bc && f.fn == 0#15) (.brx h f.a)
  | 0x02 => legal (z && fnOnly f.fn 0xFF#15) (.call h (f.fn.setWidth 8) f.off)
  | 0x03 => legal (z && bc && f.fn == 0#15) (.callx h f.d f.a)
  | 0x04 => legal (z && f.d == 0#8 && bc && f.fn == 0#15) (.ret h f.a)
  | 0x05 => legal (z && decide (f.d.toNat < 4) && f.a == 0#8 && bc && f.fn == 0#15) (.jmark h (f.d.setWidth 2))
  | 0x06 => legal (z && decide (f.d.toNat < 4) && f.a == 0#8 && bc && f.fn == 0#15) (.join h (f.d.setWidth 2))
  | 0x07 => legal none4 (.exit h)
  | 0x08 => legal none4 (.yield h)
  | 0x09 => legal none4 (.nop h)
  | 0x0A => legal (z && f.a == 0#8 && bc && f.fn == 0#15) (.itake h f.d)
  | 0x0B => legal none4 (.drain h)
  | 0x0C => legal (z && f.d == 0#8 && f.a == 0#8) (.trap h f.imm)
  | 0x0D => legal (z && f.d == 0#8 && f.a == 0#8 && bc && fnOnly f.fn 0x80#15) (.tret h (fnBit f.fn 7))
  | 0x0E => legal (z && f.d == 0#8 && f.a == 0#8 && bc && fnOnly f.fn 0xFF#15) (.brk h (f.fn.setWidth 8))
  | _ => none

/-- A shift count (Table 7.1). -/
def shift5Of (f : FmtA) : Option Shift5 :=
  if fnBit f.fn 8 then (if f.b == 0#8 && fnBits f.fn 14 1 == 0 then some (.imm (BitVec.ofNat 5 (fnBits f.fn 9 5))) else none)
  else if fnBits f.fn 9 6 == 0 then some (.reg f.b) else none

def shift6Of (f : FmtA) : Option Shift6 :=
  if fnBit f.fn 8 then (if f.b == 0#8 then some (.imm (BitVec.ofNat 6 (fnBits f.fn 9 6))) else none)
  else if fnBits f.fn 9 6 == 0 then some (.reg f.b) else none

/-- Integer arithmetic, logic, shifts and moves (Tables 7.2 to 7.4). -/
def fieldsInt (f : FmtA) : Option Instr :=
  let h := f.hdr
  let z := f.la == 0#4
  let c0 := f.c == 0#8
  let sub := fnBits f.fn 3 4
  let u := fnBit f.fn 0
  let sat := fnBit f.fn 7
  match f.op.toNat with
  | 0x10 => legal (z && c0 && fnOnly f.fn 0x81#15) (.iadd h f.d f.a f.b sat u)
  | 0x11 => legal (z && decide (f.c.toNat < 16) && fnOnly f.fn 0xF00#15) (.iaddc h f.d f.a f.b (f.c.setWidth 4) (BitVec.ofNat 4 (fnBits f.fn 8 4)))
  | 0x12 => legal (z && c0 && fnOnly f.fn 0x81#15) (.isub h f.d f.a f.b sat u)
  | 0x13 => legal (z && decide (f.c.toNat < 16) && fnOnly f.fn 0xF00#15) (.isubb h f.d f.a f.b (f.c.setWidth 4) (BitVec.ofNat 4 (fnBits f.fn 8 4)))
  | 0x14 => legal (z && c0 && f.fn == 0#15) (.imul h f.d f.a f.b)
  | 0x15 => legal (z && c0 && fnOnly f.fn 1#15) (.imulh h f.d f.a f.b u)
  | 0x16 => legal (z && fnOnly f.fn 0x81#15) (.imad h f.d f.a f.b f.c sat u)
  | 0x17 => legal (c0 && fnOnly f.fn 1#15) (.idiv h f.la f.d f.a f.b u)
  | 0x18 => legal (c0 && fnOnly f.fn 1#15) (.irem h f.la f.d f.a f.b u)
  | 0x19 =>
    match sub with
    | 0 => legal (z && c0 && fnOnly f.fn 1#15) (.imin h f.d f.a f.b u)
    | 1 => legal (z && c0 && fnOnly f.fn 9#15) (.imax h f.d f.a f.b u)
    | 2 => legal (z && fnOnly f.fn 0x11#15) (.iclamp h f.d f.a f.b f.c u)
    | _ => none
  | 0x1A =>
    match sub with
    | 0 => legal (z && c0 && f.b == 0#8 && fnOnly f.fn 0x80#15) (.ineg h f.d f.a sat)
    | 1 => legal (z && c0 && f.b == 0#8 && fnOnly f.fn 0x88#15) (.iabs h f.d f.a sat)
    | _ => none
  | 0x1B =>
    match sub with
    | 0 => legal (z && c0 && f.fn == 0#15) (.iand h f.d f.a f.b)
    | 1 => legal (z && c0 && f.fn == 8#15) (.ior h f.d f.a f.b)
    | 2 => legal (z && c0 && f.fn == 0x10#15) (.ixor h f.d f.a f.b)
    | 3 => legal (z && c0 && f.fn == 0x18#15) (.iandn h f.d f.a f.b)
    | 4 => legal (z && c0 && f.b == 0#8 && f.fn == 0x20#15) (.inot h f.d f.a)
    | _ => none
  | 0x1C =>
    if z && c0 && fnOnly f.fn 0x7F78#15 then
      match sub, shift5Of f with
      | 0, some k => some (.shl h f.d f.a k)
      | 1, some k => some (.shr h f.d f.a k)
      | 2, some k => some (.sar h f.d f.a k)
      | 3, some k => some (.rotl h f.d f.a k)
      | 4, some k => some (.rotr h f.d f.a k)
      | _, _ => none
    else none
  | 0x1D =>
    match sub with
    | 0 => legal (z && c0 && f.b == 0#8 && f.fn == 0#15) (.popc h f.d f.a)
    | 1 => legal (z && c0 && f.b == 0#8 && f.fn == 8#15) (.clz h f.d f.a)
    | 2 => legal (z && c0 && f.b == 0#8 && f.fn == 0x10#15) (.ctz h f.d f.a)
    | 3 => legal (z && c0 && f.b == 0#8 && f.fn == 0x18#15) (.brev h f.d f.a)
    | _ => none
  | 0x1E => legal (z && c0 && fnOnly f.fn 1#15) (.bfx h f.d f.a f.b u)
  | 0x1F => legal (z && f.fn == 0#15) (.bfi h f.d f.a f.b f.c)
  | 0x20 => legal (z && decide (f.c.toNat < 16) && f.fn == 0#15) (.sel h f.d f.a f.b (f.c.setWidth 4))
  | 0x21 => legal (z && c0 && f.b == 0#8 && f.fn == 0#15) (.mov h f.d f.a)
  | 0x22 => legal (z && f.a == 0#8) (.movi h f.d f.imm)
  | 0x23 => legal (z && decide (f.imm.toNat < 65536)) (.movh h f.d f.a (f.imm.setWidth 16))
  | _ => none

/-- Comparisons, 64-bit arithmetic, predicates, lanes and special registers (Tables 7.1 and 7.5, R139-R147). -/
def fieldsLane (f : FmtA) : Option Instr :=
  let h := f.hdr
  let z := f.la == 0#4
  let b0 := f.b == 0#8
  let c0 := f.c == 0#8
  let sub := fnBits f.fn 3 4
  let u := fnBit f.fn 0
  let c4 := decide (f.c.toNat < 16)
  let d4 := decide (f.d.toNat < 16)
  let a4 := decide (f.a.toNat < 16)
  let b4 := decide (f.b.toNat < 16)
  match f.op.toNat with
  | 0x24 =>
    match Cond.ofCode (fnBits f.fn 8 3) with
    | some cc => legal (z && d4 && c4 && fnOnly f.fn 0x701#15) (.icmp h cc u (f.d.setWidth 4) f.a f.b (f.c.setWidth 4))
    | none => none
  | 0x25 =>
    match sub with
    | 0 => legal (z && c0 && f.fn == 0#15) (.wadd h f.d f.a f.b)
    | 1 => if z && c0 && fnOnly f.fn 0x7F08#15 then (shift6Of f).map (.wshl h f.d f.a) else none
    | 2 =>
      match Cond.ofCode (fnBits f.fn 8 3) with
      | some cc => legal (z && d4 && c4 && fnOnly f.fn 0x711#15) (.wcmp h cc u (f.d.setWidth 4) f.a f.b (f.c.setWidth 4))
      | none => none
    | _ => none
  | 0x26 => legal z (.waddi h f.d f.a f.imm)
  | 0x27 => legal (z && fnOnly f.fn 1#15) (.wmad h f.d f.a f.b f.c u)
  | 0x28 =>
    let na := fnBit f.fn 7
    let nb := fnBit f.fn 8
    let ok := z && c0 && d4 && a4 && b4
    let (pd, pa, pb) := (f.d.setWidth 4, f.a.setWidth 4, f.b.setWidth 4)
    match sub with
    | 0 => legal (ok && fnOnly f.fn 0x180#15) (.pand h pd pa pb na nb)
    | 1 => legal (ok && fnOnly f.fn 0x188#15) (.por h pd pa pb na nb)
    | 2 => legal (ok && fnOnly f.fn 0x190#15) (.pxor h pd pa pb na nb)
    | 3 => legal (ok && b0 && fnOnly f.fn 0x98#15) (.pnot h pd pa na)
    | _ => none
  | 0x29 =>
    match sub with
    | 0 => legal (z && f.d == 0#8 && c0 && f.fn == 0#15) (.pset h f.a f.b)
    | 1 => legal (z && f.a == 0#8 && b0 && c0 && f.fn == 8#15) (.pget h f.d)
    | _ => none
  | 0x2A =>
    match sub with
    | 0 =>
      match VoteMode.ofCode (fnBits f.fn 7 2) with
      | some m => legal (z && b0 && c0 && d4 && a4 && fnOnly f.fn 0x180#15) (.vote h m (f.d.setWidth 4) (f.a.setWidth 4))
      | none => none
    | 1 => legal (z && b0 && c0 && a4 && f.fn == 8#15) (.ballot h f.d (f.a.setWidth 4))
    | _ => none
  | 0x2B =>
    match PermMode.ofCode (fnBits f.fn 7 3) with
    | some m => legal (z && c0 && fnOnly f.fn 0x3F80#15) (.lperm h m (BitVec.ofNat 4 (fnBits f.fn 10 4)) f.d f.a f.b)
    | none => none
  | 0x2C =>
    match fnBit f.fn 8, fnBit f.fn 9 with
    | false, false => legal (z && c0 && f.fn == 0#15) (.bcast h f.d f.a (.reg f.b))
    | true, false => legal (z && b0 && c0 && fnOnly f.fn 0x107#15) (.bcast h f.d f.a (.imm (f.fn.setWidth 3)))
    | false, true => legal (z && b0 && c0 && f.fn == 0x200#15) (.bcast h f.d f.a .first)
    | true, true => none
  | 0x2D =>
    match CredOp.ofCode (fnBits f.fn 7 4) with
    | some op => legal (z && b0 && c0 && fnOnly f.fn 0xF81#15) (.cred h op (fnBit f.fn 11) u f.d f.a)
    | none => none
  | 0x2E => legal (z && b0 && c0 && fnOnly f.fn 2#15) (.matchLanes h (fnBit f.fn 1) f.d f.a)
  | 0x2F =>
    match sub with
    | 0 => legal (z && b0 && c0 && f.fn == 0#15) (.sget h f.d f.a)
    | 1 => legal (z && f.d == 0x10#8 && b0 && c0 && f.fn == 8#15) (.sset h f.a)
    | _ => none
  | _ => none

/-- The modifier fields of Table 5.4. -/
def FmtA.fmod (f : FmtA) : FMod := ⟨Rm.ofCode (fnBits f.fn 13 2), Ov.ofCode (fnBits f.fn 11 2), fnBit f.fn 7⟩

/-- Floating point and conversion (Table 9.1). -/
def fieldsFloat (f : FmtA) : Option Instr :=
  let h := f.hdr
  let z := f.la == 0#4
  let b0 := f.b == 0#8
  let c0 := f.c == 0#8
  let sub := fnBits f.fn 3 4
  let ftz := fnBit f.fn 7
  let m := f.fmod
  let ov := m.ov
  let fs := BitVec.ofNat 3 (fnBits f.fn 8 3)
  let fs0 := fnBits f.fn 8 3 == 0
  let rm0 := fnBits f.fn 13 2 == 0
  let ov0 := fnBits f.fn 11 2 == 0
  let ty := fnBits f.fn 0 3
  let bf := ty == 2
  let pkTy := ty == 1 || ty == 2
  match f.op.toNat, Fty.ofCode ty with
  | 0x30, some t => legal (z && c0 && fs0 && sub == 0) (.fadd h t m f.d f.a f.b)
  | 0x31, some t => legal (z && c0 && fs0 && sub == 0) (.fsub h t m f.d f.a f.b)
  | 0x32, some t => legal (z && c0 && fs0 && sub == 0) (.fmul h t m f.d f.a f.b)
  | 0x33, some t => legal (z && fs0 && sub == 0) (.ffma h t m f.d f.a f.b f.c)
  | 0x34, some t =>
    match sub with
    | 0 => legal (z && c0 && fs0 && rm0 && ov0) (.fmin h t ftz f.d f.a f.b)
    | 1 => legal (z && c0 && fs0 && rm0 && ov0) (.fmax h t ftz f.d f.a f.b)
    | _ => none
  | 0x35, some .f32 =>
    let ok := b0 && c0 && fs0 && rm0
    match sub with
    | 0 => legal ok (.frcp h f.la ov ftz f.d f.a)
    | 1 => legal ok (.frsq h f.la ov ftz f.d f.a)
    | 2 => legal ok (.fsqrt h f.la ov ftz f.d f.a)
    | 3 => legal ok (.fex2 h f.la ov ftz f.d f.a)
    | 4 => legal ok (.flg2 h f.la ov ftz f.d f.a)
    | 5 => legal ok (.fsin h f.la ov ftz f.d f.a)
    | 6 => legal ok (.fcos h f.la ov ftz f.d f.a)
    | 7 => legal ok (.ftanh h f.la ov ftz f.d f.a)
    | _ => none
  | 0x36, some t =>
    match FCond.ofCode sub with
    | some cc => legal (z && fs0 && rm0 && ov0 && decide (f.d.toNat < 16) && decide (f.c.toNat < 16)) (.fcmp h cc t ftz (f.d.setWidth 4) f.a f.b (f.c.setWidth 4))
    | none => none
  | 0x37, some t => legal (z && b0 && c0 && fs0 && rm0 && ov0 && sub == 0) (.fclass h t ftz f.d f.a)
  | 0x38, some t => legal (z && b0 && c0 && fs0 && ov0 && sub == 0) (.frnd h t m.rm ftz f.d f.a)
  | 0x39, some _ =>
    match sub with
    | 0 => legal (z && c0 && fs0 && pkTy) (.pkadd h bf m f.d f.a f.b)
    | 1 => legal (z && c0 && fs0 && pkTy) (.pkmul h bf m f.d f.a f.b)
    | 2 => legal (z && fs0 && pkTy) (.pkfma h bf m f.d f.a f.b f.c)
    | _ => none
  | 0x3A, _ =>
    match Cty.ofCode ty, Cty.ofCode sub with
    | some dst, some src => legal (z && b0 && c0 && fs0) (.cvt h dst src m f.d f.a)
    | _, _ => none
  | 0x3B, _ =>
    match sub with
    | 0 => legal (z && c0 && ty == 3 && fs0 && rm0) (.nq h ov ftz f.d f.a f.b)
    | 1 => legal (z && b0 && c0 && ty == 3 && rm0 && ov0 && !ftz) (.nqFs h fs f.d f.a)
    | _ => none
  | 0x3C, some t =>
    match sub with
    | 0 => legal (z && c0 && fs0) (.nx h t m f.d f.a f.b)
    | 1 => legal (z && b0 && c0 && rm0 && ov0 && !ftz) (.nxFs h t fs f.d f.a)
    | _ => none
  | 0x3D, some .f32 =>
    match sub with
    | 0 => legal (z && b0 && c0 && fs0 && rm0 && ov0) (.bscale h ftz f.d f.a)
    | 1 => legal (z && c0 && fs0 && rm0 && ov0) (.bscaleFold h ftz f.d f.a f.b)
    | _ => none
  | _, _ => none

/-- A tile handle in C, PH and HR (R202). -/
def tileOf (f : FmtA) : Option TileH :=
  if fnBit f.fn 13 then (if fnBit f.fn 14 then none else some (.reg f.c)) else some (.imm f.c (fnBit f.fn 14))

/-- A muster operand in C and HR (R298). -/
def musterOf (f : FmtA) : Option MusterH :=
  if fnBit f.fn 13 then some (.reg f.c) else if f.c.toNat < 32 then some (.imm (f.c.setWidth 5)) else none

/-- Near memory, the Basin, tiles, barriers and fences (Tables 10.2 and 10.6, R297, R298). -/
def fieldsMem (f : FmtA) : Option Instr :=
  let h := f.hdr
  let z := f.la == 0#4
  let a0 := f.a == 0#8
  let b0 := f.b == 0#8
  let c0 := f.c == 0#8
  let d0 := f.d == 0#8
  let sub := fnBits f.fn 3 4
  let ofs : BitVec 10 := f.fn.setWidth 10
  match f.op.toNat with
  | 0x40 =>
    match Space.ofCode (fnBits f.fn 13 2), Width.ofCode (fnBits f.fn 10 3) with
    | some sp, some wd => legal (b0 && c0) (.ld h f.la sp wd f.d f.a ofs)
    | _, _ => none
  | 0x41 =>
    match Space.ofCode (fnBits f.fn 13 2), Width.ofCode (fnBits f.fn 10 3) with
    | some sp, some wd => legal (z && d0 && c0) (.st h sp wd f.a f.b ofs)
    | _, _ => none
  | 0x42 =>
    match Space.ofCode (fnBits f.fn 13 2), Aop.ofCode (fnBits f.fn 10 3), Aty.ofCode (fnBits f.fn 8 2) with
    | some sp, some op, some ty => legal c0 (.atom h f.la op sp ty f.d f.a f.b (f.fn.setWidth 8))
    | _, _, _ => none
  | 0x43 =>
    match Space.ofCode (fnBits f.fn 13 2), Width2.ofCode (fnBits f.fn 10 3) with
    | some sp, some wd => some (.cas h f.la sp wd f.d f.a f.b f.c ofs)
    | _, _ => none
  | 0x44 =>
    match sub, tileOf f with
    | 0, some t => legal (z && d0 && fnOnly f.fn 0x6080#15) (.tset h (fnBit f.fn 7) t f.a f.b)
    | 1, some t => legal (z && d0 && a0 && b0 && fnOnly f.fn 0x6008#15) (.tdrain h t)
    | 2, some t => legal (z && d0 && a0 && b0 && fnOnly f.fn 0x6010#15) (.tfree h t)
    | 3, some t => legal (z && a0 && b0 && fnOnly f.fn 0x6098#15) (.tstat h (fnBit f.fn 7) f.d t)
    | _, _ => none
  | 0x45 => match tileOf f with | some t => legal (z && d0 && a0 && b0 && fnOnly f.fn 0x6000#15) (.twait h t) | none => none
  | 0x46 => match tileOf f with | some t => legal (z && d0 && b0 && fnOnly f.fn 0x6000#15) (.cwait h t f.a) | none => none
  | 0x47 =>
    match sub, musterOf f with
    | 0, some m => legal (z && d0 && a0 && b0 && fnOnly f.fn 0x2000#15) (.bar h m)
    | 1, some m => legal (z && a0 && b0 && fnOnly f.fn 0x2008#15) (.barv h f.d m)
    | 2, some m => legal (z && d0 && b0 && fnOnly f.fn 0x2010#15) (.barw h m f.a)
    | _, _ => none
  | 0x48 =>
    match Scope.ofCode (fnBits f.fn 12 3) with
    | some sc => legal (z && d0 && a0 && b0 && c0 && fnOnly f.fn 0x7000#15) (.fence h sc)
    | none => none
  | _ => none

/-- One operand slot in A (R234). -/
def slotOf (f : FmtA) : Option SlotH :=
  if fnBit f.fn 12 then some (.reg f.a) else if f.a.toNat < 64 then some (.imm (f.a.setWidth 6)) else none

/-- The Barge and the matrix unit (Tables 12.1, 13.2 and 13.3). -/
def fieldsUnit (f : FmtA) : Option Instr :=
  let h := f.hdr
  let z := f.la == 0#4
  let a0 := f.a == 0#8
  let b0 := f.b == 0#8
  let c0 := f.c == 0#8
  let d0 := f.d == 0#8
  let man := BitVec.ofNat 4 (fnBits f.fn 8 4)
  let fs := BitVec.ofNat 3 (fnBits f.fn 8 3)
  let flag := fnBit f.fn 7
  let fn0 := f.fn == 0#15
  match f.op.toNat with
  | 0x50 => match tileOf f with | some t => legal (z && d0 && b0 && fnOnly f.fn 0x6F00#15) (.cpy h t man f.a) | none => none
  | 0x51 => match tileOf f with | some t => legal (z && d0 && b0 && fnOnly f.fn 0x6F00#15) (.cpo h t man f.a) | none => none
  | 0x52 =>
    match tileOf f, flag with
    | some t, false => legal (z && d0 && fnOnly f.fn 0x6F00#15) (.cpbIn h t man f.a f.b)
    | some t, true => legal (z && d0 && fnOnly f.fn 0x6F80#15) (.cpbOut h t man f.a f.b)
    | none, _ => none
  | 0x53 =>
    match flag with
    | false => legal (z && d0 && b0 && c0 && fnOnly f.fn 0xF00#15) (.cpreWarm h man f.a)
    | true => legal (z && d0 && b0 && c0 && fnOnly f.fn 0xF80#15) (.cpreMig h man f.a)
  | 0x58 => match slotOf f with | some o => legal (z && d0 && b0 && c0 && fnOnly f.fn 0x1000#15) (.xclaim h o) | none => none
  | 0x59 => match slotOf f with | some o => legal (z && d0 && b0 && c0 && fnOnly f.fn 0x1000#15) (.xrel h o) | none => none
  | 0x5A =>
    match slotOf f, tileOf f with
    | some o, some t => legal (z && d0 && fnOnly f.fn 0x7700#15) (.xfill h o t f.b fs)
    | _, _ => none
  | 0x5B =>
    let ok := z && decide (f.d.toNat < 8) && c0 && fnOnly f.fn 0x1F00#15
    match fnBit f.fn 12 with
    | true => legal ok (.xmac h (fnBit f.fn 11) (f.d.setWidth 3) (.reg f.a f.b) fs)
    | false => legal (ok && decide (f.a.toNat < 64) && decide (f.b.toNat < 64)) (.xmac h (fnBit f.fn 11) (f.d.setWidth 3) (.imm (f.a.setWidth 6) (f.b.setWidth 6)) fs)
  | 0x5C => legal (z && d0 && a0 && b0 && c0 && fn0) (.xwait h)
  | 0x5D => legal (z && d0 && a0 && b0 && c0 && fn0) (.xfence h)
  | 0x5E => legal (z && decide (f.d.toNat < 8) && a0 && b0 && c0 && fn0) (.xclr h (f.d.setWidth 3))
  | 0x5F => legal (b0 && decide (f.c.toNat < 8) && fn0) (.xrd h f.la f.d (f.c.setWidth 3) f.a)
  | 0x60 =>
    let ok := z && d0 && b0 && decide (f.c.toNat < 8)
    match flag with
    | true => legal (ok && fnOnly f.fn 0x787#15) (.xst h f.a (f.c.setWidth 3) fs (some (f.fn.setWidth 3)))
    | false => legal (ok && fnOnly f.fn 0x700#15) (.xst h f.a (f.c.setWidth 3) fs none)
  | 0x61 =>
    match fnBits f.fn 3 4 with
    | 0 => legal (z && d0 && b0 && decide (f.c.toNat < 8) && fn0) (.xhcfg h (f.c.setWidth 3) f.a)
    | 1 => legal (z && b0 && decide (f.c.toNat < 8) && f.fn == 8#15) (.xhrd h f.d (f.c.setWidth 3) f.a)
    | _ => none
  | _ => none

/-- Source of msend and destination of mpost (R275). -/
def wendOf (f : FmtA) : Option WEnd :=
  if fnBit f.fn 12 then
    (if fnBit f.fn 13 || fnBit f.fn 14 then none else some (.box (BitVec.ofNat 4 (fnBits f.fn 8 4)) f.c))
  else if fnBits f.fn 8 4 == 0 then (tileOf f).map .tile else none

/-- Far memory, the Wharf and the Kiteline (Tables 15.4, 16.3 and 16.4). -/
def fieldsFar (f : FmtA) : Option Instr :=
  let h := f.hdr
  let z := f.la == 0#4
  let a0 := f.a == 0#8
  let b0 := f.b == 0#8
  let c0 := f.c == 0#8
  let d0 := f.d == 0#8
  let ofs : BitVec 10 := f.fn.setWidth 10
  let x12 := fnBits f.fn 12 3
  let fn0 := f.fn == 0#15
  match f.op.toNat with
  | 0x64 => match Width.ofCode x12 with | some wd => legal (b0 && c0 && fnOnly f.fn 0x73FF#15) (.ldf h f.la wd f.d f.a ofs) | none => none
  | 0x65 =>
    match Width.ofCode x12, fnBit f.fn 11 with
    | some wd, true => legal (z && d0 && fnOnly f.fn 0x7BFF#15) (.stf h wd f.a f.b (some f.c) ofs)
    | some wd, false => legal (z && d0 && c0 && fnOnly f.fn 0x73FF#15) (.stf h wd f.a f.b none ofs)
    | none, _ => none
  | 0x66 =>
    match Aop.ofCode x12, Aty.ofCode (fnBits f.fn 10 2) with
    | some op, some ty => legal c0 (.atomf h f.la op ty f.d f.a f.b ofs)
    | _, _ => none
  | 0x67 => match Width2.ofCode x12 with | some wd => legal (fnOnly f.fn 0x73FF#15) (.casf h f.la wd f.d f.a f.b f.c ofs) | none => none
  | 0x68 =>
    match Aop.ofCode x12, Aty.ofCode (fnBits f.fn 10 2) with
    | some op, some ty => legal (z && d0 && c0) (.redf h op ty (fnBit f.fn 9) f.a f.b (f.fn.setWidth 9))
    | _, _ => none
  | 0x69 => match Scope.ofCode x12 with | some sc => legal (z && d0 && a0 && b0 && c0 && fnOnly f.fn 0x7000#15) (.fencef h sc) | none => none
  | 0x6A => match Width2.ofCode x12 with | some wd => legal (z && d0 && c0 && fnOnly f.fn 0x73FF#15) (.fflag h wd f.a f.b ofs) | none => none
  | 0x6C => match wendOf f with | some e => legal (z && fnOnly f.fn 0x7F80#15) (.msend h (fnBit f.fn 7) f.d f.a f.b e) | none => none
  | 0x6D => match wendOf f with | some e => legal (z && fnOnly f.fn 0x7F84#15) (.mpost h (fnBit f.fn 2) (fnBit f.fn 7) f.d f.a f.b e) | none => none
  | 0x6E => legal (z && d0 && b0 && c0 && fn0) (.mcancel h f.a)
  | 0x6F => legal (c0 && fn0) (.mprobe h f.la f.d f.a f.b)
  | 0x70 => legal (b0 && c0 && fn0) (.mtest h f.la f.d f.a)
  | 0x71 => legal (z && b0 && c0 && fn0) (.mwait h f.d f.a)
  | 0x72 => match Width2.ofCode x12 with | some wd => legal (z && d0 && c0 && fnOnly f.fn 0x7BFF#15) (.kst h (fnBit f.fn 11) wd f.a f.b ofs) | none => none
  | 0x73 => legal (c0 && fnOnly f.fn 0xBFF#15) (.kfaa h f.la (fnBit f.fn 11) f.d f.a f.b ofs)
  | 0x74 => match Width2.ofCode x12 with | some wd => legal (z && b0 && c0 && fnOnly f.fn 0x7BFF#15) (.kld h (fnBit f.fn 11) wd f.d f.a ofs) | none => none
  | 0x75 => match Cond.ofCode x12 with | some cc => legal (z && d0) (.kwait h cc (fnBit f.fn 10) (fnBit f.fn 11) f.a f.b f.c ofs) | none => none
  | _ => none

/-- Is the major opcode in use (Table 5.9)? -/
def opDefined (op : BitVec 7) : Bool :=
  let n := op.toNat
  decide (n ≤ 0x0E) || (decide (0x10 ≤ n) && decide (n ≤ 0x3D)) || (decide (0x40 ≤ n) && decide (n ≤ 0x48))
    || (decide (0x50 ≤ n) && decide (n ≤ 0x53)) || (decide (0x58 ≤ n) && decide (n ≤ 0x61))
    || (decide (0x64 ≤ n) && decide (n ≤ 0x6A)) || (decide (0x6C ≤ n) && decide (n ≤ 0x75))

/-- The fields of a full word as an instruction, reserved fields being 0. -/
def fieldsFull (f : FmtA) : Option Instr :=
  let n := f.op.toNat
  if n < 0x10 then fieldsControl f
  else if n < 0x24 then fieldsInt f
  else if n < 0x30 then fieldsLane f
  else if n < 0x40 then fieldsFloat f
  else if n < 0x50 then fieldsMem f
  else if n < 0x64 then fieldsUnit f
  else fieldsFar f

/-- One half of a pair word (Table 5.7), if its operation is defined. -/
def halfOf (x : BitVec 31) : Option Half :=
  (HalfOp.ofCode (x.extractLsb' 25 6).toNat).map fun op =>
    ⟨op, x.extractLsb' 17 8, x.extractLsb' 9 8, x.extractLsb' 6 3, x.extractLsb' 0 6⟩

def Half.toBits (h : Half) : BitVec 31 := BitVec.ofNat 6 h.op.code ++ h.d ++ h.s ++ h.g ++ h.x

/-- A pair word as an instruction: the first half's operation is the constructor. -/
def pairInstr (a b : Half) : Instr :=
  match a.op with
  | .iadd => .pairIadd a.g a.d a.s b
  | .isub => .pairIsub a.g a.d a.s b
  | .imin => .pairImin a.g a.d a.s b
  | .imax => .pairImax a.g a.d a.s b
  | .and => .pairAnd a.g a.d a.s b
  | .or => .pairOr a.g a.d a.s b
  | .xor => .pairXor a.g a.d a.s b
  | .mov => .pairMov a.g a.d a.s b
  | .fadd => .pairFadd a.g a.d a.s b
  | .fmul => .pairFmul a.g a.d a.s b
  | .fmin => .pairFmin a.g a.d a.s b
  | .fmax => .pairFmax a.g a.d a.s b
  | .pkadd => .pairPkadd a.g a.d a.s b
  | .pkmul => .pairPkmul a.g a.d a.s b
  | .shl => .pairShl a.g a.d a.s (a.x.setWidth 5) b
  | .shr => .pairShr a.g a.d a.s (a.x.setWidth 5) b
  | .sar => .pairSar a.g a.d a.s (a.x.setWidth 5) b
  | .movi6 => .movi6 a.g a.d a.x b
  | .fneg => .fneg a.g a.d a.s b
  | .fabs => .fabs a.g a.d a.s b

/-- Rows 1 and 2 of Table 5.13 for a pair word. -/
def decodePair (w : DWord) : Except Reject Instr :=
  match halfOf (w.extractLsb' 31 31), halfOf (w.extractLsb' 0 31) with
  | some a, some b => if w.getLsbD 62 || !a.ok || !b.ok then .error .illegalEncoding else .ok (pairInstr a b)
  | _, _ => .error .illegalOpcode

/-- Rows 1 and 2 of Table 5.13 for a full word. -/
def decodeFull (f : FmtA) : Except Reject Instr :=
  if !opDefined f.op then .error .illegalOpcode
  else
    match fieldsFull f with
    | some i => if decide (f.g.toNat ≤ 12) && operandsOk i then .ok i else .error .illegalEncoding
    | none => .error .illegalEncoding

/-- The decoder: total on the 64-bit words (R77, R95 rows 1 and 2 as far as the word alone decides). -/
def decodeWord (w : DWord) : Except Reject Instr := if w.msb then decodePair w else decodeFull (FmtA.ofWord w)

/-- The low bytes of a list as a little-endian number (R4). -/
def leNat : List Byte → Nat
  | [] => 0
  | b :: bs => b.toNat + 256 * leNat bs

/-- The decoder on bytes as memory holds them: the first eight are the word, little-endian (R77). -/
def decode (bs : List Byte) : Except Reject (Instr × List Byte) :=
  if bs.length < 8 then .error .illegalOpcode
  else (decodeWord (BitVec.ofNat 64 (leNat (bs.take 8)))).map (fun i => (i, bs.drop 8))

/-- The instruction that the decoder reads from the word with the given low bits. -/
def decodeTableWord (nbits w : Nat) : Option Instr :=
  match decodeWord (BitVec.ofNat 64 (w % 2 ^ nbits)) with
  | .ok i => some i
  | .error _ => none

/-- The fields of Format A with nothing but an opcode and a guard. -/
def FmtA.base (op : Nat) (h : Hdr) : FmtA := ⟨BitVec.ofNat 7 op, 0, h.g, h.gn, 0, 0, 0, 0, 0⟩

/-- Format A with its register fields. -/
def fmtA (op : Nat) (h : Hdr) (la : BitVec 4) (d a b c : BitVec 8) (fn : BitVec 15) : FmtA := ⟨BitVec.ofNat 7 op, la, h.g, h.gn, d, a, b, c, fn⟩

/-- Format B. -/
def fmtB (op : Nat) (h : Hdr) (d a : BitVec 8) (imm : BitVec 31) : FmtA :=
  ⟨BitVec.ofNat 7 op, 0, h.g, h.gn, d, a, imm.extractLsb' 23 8, imm.extractLsb' 15 8, imm.extractLsb' 0 15⟩

/-- Format C. -/
def fmtC (op : Nat) (h : Hdr) (off : BitVec 32) (fn : BitVec 15) : FmtA :=
  ⟨BitVec.ofNat 7 op, 0, h.g, h.gn, off.extractLsb' 24 8, off.extractLsb' 16 8, off.extractLsb' 8 8, off.extractLsb' 0 8, fn⟩

def b2n (b : Bool) : Nat := b.toNat
def p8 (p : BitVec 4) : BitVec 8 := p.setWidth 8
def k8 (k : BitVec 3) : BitVec 8 := k.setWidth 8

/-- FN of iadd, isub and imad. -/
def fnSatU (sat u : Bool) : BitVec 15 := fnAt (b2n sat) 7 ||| fnAt (b2n u) 0
def fnSub (sub : Nat) : BitVec 15 := fnAt sub 3

def encShift5 (op sub : Nat) (h : Hdr) (d a : BitVec 8) : Shift5 → FmtA
  | .reg b => fmtA op h 0 d a b 0 (fnSub sub)
  | .imm n => fmtA op h 0 d a 0 0 (fnAt n.toNat 9 ||| fnAt 1 8 ||| fnSub sub)

def encShift6 (op sub : Nat) (h : Hdr) (d a : BitVec 8) : Shift6 → FmtA
  | .reg b => fmtA op h 0 d a b 0 (fnSub sub)
  | .imm n => fmtA op h 0 d a 0 0 (fnAt n.toNat 9 ||| fnAt 1 8 ||| fnSub sub)

/-- FN of the float opcodes (Table 5.4). -/
def fnFloat (rm ov fs ftz sub ty : Nat) : BitVec 15 :=
  fnAt rm 13 ||| fnAt ov 11 ||| fnAt fs 8 ||| fnAt ftz 7 ||| fnAt sub 3 ||| fnAt ty 0

def fnMod (m : FMod) (sub ty : Nat) : BitVec 15 := fnFloat m.rm.code m.ov.code 0 (b2n m.ftz) sub ty
def pkTy (bf : Bool) : Nat := if bf then 2 else 1

def encSpecial (sub : Nat) (h : Hdr) (la : BitVec 4) (ov : Ov) (ftz : Bool) (d a : BitVec 8) : FmtA :=
  fmtA 0x35 h la d a 0 0 (fnFloat 0 ov.code 0 (b2n ftz) sub 0)

/-- C of a tile operand, and its PH and HR bits. -/
def tileC : TileH → BitVec 8
  | .imm i _ => i
  | .reg r => r
def tileFn : TileH → BitVec 15
  | .imm _ ph => fnAt (b2n ph) 14
  | .reg _ => fnAt 1 13
def musterC : MusterH → BitVec 8
  | .imm k => k.setWidth 8
  | .reg r => r
def musterFn : MusterH → BitVec 15
  | .imm _ => 0
  | .reg _ => fnAt 1 13
def slotA : SlotH → BitVec 8
  | .imm k => k.setWidth 8
  | .reg r => r
def slotFn : SlotH → BitVec 15
  | .imm _ => 0
  | .reg _ => fnAt 1 12
def wendC : WEnd → BitVec 8
  | .tile t => tileC t
  | .box _ c => c
def wendFn : WEnd → BitVec 15
  | .tile t => tileFn t
  | .box man _ => fnAt 1 12 ||| fnAt man.toNat 8

/-- FN with a three-bit code above twelve bits, the low ten of which are an offset. -/
def fnOfs (x : Nat) (hi : BitVec 2) (ofs : BitVec 10) : BitVec 15 := BitVec.ofNat 3 x ++ hi ++ ofs

def encPair (op : HalfOp) (g : BitVec 3) (d s : BitVec 8) (x : BitVec 6) (h1 : Half) : DWord :=
  1#1 ++ 0#1 ++ (⟨op, d, s, g, x⟩ : Half).toBits ++ h1.toBits

/-- The encoder: the word of an instruction, from the encoding tables; `none` for the rows of the table that are no words. -/
def encodeWord (i : Instr) : Option DWord :=
  match i with
  | .bra h off => some (fmtC 0x00 h off 0).toWord
  | .brx h a => some (fmtA 0x01 h 0 0 a 0 0 0).toWord
  | .call h d off => some (fmtC 0x02 h off (d.setWidth 15)).toWord
  | .callx h d a => some (fmtA 0x03 h 0 d a 0 0 0).toWord
  | .ret h a => some (fmtA 0x04 h 0 0 a 0 0 0).toWord
  | .jmark h k => some (fmtA 0x05 h 0 (k.setWidth 8) 0 0 0 0).toWord
  | .join h k => some (fmtA 0x06 h 0 (k.setWidth 8) 0 0 0 0).toWord
  | .exit h => some (FmtA.base 0x07 h).toWord
  | .yield h => some (FmtA.base 0x08 h).toWord
  | .nop h => some (FmtA.base 0x09 h).toWord
  | .itake h d => some (fmtA 0x0A h 0 d 0 0 0 0).toWord
  | .drain h => some (FmtA.base 0x0B h).toWord
  | .trap h imm => some (fmtB 0x0C h 0 0 imm).toWord
  | .tret h nxt => some (fmtA 0x0D h 0 0 0 0 0 (fnAt (b2n nxt) 7)).toWord
  | .brk h code => some (fmtA 0x0E h 0 0 0 0 0 (code.setWidth 15)).toWord
  | .iadd h d a b sat u => some (fmtA 0x10 h 0 d a b 0 (fnSatU sat u)).toWord
  | .iaddc h d a b ci co => some (fmtA 0x11 h 0 d a b (p8 ci) (fnAt co.toNat 8)).toWord
  | .isub h d a b sat u => some (fmtA 0x12 h 0 d a b 0 (fnSatU sat u)).toWord
  | .isubb h d a b ci co => some (fmtA 0x13 h 0 d a b (p8 ci) (fnAt co.toNat 8)).toWord
  | .imul h d a b => some (fmtA 0x14 h 0 d a b 0 0).toWord
  | .imulh h d a b u => some (fmtA 0x15 h 0 d a b 0 (fnAt (b2n u) 0)).toWord
  | .imad h d a b c sat u => some (fmtA 0x16 h 0 d a b c (fnSatU sat u)).toWord
  | .idiv h la d a b u => some (fmtA 0x17 h la d a b 0 (fnAt (b2n u) 0)).toWord
  | .irem h la d a b u => some (fmtA 0x18 h la d a b 0 (fnAt (b2n u) 0)).toWord
  | .imin h d a b u => some (fmtA 0x19 h 0 d a b 0 (fnAt (b2n u) 0)).toWord
  | .imax h d a b u => some (fmtA 0x19 h 0 d a b 0 (fnAt (b2n u) 0 ||| fnSub 1)).toWord
  | .iclamp h d a b c u => some (fmtA 0x19 h 0 d a b c (fnAt (b2n u) 0 ||| fnSub 2)).toWord
  | .ineg h d a sat => some (fmtA 0x1A h 0 d a 0 0 (fnSatU sat false)).toWord
  | .iabs h d a sat => some (fmtA 0x1A h 0 d a 0 0 (fnSatU sat false ||| fnSub 1)).toWord
  | .iand h d a b => some (fmtA 0x1B h 0 d a b 0 0).toWord
  | .ior h d a b => some (fmtA 0x1B h 0 d a b 0 (fnSub 1)).toWord
  | .ixor h d a b => some (fmtA 0x1B h 0 d a b 0 (fnSub 2)).toWord
  | .iandn h d a b => some (fmtA 0x1B h 0 d a b 0 (fnSub 3)).toWord
  | .inot h d a => some (fmtA 0x1B h 0 d a 0 0 (fnSub 4)).toWord
  | .shl h d a k => some (encShift5 0x1C 0 h d a k).toWord
  | .shr h d a k => some (encShift5 0x1C 1 h d a k).toWord
  | .sar h d a k => some (encShift5 0x1C 2 h d a k).toWord
  | .rotl h d a k => some (encShift5 0x1C 3 h d a k).toWord
  | .rotr h d a k => some (encShift5 0x1C 4 h d a k).toWord
  | .popc h d a => some (fmtA 0x1D h 0 d a 0 0 0).toWord
  | .clz h d a => some (fmtA 0x1D h 0 d a 0 0 (fnSub 1)).toWord
  | .ctz h d a => some (fmtA 0x1D h 0 d a 0 0 (fnSub 2)).toWord
  | .brev h d a => some (fmtA 0x1D h 0 d a 0 0 (fnSub 3)).toWord
  | .bfx h d a b u => some (fmtA 0x1E h 0 d a b 0 (fnAt (b2n u) 0)).toWord
  | .bfi h d a b c => some (fmtA 0x1F h 0 d a b c 0).toWord
  | .sel h d a b p => some (fmtA 0x20 h 0 d a b (p8 p) 0).toWord
  | .mov h d a => some (fmtA 0x21 h 0 d a 0 0 0).toWord
  | .movi h d imm => some (fmtB 0x22 h d 0 imm).toWord
  | .movh h d a imm => some (fmtB 0x23 h d a (imm.setWidth 31)).toWord
  | .icmp h cc u pd a b pc => some (fmtA 0x24 h 0 (p8 pd) a b (p8 pc) (fnAt cc.code 8 ||| fnAt (b2n u) 0)).toWord
  | .wadd h d a b => some (fmtA 0x25 h 0 d a b 0 0).toWord
  | .wshl h d a k => some (encShift6 0x25 1 h d a k).toWord
  | .wcmp h cc u pd a b pc => some (fmtA 0x25 h 0 (p8 pd) a b (p8 pc) (fnAt cc.code 8 ||| fnAt (b2n u) 0 ||| fnSub 2)).toWord
  | .waddi h d a imm => some (fmtB 0x26 h d a imm).toWord
  | .wmad h d a b c u => some (fmtA 0x27 h 0 d a b c (fnAt (b2n u) 0)).toWord
  | .pand h pd pa pb na nb => some (fmtA 0x28 h 0 (p8 pd) (p8 pa) (p8 pb) 0 (fnAt (b2n na) 7 ||| fnAt (b2n nb) 8)).toWord
  | .por h pd pa pb na nb => some (fmtA 0x28 h 0 (p8 pd) (p8 pa) (p8 pb) 0 (fnAt (b2n na) 7 ||| fnAt (b2n nb) 8 ||| fnSub 1)).toWord
  | .pxor h pd pa pb na nb => some (fmtA 0x28 h 0 (p8 pd) (p8 pa) (p8 pb) 0 (fnAt (b2n na) 7 ||| fnAt (b2n nb) 8 ||| fnSub 2)).toWord
  | .pnot h pd pa na => some (fmtA 0x28 h 0 (p8 pd) (p8 pa) 0 0 (fnAt (b2n na) 7 ||| fnSub 3)).toWord
  | .pset h a b => some (fmtA 0x29 h 0 0 a b 0 0).toWord
  | .pget h d => some (fmtA 0x29 h 0 d 0 0 0 (fnSub 1)).toWord
  | .vote h mode pd pa => some (fmtA 0x2A h 0 (p8 pd) (p8 pa) 0 0 (fnAt mode.code 7)).toWord
  | .ballot h d pa => some (fmtA 0x2A h 0 d (p8 pa) 0 0 (fnSub 1)).toWord
  | .lperm h mode pv d a b => some (fmtA 0x2B h 0 d a b 0 (fnAt mode.code 7 ||| fnAt pv.toNat 10)).toWord
  | .bcast h d a (.reg b) => some (fmtA 0x2C h 0 d a b 0 0).toWord
  | .bcast h d a (.imm k) => some (fmtA 0x2C h 0 d a 0 0 (fnAt 1 8 ||| k.setWidth 15)).toWord
  | .bcast h d a .first => some (fmtA 0x2C h 0 d a 0 0 (fnAt 1 9)).toWord
  | .cred h op scan u d a => some (fmtA 0x2D h 0 d a 0 0 (fnAt op.code 7 ||| fnAt (b2n scan) 11 ||| fnAt (b2n u) 0)).toWord
  | .matchLanes h w d a => some (fmtA 0x2E h 0 d a 0 0 (fnAt (b2n w) 1)).toWord
  | .sget h d n => some (fmtA 0x2F h 0 d n 0 0 0).toWord
  | .sset h a => some (fmtA 0x2F h 0 0x10 a 0 0 (fnSub 1)).toWord
  | .fadd h ty m d a b => some (fmtA 0x30 h 0 d a b 0 (fnMod m 0 ty.code)).toWord
  | .fsub h ty m d a b => some (fmtA 0x31 h 0 d a b 0 (fnMod m 0 ty.code)).toWord
  | .fmul h ty m d a b => some (fmtA 0x32 h 0 d a b 0 (fnMod m 0 ty.code)).toWord
  | .ffma h ty m d a b c => some (fmtA 0x33 h 0 d a b c (fnMod m 0 ty.code)).toWord
  | .fmin h ty ftz d a b => some (fmtA 0x34 h 0 d a b 0 (fnFloat 0 0 0 (b2n ftz) 0 ty.code)).toWord
  | .fmax h ty ftz d a b => some (fmtA 0x34 h 0 d a b 0 (fnFloat 0 0 0 (b2n ftz) 1 ty.code)).toWord
  | .frcp h la ov ftz d a => some (encSpecial 0 h la ov ftz d a).toWord
  | .frsq h la ov ftz d a => some (encSpecial 1 h la ov ftz d a).toWord
  | .fsqrt h la ov ftz d a => some (encSpecial 2 h la ov ftz d a).toWord
  | .fex2 h la ov ftz d a => some (encSpecial 3 h la ov ftz d a).toWord
  | .flg2 h la ov ftz d a => some (encSpecial 4 h la ov ftz d a).toWord
  | .fsin h la ov ftz d a => some (encSpecial 5 h la ov ftz d a).toWord
  | .fcos h la ov ftz d a => some (encSpecial 6 h la ov ftz d a).toWord
  | .ftanh h la ov ftz d a => some (encSpecial 7 h la ov ftz d a).toWord
  | .fcmp h cc ty ftz pd a b pc => some (fmtA 0x36 h 0 (p8 pd) a b (p8 pc) (fnFloat 0 0 0 (b2n ftz) cc.code ty.code)).toWord
  | .fclass h ty ftz d a => some (fmtA 0x37 h 0 d a 0 0 (fnFloat 0 0 0 (b2n ftz) 0 ty.code)).toWord
  | .frnd h ty rm ftz d a => some (fmtA 0x38 h 0 d a 0 0 (fnFloat rm.code 0 0 (b2n ftz) 0 ty.code)).toWord
  | .pkadd h bf m d a b => some (fmtA 0x39 h 0 d a b 0 (fnMod m 0 (pkTy bf))).toWord
  | .pkmul h bf m d a b => some (fmtA 0x39 h 0 d a b 0 (fnMod m 1 (pkTy bf))).toWord
  | .pkfma h bf m d a b c => some (fmtA 0x39 h 0 d a b c (fnMod m 2 (pkTy bf))).toWord
  | .cvt h dst src m d a => some (fmtA 0x3A h 0 d a 0 0 (fnMod m src.code dst.code)).toWord
  | .nq h ov ftz d a b => some (fmtA 0x3B h 0 d a b 0 (fnFloat 0 ov.code 0 (b2n ftz) 0 3)).toWord
  | .nqFs h fs d a => some (fmtA 0x3B h 0 d a 0 0 (fnFloat 0 0 fs.toNat 0 1 3)).toWord
  | .nx h ty m d a b => some (fmtA 0x3C h 0 d a b 0 (fnMod m 0 ty.code)).toWord
  | .nxFs h ty fs d a => some (fmtA 0x3C h 0 d a 0 0 (fnFloat 0 0 fs.toNat 0 1 ty.code)).toWord
  | .bscale h ftz d a => some (fmtA 0x3D h 0 d a 0 0 (fnFloat 0 0 0 (b2n ftz) 0 0)).toWord
  | .bscaleFold h ftz d a b => some (fmtA 0x3D h 0 d a b 0 (fnFloat 0 0 0 (b2n ftz) 1 0)).toWord
  | .ld h la sp wd d a ofs => some (fmtA 0x40 h la d a 0 0 (BitVec.ofNat 2 sp.code ++ BitVec.ofNat 3 wd.code ++ ofs)).toWord
  | .st h sp wd a b ofs => some (fmtA 0x41 h 0 0 a b 0 (BitVec.ofNat 2 sp.code ++ BitVec.ofNat 3 wd.code ++ ofs)).toWord
  | .atom h la op sp ty d a b ofs => some (fmtA 0x42 h la d a b 0 (BitVec.ofNat 2 sp.code ++ BitVec.ofNat 3 op.code ++ BitVec.ofNat 2 ty.code ++ ofs)).toWord
  | .cas h la sp wd d a b c ofs => some (fmtA 0x43 h la d a b c (BitVec.ofNat 2 sp.code ++ BitVec.ofNat 3 wd.code ++ ofs)).toWord
  | .tset h rdy t a b => some (fmtA 0x44 h 0 0 a b (tileC t) (tileFn t ||| fnAt (b2n rdy) 7)).toWord
  | .tdrain h t => some (fmtA 0x44 h 0 0 0 0 (tileC t) (tileFn t ||| fnSub 1)).toWord
  | .tfree h t => some (fmtA 0x44 h 0 0 0 0 (tileC t) (tileFn t ||| fnSub 2)).toWord
  | .tstat h map d t => some (fmtA 0x44 h 0 d 0 0 (tileC t) (tileFn t ||| fnAt (b2n map) 7 ||| fnSub 3)).toWord
  | .twait h t => some (fmtA 0x45 h 0 0 0 0 (tileC t) (tileFn t)).toWord
  | .cwait h t a => some (fmtA 0x46 h 0 0 a 0 (tileC t) (tileFn t)).toWord
  | .bar h m => some (fmtA 0x47 h 0 0 0 0 (musterC m) (musterFn m)).toWord
  | .barv h d m => some (fmtA 0x47 h 0 d 0 0 (musterC m) (musterFn m ||| fnSub 1)).toWord
  | .barw h m a => some (fmtA 0x47 h 0 0 a 0 (musterC m) (musterFn m ||| fnSub 2)).toWord
  | .fence h sc => some (fmtA 0x48 h 0 0 0 0 0 (fnAt sc.code 12)).toWord
  | .cpy h t man a => some (fmtA 0x50 h 0 0 a 0 (tileC t) (tileFn t ||| fnAt man.toNat 8)).toWord
  | .cpo h t man a => some (fmtA 0x51 h 0 0 a 0 (tileC t) (tileFn t ||| fnAt man.toNat 8)).toWord
  | .cpbIn h t man a b => some (fmtA 0x52 h 0 0 a b (tileC t) (tileFn t ||| fnAt man.toNat 8)).toWord
  | .cpbOut h t man a b => some (fmtA 0x52 h 0 0 a b (tileC t) (tileFn t ||| fnAt man.toNat 8 ||| fnAt 1 7)).toWord
  | .cpreWarm h man a => some (fmtA 0x53 h 0 0 a 0 0 (fnAt man.toNat 8)).toWord
  | .cpreMig h man a => some (fmtA 0x53 h 0 0 a 0 0 (fnAt man.toNat 8 ||| fnAt 1 7)).toWord
  | .xclaim h o => some (fmtA 0x58 h 0 0 (slotA o) 0 0 (slotFn o)).toWord
  | .xrel h o => some (fmtA 0x59 h 0 0 (slotA o) 0 0 (slotFn o)).toWord
  | .xfill h o t b fs => some (fmtA 0x5A h 0 0 (slotA o) b (tileC t) (slotFn o ||| tileFn t ||| fnAt fs.toNat 8)).toWord
  | .xmac h sat acc (.imm a b) fs => some (fmtA 0x5B h 0 (k8 acc) (a.setWidth 8) (b.setWidth 8) 0 (fnAt (b2n sat) 11 ||| fnAt fs.toNat 8)).toWord
  | .xmac h sat acc (.reg a b) fs => some (fmtA 0x5B h 0 (k8 acc) a b 0 (fnAt 1 12 ||| fnAt (b2n sat) 11 ||| fnAt fs.toNat 8)).toWord
  | .xwait h => some (FmtA.base 0x5C h).toWord
  | .xfence h => some (FmtA.base 0x5D h).toWord
  | .xclr h acc => some (fmtA 0x5E h 0 (k8 acc) 0 0 0 0).toWord
  | .xrd h la d acc a => some (fmtA 0x5F h la d a 0 (k8 acc) 0).toWord
  | .xst h a acc fs none => some (fmtA 0x60 h 0 0 a 0 (k8 acc) (fnAt fs.toNat 8)).toWord
  | .xst h a acc fs (some hs) => some (fmtA 0x60 h 0 0 a 0 (k8 acc) (fnAt fs.toNat 8 ||| fnAt 1 7 ||| fnAt hs.toNat 0)).toWord
  | .xhcfg h hs a => some (fmtA 0x61 h 0 0 a 0 (k8 hs) 0).toWord
  | .xhrd h d hs a => some (fmtA 0x61 h 0 d a 0 (k8 hs) (fnSub 1)).toWord
  | .ldf h la wd d a ofs => some (fmtA 0x64 h la d a 0 0 (fnOfs wd.code 0 ofs)).toWord
  | .stf h wd a b none ofs => some (fmtA 0x65 h 0 0 a b 0 (fnOfs wd.code 0 ofs)).toWord
  | .stf h wd a b (some c) ofs => some (fmtA 0x65 h 0 0 a b c (fnOfs wd.code 2 ofs)).toWord
  | .atomf h la op ty d a b ofs => some (fmtA 0x66 h la d a b 0 (fnOfs op.code (BitVec.ofNat 2 ty.code) ofs)).toWord
  | .casf h la wd d a b c ofs => some (fmtA 0x67 h la d a b c (fnOfs wd.code 0 ofs)).toWord
  | .redf h op ty sw a b ofs => some (fmtA 0x68 h 0 0 a b 0 (BitVec.ofNat 3 op.code ++ BitVec.ofNat 2 ty.code ++ BitVec.ofBool sw ++ ofs)).toWord
  | .fencef h sc => some (fmtA 0x69 h 0 0 0 0 0 (fnAt sc.code 12)).toWord
  | .fflag h wd a b ofs => some (fmtA 0x6A h 0 0 a b 0 (fnOfs wd.code 0 ofs)).toWord
  | .msend h nr d a b e => some (fmtA 0x6C h 0 d a b (wendC e) (wendFn e ||| fnAt (b2n nr) 7)).toWord
  | .mpost h cw nr d a b e => some (fmtA 0x6D h 0 d a b (wendC e) (wendFn e ||| fnAt (b2n nr) 7 ||| fnAt (b2n cw) 2)).toWord
  | .mcancel h a => some (fmtA 0x6E h 0 0 a 0 0 0).toWord
  | .mprobe h la d a b => some (fmtA 0x6F h la d a b 0 0).toWord
  | .mtest h la d a => some (fmtA 0x70 h la d a 0 0 0).toWord
  | .mwait h d a => some (fmtA 0x71 h 0 d a 0 0 0).toWord
  | .kst h rel wd a b ofs => some (fmtA 0x72 h 0 0 a b 0 (fnOfs wd.code (BitVec.ofBool rel ++ 0#1) ofs)).toWord
  | .kfaa h la rel d a b ofs => some (fmtA 0x73 h la d a b 0 (fnOfs 0 (BitVec.ofBool rel ++ 0#1) ofs)).toWord
  | .kld h acq wd d a ofs => some (fmtA 0x74 h 0 d a 0 0 (fnOfs wd.code (BitVec.ofBool acq ++ 0#1) ofs)).toWord
  | .kwait h cc u acq a b c ofs => some (fmtA 0x75 h 0 0 a b c (fnOfs cc.code (BitVec.ofBool acq ++ BitVec.ofBool u) ofs)).toWord
  | .pairIadd g d s h1 => some (encPair .iadd g d s 0 h1)
  | .pairIsub g d s h1 => some (encPair .isub g d s 0 h1)
  | .pairImin g d s h1 => some (encPair .imin g d s 0 h1)
  | .pairImax g d s h1 => some (encPair .imax g d s 0 h1)
  | .pairAnd g d s h1 => some (encPair .and g d s 0 h1)
  | .pairOr g d s h1 => some (encPair .or g d s 0 h1)
  | .pairXor g d s h1 => some (encPair .xor g d s 0 h1)
  | .pairMov g d s h1 => some (encPair .mov g d s 0 h1)
  | .pairFadd g d s h1 => some (encPair .fadd g d s 0 h1)
  | .pairFmul g d s h1 => some (encPair .fmul g d s 0 h1)
  | .pairFmin g d s h1 => some (encPair .fmin g d s 0 h1)
  | .pairFmax g d s h1 => some (encPair .fmax g d s 0 h1)
  | .pairPkadd g d s h1 => some (encPair .pkadd g d s 0 h1)
  | .pairPkmul g d s h1 => some (encPair .pkmul g d s 0 h1)
  | .pairShl g d s x h1 => some (encPair .shl g d s (x.setWidth 6) h1)
  | .pairShr g d s x h1 => some (encPair .shr g d s (x.setWidth 6) h1)
  | .pairSar g d s x h1 => some (encPair .sar g d s (x.setWidth 6) h1)
  | .movi6 g d x h1 => some (encPair .movi6 g d 0 x h1)
  | .fneg g d s h1 => some (encPair .fneg g d s 0 h1)
  | .fabs g d s h1 => some (encPair .fabs g d s 0 h1)
  | .doorbell _ => none
  | .endE _ => none
  | .launch _ _ => none
  | .skipif _ _ => none
  | .jump _ _ => none
  | .callEntry _ _ => none
  | .retEntry _ => none
  | .signal _ _ => none
  | .waitv _ _ => none
  | .waitvReread _ _ => none
  | .measure _ _ => none
  | .receipt _ _ => none
  | .placeWorkgroup _ _ => none
  | .coresidentPass _ _ => none
  | .crewsReady _ => none
  | .itemMove _ _ => none
  | .icacheFill _ => none
  | .requestAccept _ _ => none
  | .basinResult _ => none
  | .fixedLatencyComplete _ _ _ => none
  | .bargeBeat _ _ => none
  | .chunkDone _ _ => none
  | .bargeRequestEnd _ => none
  | .translationComplete _ => none
  | .faultRecordDeferred _ => none
  | .replayedAccess _ _ => none
  | .sideLogReissue _ _ => none
  | .homePerform _ => none
  | .flagSend _ _ => none
  | .readPacket _ => none
  | .writePacket _ => none
  | .atomPacket _ => none
  | .casPacket _ => none
  | .redPacket _ => none
  | .flagPacket _ => none
  | .replyPacket _ => none
  | .heartPacket _ => none
  | .heartSend _ _ => none
  | .closePacket _ => none
  | .linkReplay _ _ => none
  | .packetDropTimeout _ => none
  | .requestTimeout _ => none
  | .clockEntryRaise _ => none
  | .eager _ => none
  | .rts _ => none
  | .pull _ => none
  | .data _ => none
  | .ack _ => none
  | .nack _ => none
  | .messageResend _ _ => none
  | .matchStep _ => none
  | .landingBeat _ _ => none
  | .receiveComplete _ _ => none
  | .wharfResult _ _ _ => none
  | .kitelineHolding _ _ _ => none
  | .broadcastApply _ => none
  | .kitelineLinkFail _ => none
  | .starSwitchover => none
  | .matrixOpStart _ _ _ => none
  | .xfillComplete _ _ => none
  | .xmacComplete _ _ => none
  | .xclrComplete _ _ => none
  | .xstComplete _ _ => none
  | .handlerModeEntry _ => none
  | .deferredTrap _ => none
  | .workgroupRetire _ => none
  | .completionBitSet _ => none
  | .gridRetire _ => none
  | .workgroupRestore _ _ => none
  | .breakpointStop _ => none
  | .firstRound _ => none
  | .slotRelease _ => none
  | .slotReturn _ => none
  | .haltEffect _ => none
  | .resumeEffect _ => none
  | .switchBoundary _ _ => none
  | .padEnd _ _ => none
  | .teardownBoundary _ => none
  | .teardownRelease _ => none
  | .keyErase _ => none
  | .zeroingPass _ => none
  | .snapCopy _ => none
  | .rollSweep _ => none
  | .invalidateComplete _ _ => none
  | .refreshWindow _ => none
  | .unitOutOfService _ => none
  | .layoutApply => none
  | .vdCreate _ => none
  | .schedule _ _ => none
  | .halt _ => none
  | .resume _ => none
  | .replace _ _ _ => none
  | .teardown _ => none
  | .ctxCreate _ _ => none
  | .ranks _ _ _ => none
  | .replay _ _ => none
  | .invalidate _ _ => none
  | .counters _ _ _ => none
  | .snap _ _ _ => none
  | .save _ => none
  | .region _ => none
  | .roll _ => none
  | .seal _ _ => none
  | .reseal _ => none
  | .debugArm _ _ => none
  | .debugComparators _ _ => none
  | .debugStopWorld _ _ => none
  | .debugStop _ _ => none
  | .debugStep _ _ => none
  | .debugResume _ _ => none
  | .debugRecordRead _ _ => none
  | .debugRecordWrite _ _ _ => none
  | .unfreezeMgmt => none
  | .adminUnlistedCode _ => none
  | .layoutWrite _ => none
  | .layoutCommit => none
  | .mgmtRestart _ => none
  | .fuseAdvance _ _ => none
  | .boot => none
  | .recoveryLoad _ _ => none
  | .coldReset => none
  | .spdmSession _ _ => none
  | .getMeasurements _ _ => none
  | .install _ _ _ => none
  | .grant _ _ _ => none
  | .unfreeze _ _ => none
  | .emergencyHalt => none
  | .emergClear => none
  | .registerWrite _ _ _ => none
  | .domainFormation _ _ _ _ _ => none
  | .hostLinkAccess _ _ _ => none
  | .detourTransit _ _ _ => none
  | .sealingPass _ => none
  | .regionZeroing _ => none
  | .sramPatrolScrub _ _ => none
  | .powerLoss => none

/-- The words of an instruction: one, or none for a row that is not a word. -/
def encode (i : Instr) : List DWord := (encodeWord i).toList

end Sys2Proof
end

