-- ==== Sys2Proof/Machine/Float.lean ====
section
/-! DEFINITION. Binary floating-point numbers (R150-R159): exact values, rounding, overflow policies, and the arithmetic, comparison and
conversion of chapters 8 and 9 as functions of bit patterns. Exact values are signed dyadic numbers. -/
namespace Sys2Proof

/-- Width of the fraction field (Table 8.2). -/
def Fty.mbits : Fty → Nat
  | .f32 => 23 | .f16 => 10 | .bf16 => 7

/-- Exponent bias (Table 8.2). -/
def Fty.bias : Fty → Nat
  | .f32 => 127 | .f16 => 15 | .bf16 => 127

/-- The all-ones exponent value. -/
def Fty.emax : Fty → Nat
  | .f32 => 255 | .f16 => 31 | .bf16 => 255

/-- Width of the whole encoding in bits. -/
def Fty.width : Fty → Nat
  | .f32 => 32 | .f16 => 16 | .bf16 => 16

/-- The encoding of a type's canonical NaN (Table 8.4). -/
def Fty.canonNaN : Fty → Nat
  | .f32 => 0x7FC00000 | .f16 => 0x7E00 | .bf16 => 0x7FC0

/-- The magnitude pattern of infinity. -/
def Fty.infMag (t : Fty) : Nat := t.emax * 2 ^ t.mbits

/-- A magnitude pattern with a sign. -/
def Fty.withSign (t : Fty) (neg : Bool) (mag : Nat) : Nat := (if neg then 2 ^ (t.width - 1) else 0) + mag

/-- The exponent of the least subnormal: 1 - bias - m. -/
def Fty.qmin (t : Fty) : Int := 1 - (t.bias : Int) - (t.mbits : Int)

end Sys2Proof

namespace Sys2Proof.Machine
open Sys2Proof

/-- The exact number (-1)^neg * m * 2^e. A zero keeps its sign. -/
structure Dy where
  neg : Bool
  m   : Nat
  e   : Int
  deriving DecidableEq, Repr, Inhabited

/-- What an encoding means (Table 8.3). -/
inductive FVal | nan | inf (neg : Bool) | fin (d : Dy)
  deriving DecidableEq, Repr, Inhabited

/-- Exact value of an encoding; FTZ takes a subnormal as zero of its sign (R151, R153). -/
def decodeF (t : Fty) (ftz : Bool) (x : Nat) : FVal :=
  let neg : Bool := (x / 2 ^ (t.width - 1)) % 2 == 1
  let e := (x / 2 ^ t.mbits) % (t.emax + 1)
  let f := x % 2 ^ t.mbits
  if e = t.emax then (if f = 0 then .inf neg else .nan)
  else if e = 0 then .fin ⟨neg, if ftz then 0 else f, t.qmin⟩
  else .fin ⟨neg, 2 ^ t.mbits + f, t.qmin + (e : Int) - 1⟩

/-- A register read as a scalar of type t (R173). -/
def readF (t : Fty) (ftz : Bool) (w : Word) : FVal := decodeF t ftz (w.toNat % 2 ^ t.width)

/-- floor(log2 |d|) of a nonzero number. -/
def Dy.lead (d : Dy) : Int := (Nat.log2 d.m : Int) + d.e

/-- |d| in units of 2^q: the floor and whether anything is left, with the remainder compared to half a unit. -/
def Dy.scaled (d : Dy) (q : Int) : Nat × Ordering × Bool :=
  if q ≤ d.e then (d.m * 2 ^ (d.e - q).toNat, .lt, false)
  else
    let s := (q - d.e).toNat
    let r := d.m % 2 ^ s
    (d.m / 2 ^ s, compare (2 * r) (2 ^ s), r != 0)

/-- Rounding of a magnitude to a whole number of units (R156). -/
def roundUnits (rm : Rm) (neg : Bool) (x : Nat × Ordering × Bool) : Nat :=
  let (n, half, inexact) := x
  let up : Bool := match rm with
    | .rne => half == .gt || (half == .eq && n % 2 == 1)
    | .rz => false
    | .rdn => neg && inexact
    | .rup => !neg && inexact
  if up then n + 1 else n

/-- Is the magnitude, rounded at the type's precision with an unbounded exponent, below the smallest normal (R153)? -/
def tiny (t : Fty) (rm : Rm) (d : Dy) : Bool :=
  let q := d.lead - (t.mbits : Int)
  let n := roundUnits rm d.neg (d.scaled q)
  decide (q < t.qmin) && decide (n < 2 ^ (t.qmin - q + (t.mbits : Int)).toNat)

/-- The magnitude pattern of a nonzero number rounded to t, with an unbounded exponent above (R156). -/
def roundMag (t : Fty) (rm : Rm) (d : Dy) : Nat :=
  let q := max (d.lead - (t.mbits : Int)) t.qmin
  (q - t.qmin).toNat * 2 ^ t.mbits + roundUnits rm d.neg (d.scaled q)

/-- The overflow row of Table 8.6: `none` is NUMERIC. -/
def overflowF (t : Fty) (rm : Rm) (ov : Ov) (neg : Bool) : Option Nat :=
  match ov with
  | .sat => some (t.withSign neg (t.infMag - 1))
  | .inf => some (t.withSign neg (match rm with
      | .rne => t.infMag
      | .rz => t.infMag - 1
      | .rdn => if neg then t.infMag else t.infMag - 1
      | .rup => if neg then t.infMag - 1 else t.infMag))
  | .nan => some t.canonNaN
  | .trap => none

/-- A finite exact result rounded to t under m: FTZ by R153, overflow by Table 8.6 (R157). `none` is NUMERIC. -/
def roundF (t : Fty) (m : FMod) (d : Dy) : Option Nat :=
  if d.m = 0 then some (t.withSign d.neg 0)
  else
    let mag := roundMag t m.rm d
    if mag ≥ t.infMag then overflowF t m.rm m.ov d.neg
    else if m.ftz && tiny t m.rm d then some (t.withSign d.neg 0)
    else some (t.withSign d.neg mag)

/-- The encoding of an exact result of arithmetic: NaN canonical, an infinity from an infinite operand under every policy (R152, R157). -/
def resultF (t : Fty) (m : FMod) : FVal → Option Nat
  | .nan => some t.canonNaN
  | .inf n => some (t.withSign n t.infMag)
  | .fin d => roundF t m d

/-- The signed mantissa in units of 2^e0, for e0 at most the exponent. -/
def Dy.signed (d : Dy) (e0 : Int) : Int :=
  let x : Int := (d.m : Int) * 2 ^ (d.e - e0).toNat
  if d.neg then -x else x

/-- Comparison of exact values; zeros are equal. -/
def Dy.cmp (a b : Dy) : Ordering := compare (a.signed (min a.e b.e)) (b.signed (min a.e b.e))

/-- The exact sum, with the sign of an exact zero as R176 gives it for the rounding mode. -/
def Dy.add (rm : Rm) (a b : Dy) : Dy :=
  let e := min a.e b.e
  let s := a.signed e + b.signed e
  if s = 0 then
    if a.m = 0 && b.m = 0 && a.neg == b.neg then ⟨a.neg, 0, e⟩ else ⟨rm == .rdn, 0, e⟩
  else ⟨s < 0, s.natAbs, e⟩

/-- The exact product. -/
def Dy.mul (a b : Dy) : Dy := ⟨a.neg != b.neg, a.m * b.m, a.e + b.e⟩

def FVal.negate : FVal → FVal
  | .nan => .nan
  | .inf n => .inf (!n)
  | .fin d => .fin { d with neg := !d.neg }

/-- The exact sum of two values (R152, R176). -/
def FVal.add (rm : Rm) : FVal → FVal → FVal
  | .nan, _ => .nan
  | _, .nan => .nan
  | .inf a, .inf b => if a = b then .inf a else .nan
  | .inf a, .fin _ => .inf a
  | .fin _, .inf b => .inf b
  | .fin a, .fin b => .fin (a.add rm b)

/-- The exact product of two values (R152). -/
def FVal.mul : FVal → FVal → FVal
  | .nan, _ => .nan
  | _, .nan => .nan
  | .inf a, .inf b => .inf (a != b)
  | .inf a, .fin d => if d.m = 0 then .nan else .inf (a != d.neg)
  | .fin d, .inf b => if d.m = 0 then .nan else .inf (d.neg != b)
  | .fin a, .fin b => .fin (a.mul b)

/-- fadd on patterns (R176). -/
def fAdd (t : Fty) (m : FMod) (x y : Nat) : Option Nat :=
  resultF t m ((decodeF t m.ftz x).add m.rm (decodeF t m.ftz y))

/-- fsub on patterns (R176). -/
def fSub (t : Fty) (m : FMod) (x y : Nat) : Option Nat :=
  resultF t m ((decodeF t m.ftz x).add m.rm (decodeF t m.ftz y).negate)

/-- fmul on patterns (R176). -/
def fMul (t : Fty) (m : FMod) (x y : Nat) : Option Nat :=
  resultF t m ((decodeF t m.ftz x).mul (decodeF t m.ftz y))

/-- ffma on patterns, rounded once (R176). -/
def fFma (t : Fty) (m : FMod) (x y z : Nat) : Option Nat :=
  resultF t m (((decodeF t m.ftz x).mul (decodeF t m.ftz y)).add m.rm (decodeF t m.ftz z))

/-- Is the pattern a NaN? -/
def isNaN (t : Fty) (x : Nat) : Bool := decodeF t false x == .nan

/-- A pattern after the FTZ of an operand (R153). -/
def flushF (t : Fty) (ftz : Bool) (x : Nat) : Nat :=
  let mag := x % 2 ^ (t.width - 1)
  if ftz && mag < 2 ^ t.mbits then x - mag else x

/-- The place of a non-NaN pattern in the order of R159, with -0 below +0. -/
def orderKey (t : Fty) (x : Nat) : Int :=
  let mag : Int := x % 2 ^ (t.width - 1)
  if x / 2 ^ (t.width - 1) % 2 = 1 then -mag - 1 else mag

/-- minimumNumber (R159, R177). -/
def fMin (t : Fty) (ftz : Bool) (x y : Nat) : Nat :=
  let x := flushF t ftz x
  let y := flushF t ftz y
  if isNaN t x then (if isNaN t y then t.canonNaN else y)
  else if isNaN t y then x
  else if orderKey t x ≤ orderKey t y then x else y

/-- maximumNumber (R159, R177). -/
def fMax (t : Fty) (ftz : Bool) (x y : Nat) : Nat :=
  let x := flushF t ftz x
  let y := flushF t ftz y
  if isNaN t x then (if isNaN t y then t.canonNaN else y)
  else if isNaN t y then x
  else if orderKey t x ≤ orderKey t y then y else x

/-- Comparison of two patterns: `none` is unordered; zeros are equal (R178). -/
def fOrder (t : Fty) (ftz : Bool) (x y : Nat) : Option Ordering :=
  match decodeF t ftz x, decodeF t ftz y with
  | .nan, _ => none
  | _, .nan => none
  | .fin a, .fin b => some (a.cmp b)
  | .inf a, .inf b => some (if a = b then .eq else if a then .lt else .gt)
  | .inf a, .fin _ => some (if a then .lt else .gt)
  | .fin _, .inf b => some (if b then .gt else .lt)

/-- The conditions of Table 9.3. -/
def fCond (c : FCond) (o : Option Ordering) : Bool :=
  match c with
  | .eq => o == some .eq
  | .ne => o != some .eq
  | .lt => o == some .lt
  | .le => o == some .lt || o == some .eq
  | .gt => o == some .gt
  | .ge => o == some .gt || o == some .eq
  | .num => o != none
  | .nan => o == none
  | .equ => o == some .eq || o == none
  | .ltu => o == some .lt || o == none
  | .leu => o == some .lt || o == some .eq || o == none
  | .gtu => o == some .gt || o == none
  | .geu => o == some .gt || o == some .eq || o == none

/-- The word of Table 9.4 (R179). -/
def fClass (t : Fty) (ftz : Bool) (x : Nat) : Nat :=
  match decodeF t ftz x with
  | .nan => 2 ^ 8
  | .inf n => if n then 2 ^ 0 else 2 ^ 7
  | .fin d =>
    if d.m = 0 then (if d.neg then 2 ^ 3 else 2 ^ 4)
    else if d.m < 2 ^ t.mbits then (if d.neg then 2 ^ 2 else 2 ^ 5)
    else (if d.neg then 2 ^ 1 else 2 ^ 6)

/-- frnd on patterns (R180). -/
def fRound (t : Fty) (m : FMod) (x : Nat) : Nat :=
  match decodeF t m.ftz x with
  | .nan => t.canonNaN
  | .inf n => t.withSign n t.infMag
  | .fin d =>
    let n := roundUnits m.rm d.neg (d.scaled 0)
    if 0 ≤ d.e || d.m = 0 then flushF t m.ftz x
    else (roundF t { m with ov := .sat, ftz := false } ⟨d.neg, n, 0⟩).getD 0

/-- Float to float conversion (R184). A down-conversion also applies Table 8.6 to an infinite input. -/
def cvtFF (dst src : Fty) (m : FMod) (x : Nat) : Option Nat :=
  match decodeF src m.ftz x with
  | .nan => some dst.canonNaN
  | .inf n =>
    if dst = src || dst = .f32 then some (dst.withSign n dst.infMag)
    else match m.ov with
      | .sat => some (dst.withSign n (dst.infMag - 1))
      | .inf => some (dst.withSign n dst.infMag)
      | .nan => some dst.canonNaN
      | .trap => none
  | .fin d => roundF dst m d

/-- Minimum, maximum and indefinite value of an integer format (Table 8.5). -/
def intRange : Cty → Int × Int × Int
  | .i8 => (-128, 127, -128)
  | .n8 => (0, 255, 255)
  | .i32 => (-2147483648, 2147483647, -2147483648)
  | .n32 => (0, 4294967295, 4294967295)
  | .flt _ => (0, 0, 0)

/-- Table 8.7: `none` is NUMERIC. -/
def toIntRange (dst : Cty) (ov : Ov) (v : Int) : Option Int :=
  let (lo, hi, ind) := intRange dst
  if lo ≤ v ∧ v ≤ hi then some v
  else match ov with
    | .sat => some (if v < lo then lo else hi)
    | .inf => some (if v < lo then lo else hi)
    | .nan => some ind
    | .trap => none

/-- Float to integer conversion (R158, R184). -/
def cvtFI (dst : Cty) (src : Fty) (m : FMod) (x : Nat) : Option Int :=
  let (lo, hi, ind) := intRange dst
  match decodeF src m.ftz x with
  | .nan => some (match m.ov with | .sat => 0 | .inf => 0 | .nan => ind | .trap => ind)
  | .inf n => toIntRange dst m.ov (if n then lo - 1 else hi + 1)
  | .fin d =>
    let n : Int := roundUnits m.rm d.neg (d.scaled 0)
    toIntRange dst m.ov (if d.neg then -n else n)

/-- The integer value of a register under an integer format (R183). -/
def readInt (src : Cty) (w : Word) : Int :=
  match src with
  | .i8 => (w.setWidth 8).toInt
  | .n8 => (w.setWidth 8).toNat
  | .i32 => w.toInt
  | .n32 => w.toNat
  | .flt _ => 0

/-- cvt on a register (R183, R184): `none` is NUMERIC. -/
def cvtWord (dst src : Cty) (m : FMod) (w : Word) : Option Word :=
  match dst, src with
  | .flt d, .flt s => (cvtFF d s m (w.toNat % 2 ^ s.width)).map (BitVec.ofNat 32)
  | .flt d, s =>
    let v := readInt s w
    (roundF d { m with ftz := false } ⟨v < 0, v.natAbs, 0⟩).map (BitVec.ofNat 32)
  | d, .flt s => (cvtFI d s m (w.toNat % 2 ^ s.width)).map (BitVec.ofInt 32)
  | d, s => (toIntRange d m.ov (readInt s w)).map (BitVec.ofInt 32)

/-- fneg of a pair half (Table 5.8): the sign inverted, a NaN canonical. -/
def fNeg (x : Word) : Word :=
  if isNaN .f32 x.toNat then 0x7FC00000#32 else x ^^^ 0x80000000#32

/-- fabs of a pair half (Table 5.8): the sign cleared, a NaN canonical. -/
def fAbs (x : Word) : Word :=
  if isNaN .f32 x.toNat then 0x7FC00000#32 else x &&& 0x7FFFFFFF#32

/-- An operation on both 16-bit elements of a packed register (R182): `none` if either element traps. -/
def packed (f : Nat → Nat → Option Nat) (a b : Word) : Option Word :=
  match f (a.toNat % 65536) (b.toNat % 65536), f (a.toNat / 65536) (b.toNat / 65536) with
  | some l, some h => some (BitVec.ofNat 32 (l + 65536 * h))
  | _, _ => none

/-- The fused form of `packed`. -/
def packed3 (f : Nat → Nat → Nat → Option Nat) (a b c : Word) : Option Word :=
  match f (a.toNat % 65536) (b.toNat % 65536) (c.toNat % 65536), f (a.toNat / 65536) (b.toNat / 65536) (c.toNat / 65536) with
  | some l, some h => some (BitVec.ofNat 32 (l + 65536 * h))
  | _, _ => none

/-- The modifiers of the f32 and f16 pair halves: nearest even, INF, subnormals kept (R91). -/
def pairMod : FMod := ⟨.rne, .inf, false⟩

end Sys2Proof.Machine
end

