-- ==== Sys2Proof/Machine/Lg6.lean ====
section
/-! DEFINITION. LG6 codes and block scales (R160-R166, R185-R188) and the window sum of the matrix unit (R167-R170). -/
namespace Sys2Proof.Machine
open Sys2Proof

/-- The 24-bit significands of the F table (Table 8.8), in units of 2^-23. -/
def fTable (f : Nat) : Nat :=
  match f with
  | 0 => 0x800000
  | 1 => 0x9837F0
  | 2 => 0xB504F3
  | _ => 0xD744FD

/-- The magnitude 2^floor(q/4) * F[q mod 4] (Table 0.3). -/
def lg6Mag (q : Int) : Dy := ⟨false, fTable (q % 4).toNat, q / 4 - 23⟩

/-- Lg6Value(L, s) for a numeric scale (Table 0.3). -/
def lg6Value (l : Nat) (s : Int) : Dy := if l = 0 then ⟨false, 0, 0⟩ else lg6Mag ((l : Int) - 16 + s)

/-- The scale 0x8000 that marks a block as NaN (R162). -/
def nanScale : BitVec 16 := 0x8000#16

/-- The value of code c under the scale s, NaN included (R160, R162). -/
def lg6Read (c : BitVec 6) (s : BitVec 16) : FVal :=
  if s = nanScale || c = 0x20#6 then .nan
  else .fin { lg6Value (c.toNat % 32) s.toInt with neg := c.msb }

/-- |a - b| for two magnitudes, as an exact number. -/
def distance (a b : Dy) : Dy :=
  let e := min a.e b.e
  ⟨false, ((a.m : Int) * 2 ^ (a.e - e).toNat - (b.m : Int) * 2 ^ (b.e - e).toNat).natAbs, e⟩

/-- The nearest L of 1-31 to the magnitude x under scale s; a tie goes to the even L (R164). -/
def nearestL (x : Dy) (s : Int) : Nat :=
  (List.range 30).foldl (fun best i =>
    let l := i + 2
    match (distance x (lg6Value l s)).cmp (distance x (lg6Value best s)) with
    | .lt => l
    | .eq => if l % 2 = 0 then l else best
    | .gt => best) 1

/-- The lg6 row of Table 8.6: `none` is NUMERIC. -/
def overflowLg6 (ov : Ov) (neg : Bool) : Option (BitVec 6) :=
  match ov with
  | .sat => some (if neg then 0x3F#6 else 0x1F#6)
  | .inf => some 0x20#6
  | .nan => some 0x20#6
  | .trap => none

/-- Quantisation of a value under a block scale (R164, R165): `none` is NUMERIC. -/
def quantise (x : FVal) (s : BitVec 16) (ov : Ov) : Option (BitVec 6) :=
  if s = nanScale then some 0x20#6
  else match x with
    | .nan => some 0x20#6
    | .inf n => overflowLg6 ov n
    | .fin d =>
      let mag : Dy := { d with neg := false }
      let v1 := lg6Value 1 s.toInt
      if mag.m = 0 || mag.cmp { v1 with e := v1.e - 1 } != .gt then some 0#6
      else if mag.cmp (lg6Value 31 s.toInt) == .gt then overflowLg6 ov d.neg
      else some (BitVec.ofNat 6 ((if d.neg then 32 else 0) + nearestL mag s.toInt))

/-- The smallest q at which 2^floor(q/4) F[q mod 4] reaches the magnitude m. -/
def leastQ (m : Dy) : Int :=
  let q0 := 4 * m.lead
  ((List.range 5).map (fun (i : Nat) => q0 + (i : Int))).find? (fun q => (lg6Mag q).cmp { m with neg := false } != .lt) |>.getD (q0 + 4)

/-- The block scale of a magnitude (R166, R188). -/
def blockScale (x : FVal) : BitVec 16 :=
  match x with
  | .nan => nanScale
  | .inf _ => nanScale
  | .fin d => if d.m = 0 then 0#16 else BitVec.ofInt 16 (leastQ d - 15)

/-- bscale on a register (R188). -/
def bscaleWord (ftz : Bool) (x : Word) : Word := (blockScale (readF .f32 ftz x)).signExtend 32

/-- bscale.fold on two registers (R188). -/
def foldWord (ftz : Bool) (x y : Word) : Word :=
  match readF .f32 ftz x, readF .f32 ftz y with
  | .fin a, .fin b =>
    let a' := flushF .f32 ftz (x.toNat % 2 ^ 31)
    let b' := flushF .f32 ftz (y.toNat % 2 ^ 31)
    BitVec.ofNat 32 (if ({ a with neg := false } : Dy).cmp { b with neg := false } == .lt then b' else a')
  | _, _ => 0x7F800000#32

/-- nq on a register (R185): `none` is NUMERIC. -/
def nqWord (ov : Ov) (ftz : Bool) (s : BitVec 16) (x : Word) : Option Word :=
  (quantise (readF .f32 ftz x) s ov).map (·.setWidth 32)

/-- nx on a register (R186): `none` is NUMERIC. -/
def nxWord (t : Fty) (m : FMod) (s : BitVec 16) (x : Word) : Option Word :=
  let c := x.setWidth 6
  match lg6Read c s with
  | .nan => some (BitVec.ofNat 32 t.canonNaN)
  | .inf _ => some (BitVec.ofNat 32 t.canonNaN)
  | .fin d => if d.m = 0 then some 0#32 else (roundF t m d).map (BitVec.ofNat 32)

/-- The product of two LG6 elements: logarithms add (R167). -/
def lg6Product (a : BitVec 6) (sa : BitVec 16) (b : BitVec 6) (sb : BitVec 16) : FVal :=
  if sa = nanScale || sb = nanScale || a = 0x20#6 || b = 0x20#6 then .nan
  else
    let neg := a.msb != b.msb
    if a = 0#6 || b = 0#6 then .fin ⟨neg, 0, 0⟩
    else
      let q := ((a.toNat % 32 : Nat) : Int) - 16 + sa.toInt + ((b.toNat % 32 : Nat) : Int) - 16 + sb.toInt
      .fin { lg6Mag q with neg := neg }

/-- Rounding of |S| by R168: to nearest, an exact midpoint rounds up when something was dropped or the kept value is odd. -/
def windowUp (sticky : Bool) (x : Nat × Ordering × Bool) : Nat :=
  let (n, half, _) := x
  if half == .gt || (half == .eq && (sticky || n % 2 == 1)) then n + 1 else n

/-- The sum S of R168 rounded to f32, under the slot's policies (R168, R169). -/
def windowRound (ov : Ov) (ftz : Bool) (sticky : Bool) (d : Dy) : Nat :=
  let t := Fty.f32
  let q := max (d.lead - (t.mbits : Int)) t.qmin
  let mag := (q - t.qmin).toNat * 2 ^ t.mbits + windowUp sticky (d.scaled q)
  let qu := d.lead - (t.mbits : Int)
  let small := decide (qu < t.qmin) && decide (windowUp sticky (d.scaled qu) < 2 ^ (t.qmin - qu + (t.mbits : Int)).toNat)
  if mag ≥ t.infMag then
    match ov with
    | .sat => t.withSign d.neg (t.infMag - 1)
    | .inf => t.withSign d.neg t.infMag
    | .trap => t.withSign d.neg t.infMag
    | .nan => t.canonNaN
  else if ftz && small then t.withSign d.neg 0
  else t.withSign d.neg mag

/-- The finite numbers among the terms. -/
def finiteTerms (ts : List FVal) : List Dy := ts.filterMap (fun v => match v with | .fin d => some d | _ => none)

/-- The window sum of one output element: `terms` holds c and every product (R168). -/
def windowSum (ov : Ov) (ftz : Bool) (terms : List FVal) : Nat :=
  if terms.any (· == .nan) || (terms.any (· == .inf true) && terms.any (· == .inf false)) then 0x7FC00000
  else if terms.any (· == .inf true) then Fty.f32.withSign true Fty.f32.infMag
  else if terms.any (· == .inf false) then Fty.f32.withSign false Fty.f32.infMag
  else
    let ds := finiteTerms terms
    let z := ds.filter (fun d => d.m != 0)
    match z with
    | [] => if ds.all (·.neg) then Fty.f32.withSign true 0 else 0
    | z0 :: zs =>
      let e := zs.foldl (fun e d => max e d.lead) z0.lead
      let u := e - 48
      let parts := (z0 :: zs).map (fun d => let (n, _, inexact) := d.scaled u; ((if d.neg then -(n : Int) else n), inexact))
      let s : Int := parts.foldl (fun (a : Int) p => a + p.1) 0
      let sticky := parts.any (·.2)
      if s = 0 then 0 else windowRound ov ftz sticky ⟨s < 0, s.natAbs, u⟩

/-- The i8 sum of one output element (R170). -/
def intSum (sat : Bool) (c : Word) (products : List Int) : Word :=
  let s := products.foldl (· + ·) c.toInt
  if sat then BitVec.ofInt 32 (max (-2147483648) (min 2147483647 s)) else BitVec.ofInt 32 s

end Sys2Proof.Machine
end

