-- ==== Sys2Proof/Config.lean ====
section
/-! DEFINITION. What the Adnar's manual leaves open: opaque constants, of which nothing can be proved. Each is a free value (log entries
6, 7, 8, 9, 10 and 12). -/
namespace Sys2Proof.Config

/-- A free word for one event (log 7). The event is named by numbers of the world that it happens in: its %cycle, its VD, and the place (R8). -/
opaque freeWord : List Nat → Word

/-- A free choice between two outcomes for one event (log 7, log 10). -/
opaque freeBit : List Nat → Bool

/-- A free byte for one event at place a (log 9, log 10). -/
opaque freeByte : List Nat → Nat → Byte

/-- What a byte holds that nothing has written since the contents became undefined, by the event that made them so and the place a (R8, R191, R203,
R228; log 6). -/
opaque undefByte : List Nat → Nat → Byte

/-- The candidate result of special function f (0-7) for input x under FTZ (R181; log 8). -/
opaque special : Nat → Bool → BitVec 32 → BitVec 32

/-- The signature integers r and s that the device attestation key gives for a digest (R55; log 12). -/
opaque signature : List Byte → List Byte × List Byte

/-- The attestation public key as an uncompressed 133-byte point (R55; log 12). -/
opaque attestationKey : List Byte

/-- Key number n drawn from the random number generator at boot number b (R336; log 12). -/
opaque drawnKey : Nat → Nat → BitVec 256

/-- The fabric key of a domain, as the management processors install it when boot number b's domain is formed (R248; log 12). -/
opaque domainKey : Nat → BitVec 256

/-- The firmware digest of a version, and the ROM digest, as SPDM measures them (R354; log 12). -/
opaque firmwareDigest : Nat → List Byte
opaque romDigest : List Byte

/-- The image of a layout in the shadow bank, over which its CRC is taken (R350; log 14). -/
opaque layoutImage : Layout → List Byte

/-- The worst-case number of rounds that a switch of an allotment needs, for given L and S (R76; log 14). -/
opaque padFloor : Nat → Nat → Allot → Nat

/-- The page frames that the device keeps for itself, as (first, how many) (Table 1.1; log 17). -/
opaque deviceReserve : List (Nat × Nat)

/-- The bank of its stack in which a physical address lies (R357; log 17). -/
opaque bankOf : Nat → Nat

/-- The row of its bank in which a physical address lies (R355; log 17). -/
opaque rowOf : Nat → Nat

/-- An error record as the management port reads it: the place, the world that owns it, and whether it is fatal (R346; log 14). -/
opaque errorImage : ErrSite → Option Nat → Bool → List Byte

/-- Is the lock-switch plane of a number enrolled for a tenant, at %cycle n of the tenant's world (R255, R262; log 1)? -/
opaque planeEnrolled : Nat → Nat → Nat → Bool

/-- What GET_MEASUREMENTS signs for a nonce and the measurements that it gives: SPDM's transcript (R354; log 12, log 18). -/
opaque measurementBlock : List Byte → List Byte → List Byte

end Sys2Proof.Config
end

