-- ==== Sys2Proof/Machine/Special.lean ====
section
/-! DEFINITION. The special functions (R181, Table 9.5). fsqrt is computed. For the others the manual gives a bound, and the model takes
any value within it: the candidate of Config where it meets the bound, and otherwise a value computed here, which meets it (log 8). -/
namespace Sys2Proof.Machine
open Sys2Proof

/-- The sub-operations of 0x35 (Table 5.11). -/
inductive SFn | rcp | rsq | sqrt | ex2 | lg2 | sin | cos | tanh
  deriving DecidableEq, Repr, Inhabited

def SFn.code : SFn → Nat
  | .rcp => 0 | .rsq => 1 | .sqrt => 2 | .ex2 => 3 | .lg2 => 4 | .sin => 5 | .cos => 6 | .tanh => 7

/-- pi / 2 in units of 2^-320. -/
def halfPi320 : Nat := 3355200590106084457577920487110001620402097044713574475363553212175856609335902690049750194457019

/-- ln 2 in units of 2^-200. -/
def ln2At200 : Nat := 1113844574712631719546256151097547306333272293549090750737802

/-- The unit of the fixed-point work below is 2^-200. -/
def one200 : Int := 2 ^ 200

/-- Product and quotient of fixed-point numbers. -/
def fxMul (a b : Int) : Int := a * b / one200
def fxDiv (a b : Int) : Int := if b = 0 then 0 else a * one200 / b

/-- The sum of term, term*x/k, term*x^2/(k(k+1)), ... for n terms: the tail of the exponential series. -/
def expTerms : Nat → Nat → Int → Int → Int
  | 0, _, _, _ => 0
  | n + 1, k, t, x => t + expTerms n (k + 1) (fxMul t x / (k : Int)) x

/-- e^x for 0 <= x < 1. -/
def fxExp (x : Int) : Int := expTerms 60 1 one200 x

/-- z + z^3/3 + z^5/5 + ... -/
def atanhTerms : Nat → Nat → Int → Int → Int
  | 0, _, _, _ => 0
  | n + 1, k, t, z2 => t / (k : Int) + atanhTerms n (k + 2) (fxMul t z2) z2

/-- ln x for 1 <= x < 2. -/
def fxLn (x : Int) : Int :=
  let z := fxDiv (x - one200) (x + one200)
  2 * atanhTerms 70 1 z (fxMul z z)

/-- The alternating series of sine (k = 2) and cosine (k = 1) in the square of the angle. -/
def trigTerms : Nat → Nat → Int → Int → Int
  | 0, _, _, _ => 0
  | n + 1, k, t, x2 => t - trigTerms n (k + 2) (fxMul t x2 / ((k * (k + 1) : Nat) : Int)) x2

def fxSin (x : Int) : Int := trigTerms 30 2 x (fxMul x x)
def fxCos (x : Int) : Int := trigTerms 30 1 one200 (fxMul x x)

/-- A nonzero magnitude in units of 2^-p, rounded down. -/
def Dy.fixed (d : Dy) (p : Nat) : Nat := (d.scaled (-(p : Int))).1

/-- A fixed-point number as an exact one. -/
def ofFx (x : Int) : Dy := ⟨x < 0, x.natAbs, -200⟩

/-- sin (turn = 0) or cos (turn = 1) of an exact angle, with the argument reduced by pi/2 to 2^-170 (R181). -/
def trigOf (turn : Nat) (d : Dy) : Dy :=
  let x := d.fixed 320
  let k := x / halfPi320
  let r : Int := ((x - k * halfPi320) / 2 ^ 120 : Nat)
  let v := match (k + turn) % 4 with
    | 0 => fxSin r
    | 1 => fxCos r
    | 2 => -fxSin r
    | _ => -fxCos r
  ofFx (if d.neg && turn == 0 then -v else v)

/-- 2^x for -400 < x < 200. -/
def ex2Of (d : Dy) : Dy :=
  let x : Int := (if d.neg then -1 else 1) * (d.fixed 200 : Int)
  let n := x / one200
  let f := x - n * one200
  let v := fxExp (fxMul f (ln2At200 : Int))
  ⟨false, v.natAbs, n - 200⟩

/-- log2 x for a positive x. -/
def lg2Of (d : Dy) : Dy :=
  let n := d.lead
  let m : Int := d.m * 2 ^ (200 - Nat.log2 d.m)
  ofFx (n * one200 + fxDiv (fxLn m) (ln2At200 : Int))

/-- tanh x; beyond 64 it is 1 to every precision used. -/
def tanhOf (d : Dy) : Dy :=
  if (⟨false, d.m, d.e⟩ : Dy).cmp ⟨false, 64, 0⟩ != .lt then ⟨d.neg, 1, 0⟩
  else
    let x : Int := d.fixed 200
    let n := x / one200
    let e2 := (fun y => fxMul y y) (fxMul (fxExp (x - n * one200)) ((List.range n.toNat).foldl (fun a _ => fxMul a (fxExp (one200 / 2)) |> fun b => fxMul b (fxExp (one200 / 2))) one200))
    let v := fxDiv (e2 - one200) (e2 + one200)
    { ofFx v with neg := d.neg }

/-- 1/x with 200 significant bits. -/
def rcpOf (d : Dy) : Dy :=
  let s := Nat.log2 d.m + 200
  ⟨d.neg, 2 ^ s / d.m, -(d.e) - (s : Int)⟩

/-- The integer square root by bisection on bits. -/
def isqrtBits : Nat → Nat → Nat → Nat
  | 0, _, r => r
  | b + 1, n, r =>
    let r' := r + 2 ^ b
    isqrtBits b n (if r' * r' ≤ n then r' else r)

/-- sqrt x with at least 200 significant bits, and one sticky bit below them. -/
def sqrtOf (d : Dy) : Dy :=
  let k := 2 * (200 + Nat.log2 d.m) + (if d.e % 2 = 0 then 0 else 1)
  let m := d.m * 2 ^ k
  let r := isqrtBits (Nat.log2 m / 2 + 1) m 0
  ⟨false, 2 * r + (if r * r = m then 0 else 1), (d.e - (k : Int)) / 2 - 1⟩

/-- 1/sqrt x. -/
def rsqOf (d : Dy) : Dy := rcpOf (sqrtOf d)

/-- One ulp of f32 at the magnitude of d (R181). -/
def ulpAt (d : Dy) : Dy := ⟨false, 1, if d.m = 0 then -149 else max (d.lead - 23) (-149)⟩

/-- |a - b| for signed numbers. -/
def Dy.dist (a b : Dy) : Dy :=
  let e := min a.e b.e
  ⟨false, (a.signed e - b.signed e).natAbs, e⟩

/-- The bound of Table 9.5 on the result r: the largest |c - r| allowed. -/
def specialBound (f : SFn) (x r : Dy) : Dy :=
  let twoUlp := { ulpAt r with m := 2 }
  match f with
  | .rcp => ulpAt r
  | .rsq => ulpAt r
  | .sqrt => ⟨false, 0, 0⟩
  | .ex2 => twoUlp
  | .lg2 =>
    let mag : Dy := { x with neg := false }
    if mag.cmp ⟨false, 1, -1⟩ != .lt && mag.cmp ⟨false, 2, 0⟩ != .gt then ⟨false, 1, -22⟩ else twoUlp
  | .sin => ⟨false, 1, -22⟩
  | .cos => ⟨false, 1, -22⟩
  | .tanh =>
    -- |tanh x| < 1, so that an ulp is never more than 2^-24, even where r is rounded to 1
    if twoUlp.cmp ⟨false, 1, -24⟩ == .lt then ⟨false, 1, -24⟩ else if twoUlp.cmp ⟨false, 1, -23⟩ == .gt then ⟨false, 1, -23⟩ else twoUlp

/-- Must the result be exact here (Table 9.5)? fex2 of an integer is where 2^x is representable, down to 2^-149; below that
any value within the bound may come (log 8). -/
def specialExact (f : SFn) (x : Dy) : Bool :=
  match f with
  | .ex2 => (x.scaled 0).2.2 == false && x.cmp ⟨true, 149, 0⟩ != .lt
  | .lg2 => x.m == 2 ^ Nat.log2 x.m
  | .sqrt => true
  | .rcp => false
  | .rsq => false
  | .sin => false
  | .cos => false
  | .tanh => false

/-- Is |c| at most 1, where the function's results never exceed it? -/
def specialUnit (f : SFn) (c : Dy) : Bool :=
  match f with
  | .sin => ({ c with neg := false } : Dy).cmp ⟨false, 1, 0⟩ != .gt
  | .cos => ({ c with neg := false } : Dy).cmp ⟨false, 1, 0⟩ != .gt
  | .tanh => ({ c with neg := false } : Dy).cmp ⟨false, 1, 0⟩ != .gt
  | .rcp => true
  | .rsq => true
  | .sqrt => true
  | .ex2 => true
  | .lg2 => true

/-- Does the pattern c meet the bound for the input x, whose result is r? -/
def specialOk (f : SFn) (x r : Dy) (c : Nat) : Bool :=
  match decodeF .f32 false c with
  | .fin d => specialUnit f d && (d.dist r).cmp (specialBound f x r) != .gt
  | .inf _ => false
  | .nan => false

/-- The result for a finite x that no Special covers. -/
def specialFinite (f : SFn) (ov : Ov) (ftz : Bool) (w : Word) (x r : Dy) : Option Nat :=
  let m : FMod := ⟨.rne, ov, ftz⟩
  if r.m ≠ 0 ∧ roundMag .f32 .rne r ≥ Fty.f32.infMag then overflowF .f32 .rne ov r.neg
  else
    let c := (Config.special f.code ftz w).toNat
    if specialExact f x || !specialOk f x r c then roundF .f32 m r
    else some (if ftz && c % 2 ^ 31 < 2 ^ 23 then c - c % 2 ^ 31 else c)

/-- A pole (R181). -/
def pole (ov : Ov) (neg : Bool) : Option Nat := overflowF .f32 .rne ov neg

/-- fspecial of a register (R181): `none` is NUMERIC. -/
def specialNat (f : SFn) (ov : Ov) (ftz : Bool) (w : Word) : Option Nat :=
  let nan := some Fty.f32.canonNaN
  let infty (n : Bool) := some (Fty.f32.withSign n Fty.f32.infMag)
  let zero (n : Bool) := some (Fty.f32.withSign n 0)
  let unit (n : Bool) := some (Fty.f32.withSign n 0x3F800000)
  match f, readF .f32 ftz w with
  | _, .nan => nan
  | .rcp, .inf n => zero n
  | .rcp, .fin d => if d.m = 0 then pole ov d.neg else specialFinite f ov ftz w d (rcpOf d)
  | .rsq, .inf n => if n then nan else zero false
  | .rsq, .fin d => if d.m = 0 then pole ov d.neg else if d.neg then nan else specialFinite f ov ftz w d (rsqOf d)
  | .sqrt, .inf n => if n then nan else infty false
  | .sqrt, .fin d => if d.m = 0 then zero d.neg else if d.neg then nan else specialFinite f ov ftz w d (sqrtOf d)
  | .ex2, .inf n => if n then zero false else infty false
  | .ex2, .fin d =>
    if d.m = 0 then unit false
    else
      let d' : Dy := if d.cmp ⟨true, 400, 0⟩ == .lt then ⟨true, 400, 0⟩ else if d.cmp ⟨false, 200, 0⟩ == .gt then ⟨false, 200, 0⟩ else d
      specialFinite f ov ftz w d' (ex2Of d')
  | .lg2, .inf n => if n then nan else infty false
  | .lg2, .fin d => if d.m = 0 then pole ov true else if d.neg then nan else specialFinite f ov ftz w d (lg2Of d)
  | .sin, .inf _ => nan
  | .sin, .fin d => if d.m = 0 then zero d.neg else specialFinite f ov ftz w d (trigOf 0 d)
  | .cos, .inf _ => nan
  | .cos, .fin d => if d.m = 0 then unit false else specialFinite f ov ftz w d (trigOf 1 d)
  | .tanh, .inf n => unit n
  | .tanh, .fin d => if d.m = 0 then zero d.neg else specialFinite f ov ftz w d (tanhOf d)

/-- fspecial of a register as a word. -/
def specialWord (f : SFn) (ov : Ov) (ftz : Bool) (w : Word) : Option Word := (specialNat f ov ftz w).map (BitVec.ofNat 32)

end Sys2Proof.Machine
end

