-- ==== Sys2Proof/Machine/Flags.lean ====
section
/-! DEFINITION. The results of the integer, bit-field, predicate and lane instructions as functions of their operands (R130-R146):
wrapping, saturation, carries, conditions. The Adnar has no flags register; its predicates take the results of these. -/
namespace Sys2Proof.Machine
open Sys2Proof

/-- The value of a source under U: two's complement when U = 0 (R131). -/
def ival (u : Bool) (x : Word) : Int := if u then (x.toNat : Int) else x.toInt

/-- W(x): reduction modulo 2^32 (R131). -/
def wrap (x : Int) : Word := BitVec.ofInt 32 x

/-- Clamping to the range of i32 or n32 (R131). -/
def saturate (u : Bool) (x : Int) : Word :=
  if u then wrap (max 0 (min 4294967295 x)) else wrap (max (-2147483648) (min 2147483647 x))

/-- The last step of an arithmetic instruction (R131). -/
def finish (sat u : Bool) (x : Int) : Word := if sat then saturate u x else wrap x

def addResult (sat u : Bool) (a b : Word) : Word := finish sat u (ival u a + ival u b)
def subResult (sat u : Bool) (a b : Word) : Word := finish sat u (ival u a - ival u b)
def mulResult (a b : Word) : Word := wrap ((a.toNat : Int) * b.toNat)
def mulhResult (u : Bool) (a b : Word) : Word := wrap (ival u a * ival u b / 4294967296)
def madResult (sat u : Bool) (a b c : Word) : Word := finish sat u (ival u a * ival u b + ival u c)
def minResult (u : Bool) (a b : Word) : Word := if ival u a ≤ ival u b then a else b
def maxResult (u : Bool) (a b : Word) : Word := if ival u a ≤ ival u b then b else a
def clampResult (u : Bool) (a b c : Word) : Word := minResult u (maxResult u a b) c
def negResult (sat : Bool) (a : Word) : Word := finish sat false (-a.toInt)
def absResult (sat : Bool) (a : Word) : Word := finish sat false (a.toInt.natAbs : Int)

/-- iaddc: the sum and the carry out (R133). -/
def addcResult (a b : Word) (ci : Bool) : Word × Bool :=
  let x := a.toNat + b.toNat + ci.toNat
  (BitVec.ofNat 32 x, decide (2 ^ 32 ≤ x))

/-- isubb: the difference and the borrow out (R133). -/
def subbResult (a b : Word) (ci : Bool) : Word × Bool :=
  let x : Int := (a.toNat : Int) - b.toNat - ci.toNat
  (wrap x, decide (x < 0))

/-- Table 7.3: the quotient. -/
def divResult (u : Bool) (a b : Word) : Word :=
  if b = 0#32 then 0xFFFFFFFF#32 else wrap ((ival u a).tdiv (ival u b))

/-- Table 7.3: the remainder, with the sign of a. -/
def remResult (u : Bool) (a b : Word) : Word :=
  if b = 0#32 then a else wrap ((ival u a).tmod (ival u b))

/-- shl, shr and sar by the whole count k (R135). -/
def shlResult (a : Word) (k : Nat) : Word := if k ≥ 32 then 0#32 else a <<< k
def shrResult (a : Word) (k : Nat) : Word := if k ≥ 32 then 0#32 else a >>> k
def sarResult (a : Word) (k : Nat) : Word := a.sshiftRight (min k 31)
def rotlResult (a : Word) (k : Nat) : Word := a.rotateLeft (k % 32)
def rotrResult (a : Word) (k : Nat) : Word := a.rotateRight (k % 32)

/-- The indices of the 1 bits of a word. -/
def onesOf (a : Word) : List Nat := (List.range 32).filter (fun i => a.getLsbD i)

def popcResult (a : Word) : Word := BitVec.ofNat 32 (onesOf a).length
def clzResult (a : Word) : Word := BitVec.ofNat 32 (match (onesOf a).getLast? with | some i => 31 - i | none => 32)
def ctzResult (a : Word) : Word := BitVec.ofNat 32 (match (onesOf a).head? with | some i => i | none => 32)
def brevResult (a : Word) : Word := a.reverse

/-- Position and length of a bit-field control word (R136). -/
def fieldPos (x : Word) : Nat := min (x.toNat % 256) 32
def fieldLen (x : Word) : Nat := min (x.toNat / 256 % 256) 32

/-- bfx (R136). -/
def bfxResult (u : Bool) (a b : Word) : Word :=
  let n := fieldLen b
  let f : Nat := a.toNat / 2 ^ fieldPos b % 2 ^ n
  if !u && decide (1 ≤ n) && decide (2 ^ (n - 1) ≤ f) then wrap ((f : Int) - 2 ^ n) else BitVec.ofNat 32 f

/-- bfi (R136). -/
def bfiResult (a b c : Word) : Word :=
  let m := BitVec.ofNat 32 ((2 ^ fieldLen c - 1) * 2 ^ fieldPos c)
  (a &&& ~~~m) ||| (BitVec.ofNat 32 (b.toNat * 2 ^ fieldPos c) &&& m)

/-- movh (Table 7.4). -/
def movhResult (a : Word) (imm : BitVec 16) : Word := imm ++ a.setWidth 16

/-- Table 7.1's conditions on two numbers. -/
def condHolds (c : Cond) (a b : Int) : Bool :=
  match c with
  | .eq => a == b
  | .ne => a != b
  | .lt => decide (a < b)
  | .le => decide (a ≤ b)
  | .gt => decide (b < a)
  | .ge => decide (b ≤ a)

/-- icmp before pC is taken in (R137). -/
def icmpResult (c : Cond) (u : Bool) (a b : Word) : Bool := condHolds c (ival u a) (ival u b)

/-- The value of a pair under U. -/
def ival64 (u : Bool) (x : DWord) : Int := if u then (x.toNat : Int) else x.toInt

def wcmpResult (c : Cond) (u : Bool) (a b : DWord) : Bool := condHolds c (ival64 u a) (ival64 u b)
def wshlResult (a : DWord) (k : Nat) : DWord := if k ≥ 64 then 0#64 else a <<< k
def wmadResult (u : Bool) (a b : Word) (c : DWord) : DWord := BitVec.ofInt 64 (ival u a * ival u b + (c.toNat : Int))
def waddiResult (a : DWord) (imm : BitVec 31) : DWord := a + imm.signExtend 64

/-- pset: bits 0-11 of a under the mask b (R140). -/
def psetResult (p : BitVec 12) (a b : Word) : BitVec 12 :=
  (p &&& ~~~(b.setWidth 12)) ||| (a.setWidth 12 &&& b.setWidth 12)

/-- lperm: the source lane by mode, if it is a lane (R143). -/
def permSource (mode : PermMode) (lane k : Nat) : Option Nat :=
  let src : Int := match mode with
    | .sel => k
    | .back => (lane : Int) - k
    | .fwd => lane + k
    | .flip => (lane ^^^ k : Nat)
    | .rot => ((lane + k) % 8 : Nat)
  if 0 ≤ src ∧ src ≤ 7 then some src.toNat else none

/-- One step of a cred reduction (R145). -/
def credStep (op : CredOp) (u : Bool) (x y : Word) : Word :=
  match op with
  | .add => x + y
  | .min => minResult u x y
  | .max => maxResult u x y
  | .and => x &&& y
  | .or => x ||| y
  | .xor => x ^^^ y
  | .fadd => BitVec.ofNat 32 ((fAdd .f32 pairMod x.toNat y.toNat).getD 0)
  | .fmin => BitVec.ofNat 32 (fMin .f32 false x.toNat y.toNat)
  | .fmax => BitVec.ofNat 32 (fMax .f32 false x.toNat y.toNat)

/-- Is it one of the f32 reductions? -/
def CredOp.isFloat : CredOp → Bool
  | .fadd => true | .fmin => true | .fmax => true
  | .add => false | .min => false | .max => false | .and => false | .or => false | .xor => false

/-- cred over the participants' values in ascending lane order; a single NaN is made canonical (R145). -/
def credResult (op : CredOp) (u : Bool) (xs : List Word) : Word :=
  match xs with
  | [] => 0#32
  | x :: rest =>
    let x' := if CredOp.isFloat op && isNaN .f32 x.toNat then 0x7FC00000#32 else x
    rest.foldl (credStep op u) x'

/-- A mask with the bits of the lanes in the list. -/
def laneMask (ls : List Nat) : BitVec 8 := ls.foldl (fun m l => m ||| (1#8 <<< l)) 0#8

/-- An atomic operation on 32 or 64 bits (Table 10.4, R196); f32 addition is to nearest even with subnormals kept. -/
def atomResult (op : Aop) (ty : Aty) (w64 : Bool) (old v : DWord) : DWord :=
  let bits := if w64 then 64 else 32
  let lo (x : DWord) : Word := x.setWidth 32
  let sval (x : DWord) : Int := if w64 then x.toInt else (lo x).toInt
  let uval (x : DWord) : Nat := x.toNat % 2 ^ bits
  let less := match ty with
    | .i32 => decide (sval old ≤ sval v)
    | .n32 => decide (uval old ≤ uval v)
    | .f32 => true
  let cut (x : DWord) : DWord := if w64 then x else x &&& 0xFFFFFFFF#64
  cut (match op, ty with
    | .add, .f32 => BitVec.ofNat 64 ((fAdd .f32 pairMod (lo old).toNat (lo v).toNat).getD 0)
    | .add, _ => old + v
    | .min, .f32 => BitVec.ofNat 64 (fMin .f32 false (lo old).toNat (lo v).toNat)
    | .max, .f32 => BitVec.ofNat 64 (fMax .f32 false (lo old).toNat (lo v).toNat)
    | .min, _ => if less then old else v
    | .max, _ => if less then v else old
    | .and, _ => old &&& v
    | .or, _ => old ||| v
    | .xor, _ => old ^^^ v
    | .exch, _ => v)

end Sys2Proof.Machine
end

