-- ==== Sys2Proof/Machine/Memory.lean ====
section
/-! DEFINITION. Memories as lists of (address, byte) pairs with strictly rising addresses. In `Memory` (HBM, the Basins, kite cells, host
memory) an unlisted address reads 0 and no listed byte is 0 (log 5); in `Cells` (near stores, spill windows, operand slots) an unlisted
address holds what nothing has written since the contents became undefined (log 6). -/
namespace Sys2Proof.Machine
open Sys2Proof

/-- A memory whose unlisted addresses read 0. -/
abbrev Memory := List Host.Cell

/-- A store whose unlisted addresses hold undefined values. -/
abbrev Cells := List Host.Cell

/-- What an unlisted address of a `Memory` reads as (log 5). -/
def Memory.blank : Byte := 0#8

/-- The listed byte at an address, if any. -/
def cellAt (m : List Host.Cell) (a : Nat) : Option Byte :=
  match m with
  | [] => none
  | (k, v) :: rest => if k = a then some v else cellAt rest a

/-- The list without the address. -/
def cellDrop (m : List Host.Cell) (a : Nat) : List Host.Cell :=
  match m with
  | [] => []
  | (k, v) :: rest => if k = a then rest else (k, v) :: cellDrop rest a

/-- The list with the byte at the address, in order. -/
def cellPut (m : List Host.Cell) (a : Nat) (b : Byte) : List Host.Cell :=
  match m with
  | [] => [(a, b)]
  | (k, v) :: rest =>
    if a < k then (a, b) :: (k, v) :: rest
    else if k = a then (a, b) :: rest
    else (k, v) :: cellPut rest a b

/-- Addresses strictly rising, all above the bound. -/
def risingFrom (lo : Option Nat) (m : List Host.Cell) : Bool :=
  match m with
  | [] => true
  | (k, _) :: rest => (match lo with | some l => decide (l < k) | none => true) && risingFrom (some k) rest

/-- The canonical form of a `Memory`. -/
def Memory.wf (m : Memory) : Bool := risingFrom none m && m.all (fun c => c.2 != Memory.blank)

/-- The canonical form of `Cells`. -/
def Cells.wf (m : Cells) : Bool := risingFrom none m

/-- The byte at an address. -/
def Memory.get (m : Memory) (a : Nat) : Byte := (cellAt m a).getD Memory.blank

/-- A byte written: the blank byte removes its entry. -/
def Memory.set (m : Memory) (a : Nat) (b : Byte) : Memory := if b = Memory.blank then cellDrop m a else cellPut m a b

/-- n bytes from an address upwards. -/
def Memory.read (m : Memory) (a n : Nat) : List Byte := (List.range n).map (fun i => m.get (a + i))

/-- Bytes written from an address upwards. -/
def Memory.write (m : Memory) (a : Nat) (bs : List Byte) : Memory :=
  match bs with
  | [] => m
  | b :: rest => Memory.write (m.set a b) (a + 1) rest

/-- Bytes written where the mask has a 1 (a byte mask over a line, R249). -/
def Memory.writeMasked (m : Memory) (a : Nat) (mask : Nat) (bs : List Byte) : Memory :=
  match bs with
  | [] => m
  | b :: rest => Memory.writeMasked (if mask % 2 = 1 then m.set a b else m) (a + 1) (mask / 2) rest

/-- A range made blank. -/
def Memory.clear (m : Memory) (lo len : Nat) : Memory := m.filter (fun c => decide (c.1 < lo) || decide (lo + len ≤ c.1))

/-- A range whose contents have become undefined. -/
def Cells.forget (m : Cells) (lo len : Nat) : Cells := m.filter (fun c => decide (c.1 < lo) || decide (lo + len ≤ c.1))

/-- Zero written to every cell of a range. -/
def Cells.zero (m : Cells) (lo len : Nat) : Cells :=
  m.filter (fun c => decide (c.1 < lo)) ++ (List.range len).map (fun i => (lo + i, 0#8)) ++ m.filter (fun c => decide (lo + len ≤ c.1))

/-- Bytes written into a store. -/
def Cells.write (m : Cells) (a : Nat) (bs : List Byte) : Cells :=
  match bs with
  | [] => m
  | b :: rest => Cells.write (cellPut m a b) (a + 1) rest

/-- The value of little-endian bytes (R4). -/
def ofBytes : List Byte → Nat
  | [] => 0
  | b :: rest => b.toNat + 256 * ofBytes rest

/-- n little-endian bytes of a value (R4). -/
def toBytes (n v : Nat) : List Byte :=
  match n with
  | 0 => []
  | k + 1 => BitVec.ofNat 8 v :: toBytes k (v / 256)

/-- n big-endian bytes of a value. -/
def toBytesBE (n v : Nat) : List Byte := (toBytes n v).reverse

/-- A 64-bit word of memory. -/
def Memory.word64 (m : Memory) (a : Nat) : DWord := BitVec.ofNat 64 (ofBytes (m.read a 8))

end Sys2Proof.Machine
end

