-- ==== Sys2Proof/Machine/Units.lean ====
section
/-! DEFINITION. The records that the machine's state is made of: lanes, crews, workgroups, grids, virtual devices, and the engines' and
links' own records. Plain data; State.lean puts them together. -/
namespace Sys2Proof.Machine
open Sys2Proof

/-! ### Crews (chapters 6, 17, 21) -/

/-- Lane states (Table 6.1); a waiting lane names its join register, or the muster set of its barrier and whether it entered by barw. -/
inductive LaneSt | run | held | parked | joinwait (k : Nat) | barwait (m : Nat) | exited
  deriving DecidableEq, Repr, Inhabited

/-- Kinds of outstanding long-latency instruction (R113, R116, Table 21.3). -/
inductive PendKind | basin | alu | xrd | ldf | atomf | kfaa | wharf
  deriving DecidableEq, Repr, Inhabited

/-- One outstanding long-latency instruction of a lane (R113-R116): its window, its first register and how many it has, those it will still write, and its
result and clock where they are already decided. -/
structure Pending where
  id    : Nat
  kind  : PendKind := .alu
  win   : Nat := 0
  base  : Nat := 0
  width : Nat := 1
  regs  : List Nat := []
  value : List Word := []
  clock : Option Clock := none
  deriving DecidableEq, Repr, Inhabited

structure Lane where
  pc    : BitVec 32 := 0
  st    : LaneSt := .run
  cnt   : BitVec 8 := 0
  yb    : Nat := 0
  preds : BitVec 12 := 0
  regs  : List Word := []
  pend  : List Pending := []
  clock : Clock := Clock.zero
  flags : List Nat := []
  deriving DecidableEq, Repr, Inhabited

/-- A join register (R118). -/
structure Join where
  mask : BitVec 8 := 0
  wait : BitVec 8 := 0
  deriving DecidableEq, Repr, Inhabited

/-- A trap with its information (R312). -/
structure Trap where
  code : BitVec 8
  info : DWord
  pc   : BitVec 32 := 0
  deriving DecidableEq, Repr, Inhabited

/-- Why a crew is stopped for the debugger (R324, R325). -/
inductive StopWhy | breakpoint | step | host
  deriving DecidableEq, Repr, Inhabited

/-- A resident crew (Table 21.3) in its seat. `entry` is a trap that is being entered; `skip` the comparator that it stopped at; `step` a step still to
come, and `stepEnd` one whose packet trapped, which ends when handler mode begins (R325). -/
structure Crew where
  live   : Bool := false
  wg     : Nat := 0
  num    : Nat := 0
  role   : Nat := 0
  core   : Nat := 0
  part   : Nat := 0
  pos    : Nat := 0
  slot   : Nat := 0
  ready  : Nat := 0
  fair   : BitVec 8 := 64
  lanes  : List Lane := []
  joins  : List Join := []
  hm     : Bool := false
  hl     : BitVec 8 := 0
  tcode  : BitVec 8 := 0
  tpc    : BitVec 32 := 0
  tinfo  : DWord := 0
  pend   : Option Trap := none
  entry  : Option Trap := none
  halted : Option StopWhy := none
  skip   : Option (Nat) := none
  step   : Bool := false
  stepEnd : Bool := false
  deriving DecidableEq, Repr, Inhabited

/-! ### Work (chapters 1, 2, 10, 13) -/

/-- A format slot as the launch record gives it (Table 2.4). -/
structure FmtSlot where
  fmt    : Nat := 15
  sfmt   : Nat := 0
  ov     : Ov := .sat
  rm     : Rm := .rne
  ftz    : Bool := false
  pitch  : Nat := 0
  xscale : BitVec 16 := 0
  deriving DecidableEq, Repr, Inhabited

/-- A manifest (Table 2.5). The lists have five entries; stride 0 is not used. -/
structure Manifest where
  base    : Nat := 0
  fill    : Word := 0
  scl     : Bool := false
  swz     : Nat := 0
  rank    : Nat := 1
  fmt     : Nat := 0
  dims    : List Nat := []
  strides : List Nat := []
  box     : List Nat := []
  deriving DecidableEq, Repr, Inhabited

/-- The first trap of an aborted grid (Table 23.2), with its clock, %core and %part, by which traps are ranked (R331). -/
structure AbortRec where
  stat  : Nat
  t     : Nat := 0
  core  : Nat := 0
  part  : Nat := 0
  hm    : Bool := false
  wg    : Nat := 0
  crew  : Nat := 0
  pc    : BitVec 32 := 0
  info  : DWord := 0
  deriving DecidableEq, Repr, Inhabited

/-- The item queue of one core for a launch (R119). `fell` is when it last fell to 64 items or fewer, if it is owed a chunk. -/
structure ItemQ where
  core  : Nat
  items : List Nat := []
  fell  : Option Nat := none
  deriving DecidableEq, Repr, Inhabited

inductive GridSt | active | retired | discarded
  deriving DecidableEq, Repr, Inhabited

/-- A launched grid: the copies that R30 keeps, and its progress; `phase` is 0 until its retirement begins, then 1 while its regions are hashed and 2 while its
record is paid for; `tried` once the dispatcher has found no place for its next workgroup, until a workgroup of the world retires (R59, R61). -/
structure Grid where
  st      : GridSt := .active
  vd      : Nat := 0
  ctx     : Nat := 0
  cgen    : Nat := 0
  launch  : Nat := 0
  keyid   : Nat := 0
  code    : Nat := 0
  text    : Nat := 0
  words   : Nat := 0
  entry   : Nat := 0
  handler : Option Nat := none
  sealNum : Nat := 0
  sealGen : Nat := 0
  gx      : Nat := 1
  gy      : Nat := 1
  gz      : Nat := 1
  crews   : Nat := 1
  regs    : Nat := 16
  tiles   : Nat := 0
  slots   : Nat := 0
  accs    : Nat := 0
  near    : Nat := 0
  spill   : Nat := 0
  roles   : List Nat := []
  muster  : List DWord := []
  mans    : List Manifest := []
  fss     : List FmtSlot := []
  args    : Nat := 0
  regions : List (Nat × Nat) := []
  meas    : Bool := false
  cor     : Bool := false
  form    : Nat := 0
  prod    : Option Nat := none
  mapA    : Nat := 0
  mapB    : Nat := 0
  mapC    : Nat := 0
  cbmp    : Nat := 0
  icount  : Nat := 0
  nextItem : Nat := 0
  lastItem : Nat := 0
  queues  : List ItemQ := []
  nextWg  : Nat := 0
  order   : Nat := 0
  start   : Option Nat := none
  wgset   : Nat := 0
  bits    : List Nat := []
  aborted : Option AbortRec := none
  fb      : Bool := false
  phase   : Nat := 0
  tried   : Bool := false
  deriving DecidableEq, Repr, Inhabited

/-- Tile-entry states (R199). -/
inductive TileSt | empty | filling | ready | draining
  deriving DecidableEq, Repr, Inhabited

/-- A tile-table entry (R199), with the reply clocks of its chunks (R295) and the message clock of a landing. Since its last fill began: the near bytes of the
image from BASE on, or the Basin address and length of a cpb.in's, and the chunks that some wait has acquired (R206, R215). -/
structure Tile where
  st     : TileSt := .empty
  phase  : Bool := false
  base   : Nat := 0
  len    : Nat := 0
  bitmap : DWord := 0
  clocks : List (Nat × Clock) := []
  fillLen : Nat := 0
  fillAt : Option (Nat × Nat) := none
  seen   : DWord := 0
  deriving DecidableEq, Repr, Inhabited

/-- A muster-table entry (R25, R300). -/
structure Muster where
  member  : DWord := 0
  arrival : DWord := 0
  phase   : Bool := false
  clock   : Clock := Clock.zero
  done    : Clock := Clock.zero
  deriving DecidableEq, Repr, Inhabited

/-- An operand slot (R228). -/
structure OSlot where
  owner  : Option Nat := none
  fmt    : Option Nat := none
  scl    : Bool := false
  xscale : BitVec 16 := 0
  serial : List Nat := []
  bytes  : Cells := []
  deriving DecidableEq, Repr, Inhabited

/-- An accumulator tile (R229): `none` while its contents are undefined. -/
structure Acc where
  serial : List Nat := []
  vals   : Option (List Word) := none
  i8     : Bool := false
  deriving DecidableEq, Repr, Inhabited

/-- The matrix pool of a workgroup on one partition (R227). -/
structure Pool where
  part  : Nat := 0
  slots : List OSlot := []
  accs  : List Acc := []
  deriving DecidableEq, Repr, Inhabited

/-- A resident workgroup. One of a co-resident grid is reserved before it is `placed` (R61), and its
crews have `started` 32 clk later (R60); `saved` while its state lies in the context area (R319). It has
`retired` its crews before its reservations go, `cut` if an abort stopped them or its completion bit cannot be written; `asked` once its completion bit is asked for; `image` its near store and spill
windows while it is saved, `records` where its crew records lie in the context area, and `late` the crews whose results came since (R318). -/
structure Wg where
  live    : Bool := false
  grid    : Nat := 0
  num     : Nat := 0
  core    : Nat := 0
  near    : Nat := 0
  serial  : List Nat := []
  crews   : List Nat := []
  tiles   : List Tile := []
  musters : List Muster := []
  pools   : List Pool := []
  placed  : Bool := false
  started : Bool := false
  retired : Bool := false
  cut     : Bool := false
  asked   : Bool := false
  saved   : Bool := false
  image   : Cells := []
  records : List Nat := []
  late    : List Nat := []
  deriving DecidableEq, Repr, Inhabited

/-! ### Matrix units (R230, R231) -/

/-- A histogram set (R230): `none` until an xhcfg names it. -/
structure Hist where
  base : Int := 0
  bins : List Nat := []
  spec : Nat := 0
  deriving DecidableEq, Repr, Inhabited

/-- An operation in an engine's queue. A multiplication holds its slots' scale arrangement as it stood at issue, a fence the fills that it waits
for. -/
inductive MKindOp
  | fill (slot tile off pitch rb : Nat)
  | mac (a b acc : Nat) (fs : FmtSlot) (sat sclA sclB : Bool) (xa xb : BitVec 16)
  | clr (acc : Nat)
  | drain (acc off : Nat) (fs : FmtSlot) (hist : Option Nat)
  | fence (fills : List Nat)
  deriving DecidableEq, Repr, Inhabited

/-- One queued operation: the crew, its start and completion clocks, the near byte at which a fill reads, what the operation read or worked
out at its start, the near bytes of an xst that raced with other writes, and whether its histogram has counted it. -/
structure MOp where
  id      : Nat
  crew    : Nat
  wg      : Nat
  op      : MKindOp
  start   : Option Nat := none
  done    : Nat := 0
  src     : Nat := 0
  bytes   : List Byte := []
  words   : List Word := []
  torn    : Cells := []
  counted : Bool := false
  deriving DecidableEq, Repr, Inhabited

/-- The matrix unit of a partition. -/
structure MUnit where
  core  : Nat
  part  : Nat
  fillQ : List MOp := []
  arrQ  : List MOp := []
  hists : List (Option Hist) := []
  deriving DecidableEq, Repr, Inhabited

/-! ### Near, Basin and translation (chapters 10, 12) -/

/-- An instruction in the Basin space whose lines are on their way (R192). -/
structure BasinOp where
  id    : Nat
  vd    : Nat
  core  : Nat
  crew  : Nat
  kind  : Nat := 0
  aop   : Aop := .add
  aty   : Aty := .i32
  wd    : Width := .b32
  lanes : List (Nat × Nat × List Byte × List Byte) := []
  todo  : List Nat := []
  got   : List (Nat × List Byte) := []
  dead  : List Nat := []
  deriving DecidableEq, Repr, Inhabited

/-- A leaf of the page tables (Table 12.5) with the page it maps. -/
structure Leaf where
  va    : Nat := 0
  size  : Nat := 4096
  pa    : Nat := 0
  pkg   : Nat := 0
  keyid : Nat := 0
  host  : Bool := false
  cnt   : Bool := false
  w     : Bool := false
  r     : Bool := false
  deriving DecidableEq, Repr, Inhabited

/-- A TLB entry of a VD, with its last use (R219). -/
structure TlbEntry where
  vd   : Nat
  leaf : Leaf
  used : Nat := 0
  deriving DecidableEq, Repr, Inhabited

/-- What a translation is for: a far word that has not issued, an access held on a page, a Barge page, a cpre page, a fill, a landing beat. -/
inductive TCont
  | word (crew : Nat)
  | far (id : Nat)
  | barge (req line : Nat)
  | warm (req page : Nat)
  | fill (id : Nat)
  | landing (vd rx line : Nat)
  | gather (vd tx line : Nat)
  | cp (next : Instr)
  | entry (ctx : Nat)
  deriving DecidableEq, Repr, Inhabited

/-- Where a translation stands. -/
inductive TStage
  | core
  | l2
  | walk (level table : Nat)
  | held (fid : Nat)
  | wantRecord
  | spent
  deriving DecidableEq, Repr, Inhabited

/-- What a translation came to (R218): a leaf, an entry with V = 0 at a level, a violation, or a line of a table that cannot be read (R311). -/
inductive TRes
  | leaf (l : Leaf)
  | absent (level : Nat)
  | violation
  | hurt (line : Nat)
  deriving DecidableEq, Repr, Inhabited

/-- A translation under way (R219-R222). `acc` and `src` are the codes of Table 12.4; `stale` the scopes invalidated since it began (R225). -/
structure TJob where
  id    : Nat
  vd    : Nat
  core  : Nat
  va    : Nat
  acc   : Nat := 0
  src   : Nat := 0
  keyid : Nat := 0
  cont  : TCont
  stage : TStage := .core
  res   : Option TRes := none
  stale : List InvScope := []
  deriving DecidableEq, Repr, Inhabited

/-- An unreplayed FAULT record (R221). -/
structure FaultRec where
  fid  : Nat
  page : Nat
  deriving DecidableEq, Repr, Inhabited

/-- A fault-queue record that waits for room (R221): the fields of Table 12.4. `typ` is 0 FAULT, 1 HINT, 2 COUNTER. -/
structure HeldRec where
  va    : Nat
  core  : Nat := 255
  level : Nat := 0
  acc   : Nat := 0
  src   : Nat := 0
  typ   : Nat := 0
  arg   : Nat := 0
  deriving DecidableEq, Repr, Inhabited

/-- The packet streams between a tenant's world here and one other package (R253): the next number out, numbers that discarded packets have left (R266), the
next number in, and packets that came early. -/
structure Stream where
  tenant : Nat
  peer   : Nat
  out    : BitVec 16 := 0
  left   : List (BitVec 16) := []
  want   : BitVec 16 := 0
  early  : List Packet := []
  deriving DecidableEq, Repr, Inhabited

/-- Kinds of Barge request (Table 12.2). -/
inductive BKind | cpy | cpo | cpbIn | cpbOut | warm | mig
  deriving DecidableEq, Repr, Inhabited

inductive BLineSt | fresh | trans | held | ready | queued | started | done | dropped
  deriving DecidableEq, Repr, Inhabited

/-- One 64-byte global line of a request (R213). -/
structure BLine where
  va  : Nat
  low : Nat := 0
  st  : BLineSt := .fresh
  leaf : Option Leaf := none
  deriving DecidableEq, Repr, Inhabited

/-- A Barge request (R212), until it is complete. `lines` are its global lines (for a cpre its pages), `chunks` the chunks whose bits are not
set yet, `basinQ` and `basinGot` the Basin lines asked for and served, `buf` the image bytes that wait for the other side, `torn` those that raced with a crew's
writes (R296), `word` the request word (R321). -/
structure BReq where
  id    : Nat
  kind  : BKind := .cpy
  vd    : Nat := 0
  wg    : Nat := 0
  crew  : Nat := 0
  lane  : Nat := 0
  core  : Nat := 0
  tile  : Nat := 0
  man   : Manifest := {}
  coords : List Int := []
  baddr : Nat := 0
  keyid : Nat := 0
  lines : List BLine := []
  chunks : List Nat := []
  buf   : Cells := []
  torn  : Cells := []
  word  : DWord := 0
  basinQ : List Nat := []
  basinGot : List Nat := []
  failed : Option Trap := none
  begun : Bool := false
  deriving DecidableEq, Repr, Inhabited

/-- A line of an instruction cache (R360): its address with the generation of its sealed region, the launches whose placement fills pin it, the page it was
read through and the region's number. -/
structure ILine where
  core  : Nat
  part  : Nat
  va    : Nat
  gen   : Nat := 0
  words : List DWord := []
  pins  : List Nat := []
  used  : Nat := 0
  vd    : Nat := 0
  page  : Nat × Nat := (0, 0)
  region : Nat := 0
  deriving DecidableEq, Repr, Inhabited

/-- An instruction-cache fill of one line (R359): asked for, by a lookup of its own (R207, R219), then come back with its data, or with the trap that it ends in. `pins` are the launches whose placement fills it belongs to, `leaf` the page it reads through. -/
structure Fill where
  id    : Nat
  core  : Nat
  part  : Nat
  grid  : Nat
  va    : Nat
  pins  : List Nat := []
  leaf  : Option Leaf := none
  asked : Bool := false
  data  : Option (List Byte) := none
  fail  : Option (BitVec 8) := none
  deriving DecidableEq, Repr, Inhabited

/-! ### Far requests and packets (chapter 15) -/

/-- What a write of the command processor to another package is: a SIGNAL, with its IRQ; a workgroup's completion bit; zeros of a bitmap; a grid's status
record; a receipt; or one that its context, reset since, made, of which nothing follows any more (R56). -/
inductive CpPut | signal (irq : Bool) | bit (wg : Nat) | zero | record (grid : Nat) | receipt | gone
  deriving DecidableEq, Repr, Inhabited

/-- Who made a far request. -/
inductive FarSrc
  | loads (crew : Nat) (lanes : List (Nat × Nat × Nat))
  | atomic (crew lane entry : Nat)
  | store (crew : Nat) (lanes : List Nat)
  | flag (crew lane : Nat)
  | barge (req line : Nat)
  | fill (id : Nat)
  | landing (vd rx : Nat)
  | gather (vd tx line : Nat)
  | cp (ctx : Nat) (put : CpPut)
  | peer (p : Packet)
  deriving DecidableEq, Repr, Inhabited

/-- Where a far request stands: behind its page, its flag queue or its side log; in the outbound queue or its home's; accepted there, with its answer on
the way; on a fibre; answered at the source. -/
inductive FarSt | translating | flagQ | sideLog | queued | home | memory | answering | sent | performed
  deriving DecidableEq, Repr, Inhabited

/-- A far request (R259-R264): a read of a line, or a write, atomic or flag. `order` numbers its coming to its home's queue (R292), and `left` is the clock
of its tag flit (R256, R290). -/
structure Far where
  id    : Nat
  vd    : Nat := 0
  core  : Nat := 0
  src   : FarSrc
  op    : PType := .read
  aop   : Aop := .add
  aty   : Aty := .i32
  wd    : Width := .b32
  keyid : Nat := 0
  va    : Nat := 0
  leaf  : Option Leaf := none
  mask  : Nat := 0
  bytes : List Byte := []
  cmp   : DWord := 0
  sw    : Bool := false
  clock : Clock := Clock.zero
  wseq  : Option (BitVec 16) := none
  order : Nat := 0
  left  : Nat := 0
  torn  : Nat := 0
  fb    : Bool := false
  st    : FarSt := .translating
  deriving DecidableEq, Repr, Inhabited

/-! ### Messages and broadcasts (chapter 16) -/

/-- Status of a Wharf entry (Table 16.2). -/
inductive WStat | pending | done | trunc | cancelled | closed | access | none | stale
  deriving DecidableEq, Repr, Inhabited

/-- A place that a message is read from or lands in: a tile of a workgroup, or the box of a manifest. -/
inductive WPlace | tile (wg idx : Nat) | box (man : Manifest) (coords : List Int)
  deriving DecidableEq, Repr, Inhabited

/-- A message as the first packet names it (R269), with the bytes that have come so far. -/
structure Msg where
  srcPkg : Nat := 0
  srcVd  : Nat := 0
  srank  : Nat := 0
  tag    : Word := 0
  mseq   : BitVec 16 := 0
  mlen   : Nat := 0
  rts    : Bool := false
  bytes  : List Byte := []
  clock  : Option Clock := none
  keyid  : Nat := 0
  acked  : Bool := false
  deriving DecidableEq, Repr, Inhabited

/-- Where a receive stands: its word's match step not yet made, in the posted list, matched, or complete. -/
inductive RxSt | queued | posted | matched | final
  deriving DecidableEq, Repr, Inhabited

/-- An entry of the receive table (R270, R271, R278), at its index. `asked` and `landed` count 64-byte beats, `flying` global writes not yet
performed; `lines` are the global lines of a box that the message reaches; `lane` posted it, under the tile's `phase`; `torn` are the landing bytes that raced
with a crew's writes (R296). -/
structure Rx where
  gen   : BitVec 19 := 0
  live  : Bool := false
  nr    : Bool := false
  rank  : Nat := 0
  rmask : Nat := 0
  rtag  : Word := 0
  tmask : Word := 0
  place : WPlace := .tile 0 0
  wg    : Nat := 0
  crew  : Nat := 0
  lane  : Nat := 0
  phase : Bool := false
  core  : Nat := 0
  keyid : Nat := 0
  cap   : Nat := 0
  cw    : Option Nat := none
  st    : RxSt := .queued
  msg   : Msg := {}
  lines : List BLine := []
  asked : Nat := 0
  landed : Nat := 0
  flying : Nat := 0
  torn  : Cells := []
  failed : Option WStat := none
  stat  : WStat := .pending
  deriving DecidableEq, Repr, Inhabited

/-- An entry of the send table (R270, R277), at its index. `again` is set from a NACK with STAT FULL, or for a message that must follow one
(R273), and `skips` counts FULL answers to come to packets that have been sent again since; `lines` and `buf` are the global lines of a box and the bytes that have been read, `src` where in this package's memory each was read. -/
structure Tx where
  gen   : BitVec 19 := 0
  live  : Bool := false
  nr    : Bool := false
  crew  : Nat := 0
  lane  : Nat := 0
  wg    : Nat := 0
  core  : Nat := 0
  place : WPlace := .tile 0 0
  rank  : Nat := 0
  pkg   : Nat := 0
  dvd   : Nat := 0
  tag   : Word := 0
  mlen  : Nat := 0
  mseq  : BitVec 16 := 0
  keyid : Nat := 0
  clock : Clock := Clock.zero
  bytes : List Byte := []
  lines : List BLine := []
  buf   : Cells := []
  src   : List (Nat × Nat) := []
  ready : Bool := false
  sent  : Bool := false
  again : Option Nat := none
  skips : Nat := 0
  stat  : WStat := .pending
  deriving DecidableEq, Repr, Inhabited

/-- An entry of a world's input queue at the Wharf (R272). -/
inductive WIn
  | arrive (p : Packet)
  | post (rx : Nat)
  | cancel (handle : Word)
  | probe (crew lane entry : Nat) (rank rmask : Nat) (rtag tmask : Word)
  | test (crew lane entry : Nat) (handle : Word)
  deriving DecidableEq, Repr, Inhabited

/-- A broadcast of this package, waiting or on the star (R284, R286), with its issuer. `after` is the number of the next request when a .rel
one was issued. -/
structure Kq where
  b     : Bcast
  crew  : Nat := 0
  lane  : Nat := 0
  entry : Option Nat := none
  after : Nat := 0
  sent  : Bool := false
  deriving DecidableEq, Repr, Inhabited

/-! ### Rota requests (R64, R65) -/

/-- What a queued request asks of its structure. -/
inductive ReqItem
  | basin (op line : Nat)
  | bargeBasin (req line : Nat)
  | beat (req line : Nat)
  | tlb (job : Nat)
  | walk (job : Nat)
  | access (far : Nat)
  | cpWord (ctx : Nat)
  | work (ctx words blocks : Nat) (next : Instr)
  | mstep
  | land (rx : Nat)
  | send (p : Packet)
  | resend (p : Packet)
  | copy (vd granule : Nat)
  | tree (far level : Nat)
  deriving DecidableEq, Repr, Inhabited

/-- A request waiting in a world's queue at a structure; it enters at clock `after`. -/
structure Req where
  st    : Struct
  world : Nat
  item  : ReqItem
  after : Nat := 0
  deriving DecidableEq, Repr, Inhabited

/-! ### Virtual devices (chapters 1, 3, 22, 23) -/

/-- What a code digest is cached under (R54): region, generation and extent, as the physical places of its pages and its length. -/
structure CodeKey where
  region : Nat
  gen    : Nat
  pages  : List Nat
  len    : Nat
  deriving DecidableEq, Repr, Inhabited

/-- Context states (Table 3.1). -/
inductive CtxSt | absent | idle | running | waiting | faulted
  deriving DecidableEq, Repr, Inhabited

/-- A context (R44, R55, R56, R331). `words` are the entry words read so far, `bell` a doorbell kept for later, `held` an entry that waits, `made` a
launch whose records are checked, `stage` how far it has come (1 its records are paid for, 2 its bitmap's zeros, 3 they are written), `pay` the accesses that the
entry has asked for, with the clock from which they are served, and `measFor` the grid that later entries wait for (R51). -/
structure Ctx where
  st      : CtxSt := .absent
  eptr    : Nat := 0
  cgen    : Nat := 0
  fcode   : Nat := 0
  stack   : List Nat := []
  launch  : Nat := 0
  rcpt    : Nat := 0
  keyid   : Nat := 0
  chain   : List Byte := []
  ring    : Nat := 0
  size    : Nat := 16
  words   : List DWord := []
  bell    : Bool := false
  held    : Option Instr := none
  made    : Option Grid := none
  stage   : Nat := 0
  pay     : Option (Option Nat) := none
  pre     : List Byte := []
  codeDig : List Byte := []
  argDig  : List Byte := []
  resDig  : List Byte := []
  rv      : Bool := false
  stat    : Nat := 0
  measFor : Option Nat := none
  deriving DecidableEq, Repr, Inhabited

/-- Debug settings of a world (R324). -/
structure Debug where
  armed : Bool := false
  comps : List Comparator := []
  stopWorld : Bool := false
  deriving DecidableEq, Repr, Inhabited

/-- A snapshot (R334): the next line to copy, the granules written since its boundary, and those whose copy step runs, with the accesses that it still makes. -/
structure Snap where
  area   : Nat
  bitmap : Nat
  ptr    : Nat := 0
  since  : List Nat := []
  steps  : List (Nat × Nat) := []
  deriving DecidableEq, Repr, Inhabited

/-- An invalidation under way (R225): the accesses and the receives that it waits for. -/
structure Inval where
  id    : Nat
  fars  : List Nat := []
  lands : List Nat := []
  lines : List (Nat × Nat) := []
  deriving DecidableEq, Repr, Inhabited

/-- How a scheduled VD runs. -/
inductive RunSt | off | starting | running | halted | saving
  deriving DecidableEq, Repr, Inhabited

/-- A virtual device (R11). While it is scheduled it is world `world`; `base` is the clock at which its %cycle is 0 and `frozen` the value while it is
halted; `closing` since its teardown boundary; `ready` once its frames are zeroed, `zeroing` the frames of the pass and `zeroed` the lines of
them that each channel has covered; `quiet` its first
quiescent clock, `released` once its slots are; `halting` while an accepted HALT has not taken effect; `basinSave` and `histSave` what it keeps while it is
descheduled; `cpFrom` the first clock at which its entry words are accepted (R326). -/
structure Vd where
  created : Bool := false
  tenant  : Nat := 0
  world   : Option Nat := none
  run     : RunSt := .off
  base    : Int := 0
  frozen  : Option Nat := none
  closing : Option Nat := none
  ready   : Bool := true
  zeroing : List (Nat × Nat) := []
  zeroed  : List (Nat × Nat) := []
  ctxs    : List Ctx := []
  fqBase  : Nat := 0
  fqSize  : Nat := 16
  fqProd  : Nat := 0
  fqCons  : Nat := 0
  thresh  : Nat := 0
  vmask   : Bool := false
  nextFid : Nat := 1
  faults  : List FaultRec := []
  recs    : List HeldRec := []
  root    : Nat := 0
  stack   : Nat := 0
  ctxArea : Nat := 0
  ctxKey  : Nat := 0
  frames  : List (Nat × Nat) := []
  grants  : List Nat := []
  corePtr : Nat := 0
  partPtr : List (Nat × Nat) := []
  barPtr  : List (Nat × Nat × Nat) := []
  ranks   : List (Nat × Word) := []
  myRank  : Nat := 0
  am      : List (BitVec 16) := []
  heard   : List Nat := []
  hc      : Clock := Clock.zero
  rc      : Clock := Clock.zero
  wctr    : BitVec 16 := 0
  uqSize  : Nat := 65536
  rxs     : List Rx := []
  txs     : List Tx := []
  posted  : List Nat := []
  unexp   : List Msg := []
  inq     : List WIn := []
  mseqs   : List (Nat × Nat × BitVec 16) := []
  fulls   : List (Nat × Nat × BitVec 16) := []
  cells   : Memory := []
  kq      : List Kq := []
  dbg     : Debug := {}
  snap    : Option Snap := none
  snapNext : List (Nat × Nat) := []
  invals  : List Inval := []
  released : Bool := false
  quiet   : Option Nat := none
  halting : Bool := false
  basinSave : List Memory := []
  histSave : List (List (Option Hist)) := []
  cpFrom  : Nat := 0
  deriving DecidableEq, Repr, Inhabited

/-! ### Keys, regions, management (chapters 24, 25) -/

inductive KeySt | free | installed | retiring (since : Nat)
  deriving DecidableEq, Repr, Inhabited

structure KeyRec where
  id   : Nat
  st   : KeySt := .free
  keys : Keys := {}
  deriving DecidableEq, Repr, Inhabited

/-- A writable region (Table 24.2): `roll` is the sweep pointer while ROLLING; `zeroed` the lines that creation has zeroed. -/
structure WRegion where
  idx     : Nat
  pfn     : Nat
  macPfn  : Nat
  len     : Nat
  keyid   : Nat
  counter : Nat := 0
  roll    : Option Nat := none
  zeroed  : Nat := 0
  usable  : Bool := false
  deriving DecidableEq, Repr, Inhabited

inductive SealSt | building | sealed | damaged | resealing
  deriving DecidableEq, Repr, Inhabited

/-- A sealed region (R343, R345): the top node on chip and the nodes marked bad, as (level, index). -/
structure SRegion where
  num   : Nat
  vd    : Nat
  pfn   : Nat
  len   : Nat
  keyid : Nat
  tree  : Nat
  gen   : Nat := 0
  st    : SealSt := .building
  top   : List Byte := []
  bad   : List (Nat × Nat) := []
  ptr   : Nat := 0
  deriving DecidableEq, Repr, Inhabited

/-- An error record for both masters (R355). -/
structure ErrRec where
  site  : ErrSite
  world : Option Nat := none
  fatal : Bool := true
  deriving DecidableEq, Repr, Inhabited

/-- Completion status of an admin or management request (R348). -/
inductive AStat | ok | refused | frozen | busy | vdState
  deriving DecidableEq, Repr, Inhabited

/-- The admin commands whose effect is complete later than their acceptance, with what tells two of them apart. -/
inductive CmdKind
  | schedule (vd : Nat)
  | halt (vd : Nat)
  | resume (vd : Nat)
  | replace (out inc : Nat)
  | teardown (vd : Nat)
  | invalidate (id : Nat)
  | snap (vd : Nat)
  | region (idx : Nat)
  | roll (idx : Nat)
  | seal (num : Nat)
  deriving DecidableEq, Repr, Inhabited

/-- An accepted admin command whose completion is not written yet (R348): the VDIDs that it names, and its answer once its effect is complete. -/
structure Cmd where
  vds    : List Nat
  kind   : Option CmdKind := none
  answer : Option (AStat × List Byte) := none
  deriving DecidableEq, Repr, Inhabited

/-- What leaves the package: nothing in the machine reads it back. A packet leaves on a fibre at its tag flit's clock, and its receiver is handed it at `due`
or later (R252). -/
inductive Output
  | packet (fibre t due : Nat) (p : Packet)
  | linkReplay (p : Packet)
  | hostAccess (t : Nat) (p : Packet)
  | star (t : Nat) (b : Bcast)
  | hostWrite (addr : Nat) (bytes : List Byte)
  | msix (vd vector : Nat)
  | completion (bytes : List Byte) (data : List Byte)
  | reply (m : Master) (st : AStat) (data : List Byte)
  | windowReport (p : Packet)
  deriving DecidableEq, Repr, Inhabited

inductive Power | off | recovery | on
  deriving DecidableEq, Repr, Inhabited

/-- The parts of the health register that are counted or set (Table 25.3). -/
structure Health where
  ce      : Nat := 0
  coff    : Nat := 0
  ffail   : Nat := 0
  spare   : Nat := 255
  star    : Bool := false
  dmg     : Bool := false
  emerg   : Bool := false
  mfrz    : Bool := false
  hfrz    : Bool := false
  degr    : Bool := false
  replace : Bool := false
  deriving DecidableEq, Repr, Inhabited

/-- The packet in progress on a barrel turn (R105-R110): the crew, the lanes that take part in its vote, its two paths, whether path B's turn has
come, whether the current word is done and whether it trapped, and the lanes that have issued or that wait. -/
structure Issue where
  crew  : Nat
  voters : BitVec 8 := 255
  lanes : BitVec 8 := 0
  pc    : BitVec 32 := 0
  lanesB : BitVec 8 := 0
  pcB   : BitVec 32 := 0
  onB   : Bool := false
  spent : Bool := false
  trapped : Bool := false
  issued : BitVec 8 := 0
  deriving DecidableEq, Repr, Inhabited

end Sys2Proof.Machine
end

