-- ==== Sys2Proof/Machine/State.lean ====
section
/-! DEFINITION. The whole state of one package of an Adnar domain, and its state right after power-on reset. What other packages, the host,
the management controller and physics do reaches the package through `agenda` (log 1, log 2). -/
namespace Sys2Proof.Machine
open Sys2Proof

/-- Why a step stops the machine.
* `poweredOff`: raised by step alone, when power is off (R352, R353) and nothing is pending that would turn it on. Safe: an unpowered package
  does nothing. -/
inductive Fault | poweredOff
  deriving DecidableEq, Repr, Inhabited

/-- Why an instruction has no meaning here.
* `notModelled`: raised by an arm of exec that has no meaning yet. Safe: nothing is claimed of it. -/
inductive Refusal | notModelled (mnemonic : String)
  deriving DecidableEq, Repr, Inhabited

/-- One package and the work on it. -/
structure State where
  -- power, clock and rota (R62, R248, R352)
  power    : Power := .on
  t        : Nat := 0
  pkg      : Nat := 0
  members  : List Nat := [0]
  rotaL    : Nat := 1
  rotaS    : Nat := 64
  tenants  : List Tenancy := []
  accepts  : List (Struct × Nat) := []
  reqs     : List Req := []
  cpFree   : Nat := 0
  -- layouts, boot, masters, health (R346-R358)
  layout   : Layout := {}
  shadow   : Option (Layout × Word) := none
  commit   : Option (Nat × Word) := none
  version  : Nat := 0
  sigOk    : Bool := true
  sigKey   : List Byte := List.replicate 64 0
  fusedKey : List Byte := List.replicate 64 0
  bootFail : Bool := false
  boots    : Nat := 0
  fuses    : List (Bool × Bool) := []
  powerLim : Nat := 0
  tempLim  : Nat := 0
  health   : Health := {}
  errors   : List ErrRec := []
  hostSess : Bool := false
  mgmtSess : Bool := false
  frzHost  : Option Nat := none
  frzMgmt  : Option Nat := none
  badSram  : List ErrSite := []
  badHalves : List (Nat × Option Nat) := []
  spareRows : List (Nat × Nat × Nat) := []
  outOf    : List HwUnit := []
  -- keys and regions (R336-R345)
  fabricKey : BitVec 256 := 0
  keys     : List KeyRec := []
  ctrs     : List (Nat × Nat × Nat × Nat × Nat) := []
  regions  : List WRegion := []
  sealed   : List SRegion := []
  gens     : List (Nat × Nat) := []
  digests  : List (CodeKey × List Byte) := []
  -- virtual devices and work (R11-R61, R328-R335)
  vds      : List Vd := []
  grids    : List Grid := []
  wgs      : List Wg := []
  crews    : List Crew := []
  icache   : List ILine := []
  fills    : List Fill := []
  -- memories (R2, R190, R217, R338)
  mem      : Memory := []
  lineKeys : List (Nat × Nat) := []
  ciphers  : List (Nat × List Byte) := []
  basins   : List Memory := [[], []]
  near     : List (Nat × Cells) := []
  spill    : List (Nat × Cells) := []
  -- engines (R192, R208-R226, R231)
  basinOps : List BasinOp := []
  tlbs     : List (Nat × TlbEntry) := []
  l2s      : List (Nat × TlbEntry) := []
  jobs     : List TJob := []
  bargeRs  : List BReq := []
  fars     : List Far := []
  mats     : List MUnit := []
  counts   : List (Nat × Nat × Nat × Nat × Bool) := []
  -- fabric and Kiteline (R246-R257, R280-R284)
  streams  : List Stream := []
  failed   : List Nat := []
  peerFailed : List (Nat × Nat) := []
  replays  : List (Nat × Nat × Nat) := []
  flits    : List (Nat × Nat) := []
  transit  : List (Nat × Nat × Packet) := []
  closed   : List (Nat × Nat) := []
  tokens   : List Nat := List.replicate 16 0
  spareStar : Bool := false
  starDown : List Nat := []
  -- the model's own fields (log 1, log 2, log 7)
  agenda   : List (Nat × Instr) := []
  turns    : List (Nat × Nat) := []
  issue    : Option Issue := none
  probed   : Bool := false
  adminProd : Nat := 0
  adminCons : Nat := 0
  cmds     : List Cmd := []
  outs     : List Output := []
  nextId   : Nat := 0
  deriving DecidableEq, Repr, Inhabited

/-- Right after reset: power is off and the boot of R352 is due. Every register has the value of the default above, which is the manual's
where it gives one and otherwise the choice of log 11. -/
def State.reset : State :=
  { power := .off, fuses := List.replicate 64 (false, false), agenda := [(0, .boot)] }

end Sys2Proof.Machine
end

