-- ==== Sys2Proof/Machine/Ops.lean ====
section
/-! DEFINITION. The named operations on the state: accessors, the agenda, the rota's slots, crews waking and retiring, muster completion,
taking a trap and entering a handler (R312, R313), and leaving it (R316). -/
namespace Sys2Proof.Machine
open Sys2Proof

/-- What exec answers. -/
abbrev Out := Host.Outcome State Fault Refusal

/-! ### Accessors: one home for every record -/

def State.crew (s : State) (c : Nat) : Crew := s.crews.getD c {}
def State.wg (s : State) (w : Nat) : Wg := s.wgs.getD w {}
def State.grid (s : State) (g : Nat) : Grid := s.grids.getD g {}
def State.vd (s : State) (v : Nat) : Vd := s.vds.getD v {}
def State.setCrew (s : State) (c : Nat) (k : Crew) : State := { s with crews := s.crews.set c k }
def State.setWg (s : State) (w : Nat) (x : Wg) : State := { s with wgs := s.wgs.set w x }
def State.setGrid (s : State) (g : Nat) (x : Grid) : State := { s with grids := s.grids.set g x }
def State.setVd (s : State) (v : Nat) (x : Vd) : State := { s with vds := s.vds.set v x }
def Crew.lane (k : Crew) (l : Nat) : Lane := k.lanes.getD l {}
def Crew.setLane (k : Crew) (l : Nat) (x : Lane) : Crew := { k with lanes := k.lanes.set l x }
def Crew.joinReg (k : Crew) (j : Nat) : Join := k.joins.getD j {}
def Wg.tile (w : Wg) (i : Nat) : Tile := w.tiles.getD i {}
def Wg.setTile (w : Wg) (i : Nat) (x : Tile) : Wg := { w with tiles := w.tiles.set i x }
def Wg.muster (w : Wg) (i : Nat) : Muster := w.musters.getD i {}
def Wg.setMuster (w : Wg) (i : Nat) (x : Muster) : Wg := { w with musters := w.musters.set i x }
def Vd.ctx (v : Vd) (c : Nat) : Ctx := v.ctxs.getD c {}
def Vd.setCtx (v : Vd) (c : Nat) (x : Ctx) : Vd := { v with ctxs := v.ctxs.set c x }

/-- The grid, workgroup and VD of a crew. -/
def State.wgOf (s : State) (c : Nat) : Wg := s.wg (s.crew c).wg
def State.gridOf (s : State) (c : Nat) : Grid := s.grid (s.wgOf c).grid
def State.vdOf (s : State) (c : Nat) : Nat := (s.gridOf c).vd

/-- The number of a fresh request, message or operation. -/
def State.bump (s : State) : State := { s with nextId := s.nextId + 1 }

/-- The indices of a mask. -/
def lanesOf (m : BitVec 8) : List Nat := (List.range 8).filter (fun i => m.getLsbD i)
def bitOf (l : Nat) : BitVec 8 := BitVec.ofNat 8 (2 ^ l)

/-! ### The agenda (log 2) -/

/-- Where a row stands within its clock: a matrix operation starts after the completions of the clock, whose results it sees (R231), and the engines' own steps
on tiles, and what the Wharf writes, come after them, and after the clock's instructions (R201). -/
def Instr.rank : Instr → Nat
  | .matrixOpStart _ _ _ => 1
  | .chunkDone _ _ | .bargeRequestEnd _ | .matchStep _ | .landingBeat _ _ | .receiveComplete _ _ => 2
  | _ => 0

/-- An entry put after every entry that comes before it: those of earlier clocks, and those of its clock of its rank or a lower one. -/
def agendaInsert (time : Nat) (i : Instr) : List (Nat × Instr) → List (Nat × Instr)
  | [] => [(time, i)]
  | (u, j) :: rest => if time < u ∨ (time = u ∧ Instr.rank i < Instr.rank j) then (time, i) :: (u, j) :: rest else (u, j) :: agendaInsert time i rest

def State.post (s : State) (time : Nat) (i : Instr) : State := { s with agenda := agendaInsert time i s.agenda }

/-- An output of the package. -/
def State.emit (s : State) (o : Output) : State := { s with outs := s.outs ++ [o] }

/-! ### The rota (R62, R64, R67, R71) -/

def State.slotAt (s : State) (t : Nat) : Nat := t / s.rotaS % s.rotaL
def State.posAt (s : State) (t : Nat) : Nat := t % s.rotaS
def State.roundLen (s : State) : Nat := s.rotaL * s.rotaS

/-- The first round boundary strictly after clock t (R71). -/
def State.boundaryAfter (s : State) (t : Nat) : Nat := (t / s.roundLen + 1) * s.roundLen

/-- Is the present clock a round boundary? -/
def State.atBoundary (s : State) : Bool := s.t % s.roundLen == 0

/-- The world that owns slot k. -/
def State.ownerOf (s : State) (k : Nat) : Option Nat := s.layout.owners.getD k none

/-- The VD scheduled as world w. -/
def State.vdOfWorld (s : State) (w : Nat) : Option Nat :=
  (List.range s.vds.length).find? (fun v => (s.vd v).world == some w)

/-- The allotment of world w. -/
def State.allotOf (s : State) (w : Nat) : Option Allot := s.layout.allots.find? (fun a => a.world == w)

/-- %cycle of a VD at clock t (R71). -/
def State.cycleOf (s : State) (v t : Nat) : Nat :=
  match (s.vd v).frozen with
  | some c => c
  | none => ((t : Int) - (s.vd v).base).toNat

/-- The present clock as a VD's own history numbers it: every free value of the VD is one for such an event, so that no other world's steps choose it
(R8, R69; log 7). -/
def State.stamp (s : State) (v : Nat) : List Nat := [s.cycleOf v s.t, v]

/-- The name of a grid, and of a workgroup, among all that a VD has run. -/
def Grid.name (g : Grid) : List Nat := [g.ctx, g.cgen, g.launch]
def State.wgName (s : State) (w : Nat) : List Nat := (s.wg w).num :: Grid.name (s.grid (s.wg w).grid)

/-! ### Clocks (R289) -/

/-- Serial-number comparison of 16-bit numbers (RFC 1982): is a before b? -/
def serialLt (a b : BitVec 16) : Bool := a != b && decide ((b - a).toNat < 2 ^ 15)

/-- The greater of two entries. -/
def serialMax (a b : BitVec 16) : BitVec 16 := if serialLt a b then b else a

/-- Merging clock x into clock y (R289). -/
def Clock.merge (x y : Clock) : Clock := List.zipWith serialMax y x

/-- V[n] <= AM[n] for every member (R292). -/
def Clock.covered (v am : Clock) : Bool := (List.zip v am).all (fun p => !serialLt p.2 p.1)

/-- Entry m raised to w. -/
def Clock.raise (c : Clock) (m : Nat) (w : BitVec 16) : Clock := c.set m (serialMax (c.getD m 0) w)

/-! ### Registers, with the lookahead rules (R114) -/

/-- The event of one read: the word that reads, the operand field, the lane and the register. -/
def readKey (k : List Nat) (f l n : Nat) : List Nat := f :: l :: n :: k

/-- Register n of lane l within operand f, whose first register is b. A register that a pending instruction will write reads the old value or the
result, and the manual does not say which: one choice for each operand and pending result (R114). A result that does not exist yet is not read
(log 7). -/
def operandRead (k : List Nat) (f l : Nat) (x : Lane) (b n : Nat) : Word :=
  let old := x.regs.getD n 0
  match x.pend.find? (fun p => p.regs.contains n) with
  | none => old
  | some p =>
    match p.value[n - p.base]? with
    | some v => if Config.freeBit (readKey k f l (b * 256 + p.base)) then v else old
    | none => old

/-- A register read alone, and a pair, both halves alike (R4, R114). -/
def regRead (k : List Nat) (f l : Nat) (x : Lane) (n : Nat) : Word := operandRead k f l x n n
def pairRead (k : List Nat) (f l : Nat) (x : Lane) (n : Nat) : DWord := operandRead k f l x n (n + 1) ++ operandRead k f l x n n

/-- The event of the word that crew k issues: its world's clock, the crew, and the path. -/
def State.readAt (s : State) (k : Crew) : List Nat :=
  k.num :: (match s.issue with | some is => if is.onB then 1 else 0 | none => 0) :: s.wgName k.wg ++ s.stamp (s.grid (s.wg k.wg).grid).vd

/-- Predicate n; pt (12) is true (R84). -/
def predRead (x : Lane) (p : BitVec 4) : Bool := if p.toNat = 12 then true else x.preds.getLsbD p.toNat

/-- A write of register n: results still to come for it are discarded (R114). -/
def regWrite (x : Lane) (n : Nat) (v : Word) : Lane :=
  { x with regs := x.regs.set n v, pend := x.pend.map (fun p => { p with regs := p.regs.filter (· != n) }) }

/-- A write of a pair (R4). -/
def pairWrite (x : Lane) (n : Nat) (v : DWord) : Lane := regWrite (regWrite x n (v.setWidth 32)) (n + 1) ((v >>> 32).setWidth 32)

def predWrite (x : Lane) (p : BitVec 4) (v : Bool) : Lane :=
  { x with preds := if v then x.preds ||| (1#12 <<< p.toNat) else x.preds &&& ~~~(1#12 <<< p.toNat) }

/-- Registers written from a list of words, upwards. -/
def regWrites (x : Lane) (n : Nat) : List Word → Lane
  | [] => x
  | v :: rest => regWrites (regWrite x n v) (n + 1) rest

/-- A lane opens a window (R113): earlier results for the same registers are discarded (R114). -/
def openWindow (x : Lane) (p : Pending) : Lane :=
  { x with pend := x.pend.map (fun q => { q with regs := q.regs.filter (fun n => !p.regs.contains n) }) ++ [{ p with width := p.regs.length }] }

/-- Is the instruction's latency fixed (R113)? -/
def PendKind.isFixed : PendKind → Bool
  | .basin => true | .alu => true | .xrd => true
  | .ldf => false | .atomf => false | .kfaa => false | .wharf => false

/-- The state of a lane that waits for the results in `ps` (R113, R115, R129). -/
def waitState (ps : List Pending) : LaneSt := if ps.all (fun p => p.kind.isFixed) then .held else .parked

/-! ### Fetching, and a lane's state on a clock (R77, R106, R113-R116, R122, R311, R360) -/

/-- The virtual address of a grid's text word, and of the line that holds it (R77). -/
def Grid.wordVa (g : Grid) (pc : Nat) : Nat := g.text + 8 * pc
def lineVa (va : Nat) : Nat := va / 64 * 64

/-- The line of a partition for an address under a generation of its sealed region (R360). -/
def State.cacheLine (s : State) (core part va gen : Nat) : Option ILine :=
  s.icache.find? (fun l => l.core == core && l.part == part && l.va == lineVa va && l.gen == gen)

/-- The word of a cached line at an address. -/
def ILine.word (l : ILine) (va : Nat) : DWord := l.words.getD (va % 64 / 8) 0

/-- The generation of a grid's sealed region in force (R343, R360). -/
def State.genNow (s : State) (g : Grid) : Nat := ((s.sealed.find? (fun r => r.num == g.sealNum)).map (·.gen)).getD g.sealGen

/-- What stands at a lane's program counter. -/
inductive Fetched
  | missing
  | bad
  | off
  | word (w : DWord)
  deriving DecidableEq, Repr

def State.fetch (s : State) (c pc : Nat) : Fetched :=
  let k := s.crew c
  let g := s.gridOf c
  if g.words ≤ pc then .off
  else
    match s.cacheLine k.core k.part (g.wordVa pc) (s.genNow g) with
    | none => .missing
    | some l => if s.badSram.contains (.icache k.core k.part l.va) then .bad else .word (l.word (g.wordVa pc))

/-- The word at a place, 0 where none can be read. -/
def State.wordAt (s : State) (c pc : Nat) : DWord :=
  match s.fetch c pc with
  | .word w => w
  | .missing | .bad | .off => 0

/-- Is the word long-latency (Table 5.6)? -/
def longWord (w : DWord) : Bool :=
  let op := (FmtA.ofWord w).op.toNat
  match decodeWord w with
  | .ok (.ld _ _ sp _ _ _ _) => sp == .basin
  | .ok (.atom _ _ _ sp _ _ _ _ _) => sp == .basin
  | .ok (.cas _ _ sp _ _ _ _ _ _) => sp == .basin
  | .ok _ => !w.msb && [0x17, 0x18, 0x35, 0x5F, 0x64, 0x66, 0x67, 0x6F, 0x70, 0x73].contains op
  | .error _ => false

/-- Is the request a lane's load or atomic that returns a value? -/
def FarSrc.loadOf (c l : Nat) : FarSrc → Bool
  | .loads c' ls => c' == c && ls.any (fun x => x.1 == l)
  | .atomic c' l' _ => c' == c && l' == l
  | .store _ _ | .flag _ _ | .barge _ _ | .fill _ | .landing _ _ | .gather _ _ _ | .cp _ _ | .peer _ => false


/-- The state of a lane as its windows and the instruction cache have it, at the present clock (R106, R113-R116). A load or an atomic that is held on an absent page parks
it at once (R116, Table 12.6; log 21). -/
def State.laneNow (s : State) (c l : Nat) : LaneSt :=
  let x := (s.crew c).lane l
  match x.st with
  | .joinwait k => .joinwait k
  | .barwait m => .barwait m
  | .exited => .exited
  | .run | .held | .parked =>
    let due := x.pend.filter (fun p => p.win == 0)
    if !x.pend.isEmpty && s.fars.any (fun f => f.st == .translating && f.src.loadOf c l) then .parked
    else if !due.isEmpty then waitState due
    else
      match s.fetch c x.pc.toNat with
      | .missing => .held
      | .bad | .off => .run
      | .word w => if longWord w && decide (4 ≤ x.pend.length) then waitState x.pend else .run

/-- The lanes of a crew that would run, in the states that they have. -/
def State.settled (s : State) (c : Nat) (k : Crew) : Crew :=
  (List.range 8).foldl (fun (k : Crew) l => if (k.lane l).st == .run then k.setLane l { k.lane l with st := s.laneNow c l } else k) k

/-! ### Waking -/

/-- The lanes that take part in the crew's votes: in handler mode those of HL (R312). -/
def Crew.voters (k : Crew) : List Nat := if k.hm then lanesOf k.hl else List.range 8

/-- Does the crew have a lane in RUN that may issue? -/
def Crew.hasRun (k : Crew) : Bool := k.voters.any (fun l => (k.lane l).st == .run)

/-- A crew after a change made at clock t: ready-since is the clock if it had no lane in RUN before and has one now (R104). -/
def Crew.noteReady (old new : Crew) (t : Nat) : Crew := if !old.hasRun && new.hasRun then { new with ready := t } else new

/-- A crew updated at the present clock: its lanes that would run as their windows and the cache let them, and its ready-since kept right (R104, R106). -/
def State.updCrew (s : State) (c : Nat) (f : Crew → Crew) : State :=
  s.setCrew c ((s.crew c).noteReady ((s.setCrew c (f (s.crew c))).settled c (f (s.crew c))) s.t)

/-- Lanes that were held or parked may issue again. -/
def Lane.wake (x : Lane) : Lane := if x.st == .held || x.st == .parked then { x with st := .run } else x

/-! ### Muster sets (R300, R301) -/

/-- A lane that waits at set m goes on. -/
def Lane.passBarrier (m : Nat) (done : Clock) (x : Lane) : Lane :=
  if x.st == .barwait m then { x with st := .run, pc := x.pc + 1, clock := Clock.merge done x.clock } else x

/-- The set completes: the phase toggles and every waiting lane merges the completion clock and goes on (R300). -/
def State.musterComplete (s : State) (w m : Nat) : State :=
  let x := (s.wg w).muster m
  let s := s.setWg w ((s.wg w).setMuster m { x with arrival := 0, phase := !x.phase, done := x.clock, clock := Clock.zero })
  (s.wg w).crews.foldl (fun s c => s.updCrew c (fun k => { k with lanes := k.lanes.map (Lane.passBarrier m x.clock) })) s

/-- Completion where the arrival mask equals a non-empty member mask (R300, R26). -/
def State.musterCheck (s : State) (w m : Nat) : State :=
  let x := (s.wg w).muster m
  if x.member != 0 && x.arrival == x.member then s.musterComplete w m else s

/-- A retiring crew leaves every set (R26). -/
def State.musterLeave (s : State) (w num : Nat) : State :=
  (List.range (s.wg w).musters.length).foldl (fun s m =>
    let x := (s.wg w).muster m
    let bit : DWord := 1#64 <<< num
    if x.member &&& bit == 0 then s
    else (s.setWg w ((s.wg w).setMuster m { x with member := x.member &&& ~~~bit, arrival := x.arrival &&& ~~~bit })).musterCheck w m) s

/-! ### Joins (R125, R126) -/

/-- The lanes of a crew that have not exited. -/
def Crew.aliveMask (k : Crew) : BitVec 8 := laneMask ((List.range 8).filter (fun l => (k.lane l).st != .exited))

/-- Release(jk) of R125. -/
def Crew.release (k : Crew) (j : Nat) : Crew :=
  let r := k.joinReg j
  if r.mask != 0 && (r.mask &&& k.aliveMask) &&& ~~~r.wait == 0 then
    { (lanesOf r.wait).foldl (fun k l => k.setLane l { k.lane l with pc := (k.lane l).pc + 1, st := .run }) k with
      joins := k.joins.set j { r with wait := 0 } }
  else k

def Crew.releaseAll (k : Crew) : Crew := (List.range 4).foldl Crew.release k

/-! ### Matrix operations still in an engine's queue (R231) -/

def State.matOps (s : State) : List MOp := s.mats.flatMap (fun u => u.fillQ ++ u.arrQ)

/-- Operations of a crew that have not completed at the present clock. -/
def State.crewOps (s : State) (c : Nat) : List MOp :=
  s.matOps.filter (fun o => o.crew == c && (o.start == none || decide (s.t < o.done)))

/-- A crew's operand slots become FREE (R228). -/
def State.freeSlots (s : State) (c : Nat) : State :=
  let w := (s.crew c).wg
  let x := s.wg w
  s.setWg w { x with pools := x.pools.map (fun p => { p with slots := p.slots.map (fun o => if o.owner == some c then { o with owner := none } else o) }) }

/-! ### Retiring a crew (R21, R26, R328) -/

/-- Receives still posted for a tile of the workgroup are completed CANCELLED and freed (R329); those whose match step is still to come wait for it. -/
def State.cancelPosted (s : State) (w : Nat) : State :=
  let v := (s.grid (s.wg w).grid).vd
  let d := s.vd v
  let hit (r : Rx) : Bool := r.live && r.st == .posted && (match r.place with | .tile w' _ => w' == w | .box _ _ => false)
  s.setVd v { d with
    posted := d.posted.filter (fun i => !hit (d.rxs.getD i {})),
    rxs := d.rxs.map (fun r => if hit r then { r with live := false, st := .final, stat := .cancelled } else r) }

/-- The last crew of a workgroup has retired: its receives are cancelled, and its own retirement waits for its engines (R329). -/
def State.wgCheck (s : State) (w : Nat) : State :=
  let x := s.wg w
  if x.live && !x.retired && x.crews.all (fun c => !(s.crew c).live) then
    (s.setWg w { x with retired := true }).cancelPosted w
  else s

/-- Lookups of a crew's far word are spent. -/
def State.dropWordJobs (s : State) (c : Nat) : State := { s with jobs := s.jobs.filter (fun j => j.cont != .word c) }

/-- Every lane has exited: the crew retires (R26, R228). -/
def State.retireCrew (s : State) (c : Nat) : State :=
  let k := s.crew c
  let s := (s.setCrew c { k with live := false }).dropWordJobs c
  let s := s.musterLeave k.wg k.num
  let s := if (s.crewOps c).isEmpty then s.freeSlots c else s
  s.wgCheck k.wg

/-! ### Aborting a grid (R313, R330) -/

/-- A crew of an aborted grid issues nothing more. -/
def Lane.stopped (x : Lane) : Lane := { x with st := .exited, pend := [] }

def State.stopCrew (s : State) (c : Nat) : State :=
  if (s.crew c).live then
    (s.setCrew c { s.crew c with lanes := (s.crew c).lanes.map Lane.stopped, entry := none, pend := none }).retireCrew c
  else s

/-- Every crew of a grid stops, and its workgroups that have not retired yet will set no completion bit (R313). -/
def State.stopGrid (s : State) (g : Nat) : State :=
  (List.range s.wgs.length).foldl (fun (s : State) w =>
    if (s.wg w).live && (s.wg w).grid == g then (s.wg w).crews.foldl State.stopCrew (s.setWg w { s.wg w with cut := true }) else s) s

/-- Of two traps of one clock the one on the lower %core, then the lower %part, is the first (R331). -/
def AbortRec.before (r a : AbortRec) : Bool :=
  r.t == a.t && r.stat != 0x21 && a.stat != 0x21 && (decide (r.core < a.core) || (r.core == a.core && decide (r.part < a.part)))

/-- The grid records its first trap, and places nothing more; its crews stop once the clock of the trap is over (R313). -/
def State.abortOne (s : State) (g : Nat) (r : AbortRec) : State :=
  let x := s.grid g
  if x.st != .active then s
  else match x.aborted with
    | some a => if r.before a then s.setGrid g { x with aborted := some r } else s
    | none => s.setGrid g { x with aborted := some r, nextWg := x.gx * x.gy * x.gz }

/-- The clock ends: every crew of an aborted grid stops (R313). -/
def State.stopAborted (s : State) : State :=
  ((List.range s.grids.length).filter (fun g => (s.grid g).st == .active && (s.grid g).aborted.isSome)).foldl State.stopGrid s

/-- The grids whose dependence names grid g. -/
def State.dependents (s : State) (g : Nat) : List Nat :=
  (List.range s.grids.length).filter (fun d => (s.grid d).prod == some g && (s.grid d).form != 0)

/-- A grid aborts, and every launch whose dependence names it aborts with DEPENDENCE, and so on (R330). -/
def State.abortGrid : Nat → State → Nat → AbortRec → State
  | 0, s, g, r => s.abortOne g r
  | n + 1, s, g, r => (s.dependents g).foldl (fun s d => State.abortGrid n s d { stat := 0x21 }) (s.abortOne g r)

/-- The abort of the grid of crew c by a trap: the crew's own workgroup sets no completion bit that it has not asked for yet. -/
def State.abortBy (s : State) (c : Nat) (tr : Trap) (hm : Bool) : State :=
  let k := s.crew c
  let x := s.wgOf c
  (if x.asked then s else s.setWg k.wg { x with cut := true }).abortGrid s.grids.length x.grid
    { stat := tr.code.toNat, t := s.t, core := k.core, part := k.part, hm := hm, wg := x.num, crew := k.num, pc := tr.pc, info := tr.info }

/-! ### Taking a trap, and returning from it (R312, R313, R316) -/

/-- The results that the handler lanes still wait for. -/
def Crew.outstanding (k : Crew) (m : BitVec 8) : List Pending := (lanesOf m).flatMap (fun l => (k.lane l).pend)

/-- A lane of HL stops until handler mode begins (R312 step 2). -/
def Lane.stopFor (x : Lane) : Lane := if x.st == .exited then x else { x with st := waitState x.pend }

/-- Taking a trap (R312, R313): it saves the code, the word index and the information for handler mode, and stops the handler lanes. Handler
mode begins by HANDLER_MODE_ENTRY once nothing is outstanding for them. Without a handler, or in handler mode, the crew's trap registers are
written at once, it issues nothing more, and the grid aborts (log 16). A step ends with the trap's entry (R325). -/
def State.takeTrap (s : State) (c : Nat) (hl : BitVec 8) (tr : Trap) : State :=
  let k := s.crew c
  let s := s.dropWordJobs c
  if k.hm || (s.gridOf c).handler.isNone then (s.setCrew c { k with tcode := tr.code, tpc := tr.pc, tinfo := tr.info, entry := some tr }).abortBy c tr k.hm
  else
    let k' := { (lanesOf hl).foldl (fun k l => k.setLane l (k.lane l).stopFor) k with entry := some tr, hl := hl, step := false, stepEnd := k.step }
    let s := s.setCrew c k'
    if (k'.outstanding hl).isEmpty then s.post s.t (.handlerModeEntry c) else s

/-- Handler mode begins (R312 steps 3 and 4). -/
def State.enterHandler (s : State) (c : Nat) : State :=
  let k := s.crew c
  match k.entry with
  | none => s
  | some tr =>
    let start := BitVec.ofNat 32 ((s.gridOf c).handler.getD 0)
    s.updCrew c (fun k => { (lanesOf k.hl).foldl (fun k l => k.setLane l { k.lane l with pc := start, yb := 0, st := .run }) k with
      entry := none, hm := true, tcode := tr.code, tpc := tr.pc, tinfo := tr.info, stepEnd := false, halted := if k.stepEnd then some .step else k.halted })

/-- A result of crew c has been written: handler mode may be due (R312). -/
def State.entryCheck (s : State) (c : Nat) : State :=
  let k := s.crew c
  if k.entry.isSome && (k.outstanding k.hl).isEmpty then s.post s.t (.handlerModeEntry c) else s

/-- tret (R316): the handler lanes go to %trappc or the word after it, and handler mode ends. -/
def Crew.leaveHandler (k : Crew) (nxt : Bool) : Crew :=
  let t := if nxt then k.tpc + 1 else k.tpc
  { (lanesOf k.hl).foldl (fun k l => k.setLane l { k.lane l with pc := t }) k with hm := false, hl := 0 }

/-- The last lane of a crew exits: the crew retires, and a deferred trap that no word of it can take any more aborts the grid (R310). -/
def State.crewOut (s : State) (c : Nat) : State :=
  match (s.crew c).pend with
  | none => s.retireCrew c
  | some tr => (s.retireCrew c).abortBy c { tr with pc := 0xFFFFFFFF } false

/-- A deferred trap becomes the crew's pending code; a second is dropped (R310). If every lane has exited the grid aborts. -/
def State.deferTrap (s : State) (c : Nat) (code : BitVec 8) (info : DWord) : State :=
  let k := s.crew c
  if !k.live then s.abortBy c ⟨code, info, 0xFFFFFFFF⟩ false
  else if k.pend.isSome then s
  else
    let s := s.setCrew c { k with pend := some ⟨code, info, 0⟩ }
    s.post s.t (.deferredTrap c)

/-- An outstanding result leaves a lane: its words are written to the registers still its own (R114), and a lane that waited may run. -/
def Lane.complete (x : Lane) (id : Nat) (vals : List Word) : Lane :=
  match x.pend.find? (fun p => p.id == id) with
  | none => x
  | some p =>
    { x with regs := p.regs.foldl (fun r n => match vals[n - p.base]? with | some v => r.set n v | none => r) x.regs,
             pend := x.pend.filter (fun q => q.id != id) }

/-- The result of a pending instruction is decided, and not written yet: a word in its window may read it (R114). -/
def State.decided (s : State) (c l id : Nat) (vals : List Word) : State :=
  s.setCrew c ((s.crew c).setLane l { (s.crew c).lane l with pend := ((s.crew c).lane l).pend.map (fun p => if p.id == id then { p with value := vals } else p) })

/-- A result that comes while its workgroup is saved: the crew's record is written anew in the saved image (R318). -/
def State.noteLate (s : State) (c : Nat) : State :=
  let w := (s.crew c).wg
  if (s.wg w).saved then s.setWg w { s.wg w with late := (s.wg w).late ++ [c] } else s

/-- A long-latency instruction of one lane completes at the present clock (R113, R116). -/
def State.completeLane (s : State) (c l id : Nat) (vals : List Word) : State :=
  let held := (s.crew c).entry.isSome && (s.crew c).hl.getLsbD l
  let s := s.updCrew c (fun k =>
    let x := (k.lane l).complete id vals
    k.setLane l (if held then x.stopFor else x.wake))
  (s.entryCheck c).noteLate c

/-! ### Lists -/

/-- An element put before the first that it may precede, and a list sorted so. -/
def insertBy {α : Type} (le : α → α → Bool) (x : α) : List α → List α
  | [] => [x]
  | y :: ys => if le x y then x :: y :: ys else y :: insertBy le x ys

def sortBy {α : Type} (le : α → α → Bool) (l : List α) : List α := l.foldr (insertBy le) []

/-- The first of some trials that gives something. -/
def firstSome {α β : Type} (f : α → Option β) : List α → Option β
  | [] => none
  | x :: xs => match f x with | some y => some y | none => firstSome f xs

/-! ### Memories on the chip -/

/-- The value kept under a key, replaced in place or added last. -/
def keyed {α β : Type} [BEq α] (k : α) (v : β) : List (α × β) → List (α × β)
  | [] => [(k, v)]
  | (j, w) :: rest => if j == k then (k, v) :: rest else (j, w) :: keyed k v rest

def State.nearOf (s : State) (core : Nat) : Cells := ((s.near.find? (fun p => p.1 == core)).map (·.2)).getD []
def State.setNear (s : State) (core : Nat) (m : Cells) : State :=
  { s with near := keyed core m s.near }
def State.spillOf (s : State) (core part : Nat) : Cells := ((s.spill.find? (fun p => p.1 == core * 8 + part)).map (·.2)).getD []
def State.setSpill (s : State) (core part : Nat) (m : Cells) : State :=
  { s with spill := keyed (core * 8 + part) m s.spill }
def State.basinOf (s : State) (die : Nat) : Memory := s.basins.getD die []
def State.setBasin (s : State) (die : Nat) (m : Memory) : State := { s with basins := s.basins.set die m }

/-- Byte a of a store: undefined where nothing has written since event `serial` (R191, R8; log 6). -/
def cellRead (m : Cells) (serial : List Nat) (a : Nat) : Byte := (cellAt m a).getD (Config.undefByte serial a)

/-- Near byte o of a workgroup (Table 10.1). -/
def State.nearByte (s : State) (w o : Nat) : Byte :=
  let x := s.wg w
  cellRead (s.nearOf x.core) x.serial (x.near + o)

def State.nearBytes (s : State) (w o n : Nat) : List Byte := (List.range n).map (fun i => s.nearByte w (o + i))

/-! ### A send's source changed too early (R274) -/

/-- Byte p of a message whose source was changed before the send completed: undefined (R274, R296). -/
def tornByte (event : List Nat) (x : Tx) (p : Nat) : Byte := Config.freeByte (x.mseq.toNat :: x.pkg :: x.dvd :: event) p

/-- A VD's unfinished sends after a write of their sources: the bytes that `hit` names are undefined, in the message, in its packets that have not left, and where it
waits or lands at another VD of this package. -/
def State.tearSends (s : State) (v : Nat) (hit : Tx → Nat → Bool) : State :=
  let d := s.vd v
  if d.txs.all (fun x => !(x.live && x.stat == .pending)) then s
  else
    let e := s.stamp v
    let fix (x : Tx) : Tx := if x.live && x.stat == .pending then { x with
      bytes := x.bytes.zipIdx.map (fun b => if hit x b.2 then tornByte e x b.2 else b.1),
      buf := x.buf.map (fun b => if hit x b.1 then (b.1, tornByte e x b.1) else b) } else x
    let packet (p : Packet) : Packet :=
      if p.typ == .msg && p.svd == v && (p.kind == .eager || p.kind == .data) then
        match d.txs.find? (fun x => x.live && x.stat == .pending && x.pkg == p.dst && x.dvd == p.dvd && x.mseq == p.mseq) with
        | some x => { p with data := p.data.zipIdx.map (fun b => if hit x (p.off + b.2) then tornByte e x (p.off + b.2) else b.1) }
        | none => p
      else p
    let here (dv src svd : Nat) (q : BitVec 16) (bs : List Byte) : List Byte :=
      match d.txs.find? (fun x => src == s.pkg && svd == v && x.live && x.stat == .pending && x.pkg == s.pkg && x.dvd == dv && x.mseq == q) with
      | some x => bs.zipIdx.map (fun b => if hit x b.2 then tornByte e x b.2 else b.1)
      | none => bs
    let msg (dv : Nat) (m : Msg) : Msg := { m with bytes := here dv m.srcPkg m.srcVd m.mseq m.bytes }
    let vds := (s.vds.set v { d with txs := d.txs.map fix }).zipIdx.map (fun (w : Vd × Nat) => { w.1 with
      unexp := w.1.unexp.map (msg w.2), rxs := w.1.rxs.map (fun (r : Rx) => { r with msg := msg w.2 r.msg }),
      inq := w.1.inq.map (fun i => match i with | .arrive p => .arrive { p with data := here w.2 p.src p.svd p.mseq p.data } | x => x) })
    { s with reqs := s.reqs.map (fun (r : Req) => match r.item with | .send p => { r with item := .send (packet p) } | _ => r), vds := vds }

/-- Is byte p of a send read from near byte a of core c? -/
def State.sendFromNear (s : State) (c lo n : Nat) (x : Tx) (p : Nat) : Bool :=
  match x.place with
  | .tile w i =>
    let a := (s.wg w).near + ((s.wg w).tile i).base + p
    (s.wg w).core == c && decide (p < x.mlen) && decide (lo ≤ a) && decide (a < lo + n)
  | .box _ _ => false

/-! ### Near bytes that an engine is writing (R203, R206, R215, R232, R296) -/

/-- Bytes with those of a list of undefined ones in their places. -/
def Cells.overlay (m : Cells) (a : Nat) (bs : List Byte) : List Byte := if m.isEmpty then bs else bs.zipIdx.map (fun b => (cellAt m (a + b.2)).getD b.1)

/-- Is near byte a of a workgroup in the image of a fill, and no wait has acquired its chunk? -/
def Tile.filling (x : Tile) (a : Nat) : Bool := decide (x.base ≤ a) && decide (a < x.base + x.fillLen) && !x.seen.getLsbD ((a - x.base) / 512)

/-- Bytes of a destination element (R242). -/
def FmtSlot.esz (f : FmtSlot) : Nat :=
  match f.fmt with
  | 0 => 4 | 1 => 2 | 2 => 2 | 4 => 1 | 5 => 1 | 6 => 4 | 7 => 4
  | _ => 1

/-- Is near byte a of workgroup w one that the operation will write? -/
def MOp.drains (o : MOp) (w a : Nat) : Bool :=
  match o.op with
  | .drain _ off f _ => o.wg == w && decide (off ≤ a) && decide ((a - off) / f.pitch < 32) && decide ((a - off) % f.pitch < 32 * f.esz)
  | .fill _ _ _ _ _ | .mac _ _ _ _ _ _ _ _ _ | .clr _ | .fence _ => false

/-- Near bytes from o on as an access meets them that races with the fills of some tiles and with some xsts: what they hold or will write is undefined. -/
def State.racedWith (s : State) (ts : List Tile) (os : List MOp) (w o : Nat) (bs : List Byte) : List Byte :=
  let x := s.wg w
  let ts := ts.filter (fun (t : Tile) => t.fillLen != 0)
  if ts.isEmpty && os.isEmpty then bs
  else
    let e := s.wgName w ++ s.stamp (s.grid x.grid).vd
    bs.zipIdx.map (fun b => if ts.any (fun t => Tile.filling t (o + b.2)) || os.any (fun q => MOp.drains q w (o + b.2)) then Config.freeByte e (o + b.2) else b.1)

/-- Near bytes as a crew's access meets them: those that an engine's fill holds, and those that an unfinished xst will write, are undefined. -/
def State.raced (s : State) (w o : Nat) (bs : List Byte) : List Byte := s.racedWith (s.wg w).tiles (s.mats.flatMap (·.arrQ)) w o bs

/-- Near bytes of tile i as an engine that reads it meets them: the same, but for the tile's own fill, which is complete (R200). `ordered` are the xsts that come after
the read by a fence. -/
def State.racedFor (s : State) (w i : Nat) (ordered : MOp → Bool) (o : Nat) (bs : List Byte) : List Byte :=
  s.racedWith ((s.wg w).tiles.eraseIdx i) ((s.mats.flatMap (·.arrQ)).filter (fun q => !ordered q)) w o bs

/-- The bytes of a running fill that a near write at a lo, n bytes long, overwrites are undefined (R232). -/
def MOp.tear (t : Nat) (event : List Nat) (lo n : Nat) (o : MOp) : MOp :=
  match o.op with
  | .fill i _ _ pitch rb =>
    if o.start.isSome ∧ t < o.done then
      { o with bytes := o.bytes.zipIdx.map (fun p =>
          let at' := o.src + p.2 / rb * pitch + p.2 % rb
          if lo ≤ at' ∧ at' < lo + n then Config.freeByte (i :: event) p.2 else p.1) }
    else o
  | .mac _ _ _ _ _ _ _ _ _ | .clr _ | .drain _ _ _ _ | .fence _ => o

/-- Near bytes written; the xfills and the sends that are reading them are torn. -/
def State.nearPut (s : State) (w o : Nat) (bs : List Byte) : State :=
  let x := s.wg w
  let s := if s.mats.all (fun u => u.fillQ.isEmpty) then s
    else { s with mats := s.mats.map (fun u => if u.core == x.core then { u with fillQ := u.fillQ.map (MOp.tear s.t (s.wgName w ++ s.stamp (s.grid x.grid).vd) (x.near + o) bs.length) } else u) }
  let s := s.tearSends (s.grid x.grid).vd (s.sendFromNear x.core (x.near + o) bs.length)
  s.setNear x.core ((s.nearOf x.core).write (x.near + o) bs)

/-- A write of n near bytes from o on races with the Barge requests and the landings at work there: what they read of these bytes later is undefined, and so is
what they leave in them. -/
def State.tearEngines (s : State) (w o n : Nat) : State :=
  let x := s.wg w
  let v := (s.grid x.grid).vd
  let e := s.wgName w ++ s.stamp v
  let mark (m : Cells) (base lim : Nat) (ok : Nat → Bool) : Cells :=
    (List.range n).foldl (fun (m : Cells) i => if base ≤ o + i ∧ o + i < base + lim ∧ ok (o + i - base) then cellPut m (o + i - base) (Config.freeByte e (o + i)) else m) m
  let barge (r : BReq) : BReq :=
    let t := x.tile r.tile
    if r.wg != w then r
    else match r.kind with
      | .cpo => { r with torn := mark r.torn t.base (t.len * 512) (fun _ => true) }
      | .cpy => { r with torn := mark r.torn t.base t.fillLen (fun p => r.chunks.contains (p / 512)) }
      | .cpbIn | .cpbOut | .warm | .mig => r
  let land (r : Rx) : Rx :=
    match r.place with
    | .tile w' i => if r.live && r.st != .final && w' == w then { r with torn := mark r.torn (x.tile i).base ((x.tile i).len * 512) (fun _ => true) } else r
    | .box _ _ => r
  let s := if s.bargeRs.isEmpty then s else { s with bargeRs := s.bargeRs.map barge }
  let d := s.vd v
  if d.rxs.all (fun r => !r.live) then s else s.setVd v { d with rxs := d.rxs.map land }

/-- The unfinished xsts that a write races with leave undefined bytes there (R232, R296). -/
def State.tearDrains (s : State) (w o n : Nat) : State :=
  if s.mats.all (fun u => u.arrQ.isEmpty) then s
  else
    let e := s.wgName w ++ s.stamp (s.grid (s.wg w).grid).vd
    let tear (q : MOp) : MOp := { q with torn := (List.range n).foldl (fun (m : Cells) i => if MOp.drains q w (o + i) then cellPut m (o + i) (Config.freeByte e (o + i)) else m) q.torn }
    { s with mats := s.mats.map (fun (u : MUnit) => { u with arrQ := u.arrQ.map tear }) }

/-- A crew's near write (R193). -/
def State.nearWrite (s : State) (w o : Nat) (bs : List Byte) : State :=
  ((s.tearEngines w o bs.length).tearDrains w o bs.length).nearPut w o (s.raced w o bs)

/-- The die of a core (Table 7.6). -/
def dieOf (core : Nat) : Nat := core / 80

/-- Where world w's Basin range lies on a die, and its length in bytes (R17). -/
def State.basinRange (s : State) (w die : Nat) : Nat × Nat :=
  match s.allotOf w with
  | some a =>
    match a.basin.find? (fun b => b.1 == die) with
    | some (_, first, n) => (first * 2 ^ 20, n * 2 ^ 20)
    | none => (0, 0)
  | none => (0, 0)

/-- The world number of a VD, as a number for the queues; a VD that is not scheduled keeps its queues under a number that no world has (R76). -/
def State.worldNum (s : State) (v : Nat) : Nat := (s.vd v).world.getD (16 + v)

/-- Does a KeyID belong to the tenant of VD v here: by a grant to one of its VDs, or by its allotment (R14, R250, R283)? -/
def State.keyOfTenant (s : State) (v key : Nat) : Bool :=
  s.vds.any (fun d => d.created && d.tenant == (s.vd v).tenant && d.grants.contains key) ||
    s.layout.allots.any (fun a => a.tenant == (s.vd v).tenant && a.keys.contains key)

/-- The queue of a world at a structure (R64). Its first 64 requests are the queue of R65; what no instruction makes and finds it full waits behind them to enter,
in the order of its coming; what stands aside in the queue does not keep it out (log 3). -/
def State.queueOf (s : State) (st : Struct) (w : Nat) : List Req := s.reqs.filter (fun r => r.st == st && r.world == w)

/-- Room for n more requests in a world's queue of 64 (R65). -/
def State.hasRoom (s : State) (st : Struct) (w n : Nat) : Bool := decide ((s.queueOf st w).length + n ≤ 64)

/-- Acceptances already made at a structure in the present clock. -/
def State.accepted (s : State) (st : Struct) : Nat := ((s.accepts.find? (fun a => a.1 == st)).map (·.2)).getD 0

/-- One more. -/
def State.countAccept (s : State) (st : Struct) : State := { s with accepts := keyed st (s.accepted st + 1) s.accepts }

/-- A request put in its place by the clock at which it enters. -/
def reqInsert (r : Req) : List Req → List Req
  | [] => [r]
  | q :: rest => if r.after < q.after then r :: q :: rest else q :: reqInsert r rest

/-- A request enters the world's queue at clock `after` (R65). -/
def State.enqueueAt (s : State) (st : Struct) (w : Nat) (item : ReqItem) (after : Nat) : State :=
  { s with reqs := reqInsert ⟨st, w, item, after⟩ s.reqs }

/-- A request enters the world's queue now. -/
def State.enqueue (s : State) (st : Struct) (w : Nat) (item : ReqItem) : State := s.enqueueAt st w item s.t

end Sys2Proof.Machine
end

