-- ==== Sys2Proof/Machine/Operands.lean ====
section
/-! DEFINITION. How a word acts on the lanes of its path: the checks of the encoding class that depend on the crew (R82, R88, R89, R23),
guards and ACTIVE (R9, R79, R120), the effect of a word, a word that waits (R10), and a word that traps (R309); and the operand forms. -/
namespace Sys2Proof.Machine
open Sys2Proof

/-- What a word does once its encoding class has passed: it takes effect, its path waits in the given state, or it traps. -/
inductive Eff
  | ok (s : State)
  | wait (st : LaneSt)
  | trap (code : BitVec 8) (info : DWord)

/-- The trap codes of Table 21.1. -/
def tcIllegalOpcode : BitVec 8 := 0x01
def tcIllegalEncoding : BitVec 8 := 0x02
def tcBankConflict : BitVec 8 := 0x03
def tcNonuniform : BitVec 8 := 0x04
def tcConvergence : BitVec 8 := 0x05
def tcRole : BitVec 8 := 0x06
def tcHandle : BitVec 8 := 0x07
def tcNearBounds : BitVec 8 := 0x08
def tcMisaligned : BitVec 8 := 0x09
def tcFarAccess : BitVec 8 := 0x0A
def tcPeerClosed : BitVec 8 := 0x0B
def tcNumeric : BitVec 8 := 0x0C
def tcIntegrity : BitVec 8 := 0x0D
def tcSpillOverflow : BitVec 8 := 0x0E
def tcBreakpoint : BitVec 8 := 0x0F
def tcSoftware : BitVec 8 := 0x11

/-- What a word needs of the crew: the registers that it writes and reads as (register, how many), the fields that count for the banks
(R88: the fields it reads, unless the pair word gives its own, R89), its role, and the predicates that it reads, and writes whatever their values. A coordinate `group` must lie below the count, whichever of it is read (R208). -/
structure Needs where
  dst   : List (BitVec 8 × Nat) := []
  src   : List (BitVec 8 × Nat) := []
  group : List (BitVec 8 × Nat) := []
  banks : List (BitVec 8) := src.map (·.1)
  role  : Option Nat := none
  preds : List (BitVec 4) := []
  pdst  : List (BitVec 4) := []

/-- R82: every register below the count. -/
def Needs.regsOk (n : Needs) (count : Nat) : Bool := (n.dst ++ n.src ++ n.group).all (fun r => decide (r.1.toNat + r.2 ≤ count))

/-- How often a bank is counted (R88, R89). -/
def bankCount (rs : List (BitVec 8)) (b : Nat) : Nat := (rs.filter (fun r => r.toNat % 4 == b)).length

def banksOk (rs : List (BitVec 8)) : Bool := (List.range 4).all (fun b => decide (bankCount rs b ≤ 2))

/-- The path that the current word issues on. -/
def Issue.path (is : Issue) : BitVec 8 := if is.onB then is.lanesB else is.lanes
def Issue.at (is : Issue) : BitVec 32 := if is.onB then is.pcB else is.pc

/-- Is lane x's guard true (R79)? -/
def guardTrue (h : Hdr) (x : Lane) : Bool :=
  if h.g.toNat < 12 then x.preds.getLsbD h.g.toNat != h.gn else h.g.toNat == 12 && !h.gn

/-- The lanes of a path whose guard is true (R9). -/
def activeLanes (h : Hdr) (k : Crew) (path : BitVec 8) : List Nat := (lanesOf path).filter (fun l => guardTrue h (k.lane l))

/-- A lane after issuing a word: its pc moves on and every open window loses a place (R109, R113). -/
def Lane.issueOne (x : Lane) : Lane :=
  { x with pc := x.pc + 1, pend := x.pend.map (fun p => { p with win := p.win - 1 }) }

def Crew.issuePath (k : Crew) (path : BitVec 8) : Crew := (lanesOf path).foldl (fun k l => k.setLane l (k.lane l).issueOne) k

/-- The path has issued its word: the lanes have moved on (R109). -/
def State.issueWord (s : State) (is : Issue) : State :=
  { (s.setCrew is.crew ((s.crew is.crew).issuePath is.path)) with
    issue := some { is with issued := is.issued ||| is.path, spent := true } }

/-- The path waits: its lanes are HELD or PARKED and do not issue on this turn (R10, R106). -/
def State.holdPath (s : State) (is : Issue) (st : LaneSt) : State :=
  { (s.setCrew is.crew ((lanesOf is.path).foldl (fun k l => k.setLane l { k.lane l with st := st }) (s.crew is.crew))) with
    issue := some { is with spent := true } }

/-- The path's word traps (R312): no effect, and the turn counts as issued for its lanes. -/
def State.trapPath (s : State) (is : Issue) (code : BitVec 8) (info : DWord) : State :=
  let s := { s with issue := some { is with issued := is.issued ||| is.path, spent := true, trapped := true } }
  s.takeTrap is.crew is.path ⟨code, info, is.at⟩

/-- The encoding-class checks that need the crew (rows 2 to 4 of Table 5.13). -/
def Needs.check (n : Needs) (k : Crew) (count : Nat) : Option (BitVec 8) :=
  if !n.regsOk count then some tcIllegalEncoding
  else if !banksOk n.banks then some tcBankConflict
  else match n.role with
    | some r => if k.role == r then none else some tcRole
    | none => none

/-- The registers of a list of (register, how many). -/
def regNumbers (rs : List (BitVec 8 × Nat)) : List Nat := rs.flatMap (fun r => (List.range r.2).map (r.1.toNat + ·))

/-- Does lane l of crew c hold an uncorrectable error in one of the registers (R311)? -/
def State.regBad (s : State) (c l : Nat) (rs : List (BitVec 8 × Nat)) : Bool :=
  !s.badSram.isEmpty && (regNumbers rs).any (fun r => s.badSram.contains (.reg c l r))

/-- A register that is written holds good data again. -/
def State.mendRegs (s : State) (c : Nat) (act : List Nat) (rs : List (BitVec 8 × Nat)) : State :=
  if s.badSram.isEmpty then s
  else { s with badSram := s.badSram.filter (fun e => match e with
    | .reg c' l r => !(c' == c && act.contains l && (regNumbers rs).contains r)
    | _ => true) }

/-- Does lane l of crew c hold an uncorrectable error in one of the predicates (R311)? -/
def State.predBad (s : State) (c l : Nat) (ps : List (BitVec 4)) : Bool := !s.badSram.isEmpty && ps.any (fun p => s.badSram.contains (.pred c l p.toNat))

/-- A predicate that is written holds good data again. -/
def State.mendPreds (s : State) (c : Nat) (hit : Nat → BitVec 4 → Bool) : State :=
  if s.badSram.isEmpty then s
  else { s with badSram := s.badSram.filter (fun e => match e with
    | .pred c' l p => !(c' == c && hit l (BitVec.ofNat 4 p))
    | _ => true) }

/-- What a word writes on its active lanes holds good data again. -/
def State.mend (s : State) (c : Nat) (act : List Nat) (n : Needs) : State :=
  (s.mendRegs c act n.dst).mendPreds c (fun l p => act.contains l && n.pdst.contains p)

/-- Does a lane read an uncorrectable error for a word (R311)? -/
def State.readBad (s : State) (c l : Nat) (n : Needs) : Bool := s.regBad c l n.src || s.predBad c l n.preds

/-- %trapinfo of INTEGRITY (Table 21.1): line address, source as R259, lowest lane. -/
def integrityInfo (line src lane : Nat) : DWord := BitVec.ofNat 64 (line % 2 ^ 57 + src * 2 ^ 57 + lane * 2 ^ 60)

/-- Issuing one word (R95, R109, R120): the encoding class; a guard that cannot be read, after which no other check can be made (R311; log 19); then, with no active
lane, nothing but the advance; otherwise the word's own effect, unless a register or predicate that it read holds an uncorrectable error (R311). The body is given the
state in which the path has issued, the crew as it stood before (ReadReg), and the active lanes. -/
def word (h : Hdr) (n : Needs) (body : State → Crew → List Nat → Eff) (s : State) : Out :=
  match s.issue with
  | none => .next s
  | some is =>
    let k := s.crew is.crew
    match n.check k (s.gridOf is.crew).regs with
    | some code => .next (s.trapPath is code 0)
    | none =>
      match (lanesOf is.path).find? (fun l => s.predBad is.crew l [h.g]) with
      | some l => .next (s.trapPath is tcIntegrity (integrityInfo 0 0 l))
      | none =>
        let act := activeLanes h k is.path
        if act.isEmpty then .next (s.issueWord is)
        else match body (s.issueWord is) k act with
          | .ok s' =>
            match act.find? (fun l => s.readBad is.crew l n) with
            | some l => .next (s.trapPath is tcIntegrity (integrityInfo 0 0 l))
            | none => .next (s'.mend is.crew act n)
          | .wait st => .next (s.holdPath is st)
          | .trap code info => .next (s.trapPath is code info)

/-- The crew that is issuing. -/
def State.cur (s : State) : Nat := match s.issue with | some is => is.crew | none => 0

/-- The path that is issuing, and the word's place. -/
def State.curPath (s : State) : BitVec 8 := match s.issue with | some is => is.path | none => 0
def State.curPc (s : State) : BitVec 32 := match s.issue with | some is => is.at | none => 0

/-- The issuing crew updated. -/
def State.updCur (s : State) (f : Crew → Crew) : State := s.setCrew s.cur (f (s.crew s.cur))

/-- A change of each active lane. -/
def Crew.onLanes (k : Crew) (act : List Nat) (f : Nat → Lane → Lane) : Crew := act.foldl (fun k l => k.setLane l (f l (k.lane l))) k

/-- Lanes of the path that do not issue after all: they stand as they stood before, waiting in the given state. -/
def State.unissue (s : State) (before : Crew) (ls : List Nat) (st : Lane → LaneSt) : State :=
  let s := s.updCur (fun k => ls.foldl (fun k l => k.setLane l { before.lane l with st := st (before.lane l) }) k)
  match s.issue with
  | none => s
  | some is => { s with issue := some { is with issued := is.issued &&& ~~~laneMask ls } }

/-- ReadReg of operand field f for lane l of the crew as it stood (R10, R114). -/
def rd (s : State) (k : Crew) (f l : Nat) (r : BitVec 8) : Word := regRead (s.readAt k) f l (k.lane l) r.toNat
def rd64 (s : State) (k : Crew) (f l : Nat) (r : BitVec 8) : DWord := pairRead (s.readAt k) f l (k.lane l) r.toNat

/-- n registers upwards as bytes, lowest register first (Table 10.3). -/
def rdBytes (s : State) (k : Crew) (f l : Nat) (r : BitVec 8) (bytes : Nat) : List Byte :=
  ((List.range ((bytes + 3) / 4)).flatMap (fun i => toBytes 4 (operandRead (s.readAt k) f l (k.lane l) r.toNat (r.toNat + i)).toNat)).take bytes

/-- A word whose result for each active lane is one register. -/
def regWord (h : Hdr) (d : BitVec 8) (src : List (BitVec 8)) (f : (Nat → BitVec 8 → Word) → Crew → Nat → Word) (s : State) (preds : List (BitVec 4) := []) : Out :=
  word h { dst := [(d, 1)], src := src.map (·, 1), preds := preds }
    (fun s k act => .ok (s.updCur (fun k' => k'.onLanes act (fun l x => regWrite x d.toNat (f (fun i r => rd s k i l r) k l))))) s

/-- A word with one, two or three register sources and a register result. -/
def unary (h : Hdr) (d a : BitVec 8) (f : Word → Word) : State → Out := regWord h d [a] (fun r _ _ => f (r 0 a))
def binary (h : Hdr) (d a b : BitVec 8) (f : Word → Word → Word) : State → Out := regWord h d [a, b] (fun r _ _ => f (r 0 a) (r 1 b))
def ternary (h : Hdr) (d a b c : BitVec 8) (f : Word → Word → Word → Word) : State → Out :=
  regWord h d [a, b, c] (fun r _ _ => f (r 0 a) (r 1 b) (r 2 c))

/-- A word whose result for each active lane may be a NUMERIC trap: then no lane is written and %trapinfo names the lowest such lane (R174). -/
def numWord (h : Hdr) (d : BitVec 8) (src : List (BitVec 8)) (f : (Nat → BitVec 8 → Word) → Option Word) (s : State) : Out :=
  word h { dst := [(d, 1)], src := src.map (·, 1) }
    (fun s k act =>
      let res (l : Nat) : Option Word := f (fun i r => rd s k i l r)
      match act.find? (fun l => (res l).isNone) with
      | some l => .trap tcNumeric (BitVec.ofNat 64 l)
      | none => .ok (s.updCur (fun k' => k'.onLanes act (fun l x => regWrite x d.toNat ((res l).getD 0))))) s

/-- A word whose result for each active lane is a predicate. -/
def predWord (h : Hdr) (pd : BitVec 4) (n : Needs) (f : State → Crew → Nat → Bool) (s : State) : Out :=
  word h { n with pdst := [pd] } (fun s k act => .ok (s.updCur (fun k' => k'.onLanes act (fun l x => predWrite x pd (f s k l))))) s

/-- A long-latency word whose result is known at issue and written after a fixed time (R113): idiv, irem, fspecial, xrd. -/
def openFixed (s : State) (act : List Nat) (kind : PendKind) (la : BitVec 4) (d : BitVec 8) (clk : Nat) (vals : Nat → List Word) : State :=
  act.foldl (fun s l =>
    let id := s.nextId
    let p : Pending := { id := id, kind := kind, win := la.toNat, base := d.toNat, regs := (List.range (vals l).length).map (d.toNat + ·), value := vals l }
    ((s.updCur (fun k => k.setLane l (openWindow (k.lane l) p))).bump).post (s.t + clk) (.fixedLatencyComplete s.cur l id)) s

/-- The one value that a uniform operand has on the active lanes, or nothing where they differ (R141). -/
def uniform (vals : List Nat) : Option Nat :=
  match vals with
  | [] => none
  | v :: rest => if rest.all (· == v) then some v else none

/-- %trapinfo of a HANDLE trap: the value in [8:0] and its kind in [11:9] (R235). -/
def handleInfo (v kind : Nat) : DWord := BitVec.ofNat 64 (v % 512 + 512 * kind)

/-- A tile handle on the active lanes: the index and the expected phase, or NONUNIFORM (R199). -/
def tileHandle (s : State) (k : Crew) (act : List Nat) : TileH → Option (Nat × Bool)
  | .imm i ph => some (i.toNat, ph)
  | .reg r => (uniform (act.map (fun l => (rd s k 2 l r).toNat % 512))).map (fun v => (v % 256, decide (256 ≤ v)))

/-- The registers of a tile operand. -/
def TileH.needs : TileH → List (BitVec 8)
  | .imm _ _ => []
  | .reg r => [r]

def handleValue (i : Nat) (ph : Bool) : Nat := i + (if ph then 256 else 0)

/-- A format slot of the launch (R37, R40). -/
def Grid.fs (g : Grid) (k : BitVec 3) : FmtSlot := g.fss.getD k.toNat {}

/-- Bytes and registers of a width (Table 10.3). -/
def Width.bytes : Width → Nat | .i8 => 1 | .n8 => 1 | .b16 => 2 | .b32 => 4 | .b64 => 8 | .b128 => 16
def Width.count : Width → Nat | .i8 => 1 | .n8 => 1 | .b16 => 1 | .b32 => 1 | .b64 => 2 | .b128 => 4
def Width2.bytes : Width2 → Nat | .b32 => 4 | .b64 => 8
def Width2.count : Width2 → Nat | .b32 => 1 | .b64 => 2
def Width2.wide : Width2 → Width | .b32 => .b32 | .b64 => .b64

/-- The registers that a load writes from its bytes (Table 10.3). -/
def extendLoad (wd : Width) (bs : List Byte) : List Word :=
  match wd with
  | .i8 => [(BitVec.ofNat 8 (ofBytes bs)).signExtend 32]
  | .n8 => [BitVec.ofNat 32 (ofBytes bs)]
  | .b16 => [BitVec.ofNat 32 (ofBytes bs)]
  | .b32 => [BitVec.ofNat 32 (ofBytes bs)]
  | .b64 => [BitVec.ofNat 32 (ofBytes (bs.take 4)), BitVec.ofNat 32 (ofBytes (bs.drop 4))]
  | .b128 => (List.range 4).map (fun i => BitVec.ofNat 32 (ofBytes ((bs.drop (4 * i)).take 4)))

/-- The count of a shift (R135, R138). -/
def shiftSrc5 : Shift5 → List (BitVec 8)
  | .reg b => [b]
  | .imm _ => []
def shiftSrc6 : Shift6 → List (BitVec 8)
  | .reg b => [b]
  | .imm _ => []

/-- The signed offset added to an address register, modulo 2^32 (R190). -/
def addr32 (a : Word) (ofs : Int) : Nat := (BitVec.ofInt 32 ((a.toNat : Int) + ofs)).toNat

end Sys2Proof.Machine
end

