-- ==== Sys2Proof/Machine/Near.lean ====
section
/-! DEFINITION. ld, st, atom and cas in the near, spill and Basin spaces (R190-R198). -/
namespace Sys2Proof.Machine
open Sys2Proof

def Space.code : Space → Nat | .near => 0 | .spill => 1 | .basin => 2

/-- The bound of a space for a crew, and the code of a bound trap (Table 10.1). -/
def State.spaceBound (s : State) (k : Crew) (sp : Space) : Nat × BitVec 8 :=
  let g := s.grid (s.wg k.wg).grid
  match sp with
  | .near => (g.near * 512, tcNearBounds)
  | .spill => (g.spill * 16, tcSpillOverflow)
  | .basin => ((s.basinRange (s.worldNum g.vd) (dieOf k.core)).2, tcNearBounds)

/-- %trapinfo of R198. -/
def spaceInfo (addr lane sp : Nat) : DWord := BitVec.ofNat 64 (addr + lane * 2 ^ 32 + sp * 2 ^ 35)

/-- Check(addr) of R198: a bound condition in any lane ranks above MISALIGNED in any lane. -/
def State.spaceCheck (s : State) (k : Crew) (sp : Space) (w : Nat) (act : List Nat) (addr : Nat → Nat) : Option (BitVec 8 × DWord) :=
  let b := s.spaceBound k sp
  match act.find? (fun l => decide (b.1 < addr l + w)) with
  | some l => some (b.2, spaceInfo (addr l) l (Space.code sp))
  | none =>
    match act.find? (fun l => addr l % w != 0) with
    | some l => some (tcMisaligned, spaceInfo (addr l) l (Space.code sp))
    | none => none

/-- Where byte a of lane l's spill window lies among the partition's cells. Nothing can observe the placement (R191). -/
def Crew.spillAt (k : Crew) (l a : Nat) : Nat := ((k.pos * 8 + k.slot) * 8 + l) * 8192 + a

/-- n near bytes as a crew reads them (R203, R206, R215, R232). -/
def State.crewNear (s : State) (w a n : Nat) : List Byte := s.raced w a (s.nearBytes w a n)

/-- n bytes of the near store or of a lane's spill window (R190). -/
def State.localRead (s : State) (k : Crew) (sp : Space) (l a n : Nat) : List Byte :=
  match sp with
  | .near => s.crewNear k.wg a n
  | .spill => (List.range n).map (fun i => cellRead (s.spillOf k.core k.part) (s.wg k.wg).serial (k.spillAt l (a + i)))
  | .basin => []

/-- Words of an SRAM that a write makes good again: 64-bit words (R355). -/
def ErrSite.inNear (core lo n : Nat) : ErrSite → Bool
  | .near c o => c == core && decide (lo / 8 ≤ o / 8) && decide (o / 8 ≤ (lo + n - 1) / 8)
  | _ => false
def ErrSite.inSpill (core part lo n : Nat) : ErrSite → Bool
  | .spill c p o => c == core && p == part && decide (lo / 8 ≤ o / 8) && decide (o / 8 ≤ (lo + n - 1) / 8)
  | _ => false
def ErrSite.inBasin (die lo n : Nat) : ErrSite → Bool
  | .basin d o => d == die && decide (lo / 8 ≤ o / 8) && decide (o / 8 ≤ (lo + n - 1) / 8)
  | _ => false

/-- The error sites that an access to n local bytes touches. -/
def State.localSite (s : State) (k : Crew) (sp : Space) (l a n : Nat) : ErrSite → Bool :=
  match sp with
  | .near => ErrSite.inNear k.core ((s.wg k.wg).near + a) n
  | .spill => ErrSite.inSpill k.core k.part (k.spillAt l a) n
  | .basin => fun _ => false

/-- Bytes written to the near store or to a lane's spill window. -/
def State.localWrite (s : State) (k : Crew) (sp : Space) (l a : Nat) (bs : List Byte) : State :=
  let s := if s.badSram.isEmpty then s else { s with badSram := s.badSram.filter (fun e => !s.localSite k sp l a bs.length e) }
  match sp with
  | .near => s.nearWrite k.wg a bs
  | .spill => s.setSpill k.core k.part ((s.spillOf k.core k.part).write (k.spillAt l a) bs)
  | .basin => s

/-- The lowest lane that would read an uncorrectable error (R311). -/
def State.localBad (s : State) (k : Crew) (sp : Space) (n : Nat) (act : List Nat) (addr : Nat → Nat) : Option Nat :=
  if s.badSram.isEmpty then none else act.find? (fun l => s.badSram.any (s.localSite k sp l (addr l) n))

/-- What an access does to the bytes it names, and what it returns (R195-R197). kind: 0 ld, 1 st, 2 atom, 3 cas. -/
def accessBytes (kind : Nat) (op : Aop) (ty : Aty) (w : Nat) (old b c : List Byte) : List Byte :=
  match kind with
  | 0 => old
  | 1 => b
  | 2 => toBytes w (atomResult op ty false (BitVec.ofNat 64 (ofBytes old)) (BitVec.ofNat 64 (ofBytes b))).toNat
  | _ => if old = b then c else old

/-- Does it write: a ld never, a cas only where the old value is the one asked for (R195, R197)? -/
def accessWrites (kind : Nat) (old b : List Byte) : Bool :=
  match kind with
  | 0 => false
  | 1 | 2 => true
  | _ => decide (old = b)

/-- The distinct 64-byte lines of the lanes' addresses, in order of the lowest lane that names each (R192, R65). -/
def linesOf (act : List Nat) (addr : Nat → Nat) : List Nat := (act.map (fun l => addr l / 64)).eraseDups

/-- An access in the Basin space: one request per line at the core's port, if the queue has room for all (R192, R65). -/
def basinAccess (s : State) (k : Crew) (act : List Nat) (la : BitVec 4) (kind : Nat) (op : Aop) (ty : Aty) (wd : Width)
    (d : Option (BitVec 8)) (addr : Nat → Nat) (b c : Nat → List Byte) : Eff :=
  let v := s.vdOf s.cur
  let w := s.worldNum v
  let ls := linesOf act addr
  if !s.hasRoom (.basin k.core) w ls.length then .wait .held
  else
    let id := s.nextId
    let o : BasinOp := { id := id, vd := v, core := k.core, crew := s.cur, kind := kind, aop := op, aty := ty, wd := wd,
                         lanes := act.map (fun l => (l, addr l, b l, c l)), todo := ls }
    let s := { s.bump with basinOps := s.basinOps ++ [o] }
    let s := ls.foldl (fun s x => s.enqueue (.basin k.core) w (.basin id x)) s
    .ok (match d with
      | none => s
      | some d => s.updCur (fun k' => k'.onLanes act (fun _ x => openWindow x
          { id := id, kind := .basin, win := la.toNat, base := d.toNat, regs := (List.range (Width.count wd)).map (d.toNat + ·) })))

/-- An access in the near or spill space: performed in the issue clock, lanes in ascending order (R193). -/
def localAccess (s : State) (k : Crew) (act : List Nat) (kind : Nat) (op : Aop) (ty : Aty) (sp : Space) (wd : Width)
    (d : Option (BitVec 8)) (addr : Nat → Nat) (b c : Nat → List Byte) : Eff :=
  let w := Width.bytes wd
  match (if kind == 1 then none else s.localBad k sp w act addr) with
  | some l => .trap tcIntegrity (integrityInfo 0 0 l)
  | none =>
    let r := act.foldl (fun (r : State × List (Nat × List Byte)) l =>
      let old := r.1.localRead k sp l (addr l) w
      (if accessWrites kind old (b l) then r.1.localWrite k sp l (addr l) (accessBytes kind op ty w old (b l) (c l)) else r.1, r.2 ++ [(l, old)])) (s, [])
    .ok (match d with
      | none => r.1
      | some d => r.1.updCur (fun k' => r.2.foldl (fun k' p => k'.setLane p.1 (regWrites (k'.lane p.1) d.toNat (extendLoad wd p.2))) k'))

/-- The four accesses (R195-R197) after their checks. -/
def spaceWord (h : Hdr) (n : Needs) (la : BitVec 4) (kind : Nat) (op : Aop) (ty : Aty) (sp : Space) (wd : Width) (d : Option (BitVec 8))
    (a : BitVec 8) (ofs : Int) (b c : Option (BitVec 8)) : State → Out :=
  word h n (fun s k act =>
    let w := Width.bytes wd
    let addr (l : Nat) : Nat := addr32 (rd s k 0 l a) ofs
    let data (f : Nat) (r : Option (BitVec 8)) (l : Nat) : List Byte := match r with | some r => rdBytes s k f l r w | none => []
    match s.spaceCheck k sp w act addr with
    | some (code, info) => .trap code info
    | none =>
      match sp with
      | .basin => basinAccess s k act la kind op ty wd d addr (data 1 b) (data 2 c)
      | .near => localAccess s k act kind op ty .near wd d addr (data 1 b) (data 2 c)
      | .spill => localAccess s k act kind op ty .spill wd d addr (data 1 b) (data 2 c))

def execLd (h : Hdr) (la : BitVec 4) (sp : Space) (wd : Width) (d a : BitVec 8) (ofs : BitVec 10) (s : State) : Out :=
  spaceWord h { dst := [(d, Width.count wd)], src := [(a, 1)] } la 0 .add .i32 sp wd (some d) a ofs.toInt none none s

def execSt (h : Hdr) (sp : Space) (wd : Width) (a b : BitVec 8) (ofs : BitVec 10) (s : State) : Out :=
  spaceWord h { src := [(a, 1), (b, Width.count wd)] } 0 1 .add .i32 sp wd none a ofs.toInt (some b) none s

def execAtom (h : Hdr) (la : BitVec 4) (op : Aop) (sp : Space) (ty : Aty) (d a b : BitVec 8) (ofs : BitVec 8) (s : State) : Out :=
  spaceWord h { dst := [(d, 1)], src := [(a, 1), (b, 1)] } la 2 op ty sp .b32 (some d) a ofs.toInt (some b) none s

def execCas (h : Hdr) (la : BitVec 4) (sp : Space) (wd : Width2) (d a b c : BitVec 8) (ofs : BitVec 10) (s : State) : Out :=
  spaceWord h { dst := [(d, Width2.count wd)], src := [(a, 1), (b, Width2.count wd), (c, Width2.count wd)] } la 3 .exch .i32 sp
    (Width2.wide wd) (some d) a ofs.toInt (some b) (some c) s

/-! ### The Basin bank -/

/-- Bytes of a world's range on a die (R190). -/
def State.basinRead (s : State) (vd core a n : Nat) : List Byte :=
  let r := s.basinRange (s.worldNum vd) (dieOf core)
  (s.basinOf (dieOf core)).read (r.1 + a) n

def State.basinWrite (s : State) (vd core a : Nat) (bs : List Byte) : State :=
  let r := s.basinRange (s.worldNum vd) (dieOf core)
  let s := if s.badSram.isEmpty then s else { s with badSram := s.badSram.filter (fun e => !ErrSite.inBasin (dieOf core) (r.1 + a) bs.length e) }
  s.setBasin (dieOf core) ((s.basinOf (dieOf core)).write (r.1 + a) bs)

/-- Is Basin byte a of a VD on a die in the image of a cpb.in, and no wait has acquired its chunk (R215)? -/
def State.basinFilling (s : State) (vd die a : Nat) : Bool :=
  s.wgs.any (fun w => w.live && dieOf w.core == die && (s.grid w.grid).vd == vd && w.tiles.any (fun t => match t.fillAt with
    | some (b, n) => decide (b ≤ a) && decide (a < b + n) && !t.seen.getLsbD ((a - b) / 512)
    | none => false))

/-- Basin bytes as a crew's access meets them: those of an image that no wait has acquired are undefined (R215, R296). -/
def State.basinRaced (s : State) (vd die a : Nat) (bs : List Byte) : List Byte :=
  bs.zipIdx.map (fun b => if s.basinFilling vd die (a + b.2) then Config.freeByte (die :: s.stamp vd) (a + b.2) else b.1)

/-- A write of Basin bytes races with the cpbs at work there. -/
def State.tearBasin (s : State) (vd die a n : Nat) : State :=
  if s.bargeRs.all (fun r => r.kind != .cpbIn && r.kind != .cpbOut) then s
  else
    let e := die :: s.stamp vd
    let tear (r : BReq) : BReq :=
      if (r.kind == .cpbIn || r.kind == .cpbOut) && r.vd == vd && dieOf r.core == die then
        { r with torn := (List.range n).foldl (fun (m : Cells) i => if r.baddr ≤ a + i then cellPut m (a + i - r.baddr) (Config.freeByte e (a + i)) else m) r.torn }
      else r
    { s with bargeRs := s.bargeRs.map tear }

/-- Does an uncorrectable error lie in the bytes (R311)? -/
def State.basinBad (s : State) (vd core a n : Nat) : Bool :=
  s.badSram.any (ErrSite.inBasin (dieOf core) ((s.basinRange (s.worldNum vd) (dieOf core)).1 + a) n)

/-- One line of an operation is performed at the bank, lanes in ascending order (R192, R193). -/
def State.basinPerform (s : State) (id line : Nat) : State :=
  match s.basinOps.find? (fun o => o.id == id) with
  | none => s
  | some o =>
    let w := Width.bytes o.wd
    let die := dieOf o.core
    let here := o.lanes.filter (fun x => x.2.1 / 64 == line)
    let dead := if o.kind == 1 then [] else (here.filter (fun x => s.basinBad o.vd o.core x.2.1 w)).map (·.1)
    let r := here.foldl (fun (r : State × List (Nat × List Byte)) x =>
      let a := x.2.1
      let old := r.1.basinRaced o.vd die a (r.1.basinRead o.vd o.core a w)
      if dead.contains x.1 then r
      else (if accessWrites o.kind old x.2.2.1 then
          (r.1.tearBasin o.vd die a w).basinWrite o.vd o.core a (r.1.basinRaced o.vd die a (accessBytes o.kind o.aop o.aty w old x.2.2.1 x.2.2.2)) else r.1,
        r.2 ++ [(x.1, old)])) (s, [])
    let o' := { o with todo := o.todo.erase line, got := o.got ++ r.2, dead := o.dead ++ dead }
    let s := { r.1 with basinOps := r.1.basinOps.map (fun q => if q.id == id then o' else q) }
    let s := if o.kind == 1 then s else r.2.foldl (fun (s : State) p => s.decided o.crew p.1 id (extendLoad o.wd p.2)) s
    if o'.todo.isEmpty then s.post (s.t + 40) (.basinResult id) else s

/-- BASIN_RESULT (R192): the result is written 40 clk after the last line's acceptance; an uncorrectable error keeps its lanes' results back and defers INTEGRITY,
which names the lowest of them (R311). -/
def execBasinResult (op : Nat) (s : State) : Out :=
  match s.basinOps.find? (fun o => o.id == op) with
  | none => .next s
  | some o =>
    let s := { s with basinOps := s.basinOps.filter (fun q => q.id != op) }
    let s := if o.kind == 1 then s
      else o.dead.foldl (fun s l => s.completeLane o.crew l op []) (o.got.foldl (fun s p => s.completeLane o.crew p.1 op (extendLoad o.wd p.2)) s)
    .next (match o.dead with
      | [] => s
      | l :: ls => s.deferTrap o.crew tcIntegrity (integrityInfo 0 0 (ls.foldl min l)))

/-- FIXED_LATENCY_COMPLETE (R113): the result decided at issue is written. -/
def execFixedLatencyComplete (crew lane entry : Nat) (s : State) : Out :=
  match ((s.crew crew).lane lane).pend.find? (fun p => p.id == entry) with
  | none => .next s
  | some p => .next (s.completeLane crew lane entry p.value)

end Sys2Proof.Machine
end

