-- ==== Sys2Proof/Machine/Tiles.lean ====
section
/-! DEFINITION. The tile table (R199-R206). -/
namespace Sys2Proof.Machine
open Sys2Proof

/-- HANDLE on a tile (R199). -/
def tileTrap (i : Nat) (ph : Bool) : Eff := .trap tcHandle (handleInfo (handleValue i ph) 2)

/-- The low n bits of a chunk bitmap. -/
def lowBits (n : Nat) : DWord := BitVec.ofNat 64 (2 ^ n - 1)

/-- A word that names a tile: NONUNIFORM, then HANDLE (R199); `needLen` is false for tset and tstat. -/
def withTile (s : State) (k : Crew) (act : List Nat) (t : TileH) (needLen : Bool) (f : Nat → Bool → Tile → Eff) : Eff :=
  match tileHandle s k act t with
  | none => .trap tcNonuniform 0
  | some (i, ph) =>
    let w := s.wg k.wg
    if w.tiles.length ≤ i then tileTrap i ph
    else if needLen && (w.tile i).len == 0 then tileTrap i ph
    else f i ph (w.tile i)

/-- The tile registers that a word reads. -/
def TileH.src (t : TileH) : List (BitVec 8 × Nat) := (TileH.needs t).map (·, 1)

/-- A tile entry of a workgroup replaced. -/
def State.setTile (s : State) (w i : Nat) (x : Tile) : State := s.setWg w ((s.wg w).setTile i x)

/-- tset (R203). -/
def execTset (h : Hdr) (rdy : Bool) (t : TileH) (a b : BitVec 8) (s : State) : Out :=
  word h { src := [(a, 1), (b, 1)] ++ TileH.src t } (fun s k act =>
    match uniform (act.map (fun l => (rd s k 0 l a).toNat)), uniform (act.map (fun l => (rd s k 1 l b).toNat)), tileHandle s k act t with
    | some base, some n, some _ => withTile s k act t false (fun i ph x =>
        if n % 512 != 0 || n < 512 || 32768 < n then tileTrap i ph
        else if (s.grid (s.wg k.wg).grid).near * 512 < base + n then .trap tcNearBounds (BitVec.ofNat 64 base)
        else if base % 512 != 0 then .trap tcMisaligned (BitVec.ofNat 64 base)
        else if x.st != .empty || x.phase != ph then .wait .held
        else
          let x := { x with base := base, len := n / 512, clocks := [], fillLen := 0, fillAt := none, bitmap := if rdy then lowBits (n / 512) else 0,
                            st := if rdy then .ready else .empty }
          .ok (s.setTile k.wg i x))
    | _, _, _ => .trap tcNonuniform 0) s

/-- tdrain (R204). -/
def execTdrain (h : Hdr) (t : TileH) (s : State) : Out :=
  word h { src := TileH.src t } (fun s k act => withTile s k act t true (fun i ph x =>
    if x.st != .ready || x.phase != ph then .wait .held else .ok (s.setTile k.wg i { x with st := .draining }))) s

/-- Does an engine operation or a send still read or write through the entry (R204, R277)? -/
def State.tileBusy (s : State) (w i : Nat) : Bool :=
  s.bargeRs.any (fun r => r.wg == w && r.tile == i && r.kind != .warm && r.kind != .mig)
  || s.matOps.any (fun o => o.wg == w && (o.start == none || decide (s.t < o.done)) && (match o.op with | .fill _ tl _ _ _ => tl == i | _ => false))
  || (s.vd (s.grid (s.wg w).grid).vd).rxs.any (fun r => r.live && r.st == .matched && r.place == .tile w i)
  || (s.vd (s.grid (s.wg w).grid).vd).txs.any (fun x => x.live && x.stat == .pending && x.place == .tile w i)

/-- The entry after tfree (Table 10.5): its fill is over, and its bytes are what the engine wrote (log 10). -/
def Tile.freed (x : Tile) : Tile := { x with st := .empty, phase := !x.phase, bitmap := 0, clocks := [], fillLen := 0, fillAt := none }

/-- tfree (R204). -/
def execTfree (h : Hdr) (t : TileH) (s : State) : Out :=
  word h { src := TileH.src t } (fun s k act => withTile s k act t true (fun i ph x =>
    if x.st != .draining || x.phase != ph || s.tileBusy k.wg i then .wait .held else .ok (s.setTile k.wg i x.freed))) s

/-- State codes of Table 10.7. -/
def TileSt.code : TileSt → Nat | .empty => 0 | .filling => 1 | .ready => 2 | .draining => 3

/-- How many bits of a word are set. -/
def ones64 (x : DWord) : Nat := ((List.range 64).filter (fun i => x.getLsbD i)).length

/-- The tstat word (Table 10.7). -/
def Tile.stat (x : Tile) : Word :=
  BitVec.ofNat 32 (x.len * 1024 + ones64 x.bitmap * 8 + (if x.phase then 4 else 0) + TileSt.code x.st)

/-- tstat (R205). -/
def execTstat (h : Hdr) (map : Bool) (d : BitVec 8) (t : TileH) (s : State) : Out :=
  word h { dst := [(d, if map then 2 else 1)], src := TileH.src t } (fun s k act => withTile s k act t false (fun _ _ x =>
    .ok (s.updCur (fun k' => k'.onLanes act (fun _ y => if map then pairWrite y d.toNat x.bitmap else regWrite y d.toNat x.stat))))) s

/-- The clocks that a wait on the chunks of a mask acquires (R295). -/
def Tile.acquire (x : Tile) (m : DWord) (c : Clock) : Clock :=
  (x.clocks.filter (fun p => m.getLsbD p.1)).foldl (fun c p => Clock.merge p.2 c) c

/-- twait (R206): the bytes of every chunk are the engine's from now on. -/
def execTwait (h : Hdr) (t : TileH) (s : State) : Out :=
  word h { src := TileH.src t } (fun s k act => withTile s k act t true (fun i ph x =>
    if x.st != .ready || x.phase != ph then .wait .held
    else .ok ((s.setTile k.wg i { x with seen := lowBits 64 }).updCur (fun k' => k'.onLanes act (fun _ y => { y with clock := x.acquire (lowBits 64) y.clock }))))) s

/-- cwait (R206). -/
def execCwait (h : Hdr) (t : TileH) (a : BitVec 8) (s : State) : Out :=
  word h { src := (a, 2) :: TileH.src t } (fun s k act =>
    match uniform (act.map (fun l => (rd64 s k 0 l a).toNat)) with
    | none => .trap tcNonuniform 0
    | some m => withTile s k act t true (fun i ph x =>
        let m := BitVec.ofNat 64 m
        if m &&& ~~~lowBits x.len != 0 then tileTrap i ph
        else if m == 0 then .ok s
        else if x.phase != ph || !(x.st == .filling || x.st == .ready) || m &&& ~~~x.bitmap != 0 then .wait .held
        else .ok ((s.setTile k.wg i { x with seen := x.seen ||| m }).updCur (fun k' => k'.onLanes act (fun _ y => { y with clock := x.acquire m y.clock }))))) s

/-- An engine has finished chunk c of a filling entry (R200). -/
def Tile.chunkDone (x : Tile) (c : Nat) : Tile :=
  let b := x.bitmap ||| (1#64 <<< c)
  if x.st == .filling then { x with bitmap := b, st := if b == lowBits x.len then .ready else .filling } else x

end Sys2Proof.Machine
end

