-- ==== Sys2Proof/Machine/Matrix.lean ====
section
/-! DEFINITION. The matrix unit (R227-R243): the eleven words, and the two engines' operations. -/
namespace Sys2Proof.Machine
open Sys2Proof

/-! ### Accessors -/

def State.matUnit (s : State) (core part : Nat) : MUnit :=
  (s.mats.find? (fun u => u.core == core && u.part == part)).getD { core := core, part := part, hists := List.replicate 8 none }

def State.setUnit (s : State) (u : MUnit) : State :=
  if s.mats.any (fun q => q.core == u.core && q.part == u.part) then
    { s with mats := s.mats.map (fun q => if q.core == u.core && q.part == u.part then u else q) }
  else { s with mats := s.mats ++ [u] }

/-- The matrix pool of a workgroup on a partition (R227). -/
def Wg.pool (w : Wg) (part : Nat) : Pool := (w.pools.find? (fun p => p.part == part)).getD { part := part }
def Wg.setPool (w : Wg) (p : Pool) : Wg := { w with pools := w.pools.map (fun q => if q.part == p.part then p else q) }
def Pool.slot (p : Pool) (i : Nat) : OSlot := p.slots.getD i {}
def State.setSlot (s : State) (w part i : Nat) (o : OSlot) : State :=
  let p := (s.wg w).pool part
  s.setWg w ((s.wg w).setPool { p with slots := p.slots.set i o })
def State.setAcc (s : State) (w part i : Nat) (a : Acc) : State :=
  let p := (s.wg w).pool part
  s.setWg w ((s.wg w).setPool { p with accs := p.accs.set i a })

/-- Element n of an accumulator tile, undefined until something writes it (R229; log 6). -/
def Acc.word (a : Acc) (n : Nat) : Word :=
  match a.vals with
  | some v => v.getD n 0
  | none => BitVec.ofNat 32 (ofBytes ((List.range 4).map (fun b => Config.undefByte a.serial (4 * n + b))))

def Acc.words (a : Acc) : List Word := (List.range 1024).map a.word

/-- Is an operation not yet complete at clock t (R231)? -/
def MOp.pending (o : MOp) (t : Nat) : Bool := o.start.isNone || decide (t < o.done)

/-- The engine's queue, and its operations that still hold a place. -/
def MUnit.queue (u : MUnit) (e : MEngine) : List MOp := match e with | .fill => u.fillQ | .array => u.arrQ
def MUnit.setQueue (u : MUnit) (e : MEngine) (q : List MOp) : MUnit := match e with | .fill => { u with fillQ := q } | .array => { u with arrQ := q }
def State.matRoom (s : State) (core part : Nat) (e : MEngine) : Bool :=
  decide ((((s.matUnit core part).queue e).filter (fun o => o.pending s.t)).length < 8)

/-- An operation enters its engine's queue (R231). -/
def State.matIssue (s : State) (k : Crew) (e : MEngine) (op : MKindOp) : State :=
  let u := s.matUnit k.core k.part
  let o : MOp := { id := s.nextId, crew := s.cur, wg := k.wg, op := op }
  (s.bump.setUnit (u.setQueue e (u.queue e ++ [o]))).post s.t (.matrixOpStart k.core k.part e)

/-- Array operations of a crew that have not completed, and all that name a slot. -/
def State.arrayOps (s : State) (c : Nat) : List MOp := (s.mats.flatMap (·.arrQ)).filter (fun o => o.crew == c && o.pending s.t)
def MKindOp.names (op : MKindOp) (slot : Nat) : Bool :=
  match op with
  | .fill i _ _ _ _ => i == slot
  | .mac a b _ _ _ _ _ _ _ => a == slot || b == slot
  | .clr _ | .drain _ _ _ _ | .fence _ => false

/-! ### Checks (R235) -/

/-- A matrix word: the encoding class with ROLE, then ILLEGAL_CONVERGENCE unless all eight lanes are active. -/
def matWord (h : Hdr) (n : Needs) (body : State → Crew → List Nat → Eff) : State → Out :=
  word h { n with role := some 1 } (fun s k act => if act.length != 8 then .trap tcConvergence 0 else body s k act)

/-- A slot operand on the lanes (R234). Lanes whose handle registers differ only in the bits [31:6], which name no slot, are uniform (DESIGN CHOICE, log 16). -/
def slotIndex (s : State) (k : Crew) (act : List Nat) (f : Nat) : SlotH → Option Nat
  | .imm i => some i.toNat
  | .reg r => uniform (act.map (fun l => (rd s k f l r).toNat % 64))

def SlotH.src : SlotH → List (BitVec 8 × Nat)
  | .imm _ => []
  | .reg r => [(r, 1)]

/-- HANDLE of a kind (R235). -/
def handleTrap (v kind : Nat) : Eff := .trap tcHandle (handleInfo v kind)

/-- The value of a uniform register. -/
def uniformReg (s : State) (k : Crew) (act : List Nat) (f : Nat) (r : BitVec 8) : Option Nat := uniform (act.map (fun l => (rd s k f l r).toNat))

/-! ### Slots (R236, R237) -/

def execXclaim (h : Hdr) (o : SlotH) (s : State) : Out :=
  matWord h { src := SlotH.src o } (fun s k act =>
    match slotIndex s k act 0 o with
    | none => .trap tcNonuniform 0
    | some i =>
      let p := (s.wg k.wg).pool k.part
      if p.slots.length ≤ i then handleTrap i 0
      else
        let x := p.slot i
        if x.owner.isSome && x.owner != some s.cur then .wait .held
        else .ok (s.setSlot k.wg k.part i { x with owner := some s.cur })) s

def execXrel (h : Hdr) (o : SlotH) (s : State) : Out :=
  matWord h { src := SlotH.src o } (fun s k act =>
    match slotIndex s k act 0 o with
    | none => .trap tcNonuniform 0
    | some i =>
      let p := (s.wg k.wg).pool k.part
      let x := p.slot i
      if p.slots.length ≤ i || x.owner != some s.cur then handleTrap i 0
      else if (s.crewOps s.cur).any (fun o => o.op.names i) then .wait .held
      else .ok (s.setSlot k.wg k.part i { x with owner := none })) s

/-- RB of an operand format (R237), and K (R238). -/
def FmtSlot.operandRow (f : FmtSlot) : Nat := if f.fmt == 3 then (if f.sfmt == 1 then 104 else 96) else 64
def FmtSlot.isOperand (f : FmtSlot) : Bool := f.fmt == 1 || f.fmt == 2 || f.fmt == 3 || f.fmt == 4

/-- The pitch p, or nothing where PITCH is below RB or no multiple of `unit`. -/
def FmtSlot.pitchFor (f : FmtSlot) (rb unit : Nat) : Option Nat :=
  if f.pitch = 0 then some rb else if f.pitch < rb ∨ f.pitch % unit ≠ 0 then none else some f.pitch

/-- xfill (R235). MISALIGNED gives as `the near byte offset` the offset in the tile, which the lane's register holds (DESIGN CHOICE, log 16). -/
def execXfill (h : Hdr) (o : SlotH) (t : TileH) (b : BitVec 8) (fs : BitVec 3) (s : State) : Out :=
  matWord h { src := SlotH.src o ++ (b, 1) :: TileH.src t } (fun s k act =>
    match slotIndex s k act 0 o, uniformReg s k act 1 b with
    | some i, some off =>
      let p := (s.wg k.wg).pool k.part
      let f := (s.gridOf s.cur).fs fs
      if (tileHandle s k act t).isNone then .trap tcNonuniform 0
      else if p.slots.length ≤ i || (p.slot i).owner != some s.cur then handleTrap i 0
      else withTile s k act t true (fun ti ph x =>
        match f.pitchFor f.operandRow 8 with
        | none => handleTrap fs.toNat 3
        | some pitch =>
          if !f.isOperand then handleTrap fs.toNat 3
          else if x.st != .ready || x.phase != ph || !s.matRoom k.core k.part .fill then .wait .held
          else if x.len * 512 < off + 31 * pitch + f.operandRow then tileTrap ti ph
          else if off % 8 != 0 then .trap tcMisaligned (BitVec.ofNat 64 off)
          else
            let s := s.setSlot k.wg k.part i { p.slot i with fmt := some f.fmt, scl := f.sfmt == 1, xscale := f.xscale }
            .ok (s.matIssue k .fill (.fill i ti off pitch f.operandRow)))
    | _, _ => .trap tcNonuniform 0) s

/-! ### The array's words (R238-R243) -/

def SlotPair.src : SlotPair → List (BitVec 8 × Nat)
  | .imm _ _ => []
  | .reg a b => [(a, 1), (b, 1)]

/-- The two slots of xmac. -/
def slotPair (s : State) (k : Crew) (act : List Nat) : SlotPair → Option (Nat × Nat)
  | .imm a b => some (a.toNat, b.toNat)
  | .reg a b =>
    match slotIndex s k act 0 (.reg a), slotIndex s k act 1 (.reg b) with
    | some i, some j => some (i, j)
    | _, _ => none

def Rm.code : Rm → Nat | .rne => 0 | .rz => 1 | .rdn => 2 | .rup => 3

def execXmac (h : Hdr) (sat : Bool) (acc : BitVec 3) (os : SlotPair) (fs : BitVec 3) (s : State) : Out :=
  matWord h { src := SlotPair.src os } (fun s k act =>
    match slotPair s k act os with
    | none => .trap tcNonuniform 0
    | some (i, j) =>
      let p := (s.wg k.wg).pool k.part
      let f := (s.gridOf s.cur).fs fs
      if p.slots.length ≤ i then handleTrap i 0
      else if p.slots.length ≤ j then handleTrap j 0
      else if p.accs.length ≤ acc.toNat then handleTrap acc.toNat 1
      else if (p.slot i).owner != some s.cur then handleTrap i 0
      else if (p.slot j).owner != some s.cur then handleTrap j 0
      else if (p.slot i).fmt.isNone then handleTrap i 0
      else if (p.slot j).fmt.isNone then handleTrap j 0
      else if f.fmt == 15 || (p.slot i).fmt != some f.fmt || (p.slot j).fmt != some f.fmt || Rm.code f.rm != 0 || (sat && f.fmt != 4) then
        handleTrap fs.toNat 3
      else if !s.matRoom k.core k.part .array then .wait .held
      else .ok (s.matIssue k .array
        (.mac i j acc.toNat f sat (p.slot i).scl (p.slot j).scl (p.slot i).xscale (p.slot j).xscale))) s

/-- xwait (R239). -/
def execXwait (h : Hdr) (s : State) : Out :=
  matWord h {} (fun s _ _ => if (s.crewOps s.cur).isEmpty then .ok s else .wait .held) s

/-- xfence (R239): the marker waits for the fills that the crew has issued. -/
def execXfence (h : Hdr) (s : State) : Out :=
  matWord h {} (fun s k _ =>
    if !s.matRoom k.core k.part .array then .wait .held
    else .ok (s.matIssue k .array (.fence (((s.mats.flatMap (·.fillQ)).filter (fun o => o.crew == s.cur && o.pending s.t)).map (·.id))))) s

/-- xclr (R240). -/
def execXclr (h : Hdr) (acc : BitVec 3) (s : State) : Out :=
  matWord h {} (fun s k _ =>
    if ((s.wg k.wg).pool k.part).accs.length ≤ acc.toNat then handleTrap acc.toNat 1
    else if !s.matRoom k.core k.part .array then .wait .held
    else .ok (s.matIssue k .array (.clr acc.toNat))) s

/-- Every element that an error touches (R311). -/
def touched (i8 : Bool) : Word := if i8 then 0x80000000 else 0x7FC00000

/-- Do the 64-bit words of an accumulator in error hold element n of it? -/
def State.accBad (s : State) (w part a n : Nat) : Bool := s.badSram.any (fun e => match e with | .acc w' p' a' m => w' == w && p' == part && a' == a && m / 2 == n / 2 | _ => false)

/-- Is row r of a slot, of so many bytes, in error? -/
def State.slotBad (s : State) (w part i row r : Nat) : Bool :=
  s.badSram.any (fun e => match e with
    | .slot w' p' i' o => w' == w && p' == part && i' == i && decide (r * row / 8 ≤ o / 8) && decide (o / 8 ≤ (r * row + row - 1) / 8)
    | _ => false)

/-- Memory that is written whole holds good data again. -/
def State.mendAcc (s : State) (w part a : Nat) : State :=
  if s.badSram.isEmpty then s else { s with badSram := s.badSram.filter (fun e => match e with | .acc w' p' a' _ => !(w' == w && p' == part && a' == a) | _ => true) }
def State.mendSlot (s : State) (w part i : Nat) : State :=
  if s.badSram.isEmpty then s else { s with badSram := s.badSram.filter (fun e => match e with | .slot w' p' i' _ => !(w' == w && p' == part && i' == i) | _ => true) }

/-- An accumulator as an operation reads it: an element that an error touches has R311's value. -/
def State.accWords (s : State) (w part a : Nat) (i8 : Bool) : List Word :=
  let ws := (((s.wg w).pool part).accs.getD a {}).words
  if s.badSram.isEmpty then ws else ws.zipIdx.map (fun x => if s.accBad w part a x.2 then touched i8 else x.1)

/-- INTEGRITY deferred for on-chip data (R311). -/
def State.deferIntegrity (s : State) (c : Nat) : State := s.deferTrap c tcIntegrity (integrityInfo 0 0 0)

/-- xrd (R241). -/
def execXrd (h : Hdr) (la : BitVec 4) (d : BitVec 8) (acc : BitVec 3) (a : BitVec 8) (s : State) : Out :=
  matWord h { dst := [(d, 4)], src := [(a, 1)] } (fun s k act =>
    match uniformReg s k act 0 a with
    | none => .trap tcNonuniform 0
    | some r =>
      if ((s.wg k.wg).pool k.part).accs.length ≤ acc.toNat then handleTrap acc.toNat 1
      else if 31 < r then handleTrap r 5
      else if !(s.arrayOps s.cur).isEmpty then .wait .held
      else
        let row := s.accWords k.wg k.part acc.toNat (((s.wg k.wg).pool k.part).accs.getD acc.toNat {}).i8
        let bad := !s.badSram.isEmpty && (List.range 32).any (fun m => s.accBad k.wg k.part acc.toNat (32 * r + m))
        let s := openFixed s act .xrd la d 16 (fun l => (List.range 4).map (fun m => row.getD (32 * r + 4 * l + m) 0))
        .ok (if bad then s.deferIntegrity s.cur else s)) s

/-- xst (R242). -/
def execXst (h : Hdr) (a : BitVec 8) (acc : BitVec 3) (fs : BitVec 3) (hist : Option (BitVec 3)) (s : State) : Out :=
  matWord h { src := [(a, 1)] } (fun s k act =>
    match uniformReg s k act 0 a with
    | none => .trap tcNonuniform 0
    | some off =>
      let f := (s.gridOf s.cur).fs fs
      let rb := 32 * f.esz
      if ((s.wg k.wg).pool k.part).accs.length ≤ acc.toNat then handleTrap acc.toNat 1
      else if f.fmt == 3 || f.fmt == 15 || f.sfmt == 1 || f.ov == .trap || (hist.isSome && decide (4 ≤ f.fmt)) then handleTrap fs.toNat 3
      else match f.pitchFor rb f.esz with
        | none => handleTrap fs.toNat 3
        | some pitch =>
          if !s.matRoom k.core k.part .array then .wait .held
          else if (s.gridOf s.cur).near * 512 < off + 31 * pitch + rb then .trap tcNearBounds (BitVec.ofNat 64 off)
          else if off % f.esz != 0 then .trap tcMisaligned (BitVec.ofNat 64 off)
          else .ok (s.matIssue k .array (.drain acc.toNat off { f with pitch := pitch } (hist.map (·.toNat))))) s

/-- Count of R243: counts stop at 0xFFFF_FFFF. -/
def Hist.count (h : Hist) (x : Word) : Hist :=
  let e : Nat := x.toNat / 2 ^ 23 % 256
  if e = 255 then { h with spec := min (h.spec + 1) 4294967295 }
  else
    let b := (max 0 (min 31 ((e : Int) - h.base))).toNat
    { h with bins := h.bins.modify b (fun n => min (n + 1) 4294967295) }

/-- The counts of xsts whose completion clock has come are in their sets from that clock on, though their near writes follow the clock's accesses (R231, R232, R243). -/
def MUnit.count (u : MUnit) (t : Nat) : MUnit :=
  u.arrQ.foldl (fun (u : MUnit) o =>
    match o.op with
    | .drain _ _ _ (some hs) =>
      if o.pending t || o.counted then u
      else { u with hists := (match u.hists.getD hs none with
                      | some x => u.hists.set hs (some (o.words.foldl Hist.count x))
                      | none => u.hists),
                    arrQ := u.arrQ.map (fun (q : MOp) => if q.id == o.id then { q with counted := true } else q) }
    | .drain _ _ _ none | .fill _ _ _ _ _ | .mac _ _ _ _ _ _ _ _ _ | .clr _ | .fence _ => u) u

/-- xhcfg (R243). -/
def execXhcfg (h : Hdr) (hs : BitVec 3) (a : BitVec 8) (s : State) : Out :=
  matWord h { src := [(a, 1)] } (fun s k act =>
    match uniformReg s k act 0 a with
    | none => .trap tcNonuniform 0
    | some b =>
      if !(s.arrayOps s.cur).isEmpty then .wait .held
      else
        let u := (s.matUnit k.core k.part).count s.t
        .ok (s.setUnit { u with hists := u.hists.set hs.toNat (some { base := (BitVec.ofNat 32 b).toInt, bins := List.replicate 32 0, spec := 0 }) })) s

/-- xhrd (R243). -/
def execXhrd (h : Hdr) (d : BitVec 8) (hs : BitVec 3) (a : BitVec 8) (s : State) : Out :=
  matWord h { dst := [(d, 1)], src := [(a, 1)] } (fun s k act =>
    match uniformReg s k act 0 a with
    | none => .trap tcNonuniform 0
    | some g =>
      if 4 < g then handleTrap g 5
      else if !(s.arrayOps s.cur).isEmpty then .wait .held
      else
        let val (l : Nat) : Word :=
          match ((s.matUnit k.core k.part).count s.t).hists.getD hs.toNat none with
          | none => if g = 4 ∧ l ≠ 0 then 0 else Config.freeWord (readKey (s.readAt k) 3 l g)
          | some x => BitVec.ofNat 32 (if g < 4 then x.bins.getD (8 * g + l) 0 else if l = 0 then x.spec else 0)
        .ok (s.updCur (fun k' => k'.onLanes act (fun l x => regWrite x d.toNat (val l))))) s

/-! ### The engines -/

/-- Bytes of a slot as an operation reads them: undefined while an earlier fill into it is unfinished (R232). -/
def State.slotBytes (s : State) (u : MUnit) (o : MOp) (i n : Nat) : List Byte :=
  let x := ((s.wg o.wg).pool u.part).slot i
  let torn := u.fillQ.any (fun f => f.wg == o.wg && decide (f.id < o.id) && f.pending s.t && f.op.names i)
  (List.range n).map (fun a => if torn then Config.freeByte (u.part :: s.wgName o.wg ++ s.stamp (s.grid (s.wg o.wg).grid).vd) (i * 4096 + a) else cellRead x.bytes x.serial a)

/-- Code k of a run (R163). -/
def runCode (row : List Byte) (k : Nat) : BitVec 6 :=
  BitVec.ofNat 6 (((row.getD (6 * k / 8) 0).toNat + 256 * (row.getD (6 * k / 8 + 1) 0).toNat) / 2 ^ (6 * k % 8))

/-- The scale of block b of a row (R163). -/
def rowScale (row : List Byte) (scl : Bool) (x : BitVec 16) (b : Nat) : BitVec 16 :=
  if scl then BitVec.ofNat 16 ((row.getD (96 + 2 * b) 0).toNat + 256 * (row.getD (97 + 2 * b) 0).toNat) else x

/-- Element k of a 16-bit row. -/
def rowHalf (row : List Byte) (k : Nat) : Nat := (row.getD (2 * k) 0).toNat + 256 * (row.getD (2 * k + 1) 0).toNat

/-- One output element of an xmac (R167, R168, R170, R238). -/
def macElement (f : FmtSlot) (sat sclA sclB : Bool) (xa xb : BitVec 16) (ra rb : List Byte) (c : Word) : Word :=
  if f.fmt == 4 then
    intSum sat c ((List.range 64).map (fun k => (ra.getD k 0).toInt * (rb.getD k 0).toInt))
  else
    let terms := if f.fmt == 3 then
        (List.range 128).map (fun k => lg6Product (runCode ra k) (rowScale ra sclA xa (k / 32)) (runCode rb k) (rowScale rb sclB xb (k / 32)))
      else
        let t : Fty := if f.fmt == 1 then .f16 else .bf16
        (List.range 32).map (fun k => (decodeF t f.ftz (rowHalf ra k)).mul (decodeF t f.ftz (rowHalf rb k)))
    BitVec.ofNat 32 (windowSum f.ov f.ftz (readF .f32 f.ftz c :: terms))

/-- Row i of a list of rows. -/
def rowOf (bs : List Byte) (rb i : Nat) : List Byte := (bs.drop (i * rb)).take rb

/-- Bytes of a row in a slot, by its scale arrangement. -/
def macRow (f : FmtSlot) (scl : Bool) : Nat := if f.fmt == 3 then (if scl then 104 else 96) else 64

/-- The occupancy of Table 13.1. -/
def MKindOp.clocks : MKindOp → Nat
  | .fill _ _ _ _ rb => (32 * rb + 511) / 512
  | .mac _ _ _ f _ _ _ _ _ => if f.fmt == 3 then 8 else 16
  | .clr _ => 4
  | .drain _ _ _ _ => 16
  | .fence _ => 0

/-- May the operation start, as far as R232 and R239 say? -/
def MUnit.mayStart (u : MUnit) (t : Nat) (o : MOp) : Bool :=
  match o.op with
  | .fill i _ _ _ _ => u.arrQ.all (fun m => !(m.wg == o.wg && decide (m.id < o.id) && m.pending t &&
      (match m.op with | .mac a b _ _ _ _ _ _ _ => a == i || b == i | _ => false)))
  | .fence fs => u.fillQ.all (fun m => !(fs.contains m.id && m.pending t))
  | .mac _ _ _ _ _ _ _ _ _ | .clr _ | .drain _ _ _ _ => true

/-- Does an operation of an array stand behind a fence that waits for a fill (R232, R239)? -/
def State.fenced (s : State) (fill q : MOp) : Bool :=
  s.mats.any (fun u => u.arrQ.contains q && u.arrQ.any (fun p => decide (p.id < q.id) && (match p.op with | .fence fs => fs.contains fill.id | _ => false)))

/-- What an operation reads, and works out, at its start (R231). -/
def State.matRead (s : State) (u : MUnit) (o : MOp) : MOp :=
  match o.op with
  | .fill _ ti off pitch rb =>
    let a := (s.wg o.wg).near + ((s.wg o.wg).tile ti).base + off
    let base := a - (s.wg o.wg).near
    { o with src := a, bytes := (List.range 32).flatMap (fun n => s.racedFor o.wg ti (s.fenced o) (base + n * pitch) (s.nearBytes o.wg (base + n * pitch) rb)) }
  | .mac i j acc f sat sa sb xa xb =>
    let ra := macRow f sa
    let rb := macRow f sb
    let a := s.slotBytes u o i (32 * ra)
    let b := s.slotBytes u o j (32 * rb)
    let c := s.accWords o.wg u.part acc (f.fmt == 4)
    let bad (n : Nat) : Bool := !s.badSram.isEmpty &&
      (s.slotBad o.wg u.part i ra (n / 32) || s.slotBad o.wg u.part j rb (n % 32) || s.accBad o.wg u.part acc n)
    { o with words := (List.range 1024).map (fun n =>
        if bad n then touched (f.fmt == 4) else macElement f sat sa sb xa xb (rowOf a ra (n / 32)) (rowOf b rb (n % 32)) (c.getD n 0)) }
  | .drain acc _ _ _ => { o with words := s.accWords o.wg u.part acc (((s.wg o.wg).pool u.part).accs.getD acc {}).i8 }
  | .clr _ => { o with words := List.replicate 1024 0 }
  | .fence _ => o

/-- Does the operation meet an uncorrectable error in operand memory or an accumulator (R311)? -/
def State.matBad (s : State) (u : MUnit) (o : MOp) : Bool :=
  let acc (a : Nat) : Bool := (List.range 512).any (fun n => s.accBad o.wg u.part a (2 * n))
  !s.badSram.isEmpty && (match o.op with
  | .mac i j a f _ sa sb _ _ => (List.range 32).any (fun r => s.slotBad o.wg u.part i (macRow f sa) r || s.slotBad o.wg u.part j (macRow f sb) r) || acc a
  | .drain a _ _ _ => acc a
  | .fill _ _ _ _ _ | .clr _ | .fence _ => false)

/-- Which completion an operation has. -/
def MKindOp.completion (op : MKindOp) (core part : Nat) : Option Instr :=
  match op with
  | .fill _ _ _ _ _ => some (.xfillComplete core part)
  | .mac _ _ _ _ _ _ _ _ _ => some (.xmacComplete core part)
  | .clr _ => some (.xclrComplete core part)
  | .drain _ _ _ _ => none
  | .fence _ => none

/-- A crew that has retired frees its slots once its operations are done (R228). -/
def State.slotsDue (s : State) (c : Nat) : State := if !(s.crew c).live && (s.crewOps c).isEmpty then s.freeSlots c else s

/-- MATRIX_OP_START (R231): the first operation that has not started, if the ones before it are complete and its condition holds. The near writes of
an xst come after the clock's accesses (R232), so its completion is not an entry of the agenda. -/
def execMatrixOpStart (core part : Nat) (e : MEngine) (s : State) : Out :=
  let u := s.matUnit core part
  let q := u.queue e
  match q.find? (fun o => o.start.isNone) with
  | none => .next s
  | some o =>
    if q.any (fun p => decide (p.id < o.id) && p.pending s.t) || !u.mayStart s.t o then .next s
    else
      let d := s.t + o.op.clocks
      let o' := { s.matRead u o with start := some s.t, done := d }
      let bad := s.matBad u o
      let s := match o.op with
        | .fence _ => (s.setUnit (u.setQueue e (q.filter (fun (p : MOp) => p.id != o.id)))).slotsDue o.crew
        | _ => s.setUnit (u.setQueue e (q.map (fun (p : MOp) => if p.id == o.id then o' else p)))
      let s := match o.op.completion core part with | some i => s.post d i | none => s
      let s := s.post d (.matrixOpStart core part e)
      .next (if bad then s.deferIntegrity o.crew else s)

/-- The operation of an engine that completes: the first of its kind whose clock has come. -/
def MUnit.finished (u : MUnit) (e : MEngine) (t : Nat) (p : MKindOp → Bool) : Option MOp :=
  (u.queue e).find? (fun o => p o.op && !o.pending t)

/-- An operation leaves its queue. -/
def State.matLeave (s : State) (core part : Nat) (e : MEngine) (o : MOp) : State :=
  let u := s.matUnit core part
  let s := (s.setUnit (u.setQueue e ((u.queue e).filter (fun p => p.id != o.id)))).slotsDue o.crew
  (s.post s.t (.matrixOpStart core part .fill)).post s.t (.matrixOpStart core part .array)

/-- XFILL_COMPLETE (R237): the 32 rows stand in the slot. -/
def execXfillComplete (core part : Nat) (s : State) : Out :=
  match (s.matUnit core part).finished .fill s.t (fun _ => true) with
  | none => .next s
  | some o =>
    match o.op with
    | .fill i ti off pitch rb =>
      let x := ((s.wg o.wg).pool part).slot i
      let hurt := if s.badSram.isEmpty then [] else (List.range 32).filter (fun r =>
        s.badSram.any (ErrSite.inNear core ((s.wg o.wg).near + ((s.wg o.wg).tile ti).base + off + r * pitch) rb))
      let s := s.setSlot o.wg part i { x with serial := part :: i :: 2 :: s.wgName o.wg ++ s.stamp (s.grid (s.wg o.wg).grid).vd, bytes := Cells.write [] 0 o.bytes }
      let s := s.mendSlot o.wg part i
      let s := if hurt.isEmpty then s else { s with badSram := s.badSram ++ hurt.map (fun r => .slot o.wg part i (r * rb)) }
      .next (s.matLeave core part .fill o)
    | _ => .next s

/-- XMAC_COMPLETE (R238): the sums stand in the accumulator. -/
def execXmacComplete (core part : Nat) (s : State) : Out :=
  match (s.matUnit core part).finished .array s.t (fun op => match op with | .mac _ _ _ _ _ _ _ _ _ => true | _ => false) with
  | none => .next s
  | some o =>
    match o.op with
    | .mac _ _ acc f _ _ _ _ _ =>
      let x := ((s.wg o.wg).pool part).accs.getD acc {}
      .next (((s.setAcc o.wg part acc { x with vals := some o.words, i8 := f.fmt == 4 }).mendAcc o.wg part acc).matLeave core part .array o)
    | _ => .next s

/-- XCLR_COMPLETE (R240). -/
def execXclrComplete (core part : Nat) (s : State) : Out :=
  match (s.matUnit core part).finished .array s.t (fun op => match op with | .clr _ => true | _ => false) with
  | none => .next s
  | some o =>
    match o.op with
    | .clr acc =>
      let x := ((s.wg o.wg).pool part).accs.getD acc {}
      .next (((s.setAcc o.wg part acc { x with vals := some o.words }).mendAcc o.wg part acc).matLeave core part .array o)
    | _ => .next s

/-- An accumulator's element as xst writes it (R242). -/
def drainElement (f : FmtSlot) (x : Word) : List Byte :=
  let m : FMod := ⟨f.rm, f.ov, f.ftz⟩
  let r := match f.fmt with
    | 0 => cvtWord (.flt .f32) (.flt .f32) m x
    | 1 => cvtWord (.flt .f16) (.flt .f32) m x
    | 2 => cvtWord (.flt .bf16) (.flt .f32) m x
    | 4 => cvtWord .i8 .i32 m x
    | 5 => cvtWord .n8 .i32 m x
    | 6 => cvtWord .i32 .i32 m x
    | _ => cvtWord .n32 .i32 m x
  toBytes f.esz (r.getD 0).toNat

/-- XST_COMPLETE (R242, R243): the converted tile is in the near store and the histogram has counted it. -/
def execXstComplete (core part : Nat) (s : State) : Out :=
  match (s.matUnit core part).finished .array s.t (fun op => match op with | .drain _ _ _ _ => true | _ => false) with
  | none => .next s
  | some o =>
    match o.op with
    | .drain _ off f _ =>
      let s := s.setUnit ((s.matUnit core part).count s.t)
      .next ((List.range 32).foldl (fun (s : State) i =>
        let x := off + i * f.pitch
        let bs := ((o.words.drop (32 * i)).take 32).flatMap (drainElement f)
        let a := (s.wg o.wg).near + x
        let s := if s.badSram.isEmpty then s else { s with badSram := s.badSram.filter (fun e => !ErrSite.inNear core a bs.length e) }
        (s.tearEngines o.wg x bs.length).nearPut o.wg x (Cells.overlay o.torn x bs)) (s.matLeave core part .array o))
    | _ => .next s

/-- An xst whose completion clock has come, by ascending %core and %part (R232). -/
def State.xstDue (s : State) : Option Instr :=
  let due := s.mats.filter (fun u => (u.finished .array s.t (fun op => match op with | .drain _ _ _ _ => true | _ => false)).isSome)
  (sortBy (fun a b => decide (a.core * 8 + a.part ≤ b.core * 8 + b.part)) due).head?.map (fun u => .xstComplete u.core u.part)

end Sys2Proof.Machine
end

