-- ==== Sys2Proof/Machine/Crypto.lean ====
section
/-! DEFINITION. The ciphers and digests that the manual names: SHA-512 (R53-R55), AES-256 with CMAC (R340), XTS (R338) and GCM (R250). Bytes are
taken in transmission order. -/
namespace Sys2Proof.Machine
open Sys2Proof

/-! ### SHA-512 -/

/-- The round constants of SHA-512. -/
def shaK : List Nat :=
  [0x428a2f98d728ae22, 0x7137449123ef65cd, 0xb5c0fbcfec4d3b2f, 0xe9b5dba58189dbbc, 0x3956c25bf348b538, 0x59f111f1b605d019] ++
  [0x923f82a4af194f9b, 0xab1c5ed5da6d8118, 0xd807aa98a3030242, 0x12835b0145706fbe, 0x243185be4ee4b28c, 0x550c7dc3d5ffb4e2] ++
  [0x72be5d74f27b896f, 0x80deb1fe3b1696b1, 0x9bdc06a725c71235, 0xc19bf174cf692694, 0xe49b69c19ef14ad2, 0xefbe4786384f25e3] ++
  [0x0fc19dc68b8cd5b5, 0x240ca1cc77ac9c65, 0x2de92c6f592b0275, 0x4a7484aa6ea6e483, 0x5cb0a9dcbd41fbd4, 0x76f988da831153b5] ++
  [0x983e5152ee66dfab, 0xa831c66d2db43210, 0xb00327c898fb213f, 0xbf597fc7beef0ee4, 0xc6e00bf33da88fc2, 0xd5a79147930aa725] ++
  [0x06ca6351e003826f, 0x142929670a0e6e70, 0x27b70a8546d22ffc, 0x2e1b21385c26c926, 0x4d2c6dfc5ac42aed, 0x53380d139d95b3df] ++
  [0x650a73548baf63de, 0x766a0abb3c77b2a8, 0x81c2c92e47edaee6, 0x92722c851482353b, 0xa2bfe8a14cf10364, 0xa81a664bbc423001] ++
  [0xc24b8b70d0f89791, 0xc76c51a30654be30, 0xd192e819d6ef5218, 0xd69906245565a910, 0xf40e35855771202a, 0x106aa07032bbd1b8] ++
  [0x19a4c116b8d2d0c8, 0x1e376c085141ab53, 0x2748774cdf8eeb99, 0x34b0bcb5e19b48a8, 0x391c0cb3c5c95a63, 0x4ed8aa4ae3418acb] ++
  [0x5b9cca4f7763e373, 0x682e6ff3d6b2b8a3, 0x748f82ee5defb2fc, 0x78a5636f43172f60, 0x84c87814a1f0ab72, 0x8cc702081a6439ec] ++
  [0x90befffa23631e28, 0xa4506cebde82bde9, 0xbef9a3f7b2c67915, 0xc67178f2e372532b, 0xca273eceea26619c, 0xd186b8c721c0c207] ++
  [0xeada7dd6cde0eb1e, 0xf57d4f7fee6ed178, 0x06f067aa72176fba, 0x0a637dc5a2c898a6, 0x113f9804bef90dae, 0x1b710b35131c471b] ++
  [0x28db77f523047d84, 0x32caab7b40c72493, 0x3c9ebe0a15c9bebc, 0x431d67c49c100d4c, 0x4cc5d4becb3e42b6, 0x597f299cfc657e2a] ++
  [0x5fcb6fab3ad6faec, 0x6c44198c4a475817]

/-- The initial hash value of SHA-512. -/
def shaH : List Nat :=
  [0x6a09e667f3bcc908, 0xbb67ae8584caa73b, 0x3c6ef372fe94f82b, 0xa54ff53a5f1d36f1, 0x510e527fade682d1, 0x9b05688c2b3e6c1f] ++
  [0x1f83d9abfb41bd6b, 0x5be0cd19137e2179]

def rotr64 (x : DWord) (n : Nat) : DWord := x.rotateRight n

/-- One step of the message schedule: the sixteen words kept, newest last. -/
def shaSchedule (w : List DWord) : List DWord :=
  let at' (i : Nat) : DWord := w.getD i 0
  let s0 := rotr64 (at' 1) 1 ^^^ rotr64 (at' 1) 8 ^^^ (at' 1 >>> 7)
  let s1 := rotr64 (at' 14) 19 ^^^ rotr64 (at' 14) 61 ^^^ (at' 14 >>> 6)
  w.drop 1 ++ [at' 0 + s0 + at' 9 + s1]

/-- One round on the eight working words. -/
def shaRound (v : List DWord) (k w : DWord) : List DWord :=
  let x (i : Nat) : DWord := v.getD i 0
  let s1 := rotr64 (x 4) 14 ^^^ rotr64 (x 4) 18 ^^^ rotr64 (x 4) 41
  let ch := (x 4 &&& x 5) ^^^ (~~~x 4 &&& x 6)
  let t1 := x 7 + s1 + ch + k + w
  let s0 := rotr64 (x 0) 28 ^^^ rotr64 (x 0) 34 ^^^ rotr64 (x 0) 39
  let maj := (x 0 &&& x 1) ^^^ (x 0 &&& x 2) ^^^ (x 1 &&& x 2)
  [t1 + s0 + maj, x 0, x 1, x 2, x 3 + t1, x 4, x 5, x 6]

/-- The rounds of one block over the constants that are left. -/
def shaRounds : List Nat → List DWord → List DWord → List DWord
  | [], _, v => v
  | k :: ks, w, v => shaRounds ks (shaSchedule w) (shaRound v (BitVec.ofNat 64 k) (w.getD 0 0))

/-- Big-endian words of a block. -/
def wordsBE (bs : List Byte) (n : Nat) : List DWord :=
  (List.range n).map (fun i => BitVec.ofNat 64 (ofBytes ((bs.drop (8 * i)).take 8).reverse))

def shaBlock (h : List DWord) (b : List Byte) : List DWord := List.zipWith (· + ·) h (shaRounds shaK (wordsBE b 16) h)

def shaBlocks : Nat → List DWord → List Byte → List DWord
  | 0, h, _ => h
  | n + 1, h, bs => shaBlocks n (shaBlock h (bs.take 128)) (bs.drop 128)

/-- SHA-512 of a byte string: 64 bytes. -/
def sha512 (m : List Byte) : List Byte :=
  let z := (111 + 128 - m.length % 128) % 128
  let p := m ++ [0x80#8] ++ List.replicate z 0#8 ++ toBytesBE 16 (8 * m.length)
  (shaBlocks (p.length / 128) (shaH.map (BitVec.ofNat 64)) p).flatMap (fun w => toBytesBE 8 w.toNat)

/-! ### AES-256 -/

/-- The AES substitution box. -/
def aesBox : List Nat :=
  [0x63, 0x7c, 0x77, 0x7b, 0xf2, 0x6b, 0x6f, 0xc5, 0x30, 0x01, 0x67, 0x2b, 0xfe, 0xd7, 0xab, 0x76] ++
  [0xca, 0x82, 0xc9, 0x7d, 0xfa, 0x59, 0x47, 0xf0, 0xad, 0xd4, 0xa2, 0xaf, 0x9c, 0xa4, 0x72, 0xc0] ++
  [0xb7, 0xfd, 0x93, 0x26, 0x36, 0x3f, 0xf7, 0xcc, 0x34, 0xa5, 0xe5, 0xf1, 0x71, 0xd8, 0x31, 0x15] ++
  [0x04, 0xc7, 0x23, 0xc3, 0x18, 0x96, 0x05, 0x9a, 0x07, 0x12, 0x80, 0xe2, 0xeb, 0x27, 0xb2, 0x75] ++
  [0x09, 0x83, 0x2c, 0x1a, 0x1b, 0x6e, 0x5a, 0xa0, 0x52, 0x3b, 0xd6, 0xb3, 0x29, 0xe3, 0x2f, 0x84] ++
  [0x53, 0xd1, 0x00, 0xed, 0x20, 0xfc, 0xb1, 0x5b, 0x6a, 0xcb, 0xbe, 0x39, 0x4a, 0x4c, 0x58, 0xcf] ++
  [0xd0, 0xef, 0xaa, 0xfb, 0x43, 0x4d, 0x33, 0x85, 0x45, 0xf9, 0x02, 0x7f, 0x50, 0x3c, 0x9f, 0xa8] ++
  [0x51, 0xa3, 0x40, 0x8f, 0x92, 0x9d, 0x38, 0xf5, 0xbc, 0xb6, 0xda, 0x21, 0x10, 0xff, 0xf3, 0xd2] ++
  [0xcd, 0x0c, 0x13, 0xec, 0x5f, 0x97, 0x44, 0x17, 0xc4, 0xa7, 0x7e, 0x3d, 0x64, 0x5d, 0x19, 0x73] ++
  [0x60, 0x81, 0x4f, 0xdc, 0x22, 0x2a, 0x90, 0x88, 0x46, 0xee, 0xb8, 0x14, 0xde, 0x5e, 0x0b, 0xdb] ++
  [0xe0, 0x32, 0x3a, 0x0a, 0x49, 0x06, 0x24, 0x5c, 0xc2, 0xd3, 0xac, 0x62, 0x91, 0x95, 0xe4, 0x79] ++
  [0xe7, 0xc8, 0x37, 0x6d, 0x8d, 0xd5, 0x4e, 0xa9, 0x6c, 0x56, 0xf4, 0xea, 0x65, 0x7a, 0xae, 0x08] ++
  [0xba, 0x78, 0x25, 0x2e, 0x1c, 0xa6, 0xb4, 0xc6, 0xe8, 0xdd, 0x74, 0x1f, 0x4b, 0xbd, 0x8b, 0x8a] ++
  [0x70, 0x3e, 0xb5, 0x66, 0x48, 0x03, 0xf6, 0x0e, 0x61, 0x35, 0x57, 0xb9, 0x86, 0xc1, 0x1d, 0x9e] ++
  [0xe1, 0xf8, 0x98, 0x11, 0x69, 0xd9, 0x8e, 0x94, 0x9b, 0x1e, 0x87, 0xe9, 0xce, 0x55, 0x28, 0xdf] ++
  [0x8c, 0xa1, 0x89, 0x0d, 0xbf, 0xe6, 0x42, 0x68, 0x41, 0x99, 0x2d, 0x0f, 0xb0, 0x54, 0xbb, 0x16]

def subByte (b : Byte) : Byte := BitVec.ofNat 8 (aesBox.getD b.toNat 0)
def xtime (b : Byte) : Byte := (b <<< 1) ^^^ (if b.msb then 0x1B#8 else 0#8)
def xorBytes (a b : List Byte) : List Byte := List.zipWith (· ^^^ ·) a b

/-- The next 32-bit word of the AES-256 key schedule: `ws` are the words so far, newest first. -/
def aesNext (ws : List (List Byte)) (i : Nat) : List Byte :=
  let t := ws.getD 0 []
  let u := if i % 8 = 0 then xorBytes ((t.drop 1 ++ t.take 1).map subByte) [BitVec.ofNat 8 (2 ^ (i / 8 - 1)), 0#8, 0#8, 0#8]
    else if i % 8 = 4 then t.map subByte else t
  xorBytes u (ws.getD 7 [])

def aesExpand : Nat → Nat → List (List Byte) → List (List Byte)
  | 0, _, ws => ws
  | n + 1, i, ws => aesExpand n (i + 1) (aesNext ws i :: ws)

/-- The fifteen round keys. -/
def aesKeys (key : List Byte) : List (List Byte) :=
  let ws := (aesExpand 52 8 ((List.range 8).map (fun i => (key.drop (4 * i)).take 4)).reverse).reverse
  (List.range 15).map (fun r => ((ws.drop (4 * r)).take 4).flatten)

/-- ShiftRows on the sixteen bytes, column by column. -/
def shiftRows (s : List Byte) : List Byte := (List.range 16).map (fun i => s.getD ((i + 4 * (i % 4)) % 16) 0)

def mixColumn (c : List Byte) : List Byte :=
  (List.range 4).map (fun i =>
    let x (j : Nat) : Byte := c.getD ((i + j) % 4) 0
    xtime (x 0) ^^^ (xtime (x 1) ^^^ x 1) ^^^ x 2 ^^^ x 3)

def mixColumns (s : List Byte) : List Byte := (List.range 4).flatMap (fun c => mixColumn ((s.drop (4 * c)).take 4))

def aesRounds : List (List Byte) → List Byte → List Byte
  | [], s => s
  | [k], s => xorBytes (shiftRows (s.map subByte)) k
  | k :: ks, s => aesRounds ks (xorBytes (mixColumns (shiftRows (s.map subByte))) k)

/-- AES-256 of one block. -/
def aes (key block : List Byte) : List Byte :=
  match aesKeys key with
  | [] => block
  | k :: ks => aesRounds ks (xorBytes block k)

/-- A 256-bit key as bytes. -/
def keyBytes (k : BitVec 256) : List Byte := toBytesBE 32 k.toNat

/-! ### CMAC, XTS, GCM -/

/-- Doubling in GF(2^128), most significant byte first. -/
def doubleBE (b : List Byte) : List Byte :=
  let n := ofBytes b.reverse
  toBytesBE 16 (if 2 ^ 127 ≤ n then (2 * n) % 2 ^ 128 ^^^ 0x87 else 2 * n)

def cbcMac (key : List Byte) : Nat → List Byte → List Byte → List Byte
  | 0, acc, _ => acc
  | n + 1, acc, m => cbcMac key n (aes key (xorBytes acc (m.take 16))) (m.drop 16)

/-- AES-256-CMAC. -/
def cmac (key m : List Byte) : List Byte :=
  let k1 := doubleBE (aes key (List.replicate 16 0#8))
  let n := if m.length = 0 then 1 else (m.length + 15) / 16
  let last := m.drop (16 * (n - 1))
  let fin := if last.length = 16 then xorBytes last k1
    else xorBytes (last ++ [0x80#8] ++ List.replicate (15 - last.length) 0#8) (doubleBE k1)
  aes key (xorBytes (cbcMac key (n - 1) (List.replicate 16 0#8) m) fin)

/-- Doubling in GF(2^128) as XTS takes it, least significant byte first. -/
def doubleLE (b : List Byte) : List Byte :=
  let n := ofBytes b
  toBytes 16 (if 2 ^ 127 ≤ n then (2 * n) % 2 ^ 128 ^^^ 0x87 else 2 * n)

def xtsBlocks (key : List Byte) : Nat → List Byte → List Byte → List Byte
  | 0, _, _ => []
  | n + 1, t, m => xorBytes (aes key (xorBytes (m.take 16) t)) t ++ xtsBlocks key n (doubleLE t) (m.drop 16)

/-- AES-256-XTS of one 64-byte line at an address (R338). -/
def xtsLine (k1 k2 : List Byte) (pa : Nat) (m : List Byte) : List Byte := xtsBlocks k1 4 (aes k2 (toBytes 16 (pa / 64 * 64))) m

/-- Multiplication in the field of GCM; bit 0 of the field is the most significant bit of the number. -/
def ghashMul : Nat → Nat → Nat → Nat → Nat
  | 0, _, _, z => z
  | n + 1, x, v, z =>
    ghashMul n (2 * x % 2 ^ 128) (if v % 2 = 1 then (v / 2) ^^^ 0xE1000000000000000000000000000000 else v / 2)
      (if 2 ^ 127 ≤ x then z ^^^ v else z)

def ghash (h : Nat) : Nat → Nat → List Byte → Nat
  | 0, acc, _ => acc
  | n + 1, acc, m => ghash h n (ghashMul 128 (acc ^^^ ofBytes (m.take 16).reverse) h 0) (m.drop 16)

def padTo16 (m : List Byte) : List Byte := m ++ List.replicate ((16 - m.length % 16) % 16) 0#8

def gcmStream (key iv : List Byte) : Nat → Nat → List Byte
  | 0, _ => []
  | n + 1, i => aes key (iv ++ toBytesBE 4 i) ++ gcmStream key iv n (i + 1)

/-- AES-256-GCM under a 96-bit IV: the ciphertext and the tag (R250). -/
def gcm (key iv aad plain : List Byte) : List Byte × List Byte :=
  let c := xorBytes plain (gcmStream key iv ((plain.length + 15) / 16) 2)
  let m := padTo16 aad ++ padTo16 c ++ toBytesBE 8 (8 * aad.length) ++ toBytesBE 8 (8 * c.length)
  let s := ghash (ofBytes (aes key (List.replicate 16 0#8)).reverse) (m.length / 16) 0 m
  (c, xorBytes (toBytesBE 16 s) (aes key (iv ++ toBytesBE 4 1)))

end Sys2Proof.Machine
end

