-- ==== Sys2Proof/Machine/Hbm.lean ====
section
/-! DEFINITION. HBM lines: whose frame a line is, the KeyID it was written under (R338), the MACs of writable regions (R340, R341), the trees of
sealed regions (R343-R345), uncorrectable errors (R311, R355), snapshots' copy steps (R334), and fault-queue records (R221, R349). -/
namespace Sys2Proof.Machine
open Sys2Proof

/-! ### Frames and channels -/

/-- Does a list of (first frame, frames) hold the frame? -/
def framesHold (fs : List (Nat × Nat)) (f : Nat) : Bool := fs.any (fun r => decide (r.1 ≤ f) && decide (f < r.1 + r.2))

/-- The VD that owns the frame of a physical address (R15). -/
def State.frameOwner (s : State) (pa : Nat) : Option Nat :=
  (List.range s.vds.length).find? (fun v => (s.vd v).created && framesHold (s.vd v).frames (pa / 4096))

/-- The channel of a physical address: stacks of 64 GiB, lines taking the 32 channels in turn (log 17). -/
def channelOf (pa : Nat) : Nat := pa / 2 ^ 36 % 8 * 32 + pa / 64 % 32

/-- The n-th granule of a VD's frames, and the granule of a frame (R334). -/
def granuleFrame : List (Nat × Nat) → Nat → Option Nat
  | [], _ => none
  | (f, n) :: rest, g => if g < n then some (f + g) else granuleFrame rest (g - n)

def frameGranule : List (Nat × Nat) → Nat → Option Nat
  | [], _ => none
  | (f, n) :: rest, x => if f ≤ x ∧ x < f + n then some (x - f) else (frameGranule rest x).map (n + ·)

def frameCount (fs : List (Nat × Nat)) : Nat := fs.foldl (fun n r => n + r.2) 0

/-! ### Errors and health (R355, R356) -/

/-- An error record for both masters: the place, and the world that owns it. -/
def State.reportError (s : State) (site : ErrSite) (world : Option Nat) (fatal : Bool) : State :=
  { s with errors := s.errors ++ [{ site := site, world := world, fatal := fatal }] }

/-- The world that owns a physical address. -/
def State.frameWorld (s : State) (pa : Nat) : Option Nat := (s.frameOwner pa).bind (fun v => (s.vd v).world)

/-- Does a line hold an uncorrectable half-line? -/
def State.lineHurt (s : State) (line : Nat) : Bool := s.badHalves.any (fun h => h.1 / 2 == line)

/-- Error records for those of some lines that are uncorrectable. -/
def State.reportHurt (s : State) (lines : List Nat) : State :=
  (lines.filter s.lineHurt).foldl (fun (s : State) l => s.reportError (.hbm (l * 64)) (s.frameWorld (l * 64)) true) s

def State.replaceRequested (s : State) : State := { s with health := { s.health with replace := true } }

/-! ### Keys and lines -/

/-- The keys of a KeyID. -/
def State.keyOf (s : State) (id : Nat) : Keys := ((s.keys.find? (fun k => k.id == id)).map (·.keys)).getD {}

/-- The KeyID under which a line was written, if any wrote it. -/
def State.lineKey (s : State) (line : Nat) : Option Nat := (s.lineKeys.find? (fun p => p.1 == line)).map (·.2)

/-- A line that no key can decrypt any more is kept under a number that no KeyID has. -/
def deadKey : Nat := 1024

/-- A line that housekeeping has zeroed is kept under a number of its own: it reads zero under every KeyID (R333; log 9), and lies enciphered under KeyID 0. -/
def zeroedKey : Nat := 1025

/-- The event of an access of the device or its host to a line: the owner of its frame and the owner's clock (log 9). -/
def State.lineStamp (s : State) (line : Nat) : List Nat := match s.frameOwner (line * 64) with | some v => s.stamp v | none => [s.t]

/-- The plaintext of a line under a KeyID: undefined where another KeyID wrote it (R338), by the event of the world that reads, which `who` names (log 9). -/
def State.linePlain (s : State) (line key : Nat) (who : List Nat) : List Byte :=
  match s.lineKey line with
  | none => s.mem.read (line * 64) 64
  | some k => if k = key ∨ k = zeroedKey then s.mem.read (line * 64) 64 else (List.range 64).map (fun i => Config.freeByte (key :: who) (line * 64 + i))

/-- The ciphertext that lies in a line (R338). -/
def State.lineCipher (s : State) (line : Nat) : List Byte :=
  match s.ciphers.find? (fun c => c.1 == line) with
  | some c => c.2
  | none =>
    let k := s.keyOf (match s.lineKey line with | some k => if k = zeroedKey then 0 else k | none => 0)
    xtsLine (keyBytes k.data1) (keyBytes k.data2) (line * 64) (s.mem.read (line * 64) 64)

/-- Keys are gone: their lines stay as they lie, and nothing decrypts them any more (R336, R337). -/
def State.deaden (s : State) (gone : Nat → Bool) : State :=
  { s with ciphers := (s.lineKeys.filter (fun p => gone p.2)).foldl (fun m p => keyed p.1 (s.lineCipher p.1) m) s.ciphers,
           lineKeys := s.lineKeys.map (fun p => if gone p.2 then (p.1, deadKey) else p) }

/-! ### Writable regions (R340) -/

/-- The region whose data lines hold the line. -/
def State.regionOf (s : State) (line : Nat) : Option WRegion :=
  s.regions.find? (fun r => decide (r.pfn * 64 ≤ line) && decide (line < (r.pfn + r.len) * 64))

/-- The COUNTER under which a line is checked and written (R341). -/
def WRegion.counterAt (r : WRegion) (line : Nat) : Nat :=
  match r.roll with
  | some p => if line - r.pfn * 64 < p then r.counter + 1 else r.counter
  | none => r.counter

/-- The MAC of a line as it lies, under a KeyID and a counter (R340). -/
def State.lineMac (s : State) (line key counter : Nat) : List Byte :=
  (cmac (keyBytes (s.keyOf key).integ) (toBytes 8 (line % 2 ^ 37) ++ toBytes 2 key ++ toBytes 4 counter ++ s.lineCipher line)).take 8

/-- Where the MAC of a line lies. -/
def WRegion.macAt (r : WRegion) (line : Nat) : Nat := r.macPfn * 4096 + (line - r.pfn * 64) * 8

/-- The MAC of a line written anew under a KeyID and a counter. -/
def State.writeMac (s : State) (r : WRegion) (line key counter : Nat) : State :=
  { s with mem := s.mem.write (r.macAt line) (s.lineMac line key counter) }

/-- Does the line pass its check for a reader under a KeyID? A MAC that is uncorrectable itself fails it. -/
def State.macOk (s : State) (r : WRegion) (line key : Nat) : Bool :=
  s.mem.read (r.macAt line) 8 == s.lineMac line key (r.counterAt line) && s.badHalves.all (fun h => h.1 != r.macAt line / 32)

/-! ### Sealed regions (R343-R345) -/

/-- The sealed region, in any state but building, that holds the line. -/
def State.sealedOf (s : State) (line : Nat) : Option SRegion :=
  s.sealed.find? (fun r => r.st != .building && decide (r.pfn * 64 ≤ line) && decide (line < (r.pfn + r.len) * 64))

/-- Blocks of a region, levels of its tree, and nodes of a level. -/
def SRegion.blocks (r : SRegion) : Nat := r.len * 8
def treeHeight : Nat → Nat → Nat
  | 0, _ => 0
  | n + 1, k => if k ≤ 1 then 0 else 1 + treeHeight n ((k + 7) / 8)
def SRegion.height (r : SRegion) : Nat := max 1 (treeHeight 64 r.blocks)
def SRegion.nodes (r : SRegion) (level : Nat) : Nat := (r.blocks + 8 ^ level - 1) / 8 ^ level

/-- The line of node i at a level below the top, levels 1 to h - 1 lying one after another in the tree area. -/
def SRegion.nodeLine (r : SRegion) (level i : Nat) : Nat :=
  r.tree * 64 + ((List.range (level - 1)).map (fun l => r.nodes (l + 1))).sum + i

/-- The path of a block: its node at each level up to h - 1 (R344). -/
def SRegion.path (r : SRegion) (block : Nat) : List (Nat × Nat) :=
  (List.range (r.height - 1)).map (fun l => (l + 1, block / 8 ^ (l + 1)))

/-- The MAC of a block, or of a node, as it lies: address, KeyID and generation before the bytes (R343; the widths by log 13). -/
def State.treeMac (s : State) (r : SRegion) (addr : Nat) (bytes : List Byte) : List Byte :=
  (cmac (keyBytes (s.keyOf r.keyid).integ) (toBytes 8 addr ++ toBytes 2 r.keyid ++ toBytes 4 r.gen ++ bytes)).take 8

def State.blockMac (s : State) (r : SRegion) (b : Nat) : List Byte :=
  s.treeMac r ((r.pfn * 4096 + b * 512) / 512) ((List.range 8).flatMap (fun i => s.lineCipher (r.pfn * 64 + b * 8 + i)))

/-- A node as the tree area holds it, and its MAC. -/
def State.nodeBytes (s : State) (r : SRegion) (level i : Nat) (who : List Nat) : List Byte :=
  if r.height ≤ level then r.top else s.linePlain (r.nodeLine level i) 0 who

def State.nodeMac (s : State) (r : SRegion) (level i : Nat) (who : List Nat) : List Byte := s.treeMac r (r.nodeLine level i) (s.nodeBytes r level i who)

/-- The entry of a node that holds the MAC of child i. -/
def State.treeEntry (s : State) (r : SRegion) (level i : Nat) (who : List Nat) : List Byte := ((s.nodeBytes r level (i / 8) who).drop (i % 8 * 8)).take 8

/-- Is a node of a path found bad: uncorrectable, or failing its parent's MAC? -/
def State.nodeBad (s : State) (r : SRegion) (who : List Nat) (n : Nat × Nat) : Bool :=
  s.lineHurt (r.nodeLine n.1 n.2) || s.nodeMac r n.1 n.2 who != s.treeEntry r (n.1 + 1) n.2 who

/-- The block of a region in which a line lies, and the lines of a block. -/
def SRegion.blockOf (r : SRegion) (line : Nat) : Nat := (line - r.pfn * 64) / 8
def SRegion.blockLines (r : SRegion) (block : Nat) : List Nat := (List.range 8).map (fun i => r.pfn * 64 + block * 8 + i)

/-- What a read of a line finds, and the region after it (R344, Table 24.3). -/
def State.sealCheck (s : State) (r : SRegion) (line : Nat) (who : List Nat) : Bool × SRegion :=
  let block := r.blockOf line
  match r.st with
  | .building => (true, r)
  | .resealing => (false, r)
  | .sealed | .damaged =>
    let found := (r.path block).filter (fun n => !r.bad.contains n && s.nodeBad r who n)
    let r' := if found.isEmpty then r else { r with bad := r.bad ++ found, st := .damaged }
    let blockBad := (r.blockLines block).any s.lineHurt || s.blockMac r block != s.treeEntry r 1 block who
    (!(r.path block).any r'.bad.contains && !blockBad, r')

/-! ### Reading and writing a line -/

/-- The lines that a read in a sealed region takes: its block's, and its path's nodes. A region being resealed answers without reading any. -/
def SRegion.readLines (r : SRegion) (line : Nat) : List Nat :=
  if r.st == .resealing then [] else r.blockLines (r.blockOf line) ++ (r.path (r.blockOf line)).map (fun n => r.nodeLine n.1 n.2)

/-- A sealed read's check: the nodes it finds bad are marked, DMG and REPLACE are set, and what was uncorrectable is reported (R345, R355). -/
def State.checkSealed (s : State) (r : SRegion) (line : Nat) (who : List Nat) : Bool × State :=
  let c := s.sealCheck r line who
  let s := (s.reportHurt (r.readLines line))
  let s := { s with sealed := s.sealed.map (fun q => if q.num == r.num then c.2 else q) }
  (c.1, if c.2.bad.length != r.bad.length then { s with health := { s.health with dmg := true, replace := true } } else s)

/-- The check of a line that is read under a KeyID: `false` where the read is answered INTEGRITY (R311, R340, R344, R355). -/
def State.checkLine (s : State) (line key : Nat) (who : List Nat) : Bool × State :=
  match s.sealedOf line with
  | some r => s.checkSealed r line who
  | none => (!s.lineHurt line && (match s.regionOf line with | some r => s.macOk r line key | none => true), s.reportHurt [line])

/-- A 64-byte line read under a KeyID by the world whose event `who` names: nothing where its check fails. -/
def State.lineRead (s : State) (line key : Nat) (who : List Nat) : Option (List Byte) × State :=
  let c := s.checkLine line key who
  (if c.1 then some (s.linePlain line key who) else none, c.2)

/-- The full byte mask of a line. -/
def fullMask : Nat := 2 ^ 64 - 1

/-- Bytes of a line where the mask has a 1, the old ones elsewhere. -/
def mergeLine (old new : List Byte) (mask : Nat) : List Byte :=
  (List.range 64).map (fun i => if mask.testBit i then new.getD i 0 else old.getD i 0)

/-- Does a byte mask cover a whole half of its line? -/
def coversHalf (mask h : Nat) : Bool := mask / 2 ^ (h % 2 * 32) % 2 ^ 32 == 2 ^ 32 - 1

/-- A line written under a KeyID through a byte mask: `false` where a check before merging failed and the write is dropped (R340). A half-line written whole is
correct again; one written in part stays uncorrectable (R355). -/
def State.lineWrite (s : State) (line key mask : Nat) (bs : List Byte) (who : List Nat) : Bool × State :=
  let r := s.regionOf line
  let fails := mask % 2 ^ 64 != fullMask && (match r with | some r => !s.macOk r line key || s.lineHurt line | none => false)
  if fails then (false, s.reportHurt [line])
  else
    let s := { s with mem := s.mem.write (line * 64) (mergeLine (s.linePlain line key who) bs mask), lineKeys := keyed line key s.lineKeys,
                      ciphers := s.ciphers.filter (fun c => c.1 != line), badHalves := s.badHalves.filter (fun h => !(h.1 / 2 == line && coversHalf mask h.1)) }
    (true, match r with | some r => s.writeMac r line key (r.counterAt line) | none => s)

/-! ### Housekeeping's own accesses -/

/-- Lines that n bytes from an address touch. -/
def spanLines (pa n : Nat) : List Nat := if n = 0 then [] else (List.range ((pa + n - 1) / 64 + 1 - pa / 64)).map (pa / 64 + ·)

/-- The part of bytes from an address on that lies in a line, written under a KeyID through its byte mask; a sealed region's frames are not written (R343). -/
def State.putPart (s : State) (pa key : Nat) (bs : List Byte) (line : Nat) : State :=
  if (s.sealedOf line).isSome then s
  else
    let lo := max pa (line * 64)
    let part := (bs.drop (lo - pa)).take (line * 64 + 64 - lo)
    (s.lineWrite line key ((2 ^ part.length - 1) * 2 ^ (lo - line * 64)) (List.replicate (lo - line * 64) 0 ++ part) (s.lineStamp line)).2

/-- Bytes written by housekeeping at a physical address under KeyID 0 (R338). -/
def State.houseWrite (s : State) (pa : Nat) (bs : List Byte) : State := (spanLines pa bs.length).foldl (fun (s : State) l => s.putPart pa 0 bs l) s

/-- A line that housekeeping reads, under the KeyID it was written under, and checked as every read is (log 24). -/
def State.houseRead (s : State) (line : Nat) : Option (List Byte) × State :=
  let k := (s.lineKey line).getD 0
  s.lineRead line (if k < 1024 then k else 0) (s.lineStamp line)

/-! ### Snapshots (R334) -/

/-- One bit of a bitmap in memory set. -/
def State.setBit (s : State) (base i : Nat) : State :=
  let a := base + i / 8
  s.houseWrite a [(s.linePlain (a / 64) 0 (s.lineStamp (a / 64))).getD (a % 64) 0 ||| BitVec.ofNat 8 (2 ^ (i % 8))]

/-- A line copied to its place in a snapshot, which stands in the VD's own frames alone; a line that cannot be read is not copied (log 24). -/
def State.copyLine (s : State) (v line pa : Nat) : State :=
  if !framesHold (s.vd v).frames (pa / 4096) then s
  else
    match s.houseRead line with
    | (some bs, s) => s.houseWrite pa bs
    | (none, s) => s

/-- A granule that housekeeping has not passed yet, copied to the snapshot area as it stands. -/
def State.copyGranule (s : State) (v : Nat) (p : Snap) (g : Nat) : State :=
  match granuleFrame (s.vd v).frames g with
  | some f =>
    if p.ptr < (g + 1) * 64 then (List.range 64).foldl (fun (s : State) i => s.copyLine v (f * 64 + i) (p.area + (g * 64 + i) * 64)) s else s
  | none => s

/-- A granule's copy step is over: its bit is set. -/
def State.copied (s : State) (v : Nat) (p : Snap) (g : Nat) : State :=
  (s.setVd v { s.vd v with snap := some { p with since := p.since ++ [g], steps := p.steps.filter (fun x => x.1 != g) } }).setBit p.bitmap g

/-- The snapshot and the granule in which an address lies, of which nothing has been written since the snapshot's boundary. -/
def State.uncopied (s : State) (pa : Nat) : Option (Nat × Snap × Nat) :=
  if s.vds.all (fun d => d.snap.isNone) then none
  else
    (s.frameOwner pa).bind (fun v =>
      match (s.vd v).snap, frameGranule (s.vd v).frames (pa / 4096) with
      | some p, some g => if p.since.contains g then none else some (v, p, g)
      | _, _ => none)

/-- A copy step begins (R334): the granule is copied as it stands, and the step's 64 reads and 64 writes enter a world's queues at the granule's stack before all
others; `n` of them are left. -/
def State.queueCopy (s : State) (v : Nat) (p : Snap) (g world n : Nat) : State :=
  let first := ((granuleFrame (s.vd v).frames g).getD 0) * 64
  let q : List Req := (List.range 128).map (fun i => ⟨.hbm (channelOf ((first + i / 2) * 64)), world, .copy v g, s.t⟩)
  let s := s.copyGranule v p g
  let s := s.setVd v { s.vd v with snap := some { p with steps := p.steps ++ [(g, n)] } }
  { s with reqs := q ++ s.reqs }

/-- The copy step before the first write to a granule after a snapshot's boundary, where the write is the device's, the command processor's or the host's: the write
itself is not held up by the step's accesses, and the step of a VD that is not scheduled takes none (log 15). -/
def State.copyStep (s : State) (pa : Nat) : State :=
  match s.uncopied pa with
  | some (v, p, g) =>
    if p.steps.any (fun x => x.1 == g) then s
    else
      match (s.vd v).world with
      | some w => s.queueCopy v p g w 128
      | none => (s.copyGranule v p g).copied v p g
  | none => s

/-- The copy steps that a write of a line takes: its granule's, and in a writable region its MAC's. -/
def State.copyFor (s : State) (line : Nat) : State :=
  let s := s.copyStep (line * 64)
  match s.regionOf line with
  | some r => s.copyStep (r.macAt line)
  | none => s

/-- A step's next access made. -/
def State.copyAccess (s : State) (v g : Nat) : State :=
  match (s.vd v).snap with
  | some p =>
    (match p.steps.find? (fun x => x.1 == g) with
     | some (_, n) =>
       if n ≤ 1 then s.copied v p g
       else s.setVd v { s.vd v with snap := some { p with steps := p.steps.map (fun x => if x.1 == g then (g, n - 1) else x) } }
     | none => s)
  | none => s

/-- The step that a request's write takes first (R334). The request's own acceptance is the first of the step's accesses, and the request waits behind the rest. -/
def State.beginCopy (s : State) (v : Nat) (p : Snap) (g : Nat) (r : Req) : State :=
  let s := { s with reqs := r :: s.reqs }.queueCopy v p g r.world 127
  { s with reqs := s.reqs.erase ⟨r.st, r.world, .copy v g, s.t⟩ }

/-! ### Bytes that the device or its host stores (R319, R334, R340) -/

/-- Bytes of the device or its host written into a line, after the copy steps of the write; a sealed region's frames are not written (R343). -/
def State.storeLine (s : State) (pa key : Nat) (bs : List Byte) (line : Nat) : State :=
  if (s.sealedOf line).isSome then s else (s.copyFor line).putPart pa key bs line

/-! ### Fault-queue records (R221, R349) -/

/-- The 32 bytes of a record (Table 12.4). -/
def recordBytes (v fid : Nat) (r : HeldRec) : List Byte :=
  toBytes 8 (r.va % 2 ^ 57) ++
  toBytes 8 (fid % 2 ^ 32 * 2 ^ 32 + r.core * 2 ^ 24 + v * 2 ^ 16 + r.level * 2 ^ 13 + r.acc * 2 ^ 8 + r.src * 16 + r.typ) ++
  toBytes 8 r.arg ++ toBytes 8 0

/-- The queue is full while FQPROD - FQCONS = FQSIZE (R349). -/
def Vd.recordRoom (d : Vd) : Bool := decide (d.fqProd - d.fqCons < d.fqSize)

/-- A record written: the next FID, the host told, and accesses waiting for this page's record held under it (R221, R349). -/
def State.writeRecord (s : State) (v : Nat) (r : HeldRec) : State :=
  let d := s.vd v
  let s := s.emit (.hostWrite (d.fqBase + 32 * (d.fqProd % d.fqSize)) (recordBytes v d.nextFid r))
  let s := s.setVd v { d with fqProd := d.fqProd + 1, nextFid := d.nextFid + 1,
                              faults := if r.typ == 0 then d.faults ++ [⟨d.nextFid, r.va / 4096⟩] else d.faults }
  let s := if d.vmask then s else s.emit (.msix v 0)
  if r.typ == 0 then
    { s with jobs := s.jobs.map (fun j =>
        if j.vd == v && j.va / 4096 == r.va / 4096 && j.stage == .wantRecord then { j with stage := .held d.nextFid } else j) }
  else s

/-- A record is due: written now, or once there is room, in order (R221). -/
def State.raiseRecord (s : State) (v : Nat) (r : HeldRec) : State :=
  let d := s.vd v
  if d.recs.isEmpty && d.recordRoom then s.writeRecord v r else s.setVd v { d with recs := d.recs ++ [r] }

/-- A FAULT for a page that no access waits for: one record while it is unreplayed (R221). -/
def State.recordOnce (s : State) (v : Nat) (r : HeldRec) : State :=
  if (s.vd v).faults.any (fun f => f.page == r.va / 4096) || (s.vd v).recs.any (fun q => q.typ == 0 && q.va / 4096 == r.va / 4096) then s else s.raiseRecord v r

/-- A FAULT for an access: held under the page's unreplayed record, or under a new one (R221). -/
def State.faultOn (s : State) (job : Nat) (r : HeldRec) : State :=
  match s.jobs.find? (fun j => j.id == job) with
  | none => s
  | some j =>
    let d := s.vd j.vd
    let put (st : TStage) : State := { s with jobs := s.jobs.map (fun q => if q.id == job then { q with stage := st } else q) }
    match d.faults.find? (fun f => f.page == r.va / 4096) with
    | some f => put (.held f.fid)
    | none =>
      if d.recs.any (fun q => q.typ == 0 && q.va / 4096 == r.va / 4096) then put .wantRecord else (put .wantRecord).raiseRecord j.vd r

/-- FAULT_RECORD_DEFERRED (R221). -/
def execFaultRecordDeferred (vd : Nat) (s : State) : Out :=
  let d := s.vd vd
  match d.recs with
  | [] => .next s
  | r :: rest =>
    if d.recordRoom then
      let s := (s.setVd vd { d with recs := rest }).writeRecord vd r
      .next (if rest.isEmpty then s else s.post s.t (.faultRecordDeferred vd))
    else .next s

/-! ### Access counters (R226) -/

/-- One access from a source (0 local, 1 remote, 2 host) to a region of 64 KiB; a counter that reaches the VD's threshold writes one record. -/
def State.countAccess (s : State) (pa va src : Nat) : State :=
  let k := pa / 65536
  let c := (s.counts.find? (fun c => c.1 == k)).getD (k, 0, 0, 0, false)
  let sat (b : Bool) (n : Nat) : Nat := if b then min (n + 1) 65535 else n
  let n := (sat (src == 0) c.2.1, sat (src == 1) c.2.2.1, sat (src == 2) c.2.2.2.1)
  let v := (s.frameOwner pa).getD 0
  let t := (s.vd v).thresh
  let hit := t != 0 && !c.2.2.2.2 && (n.1 == t || n.2.1 == t || n.2.2 == t)
  let s := { s with counts := keyed k (n.1, n.2.1, n.2.2, c.2.2.2.2 || hit) s.counts }
  if hit then s.raiseRecord v { va := va / 65536 * 65536, typ := 2, arg := n.2.2 * 2 ^ 32 + n.2.1 * 2 ^ 16 + n.1 } else s

end Sys2Proof.Machine
end

