-- ==== Sys2Proof/Machine/Translate.lean ====
section
/-! DEFINITION. Address translation: page-table entries and walks (R217, R218), the two TLBs and their quotas (R219), and the steps of a
translation through the ports that the rota serves. -/
namespace Sys2Proof.Machine
open Sys2Proof

/-! ### Page-table entries (Table 12.5) -/

def fieldOf (e : DWord) (hi lo : Nat) : Nat := e.toNat / 2 ^ lo % 2 ^ (hi + 1 - lo)

/-- The bytes that an entry at a level spans. -/
def levelSpan (level : Nat) : Nat := 2 ^ (12 + 9 * level)

/-- A 64-bit entry of a VD's table, read under KeyID 0 (R217): nothing where its line fails the check that every read of it takes (R311, R340, R344). -/
def State.tableWord (s : State) (v a : Nat) : Option DWord :=
  ((s.lineRead (a / 64) 0 (s.stamp v)).1).map (fun bs => BitVec.ofNat 64 (ofBytes ((bs.drop (a % 64)).take 8)))

/-- What one step of a walk finds. -/
inductive PteStep
  | done (r : TRes)
  | table (pa : Nat)
  deriving DecidableEq, Repr

/-- The entry's attributes: everything but the frame. -/
def pteAttributes (e : DWord) : Nat := e.toNat / 2 ^ 43 * 2 ^ 12 + e.toNat % 2 ^ 12

/-- Does the 16-aligned group of a level-0 entry map 64 KiB (R217)? Not where a line of the group cannot be read (log 19). -/
def State.group64 (s : State) (v table idx : Nat) : Bool :=
  match s.tableWord v (table + 8 * (idx / 16 * 16)) with
  | none => false
  | some e0 =>
    fieldOf e0 15 12 == 0 && (List.range 16).all (fun i =>
      match s.tableWord v (table + 8 * (idx / 16 * 16 + i)) with
      | some e => e.getLsbD 0 && e.getLsbD 5 && pteAttributes e == pteAttributes e0 && fieldOf e 42 12 == fieldOf e0 42 12 + i
      | none => false)

/-- The leaf that an entry at a level describes for an address. -/
def leafOf (e : DWord) (va size pa : Nat) : Leaf :=
  { va := va / size * size, size := size, pa := pa, pkg := fieldOf e 63 54, keyid := fieldOf e 53 44, host := e.getLsbD 43,
    cnt := e.getLsbD 6, w := e.getLsbD 2, r := e.getLsbD 1 }

/-- One level of a VD's walk: the entry of the table for the address (R217, R218). C64 has a meaning at level 0 only: a leaf of a higher level that sets it is a
violation, as a reserved bit is (log 17). -/
def State.walkStep (s : State) (v table level va : Nat) : PteStep :=
  if table / 2 ^ 36 != (s.vd v).stack then .done .violation
  else
    let idx := va / levelSpan level % 512
    match s.tableWord v (table + 8 * idx) with
    | none => .done (.hurt ((table + 8 * idx) / 64))
    | some e =>
      let frame := fieldOf e 42 12 * 4096
      if !e.getLsbD 0 then .done (.absent level)
      else if fieldOf e 11 7 != 0 || e.getLsbD 3 then .done .violation
      else if !e.getLsbD 4 then
        if level = 0 then .done .violation
        else if fieldOf e 63 43 != 0 || fieldOf e 6 5 != 0 || fieldOf e 2 1 != 0 then .done .violation
        else .table frame
      else if 3 ≤ level then .done .violation
      else if level != 0 && (e.getLsbD 5 || frame % levelSpan level != 0) then .done .violation
      else if level = 0 && e.getLsbD 5 && s.group64 v table idx then .done (.leaf (leafOf e va 65536 (frame / 65536 * 65536)))
      else .done (.leaf (leafOf e va (levelSpan level) frame))

/-- The rest of a walk, all at once: the command processor's own accesses (log 2). -/
def State.walkFrom (s : State) (v : Nat) : Nat → Nat → Nat → TRes
  | 0, table, va => match s.walkStep v table 0 va with | .done r => r | .table _ => .violation
  | level + 1, table, va =>
    match s.walkStep v table (level + 1) va with
    | .done r => r
    | .table t => State.walkFrom s v level t va

def State.walk (s : State) (v va : Nat) : TRes := s.walkFrom v 4 (s.vd v).root va

/-! ### Permission (R218) -/

/-- The address that a leaf gives a virtual address. -/
def Leaf.addr (l : Leaf) (va : Nat) : Nat := l.pa + (va - l.va)

/-- Does a leaf allow an access (0 read, 1 write, 2 atomic) to an address under a working KeyID? A frame of a sealed region is not written (R343), and is read under
the granted KeyID that it was sealed under (R14). Of a page of another package the source cannot know whether it is sealed: it lets a read under a granted
KeyID go, and the home checks it (`State.homeCheck`). -/
def State.leafAllows (s : State) (v keyid acc va : Nat) (l : Leaf) : Bool :=
  let here := !l.host && l.pkg == s.pkg
  let region := if here then s.sealedOf (l.addr va / 64) else none
  let sealedRead := if here then region.any (fun r => r.keyid == l.keyid) else !l.host
  (if acc == 0 then l.r else l.w && region.isNone) &&
  (l.keyid == keyid || (acc == 0 && sealedRead && (s.vd v).grants.contains l.keyid))

/-- A result after the permission check. -/
def State.permit (s : State) (v keyid acc va : Nat) : TRes → TRes
  | .leaf l => if s.leafAllows v keyid acc va l then .leaf l else .violation
  | .absent n => .absent n
  | .violation => .violation
  | .hurt l => .hurt l

/-! ### The TLBs (R219) -/

def Leaf.covers (l : Leaf) (va : Nat) : Bool := decide (l.va ≤ va) && decide (va < l.va + l.size)

/-- A TLB's entry of a world for an address. -/
def tlbFind (m : List (Nat × TlbEntry)) (unit v va : Nat) : Option Leaf :=
  (m.find? (fun p => p.1 == unit && p.2.vd == v && p.2.leaf.covers va)).map (·.2.leaf)

/-- The entry used at clock t. -/
def tlbTouch (m : List (Nat × TlbEntry)) (unit v va t : Nat) : List (Nat × TlbEntry) :=
  m.map (fun p => if p.1 == unit && p.2.vd == v && p.2.leaf.covers va then (p.1, { p.2 with used := t }) else p)

/-- The world's least recently used entry. -/
def tlbOldest (m : List (Nat × TlbEntry)) (unit v : Nat) : Option (Nat × TlbEntry) :=
  (m.filter (fun p => p.1 == unit && p.2.vd == v)).foldl
    (fun o p => match o with | none => some p | some q => if p.2.used < q.2.used then some p else o) none

/-- A leaf filled in: into a full quota it replaces the world's least recently used entry. -/
def tlbFill (m : List (Nat × TlbEntry)) (unit v quota : Nat) (l : Leaf) (t : Nat) : List (Nat × TlbEntry) :=
  let m := m.filter (fun p => !(p.1 == unit && p.2.vd == v && (p.2.leaf.covers l.va || l.covers p.2.leaf.va)))
  let full := decide (quota ≤ (m.filter (fun p => p.1 == unit && p.2.vd == v)).length)
  let m := match (if full then tlbOldest m unit v else none) with
    | some o => m.erase o
    | none => m
  m ++ [(unit, { vd := v, leaf := l, used := t })]

/-- The quotas of a VD's allotment. -/
def State.allotOfVd (s : State) (v : Nat) : Allot := (s.allotOf (s.worldNum v)).getD {}

/-! ### Jobs -/

/-- The job with a number, and a job replaced. -/
def State.job (s : State) (id : Nat) : Option TJob := s.jobs.find? (fun j => j.id == id)
def State.setJob (s : State) (j : TJob) : State := { s with jobs := s.jobs.map (fun q => if q.id == j.id then j else q) }
def State.dropJob (s : State) (id : Nat) : State := { s with jobs := s.jobs.filter (fun q => q.id != id) }

/-- The port where a translation begins: the core's, or core 0's for what no core asked (log 17). -/
def tlbPort (core : Nat) : Nat := if core < 160 then core else 0

/-- A translation asked for: one request at the core's TLB port. -/
def State.askPage (s : State) (j : TJob) : State :=
  let j := { j with id := s.nextId }
  ({ s.bump with jobs := s.jobs ++ [j] }).enqueue (.ctlb (tlbPort j.core)) (s.worldNum j.vd) (.tlb j.id)

/-- A job begun again at the core's port (R222, R225): it walks afresh, so no invalidation before concerns it. -/
def State.restartJob (s : State) (j : TJob) : State :=
  (s.setJob { j with stage := .core, res := none, stale := [] }).enqueue (.ctlb (tlbPort j.core)) (s.worldNum j.vd) (.tlb j.id)

/-- Walks of a VD in flight. -/
def State.walksOf (s : State) (v : Nat) : Nat :=
  (s.jobs.filter (fun j => j.vd == v && (match j.stage with | .walk _ _ => true | _ => false))).length

/-- A lookup accepted at a core's port: 4 clk; a miss goes on to the die's port (R219). -/
def State.coreLookup (s : State) (j : TJob) : State :=
  let core := tlbPort j.core
  match tlbFind s.tlbs core j.vd j.va with
  | some l => (({ s with tlbs := tlbTouch s.tlbs core j.vd j.va s.t }).setJob { j with res := some (.leaf l) }).post (s.t + 4) (.translationComplete j.id)
  | none => (s.setJob { j with stage := .l2 }).enqueueAt (.l2tlb (dieOf core)) (s.worldNum j.vd) (.tlb j.id) (s.t + 4)

/-- A lookup accepted at a die's port: 16 clk; a miss goes on to the table stack's walk unit. -/
def State.dieLookup (s : State) (j : TJob) : State :=
  let die := dieOf (tlbPort j.core)
  match tlbFind s.l2s die j.vd j.va with
  | some l => (({ s with l2s := tlbTouch s.l2s die j.vd j.va s.t }).setJob { j with res := some (.leaf l) }).post (s.t + 16) (.translationComplete j.id)
  | none => s.enqueueAt (.walk (s.vd j.vd).stack) (s.worldNum j.vd) (.walk j.id) (s.t + 16)

/-- What a walk's read of a table line that cannot be delivered leaves behind (R345, R355). -/
def State.noteWalk (s : State) (v : Nat) : TRes → State
  | .hurt line => (s.checkLine line 0 (s.stamp v)).2
  | .leaf _ | .absent _ | .violation => s

/-- One level step accepted at a walk unit: 24 clk (R219). -/
def State.levelStep (s : State) (j : TJob) : State :=
  let here := match j.stage with | .walk level table => (level, table) | _ => (4, (s.vd j.vd).root)
  match s.walkStep j.vd here.2 here.1 j.va with
  | .done r => ((s.noteWalk j.vd r).setJob { j with stage := .walk here.1 here.2, res := some r }).post (s.t + 24) (.translationComplete j.id)
  | .table t =>
    (s.setJob { j with stage := .walk (here.1 - 1) t }).enqueueAt (.walk (s.vd j.vd).stack) (s.worldNum j.vd) (.walk j.id) (s.t + 24)

/-- Does a scope meet n bytes from an address? -/
def InvScope.meets (sc : InvScope) (va n : Nat) : Bool :=
  match sc with
  | .all => true
  | .range a len => decide (a < va + n) && decide (va < a + len)

/-- A walked leaf returns into both TLBs, unless an invalidation since has taken its page; faults and violations never do (R219, R225). -/
def State.fillTlbs (s : State) (j : TJob) : State :=
  match j.res with
  | some (.leaf l) =>
    let core := tlbPort j.core
    let a := s.allotOfVd j.vd
    if j.stale.any (fun sc => InvScope.meets sc l.va l.size) then s
    else { s with tlbs := tlbFill s.tlbs core j.vd a.tlb l s.t, l2s := tlbFill s.l2s (dieOf core) j.vd a.l2 l s.t }
  | _ => s

/-- Virtual addresses have 57 bits; what lies beyond is a violation (log 17). -/
def TJob.result (s : State) (j : TJob) : TRes :=
  if 2 ^ 57 ≤ j.va then .violation else s.permit j.vd j.keyid j.acc j.va (j.res.getD .violation)

end Sys2Proof.Machine
end

