-- ==== Sys2Proof/Machine/Fabric.lean ====
section
/-! DEFINITION. The fabric as one package drives it: fibres and routes (R246, R247, R257), packets as sealed flits (R249, R250), flit times (R252),
sequence numbers (R253), and the packets that leave in a slot. -/
namespace Sys2Proof.Machine
open Sys2Proof

/-! ### Members and routes -/

def memberOf (pkg : Nat) : Nat := pkg % 16
def reachOf (pkg : Nat) : Nat := pkg / 16
def State.myMember (s : State) : Nat := memberOf s.pkg
def State.sameReach (s : State) (pkg : Nat) : Bool := reachOf pkg == reachOf s.pkg

/-- The first of the two fibres to a member of the reach (R246). -/
def pairFibre (m n : Nat) : Nat := 2 * (if n < m then n else n - 1)

/-- The member at the other end of a fibre (R246). -/
def State.fibreMember (s : State) (f : Nat) : Nat := let n := f / 2; if n < s.myMember then n else n + 1

/-- Is the member present in this package's reach? Has the domain other reaches (R247)? -/
def State.memberHere (s : State) (n : Nat) : Bool := s.members.any (fun p => s.sameReach p && memberOf p == n)
def State.hasPlanes (s : State) : Bool := s.members.any (fun p => !s.sameReach p)

/-- Is a fibre of this package healthy, and present (R247, R251)? -/
def State.healthy (s : State) (f : Nat) : Bool := !s.failed.contains f && (if f < 30 then s.memberHere (s.fibreMember f) else s.hasPlanes)

/-- The healthy fibres of the pair to a member, the one that the sequence number's parity names first (R253). -/
def State.pairRoute (s : State) (n : Nat) (odd : Bool) : Option Nat :=
  let f := pairFibre s.myMember n
  let first := if odd then f + 1 else f
  let second := if odd then f else f + 1
  if s.healthy first then some first else if s.healthy second then some second else none

/-- The plane that takes a packet to a package of another reach: the destination's member number, or the next whose fibres from here and to the destination
are both healthy (R247). -/
def State.planeTo (s : State) (dst : Nat) : Option Nat :=
  ((List.range 16).map (fun i => (memberOf dst + i) % 16)).find? (fun p => s.healthy (30 + p) && !s.peerFailed.contains (dst, 30 + p))

/-- Has member i of this reach a healthy fibre to member n? -/
def State.pairHealthy (s : State) (i n : Nat) : Bool :=
  let f := pairFibre i n
  !(s.peerFailed.contains (reachOf s.pkg * 16 + i, f) && s.peerFailed.contains (reachOf s.pkg * 16 + i, f + 1))

/-- The fibre to the member that forwards a detour: the lowest other member with a healthy fibre from here and a healthy fibre to the destination (R257). -/
def State.detourBy (s : State) (n : Nat) (odd : Bool) : Option Nat :=
  ((List.range 16).find? (fun i => i != n && i != s.myMember && s.memberHere i && (s.pairRoute i odd).isSome && s.pairHealthy i n)).bind (fun i => s.pairRoute i odd)

/-- The fibre on which a packet leaves, and whether by detour; none where the destination cannot be reached (R247, R257). -/
def State.route (s : State) (dst : Nat) (odd : Bool) : Option (Nat × Bool) :=
  if s.sameReach dst then
    match s.pairRoute (memberOf dst) odd with
    | some f => some (f, false)
    | none => (s.detourBy (memberOf dst) odd).map (·, true)
  else (s.planeTo dst).map (fun p => (30 + p, false))

/-! ### Packets as flits -/

def PType.code : PType → Nat
  | .read => 0 | .write => 1 | .atom => 2 | .cas => 3 | .red => 4 | .flag => 5 | .reply => 6 | .heart => 7 | .close => 8 | .msg => 9
def Aop.code : Aop → Nat | .add => 0 | .min => 1 | .max => 2 | .and => 3 | .or => 4 | .xor => 5 | .exch => 6
def Aty.code : Aty → Nat | .i32 => 0 | .n32 => 1 | .f32 => 2
def Width.code : Width → Nat | .i8 => 0 | .n8 => 1 | .b16 => 2 | .b32 => 3 | .b64 => 4 | .b128 => 5
def PStat.code : PStat → Nat | .ok => 0 | .closed => 1 | .access => 2 | .full => 3
def MKind.code : MKind → Nat | .eager => 0 | .rts => 1 | .pull => 2 | .data => 3 | .ack => 4 | .nack => 5

/-- Does a half of the line hold masked bytes? -/
def halfMasked (p : Packet) (i : Nat) : Bool := p.bmask.toNat / 2 ^ (32 * i) % 2 ^ 32 != 0

/-- The 32-byte half of a line that holds some returned bytes, the rest of it 0 (R249; log 13). -/
def halfAround (off : Nat) (bs : List Byte) : List Byte :=
  (List.range 32).map (fun i => if off ≤ i ∧ i < off + bs.length then bs.getD (i - off) 0 else 0)

/-- The data bytes of a packet in the order of its payload flits (R249, R269): the halves of the line that hold masked or returned bytes, and behind them the
compare value of a CAS. A READ names no bytes, so its BMASK is 0, and its reply returns the whole line, both halves: the manual does not say which (DESIGN CHOICE,
log 13). -/
def Packet.payload (p : Packet) : List Byte :=
  match p.typ with
  | .write | .atom | .cas | .red | .flag =>
    (if halfMasked p 0 then p.data.take 32 else []) ++ (if halfMasked p 1 then (p.data.drop 32).take 32 else []) ++ p.data.drop 64
  | .reply => if p.data.isEmpty || p.data.length == 64 then p.data else halfAround (p.pa % 32) p.data
  | .msg => p.data
  | .read | .heart | .close => []

/-- The clock flit (R249). -/
def clockBytes (c : Clock) : List Byte := c.flatMap (fun e => toBytes 2 e.toNat)

def Packet.plain (p : Packet) : List Byte := (match p.clock with | some c => clockBytes c | none => []) ++ (Packet.payload p)

/-- Payload flits of a packet. -/
def Packet.plen (p : Packet) : Nat := ((Packet.plain p).length + 31) / 32

/-- Flits of a packet: HEART and CLOSE are a header alone (R249). -/
def Packet.flits (p : Packet) : Nat :=
  match p.typ with
  | .heart | .close => 1
  | .read | .write | .atom | .cas | .red | .flag | .reply | .msg => (Packet.plen p) + 2

/-- The header flit (Tables 15.2 and 16.1). -/
def Packet.header (p : Packet) : List Byte :=
  let isMsg := p.typ == .msg
  let top := if isMsg then MKind.code p.kind * 2 ^ 57
    else Aop.code p.aop * 2 ^ 57 + Aty.code p.aty * 2 ^ 55 + Width.code p.wd * 2 ^ 52
  let w0 := PType.code p.typ * 2 ^ 60 + top + p.slot * 2 ^ 48 + p.src * 2 ^ 38 + p.dst * 2 ^ 28 + p.keyid * 2 ^ 18 + (Packet.plen p) * 2 ^ 14 +
    PStat.code p.stat * 2 ^ 12 + (if p.sw then 2 ^ 11 else 0) + (if p.det then 2 ^ 10 else 0) + (if p.clock.isSome then 2 ^ 9 else 0)
  let w1 := p.lseq.toNat * 2 ^ 48 + (if isMsg then p.dvd * 2 ^ 36 + p.srank * 2 ^ 24 + p.off else p.pa)
  let w2 := (if isMsg then p.mtag.toNat else p.rtag) * 2 ^ 32 + (if isMsg then p.mseq.toNat else p.wseq.toNat) * 2 ^ 16
  let w3 := if isMsg then p.mlen * 2 ^ 48 + p.rxid * 2 ^ 32 else p.bmask.toNat
  toBytes 8 w0 ++ toBytes 8 w1 ++ toBytes 8 w2 ++ toBytes 8 w3

/-- The KeyID that seals a packet: the device's for HEART, CLOSE and answers that are not OK (R250, R269). -/
def Packet.sealKey (p : Packet) : Nat := if p.typ == .heart || p.typ == .close || p.stat != .ok then 0 else p.keyid

/-- The fabric key of a KeyID; KeyID 0 holds the domain's (R250). -/
def State.fabricKeyOf (s : State) (id : Nat) : List Byte := keyBytes (if id == 0 then s.fabricKey else (s.keyOf id).fabric)

/-- The 96-bit IV: SRC, DST, ORIG and CTR in 10, 10, 12 and 64 bits (R250), most significant byte first (log 13). -/
def packetIv (src dst orig ctr : Nat) : List Byte := toBytesBE 12 (src * 2 ^ 86 + dst * 2 ^ 76 + orig * 2 ^ 64 + ctr)

/-- The next counter of a KeyID, source, destination and origin (R250). -/
def State.nextCtr (s : State) (key src dst orig : Nat) : Nat × State :=
  let c := ((s.ctrs.find? (fun c => c.1 == key && c.2.1 == src && c.2.2.1 == dst && c.2.2.2.1 == orig)).map (·.2.2.2.2)).getD 0
  (c, { s with ctrs := (s.ctrs.filter (fun c => !(c.1 == key && c.2.1 == src && c.2.2.1 == dst && c.2.2.2.1 == orig))) ++ [(key, src, dst, orig, c + 1)] })

/-- A packet sealed: its counter and its tag over the header and the enciphered payload; HEART and CLOSE carry the first 64 bits of theirs in the MAC field,
which is 0 where it is worked out (R250; log 13). -/
def State.sealPacket (s : State) (p : Packet) : Packet × State :=
  let p := { p with keyid := (Packet.sealKey p) }
  let n := s.nextCtr p.keyid p.src p.dst p.orig
  let g := gcm (s.fabricKeyOf p.keyid) (packetIv p.src p.dst p.orig n.1) (Packet.header p) (Packet.plain p)
  (match p.typ with
   | .heart | .close => { p with ctr := n.1, bmask := BitVec.ofNat 64 (ofBytes (g.2.take 8)) }
   | .read | .write | .atom | .cas | .red | .flag | .reply | .msg => { p with ctr := n.1, tag := BitVec.ofNat 128 (ofBytes g.2) }, n.2)

/-- The tag flit (R250). -/
def tagFlit (tag : BitVec 128) (ctr : Nat) : List Byte := toBytes 16 tag.toNat ++ toBytes 8 ctr ++ List.replicate 8 0

/-- A sealed packet's flits as they stand on a fibre (R249, R250): the header, the enciphered payload in whole flits, the tag flit. -/
def State.wireBytes (s : State) (p : Packet) : List Byte :=
  let cipher := (gcm (s.fabricKeyOf p.keyid) (packetIv p.src p.dst p.orig p.ctr) (Packet.header p) (Packet.plain p)).1
  match p.typ with
  | .heart | .close => Packet.header p
  | .read | .write | .atom | .cas | .red | .flag | .reply | .msg =>
    Packet.header p ++ cipher ++ List.replicate (32 * Packet.plen p - cipher.length) 0 ++ tagFlit p.tag p.ctr

/-! ### Sequence numbers (R253) -/

/-- The slot index that a world's packets carry: its lowest slot (log 17). -/
def State.slotOfWorld (s : State) (w : Nat) : Nat := ((List.range s.rotaL).find? (fun k => s.ownerOf k == some w)).getD 0

/-- The VD whose world owns a slot here. -/
def State.vdOfSlot (s : State) (k : Nat) : Option Nat := (s.ownerOf k).bind s.vdOfWorld

/-- The tenant that holds a slot: its owner's here, or the one whose mask the domain records (R63). -/
def State.tenantOfSlot (s : State) (k : Nat) : Option Nat :=
  match s.vdOfSlot k with
  | some v => some (s.vd v).tenant
  | none => (s.tenants.find? (fun a => a.mask.getLsbD k)).map (·.tenant)

/-- The streams of a tenant with a package, and new ones in their place (R253). -/
def State.stream (s : State) (tenant peer : Nat) : Stream :=
  (s.streams.find? (fun x => x.tenant == tenant && x.peer == peer)).getD { tenant := tenant, peer := peer }
def State.setStream (s : State) (x : Stream) : State :=
  { s with streams := if s.streams.any (fun y => y.tenant == x.tenant && y.peer == x.peer)
      then s.streams.map (fun y => if y.tenant == x.tenant && y.peer == x.peer then x else y) else s.streams ++ [x] }

/-- The number of the packet after the next n: one that a discarded packet has left, or the counter's (R266; log 24). -/
def Stream.ahead (x : Stream) (n : Nat) : BitVec 16 := x.left.getD n (x.out + BitVec.ofNat 16 (n - x.left.length))

/-- A number is taken. -/
def Stream.take (x : Stream) : Stream :=
  match x.left with
  | _ :: rest => { x with left := rest }
  | [] => { x with out := x.out + 1 }

/-- The packet of a slot that a replay count belongs to (R251): its source, its destination, the clock at which it left its source, which no other of its number
shares, and its number. -/
def Packet.replayKey (p : Packet) : Nat := ((((p.left * 1024 + p.src) * 1024 + p.dst) * 16 + p.slot) * 65536 + p.lseq.toNat) * 16 + PType.code p.typ

/-- A packet of a tenant in a slot joins a queue of its fibre under a world number; `false` where no path reaches the destination (R257). -/
def State.joinFibre (s : State) (tenant slot world : Nat) (p : Packet) (after : Nat) : Bool × State :=
  let x := s.stream tenant p.dst
  let q := x.ahead 0
  match s.route p.dst (q.getLsbD 0) with
  | none => (false, s.replaceRequested)
  | some (f, det) =>
    let p := { p with src := s.pkg, lseq := q, det := det, slot := slot }
    (true, (s.setStream x.take).enqueueAt (.fibre f) world (.send p) after)

/-- A packet of VD v to another package joins its fibre's queue. -/
def State.sendPacket (s : State) (v : Nat) (p : Packet) (after : Nat) : Bool × State :=
  s.joinFibre (s.vd v).tenant (s.slotOfWorld (s.worldNum v)) (s.worldNum v) p after

/-- The queue of a slot in which no VD is scheduled: what is answered there for a tenant (R260, R267; log 21). -/
def slotQueue (k : Nat) : Nat := 1000 + k

/-- The world number under which a slot's packets wait. -/
def State.queueOfSlot (s : State) (k : Nat) : Nat := match s.vdOfSlot k with | some v => s.worldNum v | none => slotQueue k

/-- An answer in the slot of what it answers, to whatever VD that was (R253, R260, R267). A tenant that no mask names has the slot's own stream. -/
def State.sendInSlot (s : State) (k : Nat) (p : Packet) : State :=
  (s.joinFibre ((s.tenantOfSlot k).getD (2 ^ 16 + k)) k (s.queueOfSlot k) p s.t).2

/-! ### Flit times (R252) -/

/-- The flit positions of a slot that a world's queue may use: neither the heartbeat's nor the transit's. -/
def queuePosition (j : Nat) : Bool := j % 64 != 0 && j % 20 != 19
def transitPosition (j : Nat) : Bool := j % 20 == 19

/-- Where the flits of a packet can stand, from the clock's position on: the successive free positions of a kind in the slot. -/
def State.flitPlaces (s : State) (key : Nat) (ok : Nat → Bool) (n : Nat) : Option (List Nat) :=
  let base := s.t / s.rotaS * s.rotaS
  let next := ((s.flits.find? (fun p => p.1 == key)).map (·.2)).getD 0
  let js := ((List.range (5 * s.rotaS / 2)).filter (fun j => ok j && decide (s.t ≤ base + 2 * j / 5) && decide (next ≤ 5 * base / 2 + j))).take n
  match js.getLast? with
  | some j => if js.length = n ∧ 2 * j / 5 ≤ s.rotaS - 1 then some (js.map (fun j => 5 * base / 2 + j)) else none
  | none => none

/-- The clock of a flit time (R252). -/
def flitClock (n : Nat) : Nat := 2 * n / 5

/-- A far request with a number, and its standing changed. -/
def State.farReq (s : State) (id : Nat) : Option Far := s.fars.find? (fun (f : Far) => f.id == id)
def State.setFar (s : State) (f : Far) : State := { s with fars := s.fars.map (fun (q : Far) => if q.id == f.id then f else q) }
def State.dropFar (s : State) (id : Nat) : State := { s with fars := s.fars.filter (fun (q : Far) => q.id != id) }
def State.markFar (s : State) (id : Nat) (st : FarSt) : State :=
  { s with fars := s.fars.map (fun (q : Far) => if q.id == id then { q with st := st } else q) }

/-- The delivery time D of a path (Table 15.3). -/
def State.deliveryTime (s : State) (dst : Nat) (det : Bool) : Nat := if !s.sameReach dst then 640 else if det then 512 else 224

/-- A sealed packet's flits leave on a fibre, the last at a clock; its receiver is handed it D after it left its source, or on arrival if that is later (R252). -/
def State.emitPacket (s : State) (f t : Nat) (p : Packet) : State := s.emit (.packet f t (max t (p.left + s.deliveryTime p.dst p.det)) p)

/-- A packet starts on a fibre: it leaves at its tag flit's clock, and a request waits 64 us for its reply (R252, R256). -/
def State.depart (s : State) (f : Nat) (p : Packet) : State :=
  match s.flitPlaces f queuePosition (Packet.flits p) with
  | none => s
  | some js =>
    let last := js.getLast?.getD 0
    let t := flitClock last
    let r := s.sealPacket { p with left := t }
    let s := { r.2 with flits := keyed f (last + 1) r.2.flits }
    let s := s.emitPacket f t r.1
    match p.typ with
    | .read | .write | .atom | .cas | .red | .flag =>
      { s with fars := s.fars.map (fun (q : Far) => if q.id == p.rtag then { q with st := .sent, left := t } else q) }.post (t + 89600) (.requestTimeout p.rtag)
    | .reply | .heart | .close | .msg => s

/-- A packet goes again on a fibre as it was sealed (R251). -/
def State.departAgain (s : State) (f : Nat) (p : Packet) : State :=
  match s.flitPlaces f queuePosition (Packet.flits p) with
  | none => s
  | some js =>
    let last := js.getLast?.getD 0
    { s with flits := keyed f (last + 1) s.flits }.emitPacket f (flitClock last) p

/-! ### Links that fail (R251, R256, R257) -/

/-- A fibre is marked failed (R251). -/
def State.failFibre (s : State) (f : Nat) : State :=
  if s.failed.contains f then s
  else { s with failed := s.failed ++ [f], health := { s.health with ffail := min 255 (s.health.ffail + 1) } }

/-- Is it 32 us since a packet's tag flit left its source (R256)? -/
def State.packetLate (s : State) (p : Packet) : Bool := decide (p.left + 44800 ≤ s.t)

/-- PACKET_DROP_TIMEOUT (R256): a hop drops what was not delivered in 32 us. -/
def execPacketDropTimeout (p : Packet) (s : State) : Out :=
  let held := s.transit.any (fun x => x.2.2 == p) || s.reqs.any (fun r => r.item == ReqItem.resend p)
  if held && s.packetLate p then
    .next ({ s with transit := s.transit.filter (fun x => x.2.2 != p), reqs := s.reqs.filter (fun (r : Req) => r.item != ReqItem.resend p) }).replaceRequested
  else .next s

/-- Does a KeyID belong to a tenant that holds the slot on a package (R255), by an allotment here or by the domain's record? The device's own key does for every
slot. -/
def State.keyHoldsSlot (s : State) (key slot dst : Nat) : Bool :=
  let holds (t : Nat) : Bool := s.tenants.any (fun a => a.tenant == t && a.mask.getLsbD slot && a.pkgs.contains dst)
  key == 0 || s.layout.allots.any (fun a => a.keys.contains key && holds a.tenant) || s.tenants.any (fun a => a.keys.contains key && holds a.tenant)

/-- A forwarded packet joins the transit queue of its slot and its output fibre, or where that has failed of the other fibre to its destination; with neither it is
dropped (R257). -/
def State.joinTransit (s : State) (x : Nat × Nat × Packet) : State :=
  match (if s.healthy x.1 then some x.1 else s.pairRoute (memberOf x.2.2.dst) (x.2.2.lseq.getLsbD 0)) with
  | some f => { s with transit := s.transit ++ [(f, x.2)] }
  | none => s.replaceRequested

/-- DETOUR_TRANSIT (R251, R255-R257): forwarded in the transit flit times of its slot, for 32 us at most, or dropped and reported. -/
def execDetourTransit (fibre slot : Nat) (p : Packet) (s : State) : Out :=
  if p.garbled then .next (s.emit (.linkReplay p))
  else if s.keyHoldsSlot p.keyid slot p.dst then .next ((s.joinTransit (fibre, slot, p)).post (p.left + 44800) (.packetDropTimeout p))
  else .next (s.emit (.windowReport p))

/-- Is a forwarded packet the first of its queue, that of its slot and output fibre (R257)? -/
def State.transitHead (s : State) (x : Nat × Nat × Packet) : Bool := s.transit.find? (fun y => y.1 == x.1 && y.2.1 == x.2.1) == some x

/-- The first waiting transit packet that can leave in the present slot. -/
def State.transitReady (s : State) : Option (Nat × Nat × Packet) :=
  s.transit.find? (fun x => x.2.1 == s.slotAt s.t && s.transitHead x && (s.flitPlaces (100 + x.1) transitPosition (Packet.flits x.2.2)).isSome)

/-- It leaves. -/
def State.transitDepart (s : State) (x : Nat × Nat × Packet) : State :=
  match s.flitPlaces (100 + x.1) transitPosition (Packet.flits x.2.2) with
  | none => s
  | some js =>
    let last := js.getLast?.getD 0
    ({ s with transit := s.transit.erase x, flits := keyed (100 + x.1) (last + 1) s.flits }).emitPacket x.1 (flitClock last) x.2.2

end Sys2Proof.Machine
end

