-- ==== Sys2Proof/Machine/Home.lean ====
section
/-! DEFINITION. Far requests on their way to a home, and homes: sequence numbers and clocks at the source (R254, R291), the applied marks (R290),
the checks of a home (R260), the order of R292, and the performing of a request (R261). -/
namespace Sys2Proof.Machine
open Sys2Proof

/-- Does the request write (R254)? -/
def PType.writes : PType → Bool
  | .write | .atom | .cas | .red | .flag => true
  | .read | .reply | .heart | .close | .msg => false

/-- Is it a request of this package? -/
def Far.own (f : Far) : Bool := match f.src with
  | .peer _ => false
  | .loads _ _ | .atomic _ _ _ | .store _ _ | .flag _ _ | .barge _ _ | .fill _ | .landing _ _ | .gather _ _ _ | .cp _ _ => true

/-- The world's writes that have left their queues and are not acknowledged (R254). -/
def State.unackedWrites (s : State) (v : Nat) : Nat :=
  (s.fars.filter (fun f => f.vd == v && PType.writes f.op && f.own && (f.st == .sent || f.st == .memory || f.st == .answering))).length

/-- May a request leave its queue: the world's unacknowledged writes stay below 2^14 (R254)? -/
def State.mayLeave (s : State) (id : Nat) : Bool :=
  match s.farReq id with
  | some f => !(PType.writes f.op && f.own) || decide (s.unackedWrites f.vd + 1 < 2 ^ 14)
  | none => true

/-! ### The lanes behind a request (R291) -/

/-- The crew and the lanes whose clocks a request takes. -/
def State.farLanes (s : State) (src : FarSrc) : Nat × List Nat :=
  match src with
  | .loads c ls => (c, ls.map (·.1))
  | .atomic c l _ => (c, [l])
  | .store c ls => (c, ls)
  | .flag c l => (c, [l])
  | .barge r _ => match s.bargeRs.find? (fun b => b.id == r) with | some b => (b.crew, [b.lane]) | none => (0, [])
  | .gather v t _ => let x := ((s.vd v).txs.getD t {}); (x.crew, [x.lane])
  | .fill _ | .landing _ _ | .cp _ _ | .peer _ => (0, [])


/-- The lanes' own entry raised to a write number. -/
def State.raiseLanes (s : State) (f : Far) (w : BitVec 16) : State :=
  let p := s.farLanes f.src
  if p.2.isEmpty then s
  else s.setCrew p.1 (p.2.foldl (fun k l => k.setLane l { k.lane l with clock := Clock.raise (k.lane l).clock s.myMember w }) (s.crew p.1))

/-! ### Applied marks (R290) -/

/-- The member and write number of a write request that a home holds and has not performed. -/
def State.heldWrite (s : State) (v : Nat) (f : Far) : Option (Nat × BitVec 16) :=
  if f.vd == v && PType.writes f.op && (f.st == .home || f.st == .memory) then
    match f.src with
    | .peer p => if s.sameReach p.src then some (memberOf p.src, p.wseq) else none
    | _ => f.wseq.map (s.myMember, ·)
  else none

/-- A mark kept below a write number. -/
def markBelow (h w : BitVec 16) : BitVec 16 := if serialLt h w then h else w - 1

/-- AM of a world: what is handed on, short of what came early (R253) and of what is not yet performed. -/
def State.marks (s : State) (v : Nat) : Clock :=
  (List.range 16).map (fun m =>
    let handed := if m == s.myMember then (s.vd v).wctr else (s.vd v).am.getD m 0
    let early := (s.stream (s.vd v).tenant (reachOf s.pkg * 16 + m)).early.filter (fun p => PType.writes p.typ)
    s.fars.foldl (fun (h : BitVec 16) (f : Far) => match s.heldWrite v f with
      | some (m', w) => if m' == m then markBelow h w else h
      | none => h) (early.foldl (fun h p => markBelow h p.wseq) handed))

/-- Entries of a clock that lie 2^14 or more below the marks, raised (R293): as no entry lies 2^14 or more above them (R254), all that lie further off. -/
def Clock.raiseStale (c am : Clock) : Clock :=
  List.zipWith (fun x m => if 2 ^ 14 ≤ (m - x).toNat ∧ (m - x).toNat ≤ 2 ^ 16 - 2 ^ 14 then m - 16384 else x) c am

def Packet.reclock (up : Clock → Clock) (p : Packet) : Packet := { p with clock := p.clock.map up }
def Msg.reclock (up : Clock → Clock) (m : Msg) : Msg := { m with clock := m.clock.map up }

/-- Every clock that the package holds for a world (R289, R293): its lanes', its workgroups', its requests', those of packets that wait, and its messages'. -/
def State.reclock (s : State) (v : Nat) (up : Clock → Clock) : State :=
  let mine (w : Wg) : Bool := (s.grid w.grid).vd == v
  let lane (x : Lane) : Lane := { x with clock := up x.clock, pend := x.pend.map (fun p => { p with clock := p.clock.map up }) }
  let src : FarSrc → FarSrc | .peer p => .peer (Packet.reclock up p) | x => x
  let item : ReqItem → ReqItem | .send p => .send (Packet.reclock up p) | x => x
  let w := s.worldNum v
  let d := s.vd v
  let s := { s with
    crews := s.crews.map (fun (k : Crew) => if mine (s.wg k.wg) then { k with lanes := k.lanes.map lane } else k),
    wgs := s.wgs.map (fun (x : Wg) => if mine x then { x with
      musters := x.musters.map (fun (m : Muster) => { m with clock := up m.clock, done := up m.done }),
      tiles := x.tiles.map (fun (t : Tile) => { t with clocks := t.clocks.map (fun (c : Nat × Clock) => (c.1, up c.2)) }) } else x),
    fars := s.fars.map (fun (f : Far) => if f.vd == v then { f with clock := up f.clock, src := src f.src } else f),
    reqs := s.reqs.map (fun (r : Req) => if r.world == w then { r with item := item r.item } else r),
    streams := s.streams.map (fun (x : Stream) => if x.tenant == d.tenant then { x with early := x.early.map (Packet.reclock up) } else x) }
  s.setVd v { d with
      hc := up d.hc, rc := up d.rc, kq := d.kq.map (fun (q : Kq) => { q with b := { q.b with clock := up q.b.clock } }),
      rxs := d.rxs.map (fun (r : Rx) => { r with msg := Msg.reclock up r.msg }), txs := d.txs.map (fun (x : Tx) => { x with clock := up x.clock }),
      unexp := d.unexp.map (Msg.reclock up), inq := d.inq.map (fun (e : WIn) => match e with | .arrive p => WIn.arrive (Packet.reclock up p) | x => x) }

/-- A mark of a member (R290): every write of the member up to it has been handed on, as its stream is in order. The first that the world hears of the member, and
one that lies 2^14 or more off, stand as they are, for the sender has been writing elsewhere (R254); clocks that lie that far behind are raised to it (R293). -/
def State.handedOn (s : State) (v pkg : Nat) (w : BitVec 16) : State :=
  if !s.sameReach pkg then s
  else
    let m := memberOf pkg
    let h := (s.vd v).am.getD m 0
    let far (a b : BitVec 16) : Bool := decide (2 ^ 14 ≤ (a - b).toNat)
    let anew := !(s.vd v).heard.contains m || (far w h && far h w)
    let s := s.setVd v { s.vd v with am := (s.vd v).am.set m (if anew then w else serialMax h w),
                                     heard := if (s.vd v).heard.contains m then (s.vd v).heard else (s.vd v).heard ++ [m] }
    if far w h && far h w then s.reclock v (fun c => Clock.raiseStale c (s.marks v)) else s

/-- A heartbeat (R290): every write up to its mark has arrived. -/
def State.heartSeen (s : State) (v pkg : Nat) (w : BitVec 16) : State := s.handedOn v pkg w

/-- The clock that a request takes now: its lanes' clocks, merged. One that no lane makes has a clock that every home covers, 2^14 below the marks (R293; log 21). -/
def State.farClock (s : State) (f : Far) : Clock :=
  let p := s.farLanes f.src
  match p.2 with
  | [] => (s.marks f.vd).map (· - 16384)
  | l :: ls => ls.foldl (fun c i => Clock.merge ((s.crew p.1).lane i).clock c) ((s.crew p.1).lane l).clock

/-! ### Checks at a home (R260, R266) -/

/-- The KeyID of a leaf that is not the working one: under it a sealed line is read (R14). -/
def Leaf.readKey (l : Leaf) (key : Nat) : Option Nat := if l.keyid == key then none else some l.keyid

/-- What a home answers before it performs a request under a working KeyID: CLOSED where the frame's world is not scheduled or is closing, ACCESS where the KeyID is
not granted to it, or the frame is a sealed region's and the request writes (R343), or the leaf's KeyID is another one and the request is no read of a line that
is sealed under it, and it is granted to the world (R14, R218). -/
def State.homeCheck (s : State) (pa key : Nat) (readKey : Option Nat) (op : PType) : PStat × Nat :=
  match s.frameOwner pa with
  | none => (.access, 0)
  | some v =>
    let d := s.vd v
    let region := s.sealedOf (pa / 64)
    let other := match readKey with
      | some k => PType.writes op || !d.grants.contains k || !region.any (fun r => r.keyid == k)
      | none => false
    if d.world.isNone || d.closing.isSome then (.closed, v)
    else if !d.grants.contains key || other || (PType.writes op && region.isSome) then (.access, v)
    else (.ok, v)

/-! ### A request leaves for its home (R254, R259) -/

/-- An answer that is not OK, in the clock of the request: of a home on this package (R260), or of the source itself, which `orig` 1 marks (R257, R266). -/
def State.answerHere (s : State) (id : Nat) (st : PStat) (source : Bool) : State :=
  (s.markFar id .performed).post s.t (.replyPacket { typ := .reply, stat := st, rtag := id, src := s.pkg, dst := s.pkg, orig := if source then 1 else 0 })

/-- The packet of a request (R249). -/
def State.farPacket (s : State) (f : Far) (l : Leaf) : Packet :=
  { typ := f.op, aop := f.aop, aty := f.aty, wd := f.wd, dst := l.pkg, keyid := f.keyid, sw := f.sw, pa := l.addr f.va, rtag := f.id,
    wseq := f.wseq.getD 0, bmask := BitVec.ofNat 64 f.mask, clock := if !l.host && s.sameReach l.pkg then some f.clock else none,
    data := f.bytes ++ (if f.op == .cas then toBytes 8 f.cmp.toNat else []),
    ctr := 0, cnt := l.cnt, lkey := l.readKey f.keyid }

/-- The tenant of a VD has closed its dealings with a package (R266). -/
def State.isClosed (s : State) (v pkg : Nat) : Bool := s.closed.contains ((s.vd v).tenant, pkg)

/-- Does a redf.sw go by a plane that is not enrolled for its tenant (R262)? -/
def State.fallsBack (s : State) (f : Far) (l : Leaf) : Bool :=
  f.sw && !s.sameReach l.pkg && (match s.planeTo l.pkg with
    | some p => !Config.planeEnrolled (s.cycleOf f.vd s.t) (s.vd f.vd).tenant p
    | none => false)

/-- A redf.sw that a plane not enrolled for its tenant took has been performed at its home: the grid's status will say so (R262, R331). -/
def State.noteFallback (s : State) (f : Far) : State :=
  match f.src with
  | .store c _ => if f.fb then s.setGrid (s.wgOf c).grid { s.gridOf c with fb := true } else s
  | .loads _ _ | .atomic _ _ _ | .flag _ _ | .barge _ _ | .fill _ | .landing _ _ | .gather _ _ _ | .cp _ _ | .peer _ => s

/-- A translated request enters the outbound queue, or its home's queue: it takes its clock and its write number (R254, R291). `keep` is for a
side-log entry, which keeps its clock. -/
def State.enterQueue (s : State) (id : Nat) (keep : Bool) : State :=
  match s.farReq id with
  | none => s
  | some f =>
    match f.leaf with
    | none => s
    | some l =>
      let f := { f with clock := if keep then f.clock else s.farClock f }
      if l.host then
        ((s.setFar { f with st := .sent, wseq := some (s.vd f.vd).wctr, left := s.t }).emit (.hostAccess s.t (s.farPacket f l))).post (s.t + 89600) (.requestTimeout id)
      else
        let num := PType.writes f.op
        let w := (s.vd f.vd).wctr + 1
        let f := if num then { f with wseq := some w } else f
        let s := if num then (s.setVd f.vd { s.vd f.vd with wctr := w }).raiseLanes f w else s
        if l.pkg == s.pkg then
          let c := s.homeCheck (l.addr f.va) f.keyid (l.readKey f.keyid) f.op
          let f := { f with order := s.nextId }
          if c.1 != .ok then (s.bump.setFar f).answerHere id c.1 false
          else (s.bump.setFar { f with st := .home }).enqueue (.hbm (channelOf (l.addr f.va))) (s.worldNum c.2) (.access id)
        else if s.isClosed f.vd l.pkg then (s.setFar f).answerHere id .closed true
        else
          let r := (s.setFar { f with st := .queued, fb := s.fallsBack f l }).sendPacket f.vd (s.farPacket f l) s.t
          if r.1 then r.2 else r.2.answerHere id .closed true

/-! ### Performing (R261, R292) -/

/-- The source of a request at its home. -/
def State.sourceOf (s : State) (f : Far) : Nat := match f.src with | .peer p => p.src | _ => s.pkg

/-- Is a request served as its world stands: a world that runs is served all of its requests, one whose pad runs its Barge's started lines, a halted one those, its
landings' and its peers' (R318, R361)? -/
def State.goesOn (s : State) (f : Far) : Bool :=
  match (s.vd f.vd).run, f.src with
  | .running, _ => true
  | _, .barge _ _ => true
  | .saving, _ => false
  | .halted, .peer _ | .halted, .landing _ _ => true
  | _, _ => false

/-- May the home perform the request: nothing older from its source waits, but for what a world that does not run is not served and which therefore holds back no
request that is (R318, R361; log 3), and its clock is covered (R292)? -/
def State.homeReady (s : State) (f : Far) : Bool :=
  f.st == .home &&
  s.fars.all (fun g => !(g.st == .home && g.vd == f.vd && s.sourceOf g == s.sourceOf f && decide (g.order < f.order) && s.goesOn g)) &&
  (match f.src with
   | .peer p => (match p.clock with | some c => Clock.covered c (s.marks f.vd) | none => true)
   | .fill _ => true
   | _ => Clock.covered f.clock (s.marks f.vd))

/-- The granule that a request is the first to write since a snapshot's boundary (R334). An atomic counts as a write, whatever it compares (log 15). -/
def State.copyFirst (s : State) (f : Far) : Option (Nat × Snap × Nat) :=
  if !PType.writes f.op then none
  else
    match f.src, f.leaf with
    | .peer p, _ => s.uncopied p.pa
    | _, some l => s.uncopied (l.addr f.va)
    | _, none => none

/-- Does that granule's copy step run already? -/
def State.copyRuns (s : State) (f : Far) : Bool := match s.copyFirst f with | some (_, p, g) => p.steps.any (fun x => x.1 == g) | none => false

/-- What an operation makes of a line: the new bytes, the byte mask written, and the bytes returned. -/
def lineOp (op : PType) (aop : Aop) (aty : Aty) (wd : Width) (off mask : Nat) (bytes : List Byte) (cmp : DWord) (old : List Byte) :
    List Byte × Nat × List Byte :=
  let w := Width.bytes wd
  let here (bs : List Byte) : List Byte := (bs.drop off).take w
  let put (bs : List Byte) : List Byte := List.replicate off 0 ++ bs
  let m := (2 ^ w - 1) * 2 ^ off
  match op with
  | .read => (old, 0, old)
  | .write => (bytes, mask, [])
  | .flag => (bytes, mask, [])
  | .atom => (put (accessAtom aop aty w (here old) (here bytes)), m, here old)
  | .red => (put (accessAtom aop aty w (here old) (here bytes)), m, [])
  | .cas => (put (here bytes), if BitVec.ofNat 64 (ofBytes (here old)) == cmp then m else 0, here old)
  | .reply | .heart | .close | .msg => (old, 0, [])
where
  accessAtom (aop : Aop) (aty : Aty) (w : Nat) (old b : List Byte) : List Byte :=
    toBytes w (atomResult aop aty false (BitVec.ofNat 64 (ofBytes old)) (BitVec.ofNat 64 (ofBytes b))).toNat

/-- The compare value of a CAS travels in the packet's data behind the line (log 13). -/
def Packet.compare (p : Packet) : DWord := BitVec.ofNat 64 (ofBytes (p.data.drop 64))

/-- Bytes of a line, those that a race leaves undefined free (R296). -/
def tornLine (who : List Nat) (line mask : Nat) (bs : List Byte) : List Byte :=
  if mask == 0 then bs else bs.zipIdx.map (fun b => if mask.testBit b.2 then Config.freeByte who (line * 64 + b.2) else b.1)

/-- An operation at a physical address under a KeyID: the bytes returned, or nothing where a check or the ECC refuses (R311, R340). The copy steps of a snapshot
come before a write (R334). `torn` are the bytes of the line that a race leaves undefined, and `who` names the event. -/
def State.memoryOp (s : State) (v pa key : Nat) (op : PType) (aop : Aop) (aty : Aty) (wd : Width) (mask : Nat) (bytes : List Byte) (cmp : DWord) (torn : Nat)
    (who : List Nat) : Option (List Byte) × State :=
  let line := pa / 64
  let reads := match op with | .write | .flag => false | _ => true
  let r : Option (List Byte) × State := if reads then s.lineRead line key who else (some [], s)
  match r.1 with
  | none => (none, r.2)
  | some old =>
    let x := lineOp op aop aty wd (pa % 64) mask bytes cmp (tornLine who line torn old)
    if x.2.1 == 0 then (some x.2.2, r.2)
    else
      let w := (r.2.copyFor line).lineWrite line key x.2.1 (tornLine who line torn x.1) who
      (if w.1 then some x.2.2 else none, w.2.tearSends v (sentFrom line x.2.1))
where
  /-- Is byte p of a send read from a masked byte of the line (R274)? -/
  sentFrom (line mask : Nat) (x : Tx) (p : Nat) : Bool := x.src.any (fun q => q.1 == p && q.2 / 64 == line && mask.testBit (q.2 % 64))

/-- The home clock after a request, and the reply's clock (R292). -/
def State.homeClock (s : State) (v : Nat) (c : Clock) (member : Nat) (w : Option (BitVec 16)) : State :=
  let d := s.vd v
  let h := Clock.merge c d.hc
  s.setVd v { d with hc := match w with | some w => Clock.raise h member w | none => h }

/-! ### Races at a home (R296) -/

/-- The line of a request at its home, and the bytes of it that the request reads or writes. -/
def Far.touches (f : Far) : Nat × Nat :=
  let atom (pa : Nat) (wd : Width) : Nat := (2 ^ Width.bytes wd - 1) * 2 ^ (pa % 64)
  match f.src, f.leaf with
  | .peer p, _ =>
    (p.pa / 64, match p.typ with
      | .write | .flag => p.bmask.toNat
      | .atom | .cas | .red => atom p.pa p.wd
      | .read | .reply | .heart | .close | .msg => fullMask)
  | .loads _ ls, some l => (l.addr f.va / 64, ls.foldl (fun m x => m ||| (2 ^ Width.bytes f.wd - 1) * 2 ^ x.2.2) 0)
  | _, some l =>
    (l.addr f.va / 64, match f.op with
      | .write | .flag => f.mask
      | .atom | .cas | .red => atom (l.addr f.va) f.wd
      | .read | .reply | .heart | .close | .msg => fullMask)
  | _, none => (0, 0)

/-- The clock that a request carries, and the member and number of its write. -/
def Far.carried (f : Far) : Option Clock := match f.src with | .peer p => p.clock | _ => some f.clock
def State.numberOf (s : State) (f : Far) : Option (Nat × BitVec 16) :=
  if !PType.writes f.op then none
  else match f.src with
    | .peer p => some (memberOf p.src, p.wseq)
    | _ => f.wseq.map (s.myMember, ·)

/-- Is a request ordered after another one's write by the clocks (R292)? -/
def State.orderedAfter (s : State) (f g : Far) : Bool :=
  match Far.carried f, s.numberOf g with
  | some c, some (m, w) => !serialLt (c.getD m 0) w
  | _, _ => false

/-- Could two requests be one lane's, or do they come from one other package, whose order this home keeps and whose lanes it cannot tell apart (log 10)? -/
def State.oneSource (s : State) (f g : Far) : Bool :=
  match f.src, g.src with
  | .peer p, .peer q => p.src == q.src
  | .peer _, _ | _, .peer _ => false
  | a, b => let x := s.farLanes a; let y := s.farLanes b; x.1 == y.1 && x.2.any y.2.contains

/-- May two requests race: neither is the command processor's or a code line's, not both are atomic, and no flag meets the read that looks for it (R261, R264;
log 10)? -/
def Far.mayRace (f g : Far) : Bool :=
  let alone (x : Far) : Bool := match x.src with | .cp _ _ | .fill _ => true | _ => false
  let atomic (x : Far) : Bool := match x.op with | .atom | .cas | .red => true | _ => false
  !alone f && !alone g && !(atomic f && atomic g) && !(f.op == .flag && g.op == .read) && !(f.op == .read && g.op == .flag)

/-- The bytes of a request's line in which another that the home has not performed races with it. -/
def State.raceMask (s : State) (f g : Far) : Nat :=
  if (g.st == .home || g.st == .memory) && g.id != f.id && (PType.writes f.op || PType.writes g.op) && (Far.touches f).1 == (Far.touches g).1 && Far.mayRace f g &&
      !s.oneSource f g && !s.orderedAfter f g && !s.orderedAfter g f then (Far.touches f).2 &&& (Far.touches g).2 else 0

/-- The bytes that a request's races leave undefined where it is performed: those in which a request writes that races with it (R296; log 10). -/
def State.tornBytes (s : State) (f : Far) : Nat := s.fars.foldl (fun m g => if PType.writes g.op then m ||| s.raceMask f g else m) f.torn

/-- A request that writes is performed: those that race with it will find undefined bytes. -/
def State.tearFars (s : State) (f : Far) : State :=
  if !PType.writes f.op then s
  else { s with fars := s.fars.map (fun (g : Far) => let m := s.raceMask f g; if m == 0 then g else { g with torn := g.torn ||| m }) }

/-- The results of a request that its home on this package has performed are decided (R114). -/
def State.decideFar (s : State) (f : Far) (bs : List Byte) : State :=
  match f.src with
  | .loads c ls => ls.foldl (fun (s : State) x => s.decided c x.1 x.2.1 (extendLoad f.wd ((bs.drop x.2.2).take (Width.bytes f.wd)))) s
  | .atomic c l e => s.decided c l e (extendLoad f.wd bs)
  | .store _ _ | .flag _ _ | .barge _ _ | .fill _ | .landing _ _ | .gather _ _ _ | .cp _ _ | .peer _ => s

/-- The tree level that the check of an accepted read takes first: a line of a sealed region that is read has all h levels checked, and those below the top are read
from the tree area (R344). -/
def State.firstLevel (s : State) (f : Far) : Option Nat :=
  if PType.writes f.op then none
  else (s.sealedOf (Far.touches f).1).bind (fun r => if r.st != .resealing && decide (1 < r.height) then some 1 else none)

/-- The channel of the node of a level on the path of the line that a request reads. -/
def State.nodeChannel (s : State) (f : Far) (level : Nat) : Nat :=
  match s.sealedOf (Far.touches f).1 with
  | some r => channelOf (r.nodeLine level (r.blockOf (Far.touches f).1 / 8 ^ level) * 64)
  | none => channelOf ((Far.touches f).1 * 64)

/-- A node's access enters the home world's queue before all others. -/
def State.readNode (s : State) (f : Far) (world level : Nat) : State :=
  { s with reqs := ⟨.hbm (s.nodeChannel f level), world, .tree f.id level, s.t⟩ :: s.reqs }

/-- A node of the path has been read: the next level's access, or the read is performed. -/
def State.treeAccess (s : State) (far level world : Nat) : State :=
  match s.farReq far with
  | none => s
  | some f =>
    let more := match s.sealedOf (Far.touches f).1 with | some r => decide (level + 1 < r.height) | none => false
    if more then s.readNode f world (level + 1) else s.post s.t (.homePerform far)

/-- HOME_PERFORM (R260, R261, R292, R303): the memory is read and written; 64 clk later the answer leaves (Table 4.3), and the request counts as performed at its
home. The answer to a peer stands in the request's place until this row sends it. The VA that a counter's record gives is the access's own, and where another
package made it, which sends no VA, the physical address (log 22). -/
def execHomePerform (far : Nat) (s : State) : Out :=
  match s.farReq far with
  | none => .next s
  | some f =>
    match f.src with
    | .peer p =>
      if f.st == .answering then .next ((s.dropFar far).sendPacket f.vd p s.t).2
      else if f.st != .memory then .next s
      else
        let m := (s.tearFars f).memoryOp f.vd p.pa (p.lkey.getD p.keyid) p.typ p.aop p.aty p.wd p.bmask.toNat p.data (Packet.compare p) (s.tornBytes f)
          [p.src, p.slot, p.lseq.toNat]
        let s := m.2
        let s := if p.cnt then s.countAccess p.pa p.pa 1 else s
        let s := (match p.clock with
          | some c => s.homeClock f.vd c (memberOf p.src) (if PType.writes p.typ then some p.wseq else none)
          | none => s)
        let r : Packet := { typ := .reply, wd := p.wd, dst := p.src, keyid := p.keyid, rtag := p.rtag, pa := p.pa, data := m.1.getD [], bad := m.1.isNone,
                            clock := p.clock.map (fun _ => (s.vd f.vd).hc) }
        .next ((s.setFar { f with st := .answering, src := .peer r }).post (s.t + 64) (.homePerform far))
    | .loads _ _ | .atomic _ _ _ | .store _ _ | .flag _ _ | .barge _ _ | .fill _ | .landing _ _ | .gather _ _ _ | .cp _ _ =>
      if f.st != .memory then .next s
      else
        match f.leaf with
        | none => .next s
        | some l =>
          let m := (s.tearFars f).memoryOp f.vd (l.addr f.va) l.keyid f.op f.aop f.aty f.wd f.mask f.bytes f.cmp (s.tornBytes f) (s.stamp f.vd)
          let s := m.2
          let s := if l.cnt then s.countAccess (l.addr f.va) f.va 0 else s
          let s := s.homeClock f.vd f.clock s.myMember (if PType.writes f.op then f.wseq else none)
          let r : Packet := { typ := .reply, wd := f.wd, src := s.pkg, dst := s.pkg, rtag := far, data := m.1.getD [], bad := m.1.isNone,
                              clock := some (s.vd f.vd).hc }
          let s := match m.1 with | some bs => s.decideFar f bs | none => s
          .next ((s.markFar far .answering).post (s.t + 64) (.replyPacket r))

/-! ### Flags behind a failed access (R222, R265) -/

/-- Flags queued behind a failed access of a lane are discarded unsent (R222, R265). -/
def State.dropFlags (s : State) (c l after : Nat) : State :=
  let x := (s.crew c).lane l
  let unsent (i : Nat) : Bool := match s.farReq i with | some f => f.st == .flagQ | none => false
  let gone := x.flags.filter (fun i => decide (after < i) && unsent i)
  let s := s.setCrew c ((s.crew c).setLane l { x with flags := x.flags.filter (fun i => !gone.contains i) })
  let mine (j : TJob) : Bool := match j.cont with | .far i => gone.contains i | _ => false
  { s with fars := s.fars.filter (fun (f : Far) => !gone.contains f.id), jobs := s.jobs.filter (fun j => !mine j) }

/-! ### Requests of other packages (R253, R260, R290) -/

/-- An answer that is not OK goes back at once; in the reach it carries the home clock as it stands (R249; log 21). -/
def State.refusePeer (s : State) (v : Nat) (p : Packet) (st : PStat) : State :=
  (s.sendPacket v { typ := .reply, stat := st, dst := p.src, rtag := p.rtag, pa := p.pa,
                    clock := if s.sameReach p.src then some (s.vd v).hc else none } s.t).2

/-- A checked request of a peer joins its channel's queue, in the home world v (R260). -/
def State.enterHome (s : State) (v : Nat) (p : Packet) : State :=
  let f : Far := { id := s.nextId, order := s.nextId, vd := v, src := .peer p, op := p.typ, keyid := p.keyid, wseq := some p.wseq, st := .home }
  ({ s.bump with fars := s.fars ++ [f] }).enqueue (.hbm (channelOf p.pa)) (s.worldNum v) (.access f.id)

/-- A request in its turn: checked, then queued at its channel, or answered CLOSED or ACCESS. A refused write counts for AM (R290). -/
def State.acceptPeer (s : State) (v : Nat) (p : Packet) : State :=
  let s := if PType.writes p.typ then s.handedOn v p.src p.wseq else s
  let c := s.homeCheck p.pa p.keyid p.lkey p.typ
  if c.1 != .ok then s.refusePeer v p c.1 else s.enterHome c.2 p

/-- A donor's slots return at the first round boundary after a packet for it arrives (R74). -/
def State.returnSlots (s : State) (v : Nat) : State :=
  if (s.vd v).released then s.post (s.boundaryAfter s.t) (.slotReturn v) else s

end Sys2Proof.Machine
end

