-- ==== Sys2Proof/Machine/Barge.lean ====
section
/-! DEFINITION. The Barge (R208-R216, R223, R244, R245): boxes and their images, the request list, and cpy, cpo, cpb and cpre; the beats, chunks
and ends of a request. -/
namespace Sys2Proof.Machine
open Sys2Proof

/-! ### Boxes (R41, R42, R211) -/

def Manifest.isLg6 (m : Manifest) : Bool := m.fmt == 3

/-- Bytes of one unit of dimension 0: an element, or for lg6 a run of 128 (R211). -/
def Manifest.unit (m : Manifest) : Nat :=
  match m.fmt with
  | 0 => 4 | 6 => 4 | 7 => 4 | 1 => 2 | 2 => 2
  | 3 => if m.scl then 104 else 96
  | _ => 1

/-- Elements of dimension 0 as units. -/
def Manifest.units (m : Manifest) (n : Nat) : Nat := if m.isLg6 then n / 128 else n

/-- BOXk, 1 at or above RANK. -/
def Manifest.boxAt (m : Manifest) (k : Nat) : Nat := if k < m.rank then m.box.getD k 1 else 1

/-- RB, the number of box rows, and P (R211). -/
def Manifest.rowBytes (m : Manifest) : Nat := m.units (m.boxAt 0) * m.unit
def Manifest.rows (m : Manifest) : Nat := m.boxAt 1 * m.boxAt 2 * m.boxAt 3 * m.boxAt 4
def Manifest.packed (m : Manifest) : Nat := m.rowBytes * m.rows

/-- b_k of box row r, for k from 1 to 4. -/
def Manifest.rowIndex (m : Manifest) (r : Nat) : List Nat :=
  [r % m.boxAt 1, r / m.boxAt 1 % m.boxAt 2, r / (m.boxAt 1 * m.boxAt 2) % m.boxAt 3, r / (m.boxAt 1 * m.boxAt 2 * m.boxAt 3) % m.boxAt 4]

/-- The byte of its row that stands at place o of box row r (R42): the swizzle is its own inverse. It moves the units of 512-byte chunks, so the rest of a row
that is no multiple of 512, which only a cpre, an msend and an mpost may have (R210, R276), keeps its places (DESIGN CHOICE, log 22). -/
def Manifest.unswizzle (m : Manifest) (r o : Nat) : Nat :=
  if m.swz = 0 ∨ m.rowBytes < o / 512 * 512 + 512 then o else o / 512 * 512 + (o % 512 / 16 ^^^ r % 2 ^ m.swz) * 16 + o % 16

/-- The global address of the start of unit u of box row r, if it is in bounds (R211). -/
def Manifest.unitAddr (m : Manifest) (cs : List Int) (r u : Nat) : Option Nat :=
  let c0 := if m.isLg6 then cs.getD 0 0 / 128 else cs.getD 0 0
  let x0 := c0 + (u : Int)
  let high := (m.rowIndex r).zipIdx.filter (fun p => decide (p.2 + 1 < m.rank))
  let at' (p : Nat × Nat) : Int := cs.getD (p.2 + 1) 0 + (p.1 : Int)
  if 0 ≤ x0 ∧ x0 < (m.units (m.dims.getD 0 0) : Int) ∧ high.all (fun p => decide (0 ≤ at' p) && decide (at' p < (m.dims.getD (p.2 + 1) 0 : Int))) then
    some (m.base + x0.toNat * m.unit + (high.map (fun p => (at' p).toNat * m.strides.getD (p.2 + 1) 0)).sum)
  else none

/-- The global address of image byte x, if its element is in bounds (R211, R42). -/
def Manifest.byteAddr (m : Manifest) (cs : List Int) (x : Nat) : Option Nat :=
  let r := x / m.rowBytes
  let o := m.unswizzle r (x % m.rowBytes)
  (m.unitAddr cs r (o / m.unit)).map (· + o % m.unit)

/-- What an out-of-bounds image byte takes (R214): the low bytes of FILL; for lg6 FILL[5:0] in each code and FILL[31:16] in each scale. -/
def Manifest.fillByte (m : Manifest) (x : Nat) : Byte :=
  let i := m.unswizzle (x / m.rowBytes) (x % m.rowBytes) % m.unit
  if m.isLg6 then
    if i < 96 then BitVec.ofNat 8 (m.fill.toNat % 64 * 266305 / 256 ^ (i % 3))
    else BitVec.ofNat 8 (m.fill.toNat / 65536 / 256 ^ (i % 2))
  else BitVec.ofNat 8 (m.fill.toNat / 256 ^ i)

/-- The image bytes in bounds, with their global addresses, in ascending order of their places. -/
def Manifest.inBounds (m : Manifest) (cs : List Int) : List (Nat × Nat) :=
  (List.range m.packed).filterMap (fun x => (m.byteAddr cs x).map (fun a => (x, a)))

/-- The global lines of a box in ascending order of the lowest image byte that each serves (R213), with that byte and its address. -/
def Manifest.lines (m : Manifest) (cs : List Int) : List BLine :=
  ((m.inBounds cs).foldl (fun (r : List Nat × List BLine) p =>
    if r.1.contains (p.2 / 64) then r else (p.2 / 64 :: r.1, { va := p.2, low := p.1 } :: r.2)) ([], [])).2.reverse

/-- The pages of a box in the same order. -/
def pagesOf (ls : List BLine) : List BLine :=
  (ls.foldl (fun (r : List Nat × List BLine) l => if r.1.contains (l.va / 4096) then r else (l.va / 4096 :: r.1, l :: r.2)) ([], [])).2.reverse

/-- The image bytes that a line serves: (place, byte of the line). -/
def BReq.places (r : BReq) (line : Nat) : List (Nat × Nat) :=
  ((r.man.inBounds r.coords).filter (fun p => p.2 / 64 == line)).map (fun p => (p.1, p.2 % 64))

/-! ### The request list (R212) -/

/-- Requests of a VD at a core's Barge. -/
def State.bargeList (s : State) (core v : Nat) : List BReq := s.bargeRs.filter (fun r => r.core == core && r.vd == v)
def State.bargeReq (s : State) (id : Nat) : Option BReq := s.bargeRs.find? (fun r => r.id == id)
def State.setBarge (s : State) (r : BReq) : State := { s with bargeRs := s.bargeRs.map (fun q => if q.id == r.id then r else q) }

/-- Does a kind move bytes in, out, or none? -/
def BKind.reads : BKind → Bool
  | .cpy | .cpbIn => true
  | .cpo | .cpbOut | .warm | .mig => false
def BKind.writes : BKind → Bool
  | .cpo | .cpbOut => true
  | .cpy | .cpbIn | .warm | .mig => false
def BKind.basin : BKind → Bool
  | .cpbIn | .cpbOut => true
  | .cpy | .cpo | .warm | .mig => false

/-- Has the line been started, for the order of R212? A held line counts (R245); a cpre has no line to start. Once its replay has translated a held line it counts no
more until the Barge accepts it, so that later requests wait for it: the manual does not say (DESIGN CHOICE, log 22). -/
def BReq.lineBegun (r : BReq) (l : BLine) : Bool :=
  match l.st with
  | .held | .started | .done | .dropped => true
  | .trans => r.kind == .warm
  | .fresh | .ready | .queued => false

def BReq.allBegun (r : BReq) : Bool := r.failed.isSome || r.lines.all r.lineBegun

/-- A line of a request given a standing. -/
def BReq.setLine (r : BReq) (i : Nat) (st : BLineSt) : BReq := { r with lines := r.lines.modify i (fun l => { l with st := st }) }

/-- Lines of a request on the page of an address, in one standing, given another. -/
def BReq.setPage (r : BReq) (page : Nat) (old new : BLineSt) (leaf : Option Leaf) : BReq :=
  { r with lines := r.lines.map (fun l => if l.va / 4096 == page && l.st == old then { l with st := new, leaf := leaf } else l) }

/-- The Basin lines of a cpb image, 64 bytes each. -/
def BReq.basinLines (r : BReq) : List Nat := if r.kind.basin then List.range ((r.man.packed + 63) / 64) else []

/-- Does image byte x stand ready: filled, or come from global memory (cpb.in)? -/
def BReq.byteReady (r : BReq) (x : Nat) : Bool := (cellAt r.buf x).isSome || (r.man.byteAddr r.coords x).isNone

/-- Does a chunk stand complete (R215)? -/
def BReq.chunkReady (r : BReq) (k : Nat) : Bool :=
  let here (x : Nat) : Bool := x / 512 == k
  match r.kind with
  | .cpbIn => r.basinLines.all (fun j => !(j / 8 == k) || r.basinGot.contains j)
  | .cpy | .cpbOut =>
    ((r.man.inBounds r.coords).filter (fun p => here p.1)).all (fun p => r.lines.all (fun l => l.va / 64 != p.2 / 64 || l.st == .done))
  | .cpo | .warm | .mig => true

/-- Is the request complete (R215)? -/
def BReq.complete (r : BReq) : Bool :=
  r.begun && r.failed.isNone && r.chunks.isEmpty && r.lines.all (fun l => l.st == .done || l.st == .dropped)

/-! ### Driving the requests -/

/-- Pages still fresh are asked for, while the TLB port's queue has room (R219). -/
def State.bargeAsk (s : State) (rid : Nat) : List Nat → State
  | [] => s
  | i :: rest =>
    match s.bargeReq rid with
    | none => s
    | some r =>
      let l := r.lines.getD i { va := 0 }
      if l.st != .fresh then s.bargeAsk rid rest
      else if !s.hasRoom (.ctlb r.core) (s.worldNum r.vd) 1 then s
      else
        let r := r.setPage (l.va / 4096) .fresh .trans none
        let j : TJob := { id := 0, vd := r.vd, core := r.core, va := l.va, acc := if r.kind.writes then 1 else 0, src := if r.kind == .warm then 5 else 3,
                          keyid := r.keyid, cont := if r.kind == .warm then .warm rid i else .barge rid i }
        ((s.setBarge r).askPage j).bargeAsk rid rest

/-- Basin lines that can go to the port: for cpb.in those whose bytes are there, for cpb.out those with a byte in bounds. -/
def BReq.basinWanted (r : BReq) (j : Nat) : Bool :=
  let xs := (List.range 64).filterMap (fun i => if j * 64 + i < r.man.packed then some (j * 64 + i) else none)
  if r.kind == .cpbIn then xs.all r.byteReady else xs.any (fun x => (r.man.byteAddr r.coords x).isSome)

def State.bargeBasin (s : State) (rid : Nat) : List Nat → State
  | [] => s
  | j :: rest =>
    match s.bargeReq rid with
    | none => s
    | some r =>
      if r.basinQ.contains j || r.basinGot.contains j || !r.basinWanted j then s.bargeBasin rid rest
      else if !s.hasRoom (.basin r.core) (s.worldNum r.vd) 1 then s
      else ((s.setBarge { r with basinQ := r.basinQ ++ [j] }).enqueue (.basin r.core) (s.worldNum r.vd) (.bargeBasin rid j)).bargeBasin rid rest

/-- Beats in the order of the lines: a line waits for those before it, except those held on a page (R213, R245). -/
def State.bargeBeats (s : State) (rid : Nat) : List Nat → State
  | [] => s
  | i :: rest =>
    match s.bargeReq rid with
    | none => s
    | some r =>
      let l := r.lines.getD i { va := 0 }
      match l.st with
      | .fresh | .trans => s
      | .held | .queued | .started | .done | .dropped => s.bargeBeats rid rest
      | .ready =>
        if r.kind == .cpbOut && !(r.places (l.va / 64)).all (fun p => (cellAt r.buf p.1).isSome) then s
        else if !s.hasRoom (.barge r.core) (s.worldNum r.vd) 1 then s
        else ((s.setBarge (r.setLine i .queued)).enqueue (.barge r.core) (s.worldNum r.vd) (.beat rid i)).bargeBeats rid rest

/-- The bytes of a cpre.mig (R214): one HINT over the lowest and highest bytes in bounds. -/
def State.bargeHint (s : State) (r : BReq) : State :=
  match (r.man.inBounds r.coords).map (·.2) with
  | [] => s
  | a :: as =>
    let lo := as.foldl min a
    let hi := as.foldl max a
    s.raiseRecord r.vd { va := lo, core := r.core, src := 5, typ := 1, arg := hi + 1 - lo }

/-- A request in its turn begins: chunks without a byte in bounds wait only for their fill (R215, R216). -/
def State.bargeBegin (s : State) (r : BReq) : State :=
  if r.begun then s
  else
    let s := s.setBarge { r with begun := true }
    let s := if r.kind == .mig then s.bargeHint r else s
    (r.chunks.filter (fun k => r.kind != .cpbIn && r.chunkReady k)).foldl (fun s k => s.post s.t (.chunkDone r.id k)) s

/-- One request driven as far as it goes. -/
def State.bargeDrive (s : State) (r : BReq) : State :=
  if r.failed.isSome then s
  else
    let s := s.bargeBegin r
    let idx := List.range r.lines.length
    let s := s.bargeAsk r.id idx
    if r.kind == .warm then s else (s.bargeBasin r.id r.basinLines).bargeBeats r.id idx

/-- Complete requests leave the list. -/
def State.bargeSweep (s : State) : State := { s with bargeRs := s.bargeRs.filter (fun r => !r.complete) }

/-- Every request of the VD on the core whose turn it is, driven: a request begins when every line of the earlier ones is started (R212). -/
def State.bargeKick (s : State) (core v : Nat) : State :=
  ((s.bargeList core v).foldl (fun (a : State × Bool) q =>
    if !a.2 then a
    else
      let s' := match a.1.bargeReq q.id with | some r => a.1.bargeDrive r | none => a.1
      (s', match s'.bargeReq q.id with | some r => r.allBegun | none => true)) (s, true)).1.bargeSweep

/-! ### The words -/

/-- %trapinfo of a manifest number (R210). -/
def manifestTrap (k : Nat) : Eff := .trap tcHandle (handleInfo k 7)

/-- The coordinates of a lane (R211, R244). -/
def boxCoords (s : State) (k : Crew) (l : Nat) (a : BitVec 8) : List Int :=
  (List.range 5).map (fun i => (regRead (s.readAt k) 0 l (k.lane l) (a.toNat + i)).toInt)

/-- MISALIGNED of an lg6 box (R210 step 7). -/
def Manifest.coordBad (m : Manifest) (cs : List Int) : Bool := m.isLg6 && cs.getD 0 0 % 128 != 0

/-- The list holds 16 requests of a world on a core (R212). -/
def State.bargeRoom (s : State) (core v n : Nat) : Bool := decide ((s.bargeList core v).length + n ≤ 16)

/-- A request enters the list. -/
def State.addBarge (s : State) (r : BReq) : State := { s.bump with bargeRs := s.bargeRs ++ [{ r with id := s.nextId }] }

/-- cpy, cpo and cpb after the encoding class (R209, R210). -/
def bargeTile (kind : BKind) (t : TileH) (man : BitVec 4) (a : BitVec 8) (b : Option (BitVec 8)) (s : State) (k : Crew) (act : List Nat) : Eff :=
  match act with
  | [l] =>
    let g := s.gridOf s.cur
    if g.mans.length ≤ man.toNat then manifestTrap man.toNat
    else withTile s k act t true (fun i ph x =>
      let m := g.mans.getD man.toNat {}
      let v := g.vd
      let cs := boxCoords s k l a
      let base := match b with | some r => (rd s k 1 l r).toNat | none => 0
      let want : TileSt := if kind == .cpo then .ready else .empty
      if x.st != want || x.phase != ph || !s.bargeRoom k.core v 1 then .wait .held
      else if x.len < (m.packed + 511) / 512 || (m.swz != 0 && m.rowBytes % 512 != 0) then tileTrap i ph
      else if b.isSome && decide ((s.basinRange (s.worldNum v) (dieOf k.core)).2 < base + m.packed) then .trap tcNearBounds (BitVec.ofNat 64 base)
      else if m.coordBad cs then .trap tcMisaligned (BitVec.ofInt 32 (cs.getD 0 0) |>.setWidth 64)
      else if b.isSome && base % 64 != 0 then .trap tcMisaligned (BitVec.ofNat 64 base)
      else
        let n := (m.packed + 511) / 512
        let hurt := s.regBad s.cur l [(a, m.rank)]
        let r : BReq := { id := 0, kind := kind, vd := v, wg := k.wg, crew := s.cur, lane := l, core := k.core, tile := i, man := m, coords := cs,
                          baddr := base, keyid := g.keyid, lines := m.lines cs, word := s.wordAt s.cur s.curPc.toNat,
                          chunks := if kind == .cpo then [] else List.range n }
        let y : Tile := { x with st := .filling, bitmap := lowBits x.len &&& ~~~lowBits n, clocks := [], seen := 0,
                                 fillLen := if kind == .cpy then m.packed else 0, fillAt := if kind == .cpbIn then some (base, m.packed) else none }
        let s := if kind == .cpo then s else s.setTile k.wg i y
        let s := if kind == .cpy then
            s.setNear k.core (Cells.forget (s.nearOf k.core) ((s.wg k.wg).near + x.base) m.packed) else s
        if hurt then .trap tcIntegrity (integrityInfo 0 0 l) else .ok ((s.addBarge r).bargeKick k.core v))
  | _ => .trap tcConvergence 0

/-- The registers of a Barge word (R208): the coordinate group counts once in the bank of vA. The box's rank says which of them are read (R211). -/
def bargeNeeds (t : TileH) (a : BitVec 8) (b : Option (BitVec 8)) : Needs :=
  { src := (b.map (·, 1)).toList ++ TileH.src t, group := [(a, 5)], banks := a :: (b.toList ++ TileH.needs t), role := some 2 }

def execCpy (h : Hdr) (t : TileH) (man : BitVec 4) (a : BitVec 8) (s : State) : Out := word h (bargeNeeds t a none) (bargeTile .cpy t man a none) s
def execCpo (h : Hdr) (t : TileH) (man : BitVec 4) (a : BitVec 8) (s : State) : Out := word h (bargeNeeds t a none) (bargeTile .cpo t man a none) s
def execCpbIn (h : Hdr) (t : TileH) (man : BitVec 4) (a b : BitVec 8) (s : State) : Out :=
  word h (bargeNeeds t a (some b)) (bargeTile .cpbIn t man a (some b)) s
def execCpbOut (h : Hdr) (t : TileH) (man : BitVec 4) (a b : BitVec 8) (s : State) : Out :=
  word h (bargeNeeds t a (some b)) (bargeTile .cpbOut t man a (some b)) s

/-- cpre: one request for each active lane (R209, R210, R214). -/
def bargeAhead (kind : BKind) (man : BitVec 4) (a : BitVec 8) (s : State) (k : Crew) (act : List Nat) : Eff :=
  let g := s.gridOf s.cur
  if g.mans.length ≤ man.toNat then manifestTrap man.toNat
  else if !s.bargeRoom k.core g.vd act.length then .wait .held
  else
    let m := g.mans.getD man.toNat {}
    match act.find? (fun l => m.coordBad (boxCoords s k l a)) with
    | some l => .trap tcMisaligned ((regRead (s.readAt k) 0 l (k.lane l) a.toNat).setWidth 64)
    | none =>
      match act.find? (fun l => s.regBad s.cur l [(a, m.rank)]) with
      | some l => .trap tcIntegrity (integrityInfo 0 0 l)
      | none => .ok ((act.foldl (fun (s' : State) l =>
        let cs := boxCoords s k l a
        s'.addBarge { id := 0, kind := kind, vd := g.vd, wg := k.wg, crew := s.cur, lane := l, core := k.core, man := m, coords := cs, keyid := g.keyid,
                      lines := if kind == .warm then pagesOf (m.lines cs) else [] }) s).bargeKick k.core g.vd)

def execCpreWarm (h : Hdr) (man : BitVec 4) (a : BitVec 8) (s : State) : Out :=
  word h { group := [(a, 5)], banks := [a], role := some 2 } (bargeAhead .warm man a) s
def execCpreMig (h : Hdr) (man : BitVec 4) (a : BitVec 8) (s : State) : Out :=
  word h { group := [(a, 5)], banks := [a], role := some 2 } (bargeAhead .mig man a) s

/-! ### The engine -/

/-- %trapinfo of R223. -/
def bargeInfo (va lane : Nat) : DWord := BitVec.ofNat 64 (va % 2 ^ 57 + 2 ^ 57 + lane * 2 ^ 60)

/-- A request meets a violation, a failed reply or an error in the line of an address (R223, R265, R311): no further line starts, and what was held or asked for is
dropped. Flags of the leader that wait behind a request that writes are discarded unsent (R264, R265). -/
def State.bargeFail (s : State) (rid : Nat) (code : BitVec 8) (va : Nat) : State :=
  match s.bargeReq rid with
  | none => s
  | some r =>
    let r' := { r with
      failed := some (r.failed.getD ⟨code, bargeInfo (va / 64 * 64) r.lane, 0⟩),
      lines := r.lines.map (fun l => if l.st == .started || l.st == .done then l else { l with st := .dropped }) }
    let mine (j : TJob) : Bool := match j.cont with
      | .barge q _ | .warm q _ => q == rid
      | .word _ | .far _ | .fill _ | .landing _ _ _ | .gather _ _ _ | .cp _ | .entry _ => false
    let gone (q : Req) : Bool := match q.item with
      | .beat i _ | .bargeBasin i _ => i == rid
      | _ => false
    let s := { s with jobs := s.jobs.filter (fun j => !mine j), reqs := s.reqs.filter (fun q => !gone q) }.setBarge r'
    let s := if r.kind.writes then s.dropFlags r.crew r.lane rid else s
    if r'.lines.any (fun l => l.st == .started) then s else s.post s.t (.bargeRequestEnd rid)

/-- The end of a request that failed (R223): a cpy's or cpb's entry drains, and the trap is deferred. With every lane exited the grid aborts with FAR_ACCESS,
whatever the answer was. -/
def execBargeRequestEnd (req : Nat) (s : State) : Out :=
  match s.bargeReq req with
  | none => .next s
  | some r =>
    match r.failed with
    | none => .next s
    | some tr =>
      if r.lines.any (fun l => l.st == .started) then .next s
      else
        let s := { s with bargeRs := s.bargeRs.filter (fun q => q.id != req) }
        let x := (s.wg r.wg).tile r.tile
        let fills := match r.kind with | .cpy | .cpbIn | .cpbOut => true | .cpo | .warm | .mig => false
        let s := if fills && x.st == .filling then s.setTile r.wg r.tile { x with st := .draining } else s
        let code := if !(s.crew r.crew).live && tr.code == tcPeerClosed then tcFarAccess else tr.code
        .next ((s.deferTrap r.crew code tr.info).bargeKick r.core r.vd)

/-- Near bytes written by an engine; their words hold good data again. -/
def State.engineWrite (s : State) (w o : Nat) (bs : List Byte) : State :=
  let x := s.wg w
  let s := if s.badSram.isEmpty then s else { s with badSram := s.badSram.filter (fun e => !ErrSite.inNear x.core (x.near + o) bs.length e) }
  s.nearPut w o bs

/-- The 64 bytes and the mask of a line that a request writes. -/
def BReq.lineOut (r : BReq) (line : Nat) (byte : Nat → Byte) : List Byte × Nat :=
  let ps := r.places line
  ((List.range 64).map (fun i => match ps.find? (fun p => p.2 == i) with | some p => byte p.1 | none => 0),
   ps.foldl (fun m p => m ||| 2 ^ p.2) 0)

/-- BARGE_BEAT (R213): one global line read, or written with its byte mask. -/
def execBargeBeat (req line : Nat) (s : State) : Out :=
  match s.bargeReq req with
  | none => .next s
  | some r =>
    let l := r.lines.getD line { va := 0 }
    match l.leaf with
    | none => .next s
    | some leaf =>
      let x := (s.wg r.wg).tile r.tile
      let src (p : Nat) : Byte := if r.kind == .cpo then (cellAt r.torn p).getD ((s.racedFor r.wg r.tile (fun _ => false) (x.base + p) [s.nearByte r.wg (x.base + p)]).headD 0) else (cellAt r.buf p).getD 0
      let bad := r.kind == .cpo && !s.badSram.isEmpty &&
        (r.places (l.va / 64)).any (fun p => s.badSram.any (ErrSite.inNear r.core ((s.wg r.wg).near + x.base + p.1) 1))
      if bad then .next ((s.setBarge (r.setLine line .dropped)).bargeFail req tcIntegrity 0)
      else
        let out := if r.kind.writes then r.lineOut (l.va / 64) src else ([], 0)
        let f : Far := { id := s.nextId, vd := r.vd, core := r.core, src := .barge req line, op := if r.kind.writes then .write else .read,
                         keyid := r.keyid, va := l.va / 64 * 64, leaf := some leaf, mask := out.2, bytes := out.1 }
        .next (({ s.bump with fars := s.fars ++ [f] }).enterQueue f.id false)

/-- Chunks that have become complete: their bits are due (R200). -/
def State.bargeCheck (s : State) (rid : Nat) : State :=
  match s.bargeReq rid with
  | none => s
  | some r =>
    let s := (r.chunks.filter r.chunkReady).foldl (fun s k => s.post s.t (.chunkDone rid k)) s
    let s := if r.failed.isSome && r.lines.all (fun l => l.st != .started) then s.post s.t (.bargeRequestEnd rid) else s
    s.bargeKick r.core r.vd

/-- A line of a request has come back: its data, and its clock where the home lies in the reach (R213, R295). -/
def State.bargeLine (s : State) (rid line : Nat) (data : List Byte) (c : Option Clock) : State :=
  match s.bargeReq rid with
  | none => s
  | some r =>
    let ps : List (Nat × Nat) := r.places ((r.lines.getD line { va := 0 }).va / 64)
    let r' := r.setLine line .done
    let x := (s.wg r.wg).tile r.tile
    let s := (match c with
      | some c => if r.kind.reads then
          s.setTile r.wg r.tile { x with clocks := x.clocks ++ ((ps.map (fun (p : Nat × Nat) => p.1 / 512)).eraseDups.map (·, c)) } else s
      | none => s)
    let s := (match r.kind with
      | .cpy => ps.foldl (fun (s : State) (p : Nat × Nat) => s.engineWrite r.wg (x.base + p.1) [(cellAt r.torn p.1).getD (data.getD p.2 0)]) (s.setBarge r')
      | .cpbIn => s.setBarge { r' with buf := ps.foldl (fun (b : Cells) (p : Nat × Nat) => cellPut b p.1 (data.getD p.2 0)) r'.buf }
      | .cpo | .cpbOut | .warm | .mig => s.setBarge r')
    s.bargeCheck rid

/-- CHUNK_DONE (R200, R215): the fill of the chunk is written, its bit is set, and the entry is READY when all are. -/
def execChunkDone (req chunk : Nat) (s : State) : Out :=
  match s.bargeReq req with
  | none => .next s
  | some r =>
    if !r.chunks.contains chunk || !r.chunkReady chunk then .next s
    else
      let x := (s.wg r.wg).tile r.tile
      let s := if r.kind == .cpy then
          (List.range 512).foldl (fun s i =>
            let p := chunk * 512 + i
            if p < r.man.packed ∧ (r.man.byteAddr r.coords p).isNone then s.engineWrite r.wg (x.base + p) [(cellAt r.torn p).getD (r.man.fillByte p)] else s) s
        else s
      let s := s.setTile r.wg r.tile (((s.wg r.wg).tile r.tile).chunkDone chunk)
      let s := s.setBarge { r with chunks := r.chunks.filter (· != chunk) }
      .next (s.bargeKick r.core r.vd)

/-- A Basin line of a cpb accepted at the port (R213): written for .in, read for .out. -/
def State.bargeBasinPerform (s : State) (rid j : Nat) : State :=
  match s.bargeReq rid with
  | none => s
  | some r =>
    let a := r.baddr + 64 * j
    let n := min 64 (r.man.packed - 64 * j)
    let r := { r with basinQ := r.basinQ.filter (· != j), basinGot := r.basinGot ++ [j] }
    if r.kind == .cpbIn then
      let bytes := Cells.overlay r.torn (64 * j) ((List.range n).map (fun i => (cellAt r.buf (64 * j + i)).getD (r.man.fillByte (64 * j + i))))
      ((s.setBarge r).basinWrite r.vd r.core a bytes).bargeCheck rid
    else if s.basinBad r.vd r.core a n then (s.setBarge r).bargeFail rid tcIntegrity 0
    else (s.setBarge { r with buf := Cells.write r.buf (64 * j) (Cells.overlay r.torn (64 * j) (s.basinRead r.vd r.core a n)) }).bargeCheck rid

/-- The pages of a request resolved (R218, R220, R223): `job` is the lookup that `line` asked for. -/
def State.bargePage (s : State) (rid line : Nat) (res : TRes) : State :=
  match s.bargeReq rid with
  | none => s
  | some r =>
    let va := (r.lines.getD line { va := 0 }).va
    let was : BLineSt := if (r.lines.getD line { va := 0 }).st == .held then .held else .trans
    match res with
    | .leaf l => (s.setBarge (r.setPage (va / 4096) was .ready (some l))).bargeKick r.core r.vd
    | .absent _ => (s.setBarge (r.setPage (va / 4096) was .held none)).bargeKick r.core r.vd
    | .violation => s.bargeFail rid tcFarAccess va
    | .hurt _ => s.bargeFail rid tcIntegrity va

/-- A page of a cpre.warm resolved: it is in the TLBs, or dropped (Table 12.6). -/
def State.warmPage (s : State) (rid line : Nat) (res : TRes) : State :=
  match s.bargeReq rid with
  | none => s
  | some r =>
    let va := (r.lines.getD line { va := 0 }).va
    match res with
    | .leaf _ => (s.setBarge (r.setLine line .done)).bargeKick r.core r.vd
    | .absent _ => (s.setBarge (r.setLine line .dropped)).bargeKick r.core r.vd
    | .violation => s.bargeFail rid tcFarAccess va
    | .hurt _ => s.bargeFail rid tcIntegrity va

end Sys2Proof.Machine
end

