-- ==== Sys2Proof/Machine/Entries.lean ====
section
/-! DEFINITION. Contexts (R44, R45, R56) and what moves them from entry to entry: the fetch of an entry, the acceptances that a command pays for (R49), the waits,
and what follows when a write of the command processor is performed (R49, R52, R331). -/
namespace Sys2Proof.Machine
open Sys2Proof

/-! ### Contexts -/

def State.ctx (s : State) (c : CtxRef) : Ctx := (s.vd c.vd).ctx c.ctx
def State.setCtx (s : State) (c : CtxRef) (x : Ctx) : State := s.setVd c.vd ((s.vd c.vd).setCtx c.ctx x)

def CtxSt.code : CtxSt → Nat | .absent => 0 | .idle => 1 | .running => 2 | .waiting => 3 | .faulted => 4

/-- The context block as the VD's function registers show it (Table 3.6), its first four words. -/
def Ctx.block (x : Ctx) : List DWord :=
  [0, BitVec.ofNat 64 (x.eptr % 2 ^ 57 / 32 * 32),
   BitVec.ofNat 64 (x.cgen * 2 ^ 32 + x.fcode * 2 ^ 16 + x.stack.length * 2 ^ 8 + CtxSt.code x.st),
   BitVec.ofNat 64 (x.rcpt % 2 ^ 32 * 2 ^ 32 + x.launch % 2 ^ 32)]

/-- Is the context at an entry? -/
def Ctx.active (x : Ctx) : Bool := x.st == .running || x.st == .waiting

/-- The context of a command row. -/
def entryCtx : Instr → Option CtxRef
  | .endE c => some c | .launch c _ => some c | .skipif c _ => some c | .jump c _ => some c | .callEntry c _ => some c | .retEntry c => some c
  | .signal c _ => some c | .waitv c _ => some c | .waitvReread c _ => some c | .measure c _ => some c | .receipt c _ => some c
  | _ => none

/-- A context with nothing of an entry left over. -/
def Ctx.fresh (x : Ctx) : Ctx := { x with held := none, made := none, stage := 0, pay := none }

/-- The entry at the entry pointer is asked for, its first word first (R46). -/
def State.fetchEntry (s : State) (c : CtxRef) : State :=
  (s.setCtx c { (s.ctx c).fresh with st := .running, words := [] }).enqueue .cp (s.worldNum c.vd) (.cpWord c.ctx)

/-- On to another entry. -/
def State.goTo (s : State) (c : CtxRef) (eptr : Nat) : State := (s.setCtx c { s.ctx c with eptr := eptr }).fetchEntry c
def State.nextEntry (s : State) (c : CtxRef) : State := s.goTo c ((s.ctx c).eptr + 32)

/-- The entry waits for its condition. -/
def State.holdEntry (s : State) (c : CtxRef) (i : Instr) : State := s.setCtx c { s.ctx c with st := .waiting, held := some i }

/-- A context stops at its entry with a fault code (R50, Table 3.7). -/
def State.ctxFault (s : State) (v c code : Nat) : State := s.setCtx ⟨v, c⟩ { (s.ctx ⟨v, c⟩).fresh with st := .faulted, fcode := code }

/-! ### What a command pays for (R49, R54, Table 4.3) -/

/-- Acceptances asked for in turn: words of 8 bytes, then hash blocks; the row follows the last (log 15). -/
def State.askWork (s : State) (v c words blocks : Nat) (next : Instr) : State := s.enqueue .cp (s.worldNum v) (.work c words blocks next)

/-- The entry's accesses asked for. -/
def State.payFor (s : State) (c : CtxRef) (words blocks : Nat) (next : Instr) : State :=
  (s.setCtx c { s.ctx c with pay := some none }).askWork c.vd c.ctx words blocks next

/-- Has the entry what it asked for? -/
def Ctx.paid (x : Ctx) (t : Nat) : Bool := match x.pay with | some (some u) => decide (u ≤ t) | _ => false

/-- What an entry does once its accesses are paid for; asked for the first time, they are asked for. -/
def State.whenPaid (s : State) (c : CtxRef) (words blocks : Nat) (next : Instr) (f : State → State) : State :=
  let x := s.ctx c
  if x.pay.isNone then s.payFor c words blocks next
  else if x.paid s.t then f (s.setCtx c { x with pay := none })
  else s

/-- The last acceptance of a row: it follows at clock u. -/
def State.endWork (s : State) (u : Nat) (next : Instr) : State :=
  match entryCtx next with
  | some c => (s.setCtx c { s.ctx c with pay := some (some u) }).post u next
  | none => s.post u next

/-- One acceptance: a word takes 8 clk to serve, a hash block three clocks of the command processor (R54). -/
def State.acceptWork (s : State) (v c words blocks : Nat) (next : Instr) : State :=
  if 0 < words then
    if words = 1 ∧ blocks = 0 then s.endWork (s.t + 8) next else s.askWork v c (words - 1) blocks next
  else
    let s := { s with cpFree := s.t + 3 }
    if blocks ≤ 1 then s.endWork (s.t + 3) next else s.askWork v c 0 (blocks - 1) next

/-! ### What waits for a write of the command processor -/

/-- Contexts of a VD that wait at a WAITV look again (R49), unless a read is on its way: one that was paid for while the world did not run is made now. -/
def State.wakeWaits (s : State) (v : Nat) : State :=
  (List.range 16).foldl (fun (s : State) i =>
    let x := s.ctx ⟨v, i⟩
    match x.held with
    | some (.waitvReread c e) =>
      if x.pay.isNone || (x.paid s.t && s.agenda.all (fun a => a.2 != .waitvReread c e)) then s.post s.t (.waitvReread c e) else s
    | _ => s) s

/-- A completion bit counts (R52). -/
def State.noteBit (s : State) (w : Nat) : State :=
  let gi := (s.wg w).grid
  let g := s.grid gi
  if g.bits.contains (s.wg w).num then s
  else s.setGrid gi { g with bits := g.bits ++ [(s.wg w).num], wgset := min (g.wgset + 1) 0xFFFFFFFF }

/-- A grid retires with its status record written; entries that waited for it go on (R51, R331). -/
def State.gridOver (s : State) (gi : Nat) : State :=
  let g := s.grid gi
  let c : CtxRef := ⟨g.vd, g.ctx⟩
  let s := s.setGrid gi { g with st := .retired, queues := [] }
  let x := s.ctx c
  let s := if x.cgen == g.cgen && x.launch == g.launch then s.setCtx c { x with stat := (g.aborted.getD { stat := 0 }).stat } else s
  if x.measFor == some gi then
    let s := s.setCtx c { s.ctx c with measFor := none }
    if x.st == .running then s.fetchEntry c else s
  else s

/-- Is a write of a context still on its way to another package? -/
def State.putPending (s : State) (v c : Nat) (p : CpPut) : Bool := s.fars.any (fun f => f.vd == v && f.src == .cp c p)

/-- What a performed write of the command processor brings about: a SIGNAL's interrupt on the context's vector, which the model takes to be vector ctx + 1
beside the fault queue's vector 0 (log 23), and its re-reads; a completion bit; a grid's end. -/
def State.putDone (s : State) (v c : Nat) : CpPut → State
  | .signal irq => let s := s.wakeWaits v; if irq then s.emit (.msix v (c + 1)) else s
  | .bit w => s.noteBit w
  | .record g => s.gridOver g
  | .zero | .receipt | .gone => s

/-- The same for a write that was refused: the context faults at the entry that it has reached (R50, log 23); a completion bit that cannot be written is never
set, and a grid whose record cannot be written retires without it. -/
def State.putLost (s : State) (v c : Nat) : CpPut → State
  | .signal _ | .zero | .receipt => s.ctxFault v c 5
  | .bit w => (s.ctxFault v c 5).setWg w { s.wg w with cut := true }
  | .record g => (s.ctxFault v c 5).gridOver g
  | .gone => s

end Sys2Proof.Machine
end

