-- ==== Sys2Proof/Machine/Order.lean ====
section
/-! DEFINITION. What a lane's earlier accesses must have come to before a fence, an arrival or a flag goes on (R263, R264, R297). -/
namespace Sys2Proof.Machine
open Sys2Proof

/-- Every Basin request that the lane issued is performed (Table 17.2). -/
def State.basinDone (s : State) (c l : Nat) : Bool :=
  s.basinOps.all (fun o => !(o.crew == c && o.lanes.any (fun x => x.1 == l && o.todo.contains (x.2.1 / 64))))

/-- Every matrix operation of an MTX crew has completed (Table 17.2). -/
def State.matrixDone (s : State) (c : Nat) : Bool := (s.crew c).role != 1 || (s.crewOps c).isEmpty

/-- Is the request a lane's write, or its flag? -/
def FarSrc.writeOf (c l : Nat) : FarSrc → Bool
  | .store c' ls => c' == c && ls.contains l
  | .atomic c' l' _ => c' == c && l' == l
  | .flag c' l' => c' == c && l' == l
  | .loads _ _ | .barge _ _ | .fill _ | .landing _ _ | .gather _ _ _ | .cp _ _ | .peer _ => false

/-- A global write of a Barge request whose leader the lane is. -/
def State.bargeWriteOf (s : State) (c l : Nat) (f : Far) : Bool :=
  match f.src with
  | .barge r _ => f.op == .write && s.bargeRs.any (fun b => b.id == r && b.crew == c && b.lane == l)
  | _ => false

/-- Has the request been performed at its home (R260), or answered otherwise? One that its home has acknowledged stands in no list any more. -/
def Far.isPerformed (f : Far) : Bool := f.st == .performed

/-- R263: loads and atomics returned, no side-log entry, every write with its WSEQ. -/
def State.farSent (s : State) (c l : Nat) : Bool :=
  s.fars.all (fun f => !f.src.loadOf c l && !(f.src.writeOf c l && (f.st == .sideLog || f.wseq.isNone)))

/-- R263 for scope 5: every write performed at its home, and every Barge write that the lane led. -/
def State.farDone (s : State) (c l : Nat) : Bool :=
  s.farSent c l && s.fars.all (fun f => !(f.src.writeOf c l || s.bargeWriteOf c l f) || f.isPerformed)
    && s.bargeRs.all (fun b => !(b.crew == c && b.lane == l && (b.kind == .cpo || b.kind == .cpbOut)))

/-- Every broadcast of the lane is applied on its own package (Table 17.2). -/
def State.kiteDone (s : State) (c l : Nat) : Bool := (s.vd (s.vdOf c)).kq.all (fun q => !(q.crew == c && q.lane == l))

/-- The conditions of Table 17.2 that a far or Kiteline access can leave unmet. -/
def State.fenceFar (s : State) (sc : Scope) (c l : Nat) : Bool :=
  match sc with
  | .crew | .wg | .core => true
  | .pkg | .reach => s.farSent c l && s.kiteDone c l
  | .dom => s.farDone c l && s.kiteDone c l

/-- What a lane must wait as before a fence of the scope, or nothing (R297). -/
def State.fenceWait (s : State) (sc : Scope) (c l : Nat) : Option LaneSt :=
  if !s.fenceFar sc c l then some .parked
  else if s.basinDone c l && s.matrixDone c then none
  else some .held

/-- fencef's conditions (R263). -/
def State.fencefDone (s : State) (sc : Scope) (c l : Nat) : Bool :=
  match sc with
  | .crew | .wg | .core | .pkg | .reach => s.farSent c l
  | .dom => s.farDone c l

end Sys2Proof.Machine
end

