-- ==== Sys2Proof/Machine/FarWords.lean ====
section
/-! DEFINITION. The far words (R258-R264): checks, page lookups, the side log (R224), flags (R264) and fencef (R263). -/
namespace Sys2Proof.Machine
open Sys2Proof

/-- %trapinfo of R259: address, source, lane. -/
def farInfo (addr src lane : Nat) : DWord := BitVec.ofNat 64 (addr % 2 ^ 57 + src * 2 ^ 57 + lane * 2 ^ 60)

/-- One request of a far word: the lanes that it serves with the byte each names, the line's mask, data and compare value. -/
structure FarAsk where
  lanes : List (Nat × Nat)
  mask  : Nat := 0
  bytes : List Byte := []
  cmp   : DWord := 0

/-- The first byte that a request names, and its page. -/
def FarAsk.va (q : FarAsk) : Nat := (q.lanes.head?.map (·.2)).getD 0
def FarAsk.page (q : FarAsk) : Nat := q.va / 4096

/-- Bytes laid into a line at an offset, as (line, mask) over what is there. -/
def layBytes (line : List Byte) (mask off : Nat) (bs : List Byte) (m : Nat) : List Byte × Nat :=
  ((List.range 64).map (fun i => if off ≤ i ∧ i < off + bs.length ∧ m.testBit (i - off) then bs.getD (i - off) 0 else line.getD i 0),
   mask ||| (m % 2 ^ bs.length * 2 ^ off))

/-- One request for each distinct line, by the lowest lane that names it (R259); the highest lane's byte stands (R261). -/
def asksByLine (act : List Nat) (addr : Nat → Nat) (data : Nat → List Byte × Nat) : List FarAsk :=
  (linesOf act addr).map (fun line =>
    let here := act.filter (fun l => addr l / 64 == line)
    let b := here.foldl (fun (b : List Byte × Nat) l => layBytes b.1 b.2 (addr l % 64) (data l).1 (data l).2) (List.replicate 64 0, 0)
    { lanes := here.map (fun l => (l, addr l)), mask := b.2, bytes := b.1 })

/-- One request for each lane (R259). -/
def asksByLane (act : List Nat) (addr : Nat → Nat) (data : Nat → List Byte) (cmp : Nat → DWord) : List FarAsk :=
  act.map (fun l =>
    let b := layBytes (List.replicate 64 0) 0 (addr l % 64) (data l) (2 ^ (data l).length - 1)
    { lanes := [(l, addr l)], mask := b.2, bytes := b.1, cmp := cmp l })

/-- What a far word asks for. -/
structure FarOp where
  op  : PType
  aop : Aop := .add
  aty : Aty := .i32
  wd  : Width := .b32
  sw  : Bool := false
  acc : Nat := 0
  src : Nat := 0

/-- The lookup of a page for a crew's far word. -/
def State.wordJob (s : State) (c page acc : Nat) : Option TJob :=
  s.jobs.find? (fun j => j.cont == .word c && j.va / 4096 == page && j.acc == acc)

/-- Has the lookup come to its end? -/
def TJob.isOver (j : TJob) : Bool :=
  match j.stage with
  | .spent | .held _ | .wantRecord => true
  | .core | .l2 | .walk _ _ => false

/-- Where a leaf's requests go: a package, or the host link. -/
def Leaf.home (l : Leaf) : Nat := if l.host then 1024 else l.pkg

/-- The side-log entries of a world on a core, and those of one lane. -/
def State.sideLog (s : State) (v core : Nat) : List Far := s.fars.filter (fun f => f.st == .sideLog && f.vd == v && f.core == core)
def State.laneSideLog (s : State) (c l : Nat) : List Far := s.fars.filter (fun f => f.st == .sideLog && f.src.writeOf c l)

/-- Does a lane's side log hold an entry for the home, or for one not yet known (R224)? -/
def State.behindLog (s : State) (c l : Nat) (home : Option Nat) : Bool :=
  (s.laneSideLog c l).any (fun f => match f.leaf, home with
    | some a, some h => Leaf.home a == h
    | _, _ => true)

/-- Do n bytes from an address overlap a request's masked bytes? -/
def Far.overlaps (f : Far) (a n : Nat) : Bool :=
  f.va / 64 == a / 64 && (List.range n).any (fun i => f.mask.testBit (a % 64 + i))

/-- A lane whose later access must wait for a queued flag that it overlaps (R264). -/
def State.behindFlag (s : State) (c l a n : Nat) : Bool :=
  s.fars.any (fun f => (match f.src with | .flag c' l' => c' == c && l' == l | _ => false) && !f.isPerformed && f.overlaps a n)

/-- What a looked-up page came to for a crew's word. -/
def State.pageResult (s : State) (c : Nat) (o : FarOp) (page : Nat) : Option TRes :=
  match s.wordJob c page o.acc with
  | some j => if j.isOver then some (TJob.result s j) else none
  | none => none

/-- The trap that a lane's page gives it: FAR_ACCESS at a violation, INTEGRITY where the walk met a line that cannot be read (log 19). -/
def State.pageTrap (s : State) (c : Nat) (o : FarOp) (va l : Nat) : Option (BitVec 8 × DWord) :=
  match s.pageResult c o (va / 4096) with
  | some .violation => some (tcFarAccess, farInfo va 0 l)
  | some (.hurt _) => some (tcIntegrity, integrityInfo (va / 64 * 64) 2 l)
  | some (.leaf _) | some (.absent _) | none => none

/-- Must the lane wait, PARKED, before the request (R224, R264)? `load` is for those that return a value. -/
def State.farMustWait (s : State) (c l a n : Nat) (load : Bool) (home : Option Nat) : Bool :=
  s.behindFlag c l a n ||
  (load && ((s.sideLog (s.vdOf c) (s.crew c).core).any (fun f => f.overlaps a n) || s.behindLog c l home))

/-- Reply reservations in use on a core for a world (R259). -/
def State.reserved (s : State) (v core : Nat) : Nat :=
  (s.fars.filter (fun f => f.vd == v && f.core == core && (match f.src with | .loads _ _ | .atomic _ _ _ | .store _ _ | .flag _ _ => true | _ => false))).length

/-- The structure that a translated request enters, and the world whose queue it joins there: a home's is its frame's, a fibre's the world's own, and n packets
to the same package go before it. What is answered at once enters none. -/
def State.farTarget (s : State) (v key : Nat) (op : PType) (l : Leaf) (va n : Nat) : Option (Struct × Nat) :=
  if l.host then none
  else if l.pkg == s.pkg then
    let c := s.homeCheck (l.addr va) key (l.readKey key) op
    if c.1 == .ok then some (.hbm (channelOf (l.addr va)), s.worldNum c.2) else none
  else if s.isClosed v l.pkg then none
  else (s.route l.pkg (((s.stream (s.vd v).tenant l.pkg).ahead n).getLsbD 0)).map (fun r => (.fibre r.1, s.worldNum v))

/-- Where a word's requests go, in their order. -/
def State.farTargets (s : State) (v key : Nat) (op : PType) (rs : List (Leaf × Nat)) : List (Struct × Nat) :=
  rs.zipIdx.filterMap (fun r => s.farTarget v key op r.1.1 r.1.2 ((rs.take r.2).filter (fun q => !q.1.host && q.1.pkg == r.1.1.pkg)).length)

/-- Is there room in every queue for all of a word's requests (R65)? -/
def State.farRoom (s : State) (ts : List (Struct × Nat)) : Bool :=
  ts.all (fun t => s.hasRoom t.1 t.2 (ts.filter (· == t)).length)

/-- A request that asks for nothing: a line whose masks are all clear (R261). -/
def FarAsk.idle (q : FarAsk) (o : FarOp) : Bool := o.op == .write && q.mask == 0

/-- The far record of a request, and its translation held on a page that is absent (R220). -/
def State.addFar (s : State) (f : Far) : State := { s.bump with fars := s.fars ++ [f] }

/-- A request held on the page of a word's lookup. -/
def State.holdFar (s : State) (f : Far) (j : TJob) (va : Nat) : State :=
  let s := s.addFar f
  { s.bump with jobs := s.jobs ++ [{ j with id := s.nextId, va := va, cont := .far f.id }] }

/-- One request of a far word issued: on its way, held on its page, or in the side log (R220, R224, R264). -/
def State.issueAsk (s : State) (o : FarOp) (mkSrc : FarAsk → FarSrc) (q : FarAsk) : State :=
  let c := s.cur
  let v := s.vdOf c
  let g := s.gridOf c
  let f : Far := { id := s.nextId, vd := v, core := (s.crew c).core, src := mkSrc q, op := o.op, aop := o.aop, aty := o.aty, wd := o.wd, sw := o.sw,
                   keyid := g.keyid, va := q.va, mask := q.mask, bytes := q.bytes, cmp := q.cmp, clock := Clock.zero }
  let isFlag := o.op == .flag
  let isStore := o.op == .write || o.op == .red
  let f := { f with clock := s.farClock f }
  match s.pageResult c o q.page, s.wordJob c q.page o.acc with
  | some (.leaf l), _ =>
    let f := { f with leaf := some l }
    if isFlag then s.addFar { f with st := .flagQ }
    else if isStore && q.lanes.any (fun x => s.behindLog c x.1 (some (Leaf.home l))) then s.addFar { f with st := .sideLog }
    else (s.addFar f).enterQueue f.id false
  | _, some j =>
    if isFlag then s.holdFar { f with st := .flagQ } j q.va
    else if isStore then s.holdFar { f with st := .sideLog } j q.va
    else s.holdFar f j q.va
  | _, none => s

/-- The flags of this word join their lanes' queues (R264). -/
def State.queueFlags (s : State) : State :=
  s.fars.foldl (fun s f => match f.src with
    | .flag c l =>
      let x := (s.crew c).lane l
      if f.st == .flagQ && !x.flags.contains f.id then s.setCrew c ((s.crew c).setLane l { x with flags := x.flags ++ [f.id] }) else s
    | _ => s) s

/-- A far word: checks, lookups, waits, then its requests in lane order (R259). -/
def farWord (h : Hdr) (n : Needs) (o : FarOp) (a : BitVec 8) (ofs : Int) (asks : State → Crew → List Nat → (Nat → Nat) → List FarAsk)
    (mkSrc : FarAsk → FarSrc) (opened : State → Crew → List Nat → State) (flagLanes : Bool) : State → Out :=
  word h n (fun s k act =>
    let c := s.cur
    let v := s.vdOf c
    let w := Width.bytes o.wd
    let load := o.op == .read || o.op == .atom || o.op == .cas
    let addr (l : Nat) : Nat := (BitVec.ofInt 64 (((rd64 s k 0 l a).toNat : Int) + ofs)).toNat
    match act.find? (fun l => addr l % w != 0) with
    | some l => .trap tcMisaligned (farInfo (addr l) 0 l)
    | none =>
    match act.find? (fun l => decide (2 ^ 57 ≤ addr l)) with
    | some l => .trap tcFarAccess (farInfo (addr l) 0 l)
    | none =>
    let qs := (asks s k act addr)
    let busy := qs.filter (fun q => !q.idle o)
    let pages := (busy.map (fun q => (q.page, q.va))).foldl (fun (m : List (Nat × Nat)) p => if m.any (fun x => x.1 == p.1) then m else m ++ [p]) []
    let want := pages.filter (fun p => (s.wordJob c p.1 o.acc).isNone)
    let hold (s : State) (st : LaneSt) : Eff := .ok (s.unissue k (lanesOf s.curPath) (fun _ => st))
    if !want.isEmpty then
      if s.hasRoom (.ctlb k.core) (s.worldNum v) want.length then
        hold (want.foldl (fun s p => s.askPage { id := 0, vd := v, core := k.core, va := p.2, acc := o.acc, src := o.src, keyid := (s.gridOf c).keyid,
                                                 cont := .word c }) s) .held
      else hold s .held
    else if pages.any (fun p => (s.pageResult c o p.1).isNone) then hold s .held
    else if 256 < s.reserved v k.core + busy.length then hold s .held
    else
    match (busy.flatMap (fun q => q.lanes)).filter (fun x => (s.pageTrap c o x.2 x.1).isSome) with
    | x :: xs =>
      let l := xs.foldl (fun m y => min m y.1) x.1
      let t := (s.pageTrap c o (addr l) l).getD (tcFarAccess, 0)
      .trap t.1 t.2
    | [] =>
    let homeOf (l : Nat) : Option Nat := match s.pageResult c o (addr l / 4096) with | some (.leaf x) => some (Leaf.home x) | _ => none
    let stay := act.filter (fun l => s.farMustWait c l (addr l) w load (homeOf l))
    let logged (q : FarAsk) : Bool := (o.op == .write || o.op == .red) &&
      ((s.pageResult c o q.page).isNone || (match s.pageResult c o q.page with | some (.leaf x) => q.lanes.any (fun y => s.behindLog c y.1 (some (Leaf.home x))) | _ => true))
    let space := 64 - (s.sideLog v k.core).length
    let beyond := ((busy.filter logged).drop space).flatMap (fun q => q.lanes.map (·.1))
    let park := act.filter (fun l => stay.contains l || beyond.contains l)
    let go := act.filter (fun l => !park.contains l)
    if go.isEmpty then hold s .parked
    else if flagLanes && go.any (fun l => decide (4 ≤ ((k.lane l).flags).length)) then hold s .held
    else
    let qs := if park.isEmpty then qs else asks s k go addr
    let rs := qs.filterMap (fun q => if q.idle o then none else match s.pageResult c o q.page with
      | some (.leaf x) => if o.op == .flag || logged q then none else some (x, q.va)
      | _ => none)
    if !s.farRoom (s.farTargets v (s.gridOf c).keyid o.op rs) then hold s .held
    else
    let s := opened s k go
    let s := qs.foldl (fun s q => if q.idle o then s else s.issueAsk o mkSrc q) s
    let s := s.dropWordJobs c
    let s := if flagLanes then s.queueFlags else s
    .ok (if park.isEmpty then s else s.unissue k park (fun _ => .parked)))

/-- The windows that a returning far word opens: entry number, then its requests are made under it. -/
def openFar (la : BitVec 4) (kind : PendKind) (d : BitVec 8) (n : Nat) (s : State) (_ : Crew) (go : List Nat) : State :=
  s.updCur (fun k => k.onLanes go (fun _ x => openWindow x { id := s.nextId, kind := kind, win := la.toNat, base := d.toNat, regs := (List.range n).map (d.toNat + ·) }))

/-- ldf (R261). The entry of every lane is the number under which the word's first request is made. -/
def execLdf (h : Hdr) (la : BitVec 4) (wd : Width) (d a : BitVec 8) (ofs : BitVec 10) (s : State) : Out :=
  let id := s.nextId
  farWord h { dst := [(d, Width.count wd)], src := [(a, 2)] } { op := .read, wd := wd } a ofs.toInt
    (fun _ _ act addr => asksByLine act addr (fun _ => ([], 0))) (fun q => .loads s.cur (q.lanes.map (fun x => (x.1, id, x.2 % 64))))
    (openFar la .ldf d (Width.count wd)) false s

/-- stf (R261): with MK, bit i of the mask register chooses byte i. -/
def execStf (h : Hdr) (wd : Width) (a b : BitVec 8) (mask : Option (BitVec 8)) (ofs : BitVec 10) (s : State) : Out :=
  farWord h { src := [(a, 2), (b, Width.count wd)] ++ (mask.map (·, 1)).toList } { op := .write, wd := wd, acc := 1, src := 1 } a ofs.toInt
    (fun s k act addr => asksByLine act addr (fun l =>
      (rdBytes s k 1 l b (Width.bytes wd), match mask with | some c => (rd s k 2 l c).toNat % 2 ^ Width.bytes wd | none => 2 ^ Width.bytes wd - 1)))
    (fun q => .store s.cur (q.lanes.map (·.1))) (fun s _ _ => s) false s

/-- atomf (R261). -/
def execAtomf (h : Hdr) (la : BitVec 4) (op : Aop) (ty : Aty) (d a b : BitVec 8) (ofs : BitVec 10) (s : State) : Out :=
  let id := s.nextId
  farWord h { dst := [(d, 1)], src := [(a, 2), (b, 1)] } { op := .atom, aop := op, aty := ty, acc := 2, src := 2 } a ofs.toInt
    (fun s k act addr => asksByLane act addr (fun l => rdBytes s k 1 l b 4) (fun _ => 0))
    (fun q => .atomic s.cur ((q.lanes.head?.map (·.1)).getD 0) id) (openFar la .atomf d 1) false s

/-- casf (R261). -/
def execCasf (h : Hdr) (la : BitVec 4) (wd : Width2) (d a b c : BitVec 8) (ofs : BitVec 10) (s : State) : Out :=
  let id := s.nextId
  let n := Width2.count wd
  farWord h { dst := [(d, n)], src := [(a, 2), (b, n), (c, n)] } { op := .cas, wd := Width2.wide wd, acc := 2, src := 2 } a ofs.toInt
    (fun s k act addr => asksByLane act addr (fun l => rdBytes s k 2 l c (Width2.bytes wd))
      (fun l => BitVec.ofNat 64 (ofBytes (rdBytes s k 1 l b (Width2.bytes wd)))))
    (fun q => .atomic s.cur ((q.lanes.head?.map (·.1)).getD 0) id) (openFar la .atomf d n) false s

/-- redf (R261, R262). -/
def execRedf (h : Hdr) (op : Aop) (ty : Aty) (sw : Bool) (a b : BitVec 8) (ofs : BitVec 9) (s : State) : Out :=
  farWord h { src := [(a, 2), (b, 1)] } { op := .red, aop := op, aty := ty, sw := sw, acc := 2, src := 1 } a ofs.toInt
    (fun s k act addr => asksByLane act addr (fun l => rdBytes s k 1 l b 4) (fun _ => 0))
    (fun q => .store s.cur (q.lanes.map (·.1))) (fun s _ _ => s) false s

/-- fflag (R264). -/
def execFflag (h : Hdr) (wd : Width2) (a b : BitVec 8) (ofs : BitVec 10) (s : State) : Out :=
  farWord h { src := [(a, 2), (b, Width2.count wd)] } { op := .flag, wd := Width2.wide wd, acc := 1, src := 1 } a ofs.toInt
    (fun s k act addr => asksByLane act addr (fun l => rdBytes s k 1 l b (Width2.bytes wd)) (fun _ => 0))
    (fun q => .flag s.cur ((q.lanes.head?.map (·.1)).getD 0)) (fun s _ _ => s) true s

/-- fencef (R263): each active lane is PARKED until its conditions hold. -/
def execFencef (h : Hdr) (sc : Scope) (s : State) : Out :=
  word h {} (fun s k act => .ok (s.unissue k (act.filter (fun l => !s.fencefDone sc s.cur l)) (fun _ => .parked))) s

/-! ### What goes on later -/

/-- The flag at the head of a lane's queue whose turn has come: its page is mapped, and everything earlier of the lane is performed (R264). -/
def State.flagReady (s : State) (c l : Nat) : Option Far :=
  match ((s.crew c).lane l).flags.head? with
  | none => none
  | some id =>
    match s.farReq id with
    | none => none
    | some f =>
      if f.st == .flagQ && f.leaf.isSome
        && s.fars.all (fun g => !(decide (g.id < f.id) && (g.src.writeOf c l || s.bargeWriteOf c l g)) || g.isPerformed)
        && s.bargeRs.all (fun b => !(b.crew == c && b.lane == l && decide (b.id < f.id) && (b.kind == .cpo || b.kind == .cpbOut)))
      then some f else none

/-- FLAG_SEND (R264). -/
def execFlagSend (crew lane : Nat) (s : State) : Out :=
  match s.flagReady crew lane with
  | none => .next s
  | some f => .next (s.enterQueue f.id false)

/-- A side-log entry that may go: its page is mapped, and no earlier entry of its page, or of its lanes for its home, stands before it (R224). -/
def State.logReady (s : State) (f : Far) : Bool :=
  f.st == .sideLog &&
  (match f.leaf with
   | none => false
   | some l => (s.sideLog f.vd f.core).all (fun g => !(decide (g.id < f.id) && (l.covers g.va || ((s.farLanes g.src).1 == (s.farLanes f.src).1
       && (s.farLanes g.src).2.any ((s.farLanes f.src).2.contains ·) && (match g.leaf with | some m => Leaf.home m == Leaf.home l | none => true))))))

/-- SIDE_LOG_REISSUE (R224, R291). -/
def execSideLogReissue (vd entry : Nat) (s : State) : Out :=
  match s.farReq entry with
  | some f => if f.vd == vd && s.logReady f then .next (s.enterQueue entry true) else .next s
  | none => .next s

end Sys2Proof.Machine
end

