-- ==== Sys2Proof/Machine/Icache.lean ====
section
/-! DEFINITION. The instruction caches (R207, R359, R360). -/
namespace Sys2Proof.Machine
open Sys2Proof

/-- The fill of a line that is under way. -/
def State.fillOf (s : State) (core part grid va : Nat) : Option Fill :=
  s.fills.find? (fun f => f.core == core && f.part == part && f.va == lineVa va && s.genNow (s.grid f.grid) == s.genNow (s.grid grid))

/-- Fills not yet asked for go to the translation port while the world's queue has room: one request for each line, in the order in which the lines are wanted, which
is ascending within one fill (R207, R219, R359). -/
def State.fillKick (s : State) (core : Nat) : State :=
  s.fills.foldl (fun (s : State) (f : Fill) =>
    let v := (s.grid f.grid).vd
    if f.core != core || f.asked || !s.hasRoom (.ctlb core) (s.worldNum v) 1 then s
    else { s with fills := s.fills.map (fun (q : Fill) => if q.id == f.id then { q with asked := true } else q) }.askPage
      { id := 0, vd := v, core := core, va := f.va, acc := 0, src := 7, keyid := (s.grid f.grid).keyid, cont := .fill f.id }) s

/-- One line asked for, unless it is there or on its way. A placement fill pins it for its launch (R207). -/
def State.fillLine (s : State) (core part grid va : Nat) (pin : Bool) : State :=
  let gen := s.genNow (s.grid grid)
  let pinned (ps : List Nat) : List Nat := if pin && !ps.contains grid then ps ++ [grid] else ps
  match s.cacheLine core part va gen with
  | some _ => { s with icache := s.icache.map (fun (l : ILine) =>
      if l.core == core && l.part == part && l.va == lineVa va && l.gen == gen then { l with pins := pinned l.pins } else l) }
  | none =>
    match s.fillOf core part grid va with
    | some f => { s with fills := s.fills.map (fun (q : Fill) => if q.id == f.id then { q with pins := pinned q.pins } else q) }
    | none => { s.bump with fills := s.fills ++ [{ id := s.nextId, core := core, part := part, grid := grid, va := lineVa va, pins := pinned [] }] }

/-- Fills that have read through a page that meets a scope, or out of a region, are asked anew; the reads on their way bring nothing (R225, R360; log 17). -/
def State.refill (s : State) (hit : Fill → Bool) : State :=
  let fs := s.fills.filter (fun f => f.leaf.isSome && hit f)
  fs.foldl (fun (s : State) (f : Fill) =>
    { s.bump with fills := s.fills.map (fun (q : Fill) => if q.id == f.id then { q with id := s.nextId, asked := false, leaf := none, data := none, fail := none } else q) }) s

/-- Lines dropped, and fills that read what they held asked anew. -/
def State.dropLines (s : State) (line : ILine → Bool) (hit : Fill → Bool) : State :=
  let s := { s with icache := s.icache.filter (fun l => !line l) }.refill hit
  ((s.fills.filter (fun f => !f.asked)).map (·.core)).eraseDups.foldl (fun (s : State) c => s.fillKick c) s

/-- The lines of a region that is resealed (R360). -/
def State.dropRegion (s : State) (num : Nat) : State := s.dropLines (fun l => l.region == num) (fun f => (s.grid f.grid).sealNum == num)

/-- The placement fill of a partition (R207): the lines of words ENTRY to ENTRY + 63, ascending. -/
def State.placementFill (s : State) (core part grid : Nat) : State :=
  let g := s.grid grid
  let last := min (g.entry + 63) (g.words - 1)
  let lo := lineVa (g.wordVa g.entry)
  ((List.range (((lineVa (g.wordVa last)) - lo) / 64 + 1)).foldl (fun s i => s.fillLine core part grid (lo + 64 * i) true) s).fillKick core

/-- Has a launch a workgroup on the partition? -/
def State.launchHere (s : State) (core part grid : Nat) : Bool :=
  s.crews.any (fun k => k.core == core && k.part == part && (s.wg k.wg).live && (s.wg k.wg).grid == grid)

/-- Is a line pinned (R360)? -/
def State.pinned (s : State) (l : ILine) : Bool := l.pins.any (s.launchHere l.core l.part)

/-- The least recently used line of a partition that is not pinned; of two last used in one clock, which R360 does not part, the one that stands earlier in the model's
list (DESIGN CHOICE, log 17). -/
def State.oldestLine (s : State) (core part : Nat) : Option ILine :=
  (s.icache.filter (fun l => l.core == core && l.part == part && !s.pinned l)).foldl
    (fun o l => match o with | none => some l | some q => if l.used < q.used then some l else o) none

/-- A line written: into a full cache it replaces the least recently used line that is not pinned. -/
def State.cachePut (s : State) (l : ILine) : State :=
  let full := decide (1024 ≤ (s.icache.filter (fun q => q.core == l.core && q.part == l.part)).length)
  let s := match (if full then s.oldestLine l.core l.part else none) with
    | some o => { s with icache := s.icache.erase o }
    | none => s
  { s with icache := s.icache ++ [l], badSram := if s.badSram.isEmpty then s.badSram else s.badSram.filter (· != .icache l.core l.part l.va) }

/-- The line used at the present clock. -/
def State.cacheTouch (s : State) (core part va gen : Nat) : State :=
  { s with icache := s.icache.map (fun (l : ILine) =>
      if l.core == core && l.part == part && l.va == lineVa va && l.gen == gen then { l with used := s.t } else l) }

/-- Does a lane of a crew wait for the line? -/
def State.waitsLine (s : State) (f : Fill) (c l : Nat) : Bool :=
  let x := (s.crew c).lane l
  let g := s.gridOf c
  (x.st == .run || x.st == .held) && decide (x.pc.toNat < g.words) && lineVa (g.wordVa x.pc.toNat) == f.va && s.genNow g == s.genNow (s.grid f.grid)

/-- The lanes of a crew that wait for the line. -/
def State.waitingLanes (s : State) (f : Fill) (c : Nat) : List Nat :=
  let k := s.crew c
  (List.range 8).filter (fun l => (!k.hm || k.hl.getLsbD l) && s.waitsLine f c l)

/-- A fill that ended in a trap: the lanes waiting for the line trap, and they are the handler lanes (R359). A crew has one %trappc: it names the lowest word that any
of them waits for, and %trapinfo's lane the lowest lane there (DESIGN CHOICE, log 16). -/
def State.fillTrap (s : State) (f : Fill) (code : BitVec 8) : State :=
  ((List.range s.crews.length).filter (fun c => (s.crew c).live && (s.crew c).core == f.core && (s.crew c).part == f.part && (s.crew c).entry.isNone &&
      !(s.wgOf c).saved && s.vdOf c == (s.grid f.grid).vd)).foldl
    (fun (s : State) c =>
      let ls := s.waitingLanes f c
      let pc (l : Nat) : Nat := ((s.crew c).lane l).pc.toNat
      match ls.find? (fun l => ls.all (fun q => decide (pc l ≤ pc q))) with
      | none => s
      | some l =>
        let info := if code == tcIntegrity then integrityInfo f.va 0 l else BitVec.ofNat 64 (f.va % 2 ^ 57)
        s.takeTrap c (laneMask ls) ⟨code, info, ((s.crew c).lane l).pc⟩) s

/-- The lanes whose words lie in a line that has come leave HELD (R359). -/
def State.fillWakes (s : State) (f : Fill) : State :=
  ((List.range s.crews.length).filter (fun c => (s.crew c).live && (s.crew c).core == f.core && (s.crew c).part == f.part && (s.wgOf c).started && !(s.wgOf c).saved)).foldl
    (fun (s : State) c =>
      let go (k : Crew) : Crew := (List.range 8).foldl (fun (k : Crew) l =>
        if (k.lane l).st == .held && !(k.entry.isSome && k.hl.getLsbD l) && s.waitsLine f c l then k.setLane l { k.lane l with st := .run } else k) k
      s.updCrew c go) s

/-- ICACHE_FILL (R359). -/
def execIcacheFill (fill : Nat) (s : State) : Out :=
  match s.fills.find? (fun (f : Fill) => f.id == fill) with
  | none => .next s
  | some f =>
    let gone : State := { s with fills := s.fills.filter (fun (q : Fill) => q.id != fill) }
    match f.data, f.fail with
    | some bs, _ =>
      let g := s.grid f.grid
      let l : ILine := { core := f.core, part := f.part, va := f.va, gen := s.genNow g, used := s.t, pins := f.pins, vd := g.vd, region := g.sealNum,
                         page := match f.leaf with | some p => (p.va, p.size) | none => (0, 0),
                         words := (List.range 8).map (fun i => BitVec.ofNat 64 (ofBytes ((bs.drop (8 * i)).take 8))) }
      .next ((gone.cachePut l).fillWakes f)
    | none, some code => .next ((gone.fillTrap f code).fillKick f.core)
    | none, none => .next s

/-- A fill has its data or its end, and ICACHE_FILL is due. -/
def State.fillEnd (s : State) (id : Nat) (data : Option (List Byte)) (fail : Option (BitVec 8)) : State :=
  ({ s with fills := s.fills.map (fun (q : Fill) => if q.id == id then { q with data := data, fail := fail } else q) }).post s.t (.icacheFill id)

/-- The page of a fill resolved: the line is read as one access at its home (R359). -/
def State.fillPage (s : State) (id : Nat) (res : TRes) : State :=
  match s.fills.find? (fun (f : Fill) => f.id == id) with
  | none => s
  | some f =>
    match res with
    | .leaf l =>
      let r : Far := { id := s.nextId, vd := (s.grid f.grid).vd, core := f.core, src := .fill f.id, op := .read, keyid := (s.grid f.grid).keyid, va := f.va, leaf := some l }
      let s := { s with fills := s.fills.map (fun (q : Fill) => if q.id == f.id then { q with leaf := some l } else q) }
      ({ s.bump with fars := s.fars ++ [r] }).enterQueue r.id false
    | .violation => s.fillEnd f.id none (some tcFarAccess)
    | .hurt _ => s.fillEnd f.id none (some tcIntegrity)
    | .absent _ => s

end Sys2Proof.Machine
end

