-- ==== Sys2Proof/Machine/Wharf.lean ====
section
/-! DEFINITION. The Wharf (R267-R279, R304-R306): the words, message packets, matching, landing and completion. -/
namespace Sys2Proof.Machine
open Sys2Proof

/-! ### Tables and handles (R270, R306) -/

def Vd.rx (d : Vd) (i : Nat) : Rx := d.rxs.getD i {}
def Vd.tx (d : Vd) (i : Nat) : Tx := d.txs.getD i {}

/-- A table's entry replaced, the table growing to it. -/
def tablePut {α : Type} (m : List α) (i : Nat) (blank x : α) : List α :=
  if i < m.length then m.set i x else m ++ List.replicate (i - m.length) blank ++ [x]

def State.setRx (s : State) (v i : Nat) (r : Rx) : State := s.setVd v { s.vd v with rxs := tablePut (s.vd v).rxs i {} r }
def State.setTx (s : State) (v i : Nat) (x : Tx) : State := s.setVd v { s.vd v with txs := tablePut (s.vd v).txs i {} x }

/-- The lowest free index of a table (R306). -/
def Vd.freeRx (d : Vd) : Option Nat := (List.range 4096).find? (fun i => !(d.rx i).live)
def Vd.freeTx (d : Vd) : Option Nat := (List.range 256).find? (fun i => !(d.tx i).live)

/-- A handle (R270). -/
def handleWord (send : Bool) (gen : BitVec 19) (i : Nat) : Word := BitVec.ofNat 32 ((if send then 2 ^ 31 else 0) + gen.toNat * 4096 + i)
def handleIndex (h : Word) : Nat := h.toNat % 4096
def handleGen (h : Word) : BitVec 19 := BitVec.ofNat 19 (h.toNat / 4096)

/-- The status of the entry that a handle names (R279): a stale handle gives STALE. -/
def Vd.handleStat (d : Vd) (h : Word) : WStat :=
  let i := handleIndex h
  if h.msb then (if i < 256 ∧ (d.tx i).live ∧ (d.tx i).gen = handleGen h then (d.tx i).stat else .stale)
  else if (d.rx i).live ∧ (d.rx i).gen = handleGen h then (d.rx i).stat else .stale

def WStat.code : WStat → Nat
  | .pending => 0 | .done => 1 | .trunc => 2 | .cancelled => 3 | .closed => 4 | .access => 5 | .none => 6 | .stale => 7

/-- The status word (Table 16.2). -/
def statusWord (st : WStat) (tag : Word) (len rank : Nat) : DWord :=
  match st with
  | .pending | .none | .stale | .cancelled => BitVec.ofNat 64 (WStat.code st)
  | .done | .trunc | .closed | .access => BitVec.ofNat 64 (tag.toNat * 2 ^ 32 + len * 2 ^ 16 + rank * 16 + WStat.code st)

/-- The status word of the entry that a handle names. -/
def Vd.handleWordOf (d : Vd) (h : Word) : DWord :=
  let st := d.handleStat h
  let i := handleIndex h
  if h.msb then statusWord st (d.tx i).tag (d.tx i).mlen (d.tx i).rank
  else statusWord st (d.rx i).msg.tag (d.rx i).msg.mlen (d.rx i).msg.srank

/-- Is a status final? -/
def WStat.final : WStat → Bool
  | .pending => false
  | .done | .trunc | .cancelled | .closed | .access | .none | .stale => true

/-- The clock that a final report of a receive gives: its message's (R295). -/
def Vd.handleClock (d : Vd) (h : Word) : Option Clock :=
  let st := d.handleStat h
  if !h.msb && st.final && st != .stale then (d.rx (handleIndex h)).msg.clock else none

/-- A lane merges a clock that it acquires, if there is one. -/
def Lane.acquire (x : Lane) (c : Option Clock) : Lane := match c with | some c => { x with clock := Clock.merge c x.clock } | none => x

/-- The completion of a receive into a tile is observed: its landed bytes are acquired (R274, R206). -/
def State.landedSeen (s : State) (r : Rx) : State :=
  match r.place with
  | .tile w i =>
    let x := (s.wg w).tile i
    if x.phase == r.phase && x.fillLen != 0 then s.setTile w i { x with seen := lowBits 64 } else s
  | .box _ _ => s

/-- A final status reported frees its entry (R270). -/
def State.report (s : State) (v : Nat) (h : Word) : State :=
  let s := if !h.msb && (s.vd v).handleStat h != .stale && (s.vd v).handleStat h != .pending then s.landedSeen ((s.vd v).rx (handleIndex h)) else s
  let d := s.vd v
  if (d.handleStat h).final && d.handleStat h != .stale then
    if h.msb then s.setTx v (handleIndex h) { d.tx (handleIndex h) with live := false }
    else s.setRx v (handleIndex h) { d.rx (handleIndex h) with live := false }
  else s

/-! ### Packets (R269) -/

/-- Message bytes that a packet carries: 224 in the reach, 256 beyond. -/
def State.packetRoom (s : State) (pkg : Nat) : Nat := if s.sameReach pkg then 224 else 256

/-- The arrival of a message packet as a row of the table. -/
def msgEvent (p : Packet) : Instr :=
  match p.kind with
  | .eager => .eager p | .rts => .rts p | .pull => .pull p | .data => .data p | .ack => .ack p | .nack => .nack p

/-- A message packet leaves: a message to the own package uses no fibre (R267). `false` where no path reaches the destination. -/
def State.sendMsg (s : State) (v : Nat) (p : Packet) : Bool × State :=
  if p.dst == s.pkg then (true, s.post s.t (msgEvent { p with src := s.pkg, slot := s.slotOfWorld (s.worldNum v) }))
  else s.sendPacket v p s.t

/-- Packets of one kind that carry a message's bytes, every packet but the last full. -/
def State.bytePackets (s : State) (base : Packet) (bytes : List Byte) : List Packet :=
  let n := s.packetRoom base.dst
  (List.range (max 1 ((bytes.length + n - 1) / n))).map (fun i => { base with off := i * n, data := (bytes.drop (i * n)).take n })

/-- What every packet of a send has. -/
def State.txPacket (s : State) (v : Nat) (x : Tx) (k : MKind) : Packet :=
  { typ := .msg, kind := k, dst := x.pkg, dvd := x.dvd, svd := v, srank := (s.vd v).myRank, mtag := x.tag, mseq := x.mseq, mlen := x.mlen,
    keyid := x.keyid, clock := if s.sameReach x.pkg then some x.clock else none }

/-- A send completes (R268, R274): .nr frees its entry. -/
def State.finishTx (s : State) (v i : Nat) (st : WStat) : State :=
  let x := (s.vd v).tx i
  s.setTx v i { x with stat := st, live := !x.nr }

/-- A send fails (R268): the crew's trap names the rank and the lane. -/
def State.failTx (s : State) (v i : Nat) (st : WStat) : State :=
  let x := (s.vd v).tx i
  let code := if st == .closed then tcPeerClosed else tcFarAccess
  (s.finishTx v i st).deferTrap x.crew code (BitVec.ofNat 64 (x.rank % 4096 + 5 * 2 ^ 57 + x.lane * 2 ^ 60))

/-- The message of a send transmitted: EAGER up to 4,096 bytes, else its header (R269). -/
def State.transmit (s : State) (v i : Nat) : State :=
  let x := (s.vd v).tx i
  let s := s.setTx v i { x with sent := true }
  let ps := if x.mlen ≤ 4096 then s.bytePackets (s.txPacket v x .eager) x.bytes else [s.txPacket v x .rts]
  let r := ps.foldl (fun (r : Bool × State) p => let q := r.2.sendMsg v p; (r.1 && q.1, q.2)) (true, s)
  if r.1 then r.2 else r.2.failTx v i .closed

/-- Pending sends to one destination world, in MSEQ order. -/
def Vd.sendsTo (d : Vd) (pkg dvd : Nat) : List Nat :=
  sortBy (fun i j => !serialLt (d.tx j).mseq (d.tx i).mseq)
    ((List.range d.txs.length).filter (fun i => (d.tx i).live && (d.tx i).stat == .pending && (d.tx i).pkg == pkg && (d.tx i).dvd == dvd))

/-- Sends to a destination go in MSEQ order: each whose bytes are there, behind no earlier one that waits or was refused FULL (R269, R273). -/
def State.sendNext (s : State) (v pkg dvd : Nat) : State :=
  ((s.vd v).sendsTo pkg dvd).foldl (fun (a : State × Bool) i =>
    if !a.2 then a
    else
      let x := (a.1.vd v).tx i
      if x.again.isSome then (a.1, false)
      else if x.sent then a
      else if !x.ready then (a.1, false)
      else (a.1.transmit v i, true)) (s, true) |>.1

/-! ### The words (R275-R279) -/

/-- The source or destination operand of msend and mpost: registers. -/
def WEnd.src : WEnd → List (BitVec 8 × Nat)
  | .tile t => TileH.src t
  | .box _ _ => []
def WEnd.group : WEnd → List (BitVec 8 × Nat)
  | .tile _ => []
  | .box _ c => [(c, 5)]
/-- Those of the coordinate group that a box reads (R211). -/
def WEnd.reads (e : WEnd) : WPlace → List (BitVec 8 × Nat)
  | .tile _ _ => []
  | .box m _ => (WEnd.group e).map (fun r => (r.1, m.rank))
/-- The needs of a word with such an operand. -/
def WEnd.needs (e : WEnd) (d : BitVec 8) (src : List (BitVec 8 × Nat)) : Needs :=
  { dst := [(d, 1)], src := src ++ WEnd.src e, group := WEnd.group e, banks := (src ++ WEnd.src e ++ WEnd.group e).map (·.1) }

/-- A word's end resolved: the place, its capacity and its box, or the trap of R276 step 3. -/
def wharfEnd (s : State) (k : Crew) (act : List Nat) (e : WEnd) (l : Nat) : Except Eff (WPlace × Nat × Option (Nat × Bool)) :=
  match e with
  | .tile t =>
    match tileHandle s k act t with
    | none => .error (.trap tcNonuniform 0)
    | some (i, ph) =>
      let w := s.wg k.wg
      if w.tiles.length ≤ i || (w.tile i).len == 0 then .error (tileTrap i ph) else .ok (.tile k.wg i, (w.tile i).len * 512, some (i, ph))
  | .box man c =>
    let g := s.gridOf s.cur
    if g.mans.length ≤ man.toNat then .error (manifestTrap man.toNat)
    else
      let m := g.mans.getD man.toNat {}
      .ok (.box m ((List.range 5).map (fun i => (regRead (s.readAt k) 2 l (k.lane l) (c.toNat + i)).toInt)), m.packed, none)

/-- Is a tile end in the state that the word needs? -/
def State.endReady (s : State) (k : Crew) (t : Option (Nat × Bool)) (st : TileSt) : Bool :=
  match t with
  | none => true
  | some (i, ph) => ((s.wg k.wg).tile i).st == st && ((s.wg k.wg).tile i).phase == ph

/-- MISALIGNED of an lg6 box (R276 step 7). -/
def WPlace.coordBad : WPlace → Option Int
  | .tile _ _ => none
  | .box m cs => if m.coordBad cs then some (cs.getD 0 0) else none

/-- The global lines of a box that its first n image bytes reach. -/
def WPlace.lines (p : WPlace) (n : Nat) : List BLine :=
  match p with
  | .tile _ _ => []
  | .box m cs => (m.lines cs).filter (fun l => decide (l.low < n))

/-- A rank that names no valid entry (R276). -/
def rankTrap (r : Nat) : Eff := .trap tcHandle (BitVec.ofNat 64 (r * 4096 + 5 * 512))

/-- Entry r of the rank table (R267). -/
def Vd.rankEntry (d : Vd) (r : Nat) : Word := ((d.ranks.find? (fun p => p.1 == r)).map (·.2)).getD 0

/-- Pages of a box source asked for, and mapped lines read (R277). -/
def State.gather (s : State) (v i : Nat) : List Nat → State
  | [] => s
  | j :: rest =>
    let x := (s.vd v).tx i
    let l := x.lines.getD j { va := 0 }
    let put (old new : BLineSt) (leaf : Option Leaf) : List BLine :=
      x.lines.map (fun q => if q.va / 4096 == l.va / 4096 && q.st == old then { q with st := new, leaf := leaf } else q)
    match l.st with
    | .fresh =>
      if !s.hasRoom (.ctlb (tlbPort 255)) (s.worldNum v) 1 then s
      else
        let job : TJob := { id := 0, vd := v, core := 255, va := l.va, acc := 0, src := 4, keyid := x.keyid, cont := .gather v i j }
        ((s.setTx v i { x with lines := put .fresh .trans none }).askPage job).gather v i rest
    | .ready =>
      let f : Far := { id := s.nextId, vd := v, core := x.core, src := .gather v i j, op := .read, keyid := x.keyid, va := l.va / 64 * 64, leaf := l.leaf }
      let s := s.setTx v i { x with lines := x.lines.modify j (fun q => { q with st := .started }) }
      (({ s.bump with fars := s.fars ++ [f] }).enterQueue f.id false).gather v i rest
    | .trans | .held | .queued | .started | .done | .dropped => s.gather v i rest

/-- The bytes of a send: its tile's as they stand, or the box image with its fill (R277). -/
def State.txBytes (s : State) (x : Tx) : List Byte :=
  match x.place with
  | .tile w i => s.nearBytes w ((s.wg w).tile i).base x.mlen
  | .box m cs => (List.range x.mlen).map (fun p => if (m.byteAddr cs p).isSome then (cellAt x.buf p).getD 0 else m.fillByte p)

/-- A send whose source has been read whole is ready to go. -/
def State.txReady (s : State) (v i : Nat) : State :=
  let x := (s.vd v).tx i
  if x.ready || !x.lines.all (fun l => l.st == .done) then s
  else (s.setTx v i { x with bytes := s.txBytes x, ready := true }).sendNext v x.pkg x.dvd

/-- Does the near range of a tile hold an uncorrectable error (R311)? -/
def State.tileHurt (s : State) (w i n : Nat) : Bool :=
  !s.badSram.isEmpty && decide (0 < n) && s.badSram.any (ErrSite.inNear (s.wg w).core ((s.wg w).near + ((s.wg w).tile i).base) n)

/-- msend (R276, R277). A tile that cannot be read is not sent: INTEGRITY is deferred, and the send completes ACCESS (R311; log 19). -/
def execMsend (h : Hdr) (nr : Bool) (d a b : BitVec 8) (e : WEnd) (s : State) : Out :=
  word h (WEnd.needs e d [(a, 1), (b, 2)]) (fun s k act =>
    match act with
    | [l] =>
      let v := s.vdOf s.cur
      let r := (rd s k 0 l a).toNat % 4096
      let en := (s.vd v).rankEntry r
      if !en.msb then rankTrap r
      else match wharfEnd s k act e l with
        | .error t => t
        | .ok (place, cap, tile) =>
          match (s.vd v).freeTx with
          | none => .wait .held
          | some i =>
            let pair := rd64 s k 1 l b
            let n := (pair >>> 32).toNat
            if !s.endReady k tile .ready then .wait .held
            else if 32768 < n || cap < n then
              (match tile, e with
               | some (ti, ph), _ => tileTrap ti ph
               | none, .box man _ => manifestTrap man.toNat
               | none, .tile _ => tileTrap 0 false)
            else match place.coordBad with
              | some c => .trap tcMisaligned (BitVec.ofInt 32 c |>.setWidth 64)
              | none =>
                let pkg := en.toNat % 1024
                let dvd := en.toNat / 1024 % 128
                let q := ((s.vd v).mseqs.find? (fun m => m.1 == pkg && m.2.1 == dvd)).map (·.2.2) |>.getD 0
                let g := ((s.vd v).tx i).gen + 1
                let x : Tx := { gen := g, live := true, nr := nr, crew := s.cur, lane := l, wg := k.wg, core := k.core, place := place, rank := r, pkg := pkg,
                                dvd := dvd, tag := pair.setWidth 32, mlen := n, mseq := q, keyid := (s.gridOf s.cur).keyid, clock := (k.lane l).clock,
                                lines := place.lines n }
                let hurt := match tile with | some (ti, _) => s.tileHurt k.wg ti n | none => false
                let bad := s.regBad s.cur l (WEnd.reads e place)
                let s := s.setTx v i x
                let s := s.setVd v { s.vd v with mseqs := (s.vd v).mseqs.filter (fun m => !(m.1 == pkg && m.2.1 == dvd)) ++ [(pkg, dvd, q + 1)] }
                let s := s.updCur (fun k' => k'.onLanes act (fun _ y => regWrite y d.toNat (handleWord true g i)))
                if bad then .trap tcIntegrity (integrityInfo 0 0 l)
                else if hurt then .ok (((s.deferTrap s.cur tcIntegrity (integrityInfo 0 5 l)).failTx v i .access).sendNext v pkg dvd)
                else .ok ((s.gather v i (List.range x.lines.length)).txReady v i)
    | _ => .trap tcConvergence 0) s

/-- One entry of the input queue, with its match step asked for (R272). -/
def State.wharfIn (s : State) (v : Nat) (e : WIn) : State :=
  (s.setVd v { s.vd v with inq := (s.vd v).inq ++ [e] }).enqueue .wharf (s.worldNum v) .mstep

/-- mpost (R276, R278). -/
def execMpost (h : Hdr) (cw nr : Bool) (d a b : BitVec 8) (e : WEnd) (s : State) : Out :=
  word h (WEnd.needs e d [(a, 2), (b, 2)]) (fun s k act =>
    match act with
    | [l] =>
      let v := s.vdOf s.cur
      match wharfEnd s k act e l with
      | .error t => t
      | .ok (place, cap, tile) =>
        match (s.vd v).freeRx with
        | none => .wait .held
        | some i =>
          let pa := rd64 s k 0 l a
          let pb := rd64 s k 1 l b
          let o := (pa >>> 32).toNat
          if !s.endReady k tile .empty || !s.hasRoom .wharf (s.worldNum v) 1 then .wait .held
          else if cw && decide ((s.gridOf s.cur).near * 512 < o + 8) then .trap tcNearBounds (BitVec.ofNat 64 o)
          else match place.coordBad with
            | some c => .trap tcMisaligned (BitVec.ofInt 32 c |>.setWidth 64)
            | none =>
              if cw && o % 8 != 0 then .trap tcMisaligned (BitVec.ofNat 64 o)
              else
                let g := ((s.vd v).rx i).gen + 1
                let bad := s.regBad s.cur l (WEnd.reads e place)
                let r : Rx := { gen := g, live := true, nr := nr, rank := pa.toNat % 4096, rmask := pa.toNat / 65536 % 4096, rtag := pb.setWidth 32,
                                tmask := (pb >>> 32).setWidth 32, place := place, wg := k.wg, crew := s.cur, core := k.core, lane := l,
                                phase := (match tile with | some (_, ph) => ph | none => false),
                                keyid := (s.gridOf s.cur).keyid, cap := cap, cw := if cw then some o else none }
                let s := s.setRx v i r
                let s := (match tile with
                  | some (ti, _) =>
                    let x := (s.wg k.wg).tile ti
                    s.setTile k.wg ti { x with st := .filling, bitmap := 0, clocks := [], fillLen := x.len * 512, fillAt := none, seen := 0 }
                  | none => s)
                let s := s.updCur (fun k' => k'.onLanes act (fun _ y => regWrite y d.toNat (handleWord false g i)))
                if bad then .trap tcIntegrity (integrityInfo 0 0 l) else .ok (s.wharfIn v (.post i))
    | _ => .trap tcConvergence 0) s

/-- mcancel (R279). -/
def execMcancel (h : Hdr) (a : BitVec 8) (s : State) : Out :=
  word h { src := [(a, 1)] } (fun s k act =>
    let v := s.vdOf s.cur
    if !s.hasRoom .wharf (s.worldNum v) act.length then .wait .held
    else .ok (act.foldl (fun s' l => s'.wharfIn v (.cancel (rd s k 0 l a))) s)) s

/-- The windows of mprobe and mtest: one entry number for the word's lanes. -/
def openWharf (s : State) (act : List Nat) (la : BitVec 4) (d : BitVec 8) : State :=
  s.bump.updCur (fun k => k.onLanes act (fun _ x => openWindow x { id := s.nextId, kind := .wharf, win := la.toNat, base := d.toNat, regs := [d.toNat, d.toNat + 1] }))

/-- mprobe (R279, R304). -/
def execMprobe (h : Hdr) (la : BitVec 4) (d a b : BitVec 8) (s : State) : Out :=
  word h { dst := [(d, 2)], src := [(a, 1), (b, 2)] } (fun s k act =>
    let v := s.vdOf s.cur
    if !s.hasRoom .wharf (s.worldNum v) act.length then .wait .held
    else
      let id := s.nextId
      .ok (act.foldl (fun s' l =>
        let x := (rd s k 0 l a).toNat
        let p := rd64 s k 1 l b
        s'.wharfIn v (.probe s.cur l id (x % 4096) (x / 65536 % 4096) (p.setWidth 32) ((p >>> 32).setWidth 32))) (openWharf s act la d))) s

/-- mtest (R279). -/
def execMtest (h : Hdr) (la : BitVec 4) (d a : BitVec 8) (s : State) : Out :=
  word h { dst := [(d, 2)], src := [(a, 1)] } (fun s k act =>
    let v := s.vdOf s.cur
    if !s.hasRoom .wharf (s.worldNum v) act.length then .wait .held
    else
      let id := s.nextId
      .ok (act.foldl (fun s' l => s'.wharfIn v (.test s.cur l id (rd s k 0 l a))) (openWharf s act la d))) s

/-- mwait (R279): held until every lane's entry is final, then as mtest at once; each lane acquires its message (R295). -/
def execMwait (h : Hdr) (d a : BitVec 8) (s : State) : Out :=
  word h { dst := [(d, 2)], src := [(a, 1)] } (fun s k act =>
    let v := s.vdOf s.cur
    if !act.all (fun l => ((s.vd v).handleStat (rd s k 0 l a)).final) then .wait .held
    else .ok (act.foldl (fun s' l =>
      let hnd := rd s k 0 l a
      let w := (s'.vd v).handleWordOf hnd
      let c := (s'.vd v).handleClock hnd
      (s'.updCur (fun k' => k'.setLane l ((pairWrite (k'.lane l) d.toNat w).acquire c))).report v hnd) s)) s

/-! ### Matching (R271-R273) -/

/-- Does a message match a receive? -/
def matchesRx (r : Rx) (m : Msg) : Bool :=
  ((m.srank ^^^ r.rank) &&& r.rmask) == 0 && ((m.tag ^^^ r.rtag) &&& r.tmask) == 0

/-- The message of a first packet. -/
def Packet.msg (p : Packet) : Msg :=
  { srcPkg := p.src, srcVd := p.svd, srank := p.srank, tag := p.mtag, mseq := p.mseq, mlen := p.mlen, rts := p.kind == .rts, bytes := p.data,
    clock := p.clock, keyid := p.keyid }

/-- Space in the unexpected queue (R273). -/
def Msg.space (m : Msg) : Nat := 64 + (if m.rts then 0 else (m.mlen + 63) / 64 * 64)
def Vd.unexpUsed (d : Vd) : Nat := (d.unexp.map Msg.space).sum

/-- A receiver's answer to a message. -/
def State.answerMsg (s : State) (v : Nat) (m : Msg) (k : MKind) (st : PStat) (rxid : Nat) : State :=
  (s.sendMsg v { typ := .msg, kind := k, stat := st, dst := m.srcPkg, dvd := m.srcVd, svd := v, srank := (s.vd v).myRank, mtag := m.tag, mseq := m.mseq,
                 mlen := m.mlen, rxid := rxid, keyid := m.keyid, clock := if s.sameReach m.srcPkg then some Clock.zero else none }).2

/-- Message bytes that land: min(MLEN, capacity) (R274). -/
def Rx.size (r : Rx) : Nat := min r.msg.mlen r.cap
def Rx.beats (r : Rx) : Nat := (r.size + 63) / 64

/-- May beat n be asked for: its bytes have come, and its pages are mapped (R274)? -/
def Rx.beatReady (r : Rx) (n : Nat) : Bool :=
  decide (min r.size (64 * n + 64) ≤ r.msg.bytes.length) &&
  (match r.place with
   | .tile _ _ => true
   | .box m cs => (List.range 64).all (fun i => match (if 64 * n + i < r.size then m.byteAddr cs (64 * n + i) else none) with
      | some a => r.lines.any (fun l => l.va / 64 == a / 64 && l.st == .ready)
      | none => true))

/-- Pages of a box destination asked for. -/
def State.rxPages (s : State) (v i : Nat) : List Nat → State
  | [] => s
  | j :: rest =>
    let r := (s.vd v).rx i
    let l := r.lines.getD j { va := 0 }
    if l.st != .fresh then s.rxPages v i rest
    else if !s.hasRoom (.ctlb (tlbPort 255)) (s.worldNum v) 1 then s
    else
      let job : TJob := { id := 0, vd := v, core := 255, va := l.va, acc := 1, src := 4, keyid := r.keyid, cont := .landing v i j }
      let ls := r.lines.map (fun q => if q.va / 4096 == l.va / 4096 && q.st == .fresh then { q with st := .trans } else q)
      ((s.setRx v i { r with lines := ls }).askPage job).rxPages v i rest

/-- Beats of a receive asked for, in order, while the world's queue has room. -/
def State.rxBeats (s : State) (v i : Nat) : Nat → State
  | 0 => s
  | n + 1 =>
    let r := (s.vd v).rx i
    if r.asked < r.beats ∧ r.beatReady r.asked ∧ s.hasRoom .wharf (s.worldNum v) 1 then
      ((s.setRx v i { r with asked := r.asked + 1 }).enqueue .wharf (s.worldNum v) (.land i)).rxBeats v i n
    else s

/-- Is a matched receive at its end: every packet has come, every beat is written, no global write is on its way (R274)? -/
def Rx.landedAll (r : Rx) : Bool :=
  r.st == .matched && decide (r.msg.mlen ≤ r.msg.bytes.length) && (r.failed.isSome || r.landed == r.beats) && r.flying == 0

/-- A receive driven as far as it goes. -/
def State.rxDrive (s : State) (v i : Nat) : State :=
  let r := (s.vd v).rx i
  if !r.live || r.st != .matched then s
  else
    let s := if r.failed.isSome then s else (s.rxPages v i (List.range r.lines.length)).rxBeats v i (r.beats - r.asked)
    if ((s.vd v).rx i).landedAll then s.post s.t (.receiveComplete v i) else s

/-- A message taken by a receive; for a header the bytes are pulled (R269). -/
def State.takeMsg (s : State) (v i : Nat) (m : Msg) : State :=
  let r := { (s.vd v).rx i with st := .matched, msg := m }
  let s := s.setRx v i { r with lines := r.place.lines r.size }
  let s := if m.rts then s.answerMsg v m .pull .ok i else s
  s.rxDrive v i

/-- The ACK of a message that waits unexpected, once all of it is queued (R269). -/
def State.ackQueued (s : State) (v : Nat) : State :=
  match (s.vd v).unexp.find? (fun m => !m.acked && !m.rts && decide (m.mlen ≤ m.bytes.length)) with
  | none => s
  | some m =>
    (s.setVd v { s.vd v with unexp := (s.vd v).unexp.map (fun q => if q.srcPkg == m.srcPkg && q.srcVd == m.srcVd && q.mseq == m.mseq then { q with acked := true } else q) }).answerMsg
      v m .ack .ok 0

/-- The message for which a sending world is answered FULL until it comes again (R273). -/
def Vd.fullOf (d : Vd) (m : Msg) : Option (BitVec 16) := (d.fulls.find? (fun f => f.1 == m.srcPkg && f.2.1 == m.srcVd)).map (·.2.2)

/-- The match step of an arrival (R271-R273). -/
def State.stepArrive (s : State) (v : Nat) (p : Packet) : State :=
  let m := Packet.msg p
  if (match (s.vd v).fullOf m with | some q => q != m.mseq | none => false) then s.answerMsg v m .nack .full 0
  else
    let d := { s.vd v with fulls := (s.vd v).fulls.filter (fun f => !(f.1 == m.srcPkg && f.2.1 == m.srcVd)) }
    match d.posted.find? (fun i => matchesRx (d.rx i) m) with
    | some i => (s.setVd v { d with posted := d.posted.erase i }).takeMsg v i m
    | none =>
      if d.uqSize < d.unexpUsed + m.space then
        (s.setVd v { d with fulls := d.fulls ++ [(m.srcPkg, m.srcVd, m.mseq)] }).answerMsg v m .nack .full 0
      else (s.setVd v { d with unexp := d.unexp ++ [m] }).ackQueued v

/-- Has the workgroup of a receive's tile retired its crews (R329)? -/
def State.rxOrphan (s : State) (r : Rx) : Bool := match r.place with | .tile w _ => (s.wg w).retired | .box _ _ => false

/-- The match step of a post: with no message, it joins the posted list, or is CANCELLED where its workgroup's crews have retired (R329). -/
def State.stepPost (s : State) (v i : Nat) : State :=
  let d := s.vd v
  let r := d.rx i
  if !r.live || r.st != .queued then s
  else
    match d.unexp.find? (matchesRx r) with
    | some m => (s.setVd v { d with unexp := d.unexp.erase m }).takeMsg v i m
    | none =>
      if s.rxOrphan r then s.setRx v i { r with live := false, st := .final, stat := .cancelled }
      else
      let s := s.setRx v i { r with st := .posted }
      s.setVd v { s.vd v with posted := d.posted ++ [i] }

/-- A tile that a receive filled: its remaining bits are set and it is READY, and a wait on it acquires the message's clock (R278, R295). -/
def State.readyTile (s : State) (r : Rx) : State :=
  match r.place with
  | .box _ _ => s
  | .tile w i =>
    let x := (s.wg w).tile i
    if x.st != .filling then s
    else
      let cs := match r.msg.clock with | some c => (List.range x.len).map (·, c) | none => []
      s.setTile w i { x with st := .ready, bitmap := lowBits x.len, clocks := x.clocks ++ cs }

/-- The completion word of a receive with .cw, written at its completion (R278); a workgroup that is gone has none (log 23). -/
def State.writeCw (s : State) (r : Rx) (st : WStat) : State :=
  match r.cw with
  | some o => if !(s.wg r.wg).live then s else (s.landedSeen r).engineWrite r.wg o (toBytes 8 (statusWord st r.msg.tag r.msg.mlen r.msg.srank).toNat)
  | none => s

/-- The match step of a cancellation (R279): the receive completes CANCELLED. -/
def State.stepCancel (s : State) (v : Nat) (h : Word) : State :=
  let d := s.vd v
  let i := handleIndex h
  let r := d.rx i
  if !h.msb && r.live && r.gen == handleGen h && r.st == .posted then
    let s := s.setRx v i { r with st := .final, stat := .cancelled, live := !r.nr }
    ((s.setVd v { s.vd v with posted := d.posted.erase i }).readyTile { r with msg := {} }).writeCw r .cancelled
  else s

/-- The Wharf's service time (Table 4.3): what a match step or a landing beat does is done this long after its acceptance. -/
def wharfService : Nat := 12

/-- A result of mprobe or mtest decided at its match step, and written 36 clk after the step's acceptance (R279). -/
def State.stepResult (s : State) (crew lane entry : Nat) (w : DWord) (c : Option Clock) : State :=
  let put (p : Pending) : Pending := if p.id == entry then { p with value := [w.setWidth 32, (w >>> 32).setWidth 32], clock := c } else p
  (s.updCrew crew (fun k => k.setLane lane { k.lane lane with pend := (k.lane lane).pend.map put })).post (s.t + 36 - wharfService) (.wharfResult crew lane entry)

/-- MATCH_STEP (R272). -/
def execMatchStep (vd : Nat) (s : State) : Out :=
  match (s.vd vd).inq with
  | [] => .next s
  | e :: rest =>
    let s := s.setVd vd { s.vd vd with inq := rest }
    .next (match e with
      | .arrive p => s.stepArrive vd p
      | .post i => s.stepPost vd i
      | .cancel h => s.stepCancel vd h
      | .probe c l id rank rmask rtag tmask =>
        let w := match (s.vd vd).unexp.find? (matchesRx { rank := rank, rmask := rmask, rtag := rtag, tmask := tmask }) with
          | some m => statusWord .done m.tag m.mlen m.srank
          | none => statusWord .none 0 0 0
        s.stepResult c l id w none
      | .test c l id h => (s.stepResult c l id ((s.vd vd).handleWordOf h) ((s.vd vd).handleClock h)).report vd h)

/-- WHARF_RESULT (R279, R295): the status word is written and the lane acquires the message. -/
def execWharfResult (crew lane entry : Nat) (s : State) : Out :=
  match ((s.crew crew).lane lane).pend.find? (fun p => p.id == entry) with
  | none => .next s
  | some p =>
    let s := s.completeLane crew lane entry p.value
    .next (s.updCrew crew (fun k => k.setLane lane ((k.lane lane).acquire p.clock)))

/-! ### Landing and completion (R274, R278) -/

/-- Chunks of a tile whose landed bytes are all written; with the last of them the tile is READY, in the same clock (R200). -/
def State.rxChunks (s : State) (v i : Nat) : State :=
  let r := (s.vd v).rx i
  match r.place with
  | .box _ _ => s
  | .tile w ti =>
    let x := (s.wg w).tile ti
    let done := (List.range x.len).filter (fun k => decide (512 * k < r.size) && decide (min r.size (512 * k + 512) ≤ 64 * r.landed))
    let bits := done.foldl (fun b k => b ||| (1#64 <<< k)) x.bitmap
    if x.st != .filling then s
    else if bits == lowBits x.len then s.readyTile r
    else s.setTile w ti { x with bitmap := bits }

/-- LANDING_BEAT (R274): the next 64 message bytes are written to the tile, or sent to the box's lines. -/
def execLandingBeat (vd rx : Nat) (s : State) : Out :=
  let r := (s.vd vd).rx rx
  if !r.live || r.st != .matched || r.failed.isSome then .next s
  else
    let lo := 64 * r.landed
    let bs := (r.msg.bytes.drop lo).take (min r.size (lo + 64) - lo)
    let s := s.setRx vd rx { r with landed := r.landed + 1 }
    match r.place with
    | .tile w i => .next (((s.engineWrite w (((s.wg w).tile i).base + lo) (Cells.overlay r.torn lo bs)).rxChunks vd rx).rxDrive vd rx)
    | .box m cs =>
      let hits := bs.zipIdx.filterMap (fun p => (m.byteAddr cs (lo + p.2)).map (fun a => (a, p.1)))
      let lines := (hits.map (fun p => p.1 / 64)).eraseDups
      .next ((lines.foldl (fun (s : State) n =>
        let here := hits.filter (fun p => p.1 / 64 == n)
        let f : Far := { id := s.nextId, vd := vd, core := r.core, src := .landing vd rx, op := .write, keyid := r.keyid, va := n * 64,
                         leaf := (r.lines.find? (fun l => l.va / 64 == n)).bind (·.leaf), mask := here.foldl (fun k p => k ||| 2 ^ (p.1 % 64)) 0,
                         bytes := (List.range 64).map (fun i => ((here.find? (fun p => p.1 % 64 == i)).map (·.2)).getD 0) }
        let s := s.setRx vd rx { (s.vd vd).rx rx with flying := ((s.vd vd).rx rx).flying + 1 }
        ({ s.bump with fars := s.fars ++ [f] }).enterQueue f.id false) s).rxDrive vd rx)

/-- A landing meets a violation or a failed answer (R274): nothing more is written. -/
def State.rxFail (s : State) (v i : Nat) (st : WStat) : State :=
  let r := (s.vd v).rx i
  let mine (j : TJob) : Bool := match j.cont with | .landing v' i' _ => v' == v && i' == i | _ => false
  let beat := fun (r : Req) => r.item == ReqItem.land i && r.world == s.worldNum v
  (({ s with jobs := s.jobs.filter (fun j => !mine j), reqs := s.reqs.filter (fun r => !beat r),
             agenda := s.agenda.filter (fun a => a.2 != Instr.landingBeat v i) }).setRx v i { r with failed := some (r.failed.getD st) }).rxDrive v i

/-- A line of a receive's destination, or of a send's source, that cannot be read: INTEGRITY is deferred (R311), before the trap that the end of the message defers. -/
def State.rxHurt (s : State) (v i va : Nat) : State := s.deferTrap ((s.vd v).rx i).crew tcIntegrity (integrityInfo (va / 64 * 64) 5 ((s.vd v).rx i).lane)
def State.txHurt (s : State) (v i va : Nat) : State := s.deferTrap ((s.vd v).tx i).crew tcIntegrity (integrityInfo (va / 64 * 64) 5 ((s.vd v).tx i).lane)

/-- A global write of a landing has been answered. -/
def State.rxWritten (s : State) (v i : Nat) (st : Option WStat) : State :=
  let r := (s.vd v).rx i
  let s := s.setRx v i { r with flying := r.flying - 1 }
  match st with
  | none => s.rxDrive v i
  | some e => s.rxFail v i e

/-- A page of a box destination resolved. -/
def State.rxPage (s : State) (v i line : Nat) (res : TRes) : State :=
  let r := (s.vd v).rx i
  let page := (r.lines.getD line { va := 0 }).va / 4096
  let put (st : BLineSt) (leaf : Option Leaf) : State :=
    s.setRx v i { r with lines := r.lines.map (fun q => if q.va / 4096 == page && (q.st == .trans || q.st == .held) then { q with st := st, leaf := leaf } else q) }
  match res with
  | .leaf l => (put .ready (some l)).rxDrive v i
  | .absent _ => put .held none
  | .violation => s.rxFail v i .access
  | .hurt _ => (s.rxHurt v i ((r.lines.getD line { va := 0 }).va)).rxFail v i .access

/-- RECEIVE_COMPLETE (R274, R278): the remaining bits, the completion word, the status, and the ACK. -/
def execReceiveComplete (vd rx : Nat) (s : State) : Out :=
  let r := (s.vd vd).rx rx
  if !r.live || !r.landedAll then .next s
  else
    let st : WStat := match r.failed with | some e => e | none => if r.cap < r.msg.mlen then .trunc else .done
    let s := (s.readyTile r).writeCw r st
    let s := s.setRx vd rx { r with st := .final, stat := st, live := !r.nr }
    .next (if r.msg.acked then s else s.answerMsg vd r.msg .ack .ok rx)

/-! ### Arrivals (R267, R268, R273) -/

/-- What a Wharf answers a message that it does not take (R267). A world is closing until it is descheduled, its VD's release or not (R268). The Adnar knows a tenant by
its keys alone (R14). -/
def State.wharfCheck (s : State) (p : Packet) : Option PStat :=
  let d := s.vd p.dvd
  if d.closing.isSome && !d.created then some .closed
  else if !d.created || !s.keyOfTenant p.dvd p.keyid then some .access
  else if d.world.isNone || d.closing.isSome then some .closed
  else none

/-- A message refused: the NACK goes in the slot in which the message came (R267). -/
def State.refuseMsg (s : State) (p : Packet) (st : PStat) : State :=
  let r : Packet := { typ := .msg, kind := .nack, stat := st, dst := p.src, dvd := p.svd, svd := p.dvd, mtag := p.mtag, mseq := p.mseq, mlen := p.mlen,
                      clock := if s.sameReach p.src then some Clock.zero else none }
  if p.src == s.pkg then s.post s.t (msgEvent { r with src := s.pkg, slot := p.slot }) else s.sendInSlot p.slot r

/-- A later packet of a message joins it, wherever it stands. -/
def State.joinMsg (s : State) (v : Nat) (p : Packet) : State :=
  let d := s.vd v
  let mine (m : Msg) : Bool := m.srcPkg == p.src && m.srcVd == p.svd && m.mseq == p.mseq
  let same (q : Packet) : Bool := q.src == p.src && q.svd == p.svd && q.mseq == p.mseq
  let grow (m : Msg) : Msg := { m with bytes := m.bytes ++ p.data }
  if d.inq.any (fun e => match e with | .arrive q => same q | _ => false) then
    s.setVd v { d with inq := d.inq.map (fun e => match e with
      | .arrive q => if same q then .arrive { q with data := q.data ++ p.data } else e
      | _ => e) }
  else if d.unexp.any mine then (s.setVd v { d with unexp := d.unexp.map (fun m => if mine m then grow m else m) }).ackQueued v
  else
    match (List.range d.rxs.length).find? (fun i => (d.rx i).live && (d.rx i).st == .matched && mine (d.rx i).msg) with
    | some i => (s.setRx v i { d.rx i with msg := grow (d.rx i).msg }).rxDrive v i
    | none => s

/-- A first packet in its turn: answered, or queued for its match step (R267, R272). -/
def State.arriveFirst (s : State) (p : Packet) : State :=
  match s.wharfCheck p with
  | some st => s.refuseMsg p st
  | none => s.wharfIn p.dvd (.arrive p)

/-- The pending send to a world that has a number, and the one that an answer of that world names: MSEQ counts per pair of worlds (R269; log 21). -/
def Vd.sendTo (d : Vd) (pkg dvd : Nat) (mseq : BitVec 16) : Option Nat :=
  (List.range d.txs.length).find? (fun i => (d.tx i).live && (d.tx i).stat == .pending && (d.tx i).pkg == pkg && (d.tx i).dvd == dvd && (d.tx i).mseq == mseq)
def Vd.sendOf (d : Vd) (p : Packet) : Option Nat := d.sendTo p.src p.svd p.mseq

/-- A message packet in its turn (R253): what each kind does. -/
def State.takePacket (s : State) (p : Packet) : State :=
  match p.kind with
  | .eager => if p.off == 0 then s.arriveFirst p else if (s.wharfCheck p).isSome then s else s.joinMsg p.dvd p
  | .rts => s.arriveFirst p
  | .pull =>
    match (s.vd p.dvd).sendOf p with
    | some i =>
      let x := (s.vd p.dvd).tx i
      (s.bytePackets { s.txPacket p.dvd x .data with rxid := p.rxid } x.bytes).foldl (fun s q => (s.sendMsg p.dvd q).2) s
    | none => s
  | .data => if (s.wharfCheck p).isSome then s else s.joinMsg p.dvd p
  | .ack =>
    match (s.vd p.dvd).sendOf p with
    | some i => let x := (s.vd p.dvd).tx i; (s.finishTx p.dvd i .done).sendNext p.dvd x.pkg x.dvd
    | none => s
  | .nack =>
    match (s.vd p.dvd).sendOf p with
    | none => s
    | some i =>
      let x := (s.vd p.dvd).tx i
      match p.stat with
      | .full =>
        let at' := s.boundaryAfter s.t + 3 * s.roundLen
        if x.skips != 0 then s.setTx p.dvd i { x with skips := x.skips - 1 } else
        (s.setTx p.dvd i { x with again := some at' }).post at' (.messageResend p.dvd i)
      | .closed => (s.failTx p.dvd i .closed).sendNext p.dvd x.pkg x.dvd
      | .access | .ok => (s.failTx p.dvd i .access).sendNext p.dvd x.pkg x.dvd

/-- Messages to the same world that were sent after a refused one are to be sent again behind it, in MSEQ order (R273): the receiver has refused them too, and
what it has still to answer them is counted. -/
def State.sendAgain (s : State) (v : Nat) (x : Tx) : State :=
  s.setVd v { s.vd v with txs := (s.vd v).txs.map (fun (y : Tx) =>
    if y.live && y.stat == .pending && y.sent && y.pkg == x.pkg && y.dvd == x.dvd && serialLt x.mseq y.mseq then
      { y with sent := false, again := none, skips := y.skips + (if y.again.isNone then 1 else 0) } else y) }

/-- MESSAGE_RESEND (R273): from the fourth round boundary after the NACK, the refused message and then each later one; a NACKed message keeps its MSEQ. -/
def execMessageResend (vd send : Nat) (s : State) : Out :=
  let x := (s.vd vd).tx send
  match x.again with
  | some c =>
    if x.live && x.stat == .pending && decide (c ≤ s.t) then
      .next ((((s.setTx vd send { x with again := none, sent := false }).sendAgain vd x).transmit vd send).sendNext vd x.pkg x.dvd)
    else .next s
  | none => .next s

/-- A line of a box source has come back (R277). -/
def State.gathered (s : State) (v i line : Nat) (data : Option (List Byte)) (st : WStat) : State :=
  let x := (s.vd v).tx i
  match data with
  | none => if x.live && x.stat == .pending then (s.failTx v i st).sendNext v x.pkg x.dvd else s
  | some bs =>
    match x.place with
    | .tile _ _ => s
    | .box m cs =>
      let n := (x.lines.getD line { va := 0 }).va / 64
      let ps := (List.range x.mlen).filterMap (fun p => match m.byteAddr cs p with | some a => if a / 64 = n then some (p, a % 64) else none | none => none)
      let here := match (x.lines.getD line { va := 0 }).leaf with
        | some l => if !l.host && l.pkg == s.pkg then ps.map (fun p => (p.1, l.addr (n * 64) + p.2)) else []
        | none => []
      (s.setTx v i { x with buf := ps.foldl (fun (b : Cells) (p : Nat × Nat) => cellPut b p.1 (bs.getD p.2 0)) x.buf, src := x.src ++ here,
                            lines := x.lines.modify line (fun q => { q with st := .done }) }).txReady v i

/-- A page of a box source resolved. -/
def State.txPage (s : State) (v i line : Nat) (res : TRes) : State :=
  let x := (s.vd v).tx i
  let page := (x.lines.getD line { va := 0 }).va / 4096
  let put (st : BLineSt) (leaf : Option Leaf) : State :=
    s.setTx v i { x with lines := x.lines.map (fun q => if q.va / 4096 == page && (q.st == .trans || q.st == .held) then { q with st := st, leaf := leaf } else q) }
  match res with
  | .leaf l => (put .ready (some l)).gather v i (List.range x.lines.length)
  | .absent _ => put .held none
  | .violation => s.gathered v i line none .access
  | .hurt _ => (s.txHurt v i ((x.lines.getD line { va := 0 }).va)).gathered v i line none .access

/-- Whatever of a VD waited for room at the translation port or the Wharf goes on. -/
def State.wharfKick (s : State) (v : Nat) : State :=
  let s := (List.range (s.vd v).rxs.length).foldl (fun s i => s.rxDrive v i) s
  (List.range (s.vd v).txs.length).foldl (fun s i =>
    let x := (s.vd v).tx i
    if x.live && x.stat == .pending && !x.ready then s.gather v i (List.range x.lines.length) else s) s

end Sys2Proof.Machine
end

