-- ==== Sys2Proof/Machine/Paths.lean ====
section
/-! DEFINITION. What comes back: translations (R218-R222), replies (R261, R265), and the packets of other packages (R253, R260, R266, R290). -/
namespace Sys2Proof.Machine
open Sys2Proof

/-! ### Translations -/

/-- The record of a page that is not present (Table 12.4). -/
def TJob.record (j : TJob) (level : Nat) : HeldRec :=
  { va := j.va, core := if j.core < 160 then j.core else 255, level := level, acc := j.acc, src := j.src }

/-- The crew, lanes and windows of a request, and the address that its trap names: the lowest lane's. -/
def Far.parties (f : Far) : Option (Nat × List (Nat × Option Nat)) :=
  match f.src with
  | .loads c ls => some (c, ls.map (fun x => (x.1, some x.2.1)))
  | .atomic c l e => some (c, [(l, some e)])
  | .store c ls => some (c, ls.map (fun l => (l, none)))
  | .flag c l => some (c, [(l, none)])
  | .barge _ _ | .fill _ | .landing _ _ | .gather _ _ _ | .cp _ _ | .peer _ => none

/-- A lane's flag leaves its queue. -/
def State.popFlag (s : State) (f : Far) : State :=
  match f.src with
  | .flag c l =>
    let x := (s.crew c).lane l
    s.setCrew c ((s.crew c).setLane l { x with flags := x.flags.filter (· != f.id) })
  | _ => s

/-- A crew's request completes without effect (R222, R265, R311): no register is written, a parked lane goes on, later flags are discarded, and the trap is
deferred. -/
def State.farWithout (s : State) (f : Far) (code : BitVec 8) (info : Nat → DWord) : State :=
  match f.parties with
  | none => s
  | some (c, ls) =>
    let s := (s.dropFar f.id).popFlag f
    let s := ls.foldl (fun s p => (match p.2 with | some e => s.completeLane c p.1 e [] | none => s).dropFlags c p.1 f.id) s
    (s.deferTrap c code (info ((ls.head?.map (·.1)).getD 0))).noteLate c

/-- TRANSLATION_COMPLETE (R218-R223): the leaf goes into the TLBs, and whatever waited for the page goes on, waits under a record, or ends. -/
def execTranslationComplete (job : Nat) (s : State) : Out :=
  match s.job job with
  | none => .next s
  | some j =>
    let r := TJob.result s j
    let s := match r, j.stage with
      | .leaf _, .l2 | .leaf _, .walk _ _ => s.fillTlbs j
      | _, _ => s
    let done := (s.setJob { j with stage := .spent }).dropJob job
    let fault (s : State) : State := match r with | .absent n => s.faultOn job (j.record n) | _ => s
    .next (match j.cont with
      | .word _ => fault (s.setJob { j with stage := .spent })
      | .far id =>
        (match s.farReq id, r with
         | none, _ => done
         | some f, .leaf l =>
           let s := done.setFar { f with leaf := some l }
           if f.st == .translating then s.enterQueue id false else s
         | some _, .absent _ => fault s
         | some f, .violation => done.farWithout f tcFarAccess (farInfo f.va 4)
         | some f, .hurt _ => done.farWithout f tcIntegrity (integrityInfo (f.va / 64 * 64) 2))
      | .barge q i => (match r with | .absent _ => fault (s.bargePage q i r) | _ => done.bargePage q i r)
      | .warm q i =>
        (match r with
         | .absent n => (done.warmPage q i r).recordOnce j.vd (j.record n)
         | _ => done.warmPage q i r)
      | .fill q => (match r with | .absent _ => fault s | _ => done.fillPage q r)
      | .landing v q i => (match r with | .absent _ => fault (s.rxPage v q i r) | _ => done.rxPage v q i r)
      | .gather v q i => (match r with | .absent _ => fault (s.txPage v q i r) | _ => done.txPage v q i r)
      | .cp _ | .entry _ => s)

/-- REPLAYED_ACCESS (R222): the access translates again; an access of the command processor is made again, once its world runs (R12): till then it stays
held under a record that is no more. -/
def execReplayedAccess (vd job : Nat) (s : State) : Out :=
  match s.job job with
  | none => .next s
  | some j =>
    if j.vd != vd then .next s
    else
      match j.stage, j.cont with
      | .held _, .cp i => .next (if (s.vd vd).run == .running then (s.dropJob job).post s.t i else s)
      | .held _, .entry c => .next ((s.dropJob job).enqueue .cp (s.worldNum vd) (.cpWord c))
      | .held _, _ => .next (s.restartJob j)
      | _, _ => .next s

/-! ### Replies -/

/-- Does the reply's clock reach its lanes: does its home lie in the reach (R291, R294)? -/
def State.replyClock (s : State) (f : Far) (p : Packet) : Option Clock :=
  match f.leaf with
  | some l => if !l.host && s.sameReach l.pkg then p.clock else none
  | none => none

/-- A result delivered to a lane, with the reply's clock. -/
def State.farDeliver (s : State) (c l e : Nat) (vals : List Word) (clk : Option Clock) : State :=
  let open' := ((s.crew c).lane l).pend.any (fun p => p.id == e)
  let s := s.completeLane c l e vals
  match clk with
  | some x => if open' then s.updCrew c (fun k => k.setLane l { k.lane l with clock := Clock.merge x (k.lane l).clock }) else s
  | none => s

/-- A request answered OK (R261). -/
def State.farOk (s : State) (f : Far) (p : Packet) : State :=
  let clk := s.replyClock f p
  let s := (s.dropFar f.id).popFlag f
  match f.src with
  | .loads c ls => ls.foldl (fun s x => s.farDeliver c x.1 x.2.1 (extendLoad f.wd ((p.data.drop x.2.2).take (Width.bytes f.wd))) clk) s
  | .atomic c l e => s.farDeliver c l e (extendLoad f.wd p.data) clk
  | .store _ _ => s.noteFallback f
  | .flag _ _ => s
  | .barge r i => s.bargeLine r i p.data clk
  | .fill i => s.fillEnd i (some p.data) none
  | .landing v i => s.rxWritten v i none
  | .gather v i n => s.gathered v i n (some p.data) .access
  | .cp c put => s.putDone f.vd c put
  | .peer _ => s

/-- A request answered CLOSED or ACCESS (R265), or with an integrity failure (R311). `src` is the source of R259. -/
def State.farFailed (s : State) (f : Far) (code : BitVec 8) (src : Nat) : State :=
  let stat : WStat := if code == tcPeerClosed then .closed else .access
  match f.src with
  | .barge r i =>
    let s := s.dropFar f.id
    (match s.bargeReq r with
     | some b => (s.setBarge (b.setLine i .dropped)).bargeFail r code f.va
     | none => s)
  | .fill i => (s.dropFar f.id).fillEnd i none (some code)
  | .landing v i => ((if code == tcIntegrity then s.rxHurt v i f.va else s).dropFar f.id).rxWritten v i (some stat)
  | .gather v i n => ((if code == tcIntegrity then s.txHurt v i f.va else s).dropFar f.id).gathered v i n none stat
  | .loads _ _ | .atomic _ _ _ | .store _ _ | .flag _ _ =>
    s.farWithout f code (fun l => if code == tcIntegrity then integrityInfo (f.va / 64 * 64) src l else farInfo f.va src l)
  | .cp c put => (s.dropFar f.id).putLost f.vd c put
  | .peer _ => s

/-- A reply handed on: the request that it names completes (R261, R265); replies for a closing world are discarded (R266). -/
def State.takeReply (s : State) (p : Packet) : State :=
  match s.farReq p.rtag with
  | none => s
  | some f =>
    if (s.vd f.vd).closing.isSome then s.dropFar f.id
    else
      match p.stat with
      | .closed => s.farFailed f tcPeerClosed (if p.orig == 1 then 3 else 2)
      | .access | .full => s.farFailed f tcFarAccess (if p.orig == 1 then 3 else 2)
      | .ok => if p.bad then s.farFailed f tcIntegrity 2 else s.farOk f p

/-! ### Packets of other packages (R253) -/

/-- A CLOSE packet (R266): later requests of the tenant for that package are answered here. -/
def State.takeClose (s : State) (p : Packet) : State :=
  match s.tenantOfSlot p.slot with
  | some t => if s.closed.contains (t, p.src) then s else { s with closed := s.closed ++ [(t, p.src)] }
  | none => s

/-- A donor's slots return once a packet for it has arrived, a request for one of its frames or a message for its Wharf (R74), handed on already or not. -/
def State.wakeDonor (s : State) (p : Packet) : State :=
  match p.typ with
  | .read | .write | .atom | .cas | .red | .flag => (match s.frameOwner p.pa with | some o => s.returnSlots o | none => s)
  | .msg => s.returnSlots p.dvd
  | .reply | .heart | .close => s

/-- A packet handed on (R253). -/
def State.handOn (s : State) (v : Nat) (p : Packet) : State :=
  match p.typ with
  | .read | .write | .atom | .cas | .red | .flag => s.acceptPeer v p
  | .reply => s.takeReply p
  | .msg => s.takePacket p
  | .close => s.takeClose p
  | .heart => s

/-- Packets that came early and whose turn has come. -/
def State.drainEarly : Nat → State → Nat → Nat → State
  | 0, s, _, _ => s
  | n + 1, s, v, src =>
    let x := s.stream (s.vd v).tenant src
    match x.early.find? (fun p => p.lseq == x.want) with
    | none => s
    | some p => State.drainEarly n ((s.setStream { x with early := x.early.erase p, want := x.want + 1 }).handOn v p) v src

/-- A packet that came in a slot of which no scheduled VD here has the turn: its request is checked as every one is, and answered in the slot (R260); a message is
taken or refused by the Wharf that it names (R267). An answer in the reach that no world's home makes carries the zero clock (log 21). -/
def State.refuseStray (s : State) (p : Packet) : State :=
  match p.typ with
  | .read | .write | .atom | .cas | .red | .flag =>
    let c := s.homeCheck p.pa p.keyid p.lkey p.typ
    if c.1 == .ok then s.enterHome c.2 p
    else s.sendInSlot p.slot { typ := .reply, stat := c.1, dst := p.src, rtag := p.rtag, pa := p.pa, clock := if s.sameReach p.src then some Clock.zero else none }
  | .msg => if p.kind == .eager && p.off == 0 || p.kind == .rts then s.refuseMsg p ((s.wharfCheck p).getD .closed) else s
  | .close => s.takeClose p
  | .reply => s.takeReply p
  | .heart => s

/-- The VD whose tenant's stream a packet belongs to: the one that made the request of a reply, and else the one that has the slot (R253). -/
def State.streamVd (s : State) (p : Packet) : Option Nat :=
  match p.typ, s.farReq p.rtag with
  | .reply, some f => some f.vd
  | _, _ => s.vdOfSlot p.slot

/-- A packet in its stream: its world and source hand packets on in LSEQ order (R253). Where the slot has no scheduled VD, the tenant's stream goes on with it. -/
def State.arriveStream (s : State) (p : Packet) : State :=
  match s.streamVd p with
  | none =>
    let x := s.stream ((s.tenantOfSlot p.slot).getD (2 ^ 16 + p.slot)) p.src
    (if serialLt p.lseq x.want then s else s.setStream { x with want := p.lseq + 1 }).refuseStray p
  | some v =>
    let x := s.stream (s.vd v).tenant p.src
    if p.lseq == x.want then (((s.setStream { x with want := x.want + 1 }).handOn v p).drainEarly x.early.length v p.src)
    else if serialLt x.want p.lseq && !x.early.contains p then s.setStream { x with early := x.early ++ [p] }
    else s

/-- A packet arrives. One whose tag check fails is discarded, and its replay is asked for (R251). What the package sent to itself has no sequence number. -/
def State.arrivePacket (s : State) (p : Packet) : State :=
  if p.dst != s.pkg then s
  else if p.garbled then s.emit (.linkReplay p)
  else if p.src == s.pkg then (s.wakeDonor p).handOn ((s.vdOfSlot p.slot).getD p.dvd) p
  else (s.wakeDonor p).arriveStream p

def execReadPacket (p : Packet) (s : State) : Out := .next (s.arrivePacket { p with typ := .read })
def execWritePacket (p : Packet) (s : State) : Out := .next (s.arrivePacket { p with typ := .write })
def execAtomPacket (p : Packet) (s : State) : Out := .next (s.arrivePacket { p with typ := .atom })
def execCasPacket (p : Packet) (s : State) : Out := .next (s.arrivePacket { p with typ := .cas })
def execRedPacket (p : Packet) (s : State) : Out := .next (s.arrivePacket { p with typ := .red })
def execFlagPacket (p : Packet) (s : State) : Out := .next (s.arrivePacket { p with typ := .flag })
def execReplyPacket (p : Packet) (s : State) : Out := .next (if p.src == s.pkg then s.takeReply p else s.arrivePacket { p with typ := .reply })
def execClosePacket (p : Packet) (s : State) : Out := .next (s.arrivePacket { p with typ := .close })
def execEager (p : Packet) (s : State) : Out := .next (s.arrivePacket { p with typ := .msg, kind := .eager })
def execRts (p : Packet) (s : State) : Out := .next (s.arrivePacket { p with typ := .msg, kind := .rts })
def execPull (p : Packet) (s : State) : Out := .next (s.arrivePacket { p with typ := .msg, kind := .pull })
def execData (p : Packet) (s : State) : Out := .next (s.arrivePacket { p with typ := .msg, kind := .data })
def execAck (p : Packet) (s : State) : Out := .next (s.arrivePacket { p with typ := .msg, kind := .ack })
def execNack (p : Packet) (s : State) : Out := .next (s.arrivePacket { p with typ := .msg, kind := .nack })

/-- HEART_PACKET (R290): proof that every write up to its WSEQ has arrived. -/
def execHeartPacket (p : Packet) (s : State) : Out :=
  if p.dst != s.pkg then .next s
  else if p.garbled then .next (s.emit (.linkReplay p))
  else match s.vdOfSlot p.slot with
    | some v => .next (s.heartSeen v p.src p.wseq)
    | none => .next s

/-! ### Heartbeats and timers -/

/-- Does a write of this package still wait to leave for a destination, or is its tag flit still to come (R290)? -/
def State.notLeft (s : State) (v dst : Nat) (f : Far) : Option (BitVec 16) :=
  let there := match f.leaf with | some l => !l.host && l.pkg == dst | none => false
  if f.vd == v && f.own && there && PType.writes f.op && (f.st == .queued || (f.st == .sent && decide (s.t < f.left))) then f.wseq else none

/-- The highest WSEQ such that every write to a destination up to it has left (R290). -/
def State.heartMark (s : State) (v dst : Nat) : BitVec 16 :=
  s.fars.foldl (fun (h : BitVec 16) (f : Far) => match s.notLeft v dst f with | some w => markBelow h w | none => h) (s.vd v).wctr

/-- Whom a fibre's HEART packet is for: the member at its other end, or over a plane the lowest package of another reach that the plane reaches (log 21). -/
def State.heartFor (s : State) (fibre : Nat) : Option Nat :=
  if fibre < 30 then (if s.memberHere (s.fibreMember fibre) then some (reachOf s.pkg * 16 + s.fibreMember fibre) else none)
  else (sortBy (fun a b => decide (a ≤ b)) (s.members.filter (fun p => !s.sameReach p && memberOf p == fibre - 30))).head?

/-- HEART_SEND (R252): the owning world's HEART packet at its own flit time. Where both fibres of the pair have failed it takes the detour, and rides to the
forwarding member like any of the world's packets (R257). It goes on both fibres of a pair and takes no number of the stream: its LSEQ is 0 (DESIGN CHOICE, log 21). -/
def execHeartSend (slot fibre : Nat) (s : State) : Out :=
  match s.vdOfSlot slot, s.heartFor fibre with
  | some v, some dst =>
    let p : Packet := { typ := .heart, src := s.pkg, dst := dst, slot := slot, wseq := s.heartMark v dst, left := s.t }
    if !((s.vd v).run == .running || (s.vd v).run == .halted) then .next s
    else if s.healthy fibre then
      let r := s.sealPacket p
      .next (r.2.emitPacket fibre s.t r.1)
    else if fibre < 30 then
      match s.route dst (fibre % 2 == 1) with
      | some (f, true) => .next (s.enqueueAt (.fibre f) (s.worldNum v) (.send { p with det := true }) s.t)
      | _ => .next s
    else .next s
  | _, _ => .next s

/-! ### Links that fail (R251, R256, R257) -/

/-- A packet has no path any more: its request is answered CLOSED here, its send ends CLOSED (R257, R268). -/
def State.unsent (s : State) (p : Packet) : State :=
  let s := s.replaceRequested
  match p.typ with
  | .read | .write | .atom | .cas | .red | .flag => s.answerHere p.rtag .closed true
  | .msg =>
    match (s.vd p.svd).sendTo p.dst p.dvd p.mseq with
    | some i => if p.kind == .eager || p.kind == .rts || p.kind == .data then s.failTx p.svd i .closed else s
    | none => s
  | .reply | .heart | .close => s

/-- Packets of the package's own that wait for a fibre, taken off their queues and put on the paths that R247 or R257 give now. -/
def State.reroute (s : State) (off : Req → Bool) : State :=
  let gone (r : Req) : Bool := (match r.item with | .send _ | .resend _ => true | _ => false) && off r
  (s.reqs.filter gone).foldl (fun (s : State) r => match r.item with
    | .send p | .resend p =>
      (match s.route p.dst (p.lseq.getLsbD 0) with
       | some (g, det) => s.enqueueAt (.fibre g) r.world (.send { p with det := det }) r.after
       | none => s.unsent p)
    | _ => s) { s with reqs := s.reqs.filter (fun r => !gone r) }

/-- A fibre fails: its queues go to the paths that R247 or R257 give, and so do the packets that it was to forward. -/
def State.loseFibre (s : State) (f : Nat) : State :=
  let s := (s.failFibre f).reroute (fun r => r.st == .fibre f)
  (s.transit.filter (fun x => x.1 == f)).foldl (fun (s : State) x => s.joinTransit x) { s with transit := s.transit.filter (fun x => x.1 != f) }

/-- A fibre of another package has failed: what waits for it takes the next plane, or another forwarding member (R247, R257). -/
def State.losePeerFibre (s : State) (pkg f : Nat) : State :=
  if s.peerFailed.contains (pkg, f) then s
  else { s with peerFailed := s.peerFailed ++ [(pkg, f)] }.reroute (fun r => match r.item with
    | .send p | .resend p => (p.dst == pkg && r.st == Struct.fibre f) || (p.det && ((s.route p.dst (p.lseq.getLsbD 0)).map (fun (w : Nat × Bool) => Struct.fibre w.1) != some r.st))
    | _ => false)

/-- A packet goes again before all others of its slot's queue: the package's own as it was sealed, another one's in the transit flit times (R251, R257). -/
def State.replayPacket (s : State) (fibre : Nat) (p : Packet) : State :=
  if p.src == s.pkg then { s with reqs := ⟨.fibre fibre, s.queueOfSlot p.slot, .resend p, 0⟩ :: s.reqs }
  else { s with transit := (fibre, p.slot, p) :: s.transit }

/-- LINK_REPLAY (R251): the packet goes again, ahead of its slot's queue; after three failed replays the fibre is failed and it takes another. -/
def execLinkReplay (fibre : Nat) (p : Packet) (s : State) : Out :=
  let key := Packet.replayKey p
  let n : Nat := ((s.replays.find? (fun r => r.1 == fibre && r.2.1 == key)).map (·.2.2)).getD 0
  let rest := s.replays.filter (fun r => !(r.1 == fibre && r.2.1 == key))
  if n < 3 then .next (({ s with replays := rest ++ [(fibre, key, n + 1)] }.replayPacket fibre p).post (p.left + 44800) (.packetDropTimeout p))
  else .next (({ s with replays := rest }.replayPacket fibre p).loseFibre fibre)

/-- REQUEST_TIMEOUT (R256): no reply 64 us after departure. -/
def execRequestTimeout (far : Nat) (s : State) : Out :=
  match s.farReq far with
  | none => .next s
  | some f => if f.st != .sent then .next s else .next (s.takeReply { typ := .reply, stat := .closed, rtag := far, orig := 1 })

/-- CLOCK_ENTRY_RAISE (R293): every clock of the world on this package. -/
def execClockEntryRaise (vd : Nat) (s : State) : Out :=
  let am := s.marks vd
  let s := s.reclock vd (fun c => Clock.raiseStale c am)
  .next (if (s.vd vd).world.isSome then s.post (s.t + 4096 * s.roundLen) (.clockEntryRaise vd) else s)

end Sys2Proof.Machine
end

