-- ==== Sys2Proof/Machine/Control.lean ====
section
/-! DEFINITION. The control-flow words (R121-R129) and the trap words (R314-R317). -/
namespace Sys2Proof.Machine
open Sys2Proof

/-- The target pc + OFF32 of a format C word at `pc`, if it lies in the text (R122). -/
def branchTarget (pc off : BitVec 32) (words : Nat) : Option (BitVec 32) :=
  let t : Int := (pc.toNat : Int) + off.toInt
  if 0 ≤ t ∧ t < (words : Int) then some (BitVec.ofInt 32 t) else none

/-- A format C word: ILLEGAL_ENCODING whatever its guard where the target is off the text (R122), else its effect with the target. -/
def branchWord (h : Hdr) (n : Needs) (off : BitVec 32) (body : BitVec 32 → State → Crew → List Nat → Eff) (s : State) : Out :=
  match s.issue with
  | none => .next s
  | some is =>
    match branchTarget is.at off (s.gridOf is.crew).words with
    | none => .next (s.trapPath is tcIllegalEncoding 0)
    | some t => word h n (body t) s

/-- bra (R123). -/
def execBra (h : Hdr) (off : BitVec 32) (s : State) : Out :=
  branchWord h {} off (fun t s _ act => .ok (s.updCur (fun k => k.onLanes act (fun _ x => { x with pc := t })))) s

/-- call (R123). -/
def execCall (h : Hdr) (d : BitVec 8) (off : BitVec 32) (s : State) : Out :=
  branchWord h { dst := [(d, 1)] } off (fun t s _ act =>
    .ok (s.updCur (fun k => k.onLanes act (fun _ x => { regWrite x d.toNat (s.curPc + 1) with pc := t })))) s

/-- The words that go to a register target, with or without a link (R122, R124). -/
def registerBranch (h : Hdr) (link : Option (BitVec 8)) (a : BitVec 8) : State → Out :=
  word h { dst := (link.map (·, 1)).toList, src := [(a, 1)] } (fun s k act =>
    match act.find? (fun l => decide ((s.gridOf s.cur).words ≤ (rd s k 0 l a).toNat)) with
    | some l => .trap tcHandle ((rd s k 0 l a).setWidth 64)
    | none => .ok (s.updCur (fun k' => k'.onLanes act (fun l x =>
        let x := match link with | some d => regWrite x d.toNat (s.curPc + 1) | none => x
        { x with pc := rd s k 0 l a }))))

/-- brx (R124). -/
def execBrx (h : Hdr) (a : BitVec 8) (s : State) : Out := registerBranch h none a s

/-- callx (R124). -/
def execCallx (h : Hdr) (d a : BitVec 8) (s : State) : Out := registerBranch h (some d) a s

/-- ret (R124). -/
def execRet (h : Hdr) (a : BitVec 8) (s : State) : Out := registerBranch h none a s

/-- jmark (R125). -/
def execJmark (h : Hdr) (j : BitVec 2) (s : State) : Out :=
  word h {} (fun s k act =>
    if (k.joinReg j.toNat).wait != 0 then .trap tcConvergence 0
    else .ok (s.updCur (fun k => { k with joins := k.joins.set j.toNat { k.joinReg j.toNat with mask := laneMask act } }))) s

/-- The lanes that wait at a join, at the join's own word (R125). -/
def Crew.arriveJoin (k : Crew) (j : Nat) (pc : BitVec 32) (act : List Nat) : Crew :=
  let r := k.joinReg j
  let here := act.filter (fun l => r.mask.getLsbD l)
  let k := k.onLanes here (fun _ x => { x with st := .joinwait j, pc := pc })
  { k with joins := k.joins.set j { r with wait := r.wait ||| laneMask here } }

/-- join (R125). -/
def execJoin (h : Hdr) (j : BitVec 2) (s : State) : Out :=
  word h {} (fun s _ act => .ok (s.updCur (fun k => (k.arriveJoin j.toNat s.curPc act).release j.toNat))) s

/-- Lanes exit (R126, R117): out of every MASK, outstanding results discarded, joins released. -/
def Crew.exitLanes (k : Crew) (act : List Nat) : Crew :=
  let k := k.onLanes act (fun _ x => { x with st := .exited, pend := [] })
  Crew.releaseAll { k with joins := k.joins.map (fun r => { r with mask := r.mask &&& ~~~laneMask act }) }

/-- exit (R126); with every lane EXITED the crew retires (R21). -/
def execExit (h : Hdr) (s : State) : Out :=
  word h {} (fun s _ act =>
    let s := s.updCur (fun k => k.exitLanes act)
    .ok (if (s.crew s.cur).lanes.all (fun x => x.st == .exited) then s.crewOut s.cur else s)) s

/-- yield (R112, R127): the bit stays to the end of the crew turn after this one. -/
def execYield (h : Hdr) (s : State) : Out :=
  word h {} (fun s _ act => .ok (s.updCur (fun k => k.onLanes act (fun _ x => { x with yb := 2 })))) s

/-- nop (R127). -/
def execNop (h : Hdr) (s : State) : Out := word h {} (fun s _ _ => .ok s) s

/-- Items of the launch not yet moved to a queue (R119). -/
def Grid.itemsLeft (g : Grid) : Nat := g.lastItem - g.nextItem

/-- The item queue of a core for a grid. A workgroup that R322 has put on a core without one finds an empty queue, which the mover does not serve: the queue of
R119 is made by a placement (DESIGN CHOICE, log 23). -/
def Grid.queue (g : Grid) (core : Nat) : ItemQ := (g.queues.find? (fun q => q.core == core)).getD { core := core }

/-- The grid with items taken from a core's queue: with 64 or fewer left and the range not spent it is owed a chunk from clock t (R119). -/
def Grid.takeItems (g : Grid) (core n t : Nat) : Grid :=
  { g with queues := g.queues.map (fun q =>
      if q.core == core then
        let left := q.items.drop n
        { q with items := left,
                 fell := if q.fell.isSome then q.fell else if left.length ≤ 64 ∧ 0 < g.itemsLeft then some t else none }
      else q) }

/-- itake (R128). -/
def execItake (h : Hdr) (d : BitVec 8) (s : State) : Out :=
  word h { dst := [(d, 1)] } (fun s k act =>
    let gi := (s.wg k.wg).grid
    let g := s.grid gi
    let q := (g.queue k.core).items
    if q.length < act.length ∧ 0 < g.itemsLeft then .wait .held
    else
      let s := s.setGrid gi (g.takeItems k.core act.length s.t)
      .ok (s.updCur (fun k' => (act.zipIdx).foldl (fun k' p =>
        k'.setLane p.1 (regWrite (k'.lane p.1) d.toNat (match q[p.2]? with | some i => BitVec.ofNat 32 i | none => 0xFFFFFFFF))) k'))) s

/-- drain (R129). -/
def execDrain (h : Hdr) (s : State) : Out :=
  word h {} (fun s k act => .ok (s.unissue k (act.filter (fun l => !(k.lane l).pend.isEmpty)) (fun x => waitState x.pend))) s

/-- trap (R315). -/
def execTrap (h : Hdr) (imm : BitVec 31) (s : State) : Out := word h {} (fun _ _ _ => .trap tcSoftware (imm.setWidth 64)) s

/-- tret (R316); a deferred trap that waited is due (R310). -/
def execTret (h : Hdr) (nxt : Bool) (s : State) : Out :=
  word h {} (fun s k act =>
    if !k.hm || laneMask act != k.hl then .trap tcConvergence 0
    else
      let s := s.updCur (fun k => k.leaveHandler nxt)
      .ok (if k.pend.isSome then s.post s.t (.deferredTrap s.cur) else s)) s

/-- A crew stops for the debugger, or with stop-world every crew of its world does (R324). A crew that makes a step stops for the new reason: the brk that it
steps over stops it with BREAKPOINT (R317; DESIGN CHOICE over R325's STEP, log 16). -/
def State.debugHalt (s : State) (c : Nat) (why : StopWhy) : State :=
  let v := s.vdOf c
  let stop (s : State) (i : Nat) : State := s.setCrew i { s.crew i with halted := if (s.crew i).step then some why else some (((s.crew i).halted).getD why), step := false, stepEnd := false }
  if (s.vd v).dbg.stopWorld then
    ((List.range s.crews.length).filter (fun i => (s.crew i).live && s.vdOf i == v)).foldl stop s
  else stop s c

/-- brk (R317). -/
def execBrk (h : Hdr) (code : BitVec 8) (s : State) : Out :=
  word h {} (fun s _ _ =>
    if (s.vd (s.vdOf s.cur)).dbg.armed then .ok (s.debugHalt s.cur .breakpoint)
    else .trap tcBreakpoint (code.setWidth 64)) s

end Sys2Proof.Machine
end

