-- ==== Sys2Proof/Machine/Dispatcher.lean ====
section
/-! DEFINITION. The dispatcher (R57-R61, R307), dependences (R38, R39, R52), workgroup start (R25, R36, R199, R227, R228) and the item mover
(R119). -/
namespace Sys2Proof.Machine
open Sys2Proof

/-! ### Reservations (Table 4.1) -/

/-- The workgroups of a VD that hold reservations on a core. Those of other worlds never count (R61). -/
def State.wgsOn (s : State) (v core : Nat) : List Wg :=
  s.wgs.filter (fun w => w.live && !w.saved && w.core == core && (s.grid w.grid).vd == v)

/-- The crews that hold slots of a partition, with their grids: a slot is held until its workgroup retires. -/
def State.partHolds (s : State) (v core part : Nat) : List (Crew × Grid) :=
  (s.wgsOn v core).flatMap (fun w => ((w.crews.map s.crew).filter (fun k => k.part == part)).map (·, s.grid w.grid))

/-- The partitions of a world on a core, ascending. -/
def Allot.partsOn (a : Allot) (core : Nat) : List Nat := sortBy (fun x y => decide (x ≤ y)) ((a.parts.filter (fun p => p.1 == core)).map (·.2))

/-- The cores on which a world holds a partition, ascending. -/
def Allot.cores (a : Allot) : List Nat := sortBy (fun x y => decide (x ≤ y)) ((a.parts.map (·.1)).eraseDups)

/-- The near banks assigned to a world on a core (R16). -/
def Allot.banksOn (a : Allot) (core : Nat) : List Nat := (a.banks.filter (fun b => b.1 == core)).map (fun b => b.2.1)

/-! ### Assigning crews (R58, R307) -/

/-- Where a crew goes. -/
structure Seat where
  part : Nat
  pos  : Nat
  slot : Nat
  deriving DecidableEq, Repr, Inhabited

/-- The pointers of R58 as they stand for one core: the least partition that the next crew may take, and each partition's barrel pointer. -/
structure Pointers where
  part : Nat
  bar  : List (Nat × Nat)
  deriving DecidableEq, Repr, Inhabited

/-- The first partition at or after the pointer, with wrap. -/
def nextPart (ps : List Nat) (ptr : Nat) : Option Nat := match ps.find? (fun p => decide (ptr ≤ p)) with | some p => some p | none => ps.head?

/-- The first position at or after the pointer with a free slot, and its lowest free slot. -/
def freeSeat (taken : List (Nat × Nat)) (ptr : Nat) : Option (Nat × Nat) :=
  ((List.range 8).map (fun i => (ptr + i) % 8)).foldl (fun o pos =>
    match o with
    | some x => some x
    | none => ((List.range 8).find? (fun sl => !taken.contains (pos, sl))).map (pos, ·)) none

/-- Seats for n crews in order. -/
def assignCrews (ps : List Nat) (held : Nat → List (Nat × Nat)) : Nat → Pointers → List Seat → Option (List Seat × Pointers)
  | 0, q, done => some (done, q)
  | n + 1, q, done =>
    match nextPart ps q.part with
    | none => none
    | some p =>
      let taken := held p ++ (done.filter (fun x => x.part == p)).map (fun x => (x.pos, x.slot))
      match freeSeat taken (((q.bar.find? (fun b => b.1 == p)).map (·.2)).getD 0) with
      | none => none
      | some (pos, sl) => assignCrews ps held n ⟨p + 1, keyed p ((pos + 1) % 8) q.bar⟩ (done ++ [⟨p, pos, sl⟩])

/-- Is a list of unit numbers free of the ranges that are taken? -/
def unitsFree (usable : Nat → Bool) (taken : List (Nat × Nat)) (first n : Nat) : Bool :=
  (List.range n).all (fun i => usable (first + i) && taken.all (fun r => !(decide (r.1 ≤ first + i) && decide (first + i < r.1 + r.2))))

/-- The lowest place for n 512-byte units of near store in the world's banks on a core (the manual only asks for one contiguous range; log 17). -/
def State.nearPlace (s : State) (v core n : Nat) (a : Allot) : Option Nat :=
  let banks := Allot.banksOn a core
  let taken := (s.wgsOn v core).map (fun w => (w.near / 512, (s.grid w.grid).near))
  if n = 0 then some 0
  else (List.range 1024).find? (fun u => decide (u + n ≤ 1024) && unitsFree (fun x => banks.contains (x / 32)) taken u n)

/-- The seats and the near range of a workgroup of a grid on a core, with the pointers after it, if every resource of Table 4.1 is free there. -/
def State.fitOn (s : State) (v : Nat) (g : Grid) (core : Nat) : Option (List Seat × Nat × Pointers) :=
  let d := s.vd v
  let a := s.allotOfVd v
  let ps := Allot.partsOn a core
  let q : Pointers := ⟨((d.partPtr.find? (fun p => p.1 == core)).map (·.2)).getD 0, (d.barPtr.filter (fun b => b.1 == core)).map (fun b => b.2)⟩
  match assignCrews ps (fun p => (s.partHolds v core p).map (fun x => (x.1.pos, x.1.slot))) g.crews q [] with
  | none => none
  | some (seats, q') =>
    let mtx (role : Nat) : Bool := role == 1
    let ok := ps.all (fun p =>
      let old := s.partHolds v core p
      let new := ((List.range g.crews).filter (fun c => (seats.getD c default).part == p))
      let m := (new.filter (fun c => mtx (g.roles.getD c 0))).length
      decide ((old.map (fun x => x.2.regs)).sum + new.length * g.regs ≤ 4096) &&
      decide ((old.map (fun x => 128 * x.2.spill)).sum + new.length * 128 * g.spill ≤ 65536) &&
      decide ((old.map (fun x => if mtx x.1.role then x.2.slots else 0)).sum + m * g.slots ≤ 64) &&
      decide ((old.map (fun x => if mtx x.1.role then x.2.accs else 0)).sum + m * g.accs ≤ 8))
    let here := (s.wgsOn v core).map (fun w => s.grid w.grid)
    if ok && decide ((here.map (·.tiles)).sum + g.tiles ≤ 256) && decide ((here.map (fun x => x.muster.length)).sum + g.muster.length ≤ 256) then
      (s.nearPlace v core g.near a).map (fun u => (seats, u * 512, q'))
    else none

/-- Is a core in service (R357)? -/
def State.coreWorks (s : State) (c : Nat) : Bool := !s.outOf.contains (.core c)

/-- The first core that passes, from the core pointer on (R59); one that is out of service is passed over (R357). -/
def State.findCore (s : State) (v : Nat) (g : Grid) : Option (Nat × List Seat × Nat × Pointers) :=
  let cs := (Allot.cores (s.allotOfVd v)).filter s.coreWorks
  let p := (s.vd v).corePtr
  (cs.filter (fun c => decide (p ≤ c)) ++ cs.filter (fun c => decide (c < p))).foldl (fun o c =>
    match o with
    | some x => some x
    | none => (s.fitOn v g c).map (c, ·)) none

/-! ### Starting a workgroup -/

/-- The matrix pools of a workgroup (R227-R229): one for each partition with an MTX crew. Every slot and tile has undefined contents of its own. -/
def Grid.pools (g : Grid) (seats : List Seat) (serial : List Nat) : List Pool :=
  let parts := ((List.range g.crews).filter (fun c => g.roles.getD c 0 == 1)).map (fun c => (seats.getD c default).part)
  parts.eraseDups.map (fun p =>
    let n := (parts.filter (· == p)).length
    { part := p, slots := (List.range (g.slots * n)).map (fun i => { serial := p :: i :: 0 :: serial }),
      accs := (List.range (g.accs * n)).map (fun i => { serial := p :: i :: 1 :: serial }) })

/-- A crew's lane at its start (R36, R291). -/
def Grid.firstLane (g : Grid) (c : Clock) : Lane :=
  { pc := BitVec.ofNat 32 g.entry, st := .held, clock := c,
    regs := [BitVec.ofNat 32 g.args, BitVec.ofNat 32 (g.args / 2 ^ 32), BitVec.ofNat 32 (g.near * 512)] ++ List.replicate (g.regs - 3) 0 }

/-- The core after a chosen one, to which the pointer moves (R59). -/
def State.coreAfter (s : State) (v core : Nat) : Nat :=
  let cores := Allot.cores (s.allotOfVd v)
  (cores.find? (fun c => decide (core < c))).getD (cores.headD 0)

/-- A workgroup's reservations made on a core, in one step (R57, R21, R25, R36, R191, R199). -/
def State.reserve (s : State) (gi : Nat) (x : Nat × List Seat × Nat × Pointers) : State :=
  let g := s.grid gi
  let v := g.vd
  let core := x.1
  let seats := x.2.1
  let near := x.2.2.1
  let q := x.2.2.2
  let w := s.wgs.length
  let serial := g.nextWg :: Grid.name g ++ s.stamp v
  let c0 := s.crews.length
  let ids := (List.range g.crews).map (c0 + ·)
  let mk (c : Nat) : Crew :=
    let seat := seats.getD c default
    { live := true, wg := w, num := c, role := g.roles.getD c 0, core := core, part := seat.part, pos := seat.pos, slot := seat.slot,
      lanes := List.replicate 8 (g.firstLane (s.marks v)), joins := List.replicate 4 {} }
  let wg : Wg := { live := true, grid := gi, num := g.nextWg, core := core, near := near, serial := serial, crews := ids,
                   tiles := List.replicate g.tiles {}, musters := g.muster.map (fun m => { member := m }), pools := g.pools seats serial }
  let d := s.vd v
  let d := { d with corePtr := s.coreAfter v core, partPtr := keyed core q.part d.partPtr,
                    barPtr := d.barPtr.filter (fun b => b.1 != core) ++ q.bar.map (fun b => (core, b.1, b.2)) }
  let s := { s with wgs := s.wgs ++ [wg], crews := s.crews ++ (List.range g.crews).map mk }
  let s := s.setNear core (Cells.forget (s.nearOf core) near (g.near * 512))
  let s := (List.range g.crews).foldl (fun (s : State) c =>
    let k := mk c
    (List.range 8).foldl (fun (s : State) l => s.setSpill core k.part (Cells.forget (s.spillOf core k.part) (k.spillAt l 0) 8192)) s) s
  (s.setVd v d).setGrid gi { g with nextWg := g.nextWg + 1 }

/-- The item queue of a core, made with its first chunk at the launch's first placement there (R119). -/
def Grid.openQueue (g : Grid) (core t : Nat) : Grid :=
  if g.icount = 0 || g.queues.any (fun q => q.core == core) then g
  else
    let n := min 64 g.itemsLeft
    { g with queues := g.queues ++ [{ core := core, items := (List.range n).map (g.nextItem + ·), fell := if n < g.itemsLeft then some t else none }],
             nextItem := g.nextItem + n }

/-- A reserved workgroup is placed (R60, R119, R207): its crews start in this dispatch step (R21), with the package's AM in their lanes' clocks (R291), and are ready
32 clk later. -/
def State.placeReserved (s : State) (w : Nat) : State :=
  let x := s.wg w
  let g := s.grid x.grid
  let g := { g.openQueue x.core s.t with start := some (g.start.getD (s.cycleOf g.vd s.t)) }
  let s := (s.setGrid x.grid g).setWg w { x with placed := true }
  let am := s.marks g.vd
  let s := x.crews.foldl (fun (s : State) c => s.setCrew c { s.crew c with ready := s.t + 32, lanes := (s.crew c).lanes.map (fun x => { x with clock := am }) }) s
  let s := (sortBy (fun a b => decide (a ≤ b)) ((x.crews.map (fun c => (s.crew c).part)).eraseDups)).foldl (fun (s : State) p => s.placementFill x.core p x.grid) s
  s.post (s.t + 32) (.crewsReady w)

/-! ### Dependences (R38, R39, R52) -/

/-- The workgroups of a grid. -/
def Grid.size (g : Grid) : Nat := g.gx * g.gy * g.gz

/-- The producer set of consumer workgroup w (Table 2.3). -/
def Grid.producers (g p : Grid) (w : Nat) : List Nat :=
  let cap (i : Nat) : Nat := min i (p.size - 1)
  match g.form with
  | 1 => List.range p.size
  | 2 => [cap w]
  | 3 => let lo := w * g.mapA / g.mapB; (List.range (g.mapC + 1)).map (fun i => cap (lo + i))
  | 4 =>
    let c : Int := (g.mapC : Int)
    let near (a b : Nat) : Bool := decide (-c ≤ (a : Int) - (b : Int)) && decide ((a : Int) - (b : Int) ≤ c)
    let x := w % g.gx
    let y := w / g.gx % g.gy
    let z := w / (g.gx * g.gy)
    (List.range p.size).filter (fun i => near (i % g.gx) x && near (i / g.gx % g.gy) y && near (i / (g.gx * g.gy)) z)
  | _ => []

/-- Are the dependences of workgroup w met? A producer that has retired in full meets them all (R39). -/
def State.depsMet (s : State) (g : Grid) (w : Nat) : Bool :=
  match g.prod with
  | none => true
  | some pi =>
    let p := s.grid pi
    (p.st == .retired && p.aborted.isNone) || (g.producers p w).all p.bits.contains

/-! ### Choosing (R59, R61) -/

/-- Has the grid a workgroup still to place? -/
def Grid.wants (g : Grid) (v : Nat) : Bool := g.st == .active && g.vd == v && g.aborted.isNone && decide (g.nextWg < g.size)

/-- Grids of a VD with workgroups to place, in the order in which they were launched. -/
def State.waitingGrids (s : State) (v : Nat) : List Nat :=
  sortBy (fun a b => decide ((s.grid a).order < (s.grid b).order) || ((s.grid a).order == (s.grid b).order && decide ((s.grid a).ctx ≤ (s.grid b).ctx)))
    ((List.range s.grids.length).filter (fun i => (s.grid i).wants v))

/-- The trial of a whole grid (R61): every workgroup reserved in turn, or nothing. -/
def State.reserveAll : Nat → State → Nat → Option State
  | 0, s, _ => some s
  | n + 1, s, gi =>
    match s.findCore (s.grid gi).vd (s.grid gi) with
    | none => none
    | some x => State.reserveAll n (s.reserve gi x) gi

/-- A workgroup of a pass that is reserved and not yet placed. -/
def State.passNext (s : State) (v : Nat) : Option Nat :=
  (List.range s.wgs.length).find? (fun w => (s.wg w).live && !(s.wg w).placed && !(s.wg w).saved && (s.grid (s.wg w).grid).vd == v
    && (s.grid (s.wg w).grid).aborted.isNone)

/-- Are the dependences met of what the dispatcher would place next: a grid's next workgroup, or all of a co-resident grid (R61)? -/
def State.wantsPlace (s : State) (gi : Nat) : Bool :=
  let g := s.grid gi
  if g.cor then (List.range g.size).all (fun w => s.depsMet g w) else s.depsMet g g.nextWg

/-- Does the search for it succeed? -/
def State.findsPlace (s : State) (gi : Nat) : Bool :=
  let g := s.grid gi
  if g.cor then (State.reserveAll g.size s gi).isSome else (s.findCore g.vd g).isSome

/-- May the dispatcher place it? A search that failed is made again once a workgroup of the world has retired (R59, R61). -/
def State.eligible (s : State) (gi : Nat) : Bool := !(s.grid gi).tried && s.wantsPlace gi && s.findsPlace gi

/-- Searches that have been made in vain are not made again: those of the grids that come before one in the launch order, or of all. -/
def State.noteTried (s : State) (v : Nat) (upTo : Option Nat) : State :=
  let vain (gi : Nat) : Bool := s.wantsPlace gi && !s.findsPlace gi
  ((s.waitingGrids v).takeWhile (fun gi => some gi != upTo)).foldl (fun (t : State) gi =>
    if vain gi then t.setGrid gi { t.grid gi with tried := true } else t) s

/-- A workgroup of a VD has retired, or its pointers are set: every search is made again. -/
def State.retryAll (s : State) (v : Nat) : State :=
  { s with grids := s.grids.map (fun (g : Grid) => if g.vd == v && g.tried then { g with tried := false } else g) }

/-- What the dispatcher does next for a VD: a placement of a pass, else of the earliest launched grid whose next workgroup is eligible. -/
def State.nextPlacement (s : State) (v : Nat) : Option Instr :=
  match s.passNext v with
  | some w => some (.placeWorkgroup v (s.wg w).grid)
  | none =>
    (s.waitingGrids v).foldl (fun o gi =>
      match o with
      | some i => some i
      | none =>
        if !s.eligible gi then none else if (s.grid gi).cor then some (.coresidentPass v gi) else some (.placeWorkgroup v gi)) none

/-! ### Rows -/

/-- PLACE_WORKGROUP (R57-R60). -/
def execPlaceWorkgroup (vd grid : Nat) (s : State) : Out :=
  match s.passNext vd with
  | some w => if (s.wg w).grid == grid then .next ((s.countAccept .disp).placeReserved w) else .next s
  | none =>
    let g := s.grid grid
    if !g.wants vd || g.cor || g.tried || !s.depsMet g g.nextWg then .next s
    else
      match s.findCore vd g with
      | none => .next s
      | some x => .next ((((s.noteTried vd (some grid)).countAccept .disp).reserve grid x).placeReserved s.wgs.length)

/-- CORESIDENT_PASS (R61): the whole grid is reserved at once; its workgroups are then placed one per clock. -/
def execCoresidentPass (vd grid : Nat) (s : State) : Out :=
  let g := s.grid grid
  if !g.wants vd || g.nextWg != 0 || !g.cor || !s.eligible grid then .next s
  else .next ((State.reserveAll g.size (s.noteTried vd (some grid)) grid).getD s)

/-- CREWS_READY (R60): the crews have started. Their lanes stay HELD where the word at ENTRY is not in the instruction cache (R36). -/
def execCrewsReady (wg : Nat) (s : State) : Out :=
  let go (k : Crew) : Crew := if k.live then { k with ready := s.t, lanes := k.lanes.map Lane.wake } else k
  .next ((s.wg wg).crews.foldl (fun (s : State) c => s.updCrew c go) (s.setWg wg { s.wg wg with started := true }))

/-- ITEM_MOVE (R119): the next chunk of up to 64 items. A queue that still holds 64 or fewer falls anew at this clock, behind those that fell earlier
(DESIGN CHOICE, log 23). -/
def execItemMove (grid core : Nat) (s : State) : Out :=
  let g := s.grid grid
  let n := min 64 g.itemsLeft
  let move (q : ItemQ) : ItemQ :=
    if q.core == core && q.fell.isSome then
      let items := q.items ++ (List.range n).map (g.nextItem + ·)
      { q with items := items, fell := if items.length ≤ 64 ∧ n < g.itemsLeft then some s.t else none }
    else q
  if n = 0 || !g.queues.any (fun q => q.core == core && q.fell.isSome) then
    .next (s.setGrid grid { g with queues := g.queues.map (fun q => if q.core == core then { q with fell := none } else q) })
  else .next ((s.countAccept .items).setGrid grid { g with queues := g.queues.map move, nextItem := g.nextItem + n })

/-- The queue that the mover serves next for a VD: the one that fell first, ties by core (R119). Of two launches' queues on one core that fell in one clock, which
R119 does not part, the earlier launch's comes first (DESIGN CHOICE, log 23). -/
def State.nextMove (s : State) (v : Nat) : Option Instr :=
  ((List.range s.grids.length).filter (fun i => (s.grid i).vd == v && (s.grid i).st == .active)).flatMap (fun i =>
    (s.grid i).queues.filterMap (fun q => q.fell.map (fun f => (f, q.core, i))))
  |>.foldl (fun (o : Option (Nat × Nat × Nat)) x => match o with
    | none => some x
    | some b => if x.1 < b.1 ∨ (x.1 = b.1 ∧ x.2.1 < b.2.1) then some x else some b) none
  |>.map (fun x => .itemMove x.2.2 x.2.1)

end Sys2Proof.Machine
end

