-- ==== Sys2Proof/Machine/Records.lean ====
section
/-! DEFINITION. The records of chapter 2 as the command processor reads and checks them: code-object header, launch record, format slots, manifests,
muster template, result regions (R30-R42). -/
namespace Sys2Proof.Machine
open Sys2Proof

/-! ### Fields -/

/-- The 64-bit words of a record. -/
def wordsOf (bs : List Byte) : List DWord := (List.range (bs.length / 8)).map (fun i => BitVec.ofNat 64 (ofBytes ((bs.drop (8 * i)).take 8)))

def recWord (ws : List DWord) (off : Nat) : DWord := ws.getD (off / 8) 0

/-- Field [hi:lo] of the word at an offset. -/
def field (ws : List DWord) (off hi lo : Nat) : Nat := fieldOf (recWord ws off) hi lo

/-- Are all these fields 0? -/
def zeroFields (ws : List DWord) (fs : List (Nat × Nat × Nat)) : Bool := fs.all (fun f => field ws f.1 f.2.1 f.2.2 == 0)

/-- An address field: 57 bits, aligned. -/
def addrField (ws : List DWord) (off align : Nat) : Option Nat :=
  let a := field ws off 63 0
  if a < 2 ^ 57 ∧ a % align = 0 then some a else none

/-! ### The code-object header (R32, Table 2.1) -/

structure Header where
  textOff   : Nat
  textWords : Nat
  dataOff   : Nat
  dataLen   : Nat
  entry     : Nat
  handler   : Nat
  res10     : Nat
  res18     : DWord
  roles0    : DWord
  roles1    : DWord
  deriving DecidableEq, Repr, Inhabited

/-- Reserved fields of launch-record word 0x18, and of the header's RES, which is laid out as that word (Tables 2.1 and 2.2). -/
def resourceReserved (off : Nat) : List (Nat × Nat × Nat) := [(off, 63, 56), (off, 47, 45), (off, 39, 38), (off, 31, 25), (off, 15, 11)]

def parseHeader (ws : List DWord) : Option Header :=
  let h : Header := { textOff := field ws 8 31 0, textWords := field ws 8 63 32, dataOff := field ws 16 31 0, dataLen := field ws 16 63 32,
                      entry := field ws 24 31 0, handler := field ws 24 63 32, res10 := field ws 32 63 32, res18 := recWord ws 40,
                      roles0 := recWord ws 48, roles1 := recWord ws 56 }
  let ok := field ws 0 31 0 == 0x4E595352 && field ws 0 47 32 == 1 &&
    zeroFields ws ([(0, 63, 48), (32, 31, 0), (64, 47, 40)] ++ resourceReserved 40 ++ (List.range 6).map (fun i => (80 + 8 * i, 63, 0))) &&
    h.textOff % 8 == 0 && decide (128 ≤ h.textOff) && decide (h.textOff + 8 * h.textWords ≤ h.dataOff) && decide (1 ≤ h.textWords) &&
    decide (h.entry < h.textWords)
  if ok then some h else none

/-- The end of the code object (R53). -/
def Header.extent (h : Header) : Nat := max (h.textOff + 8 * h.textWords) (h.dataOff + h.dataLen)

/-! ### Format slots and manifests (R40, R41) -/

def fmtSlotOf (w0 w1 : DWord) : Option FmtSlot :=
  let fmt := fieldOf w0 3 0
  let sf := fieldOf w0 7 4
  let xs := fieldOf w0 47 32
  let pitch := fieldOf w0 31 16
  if fieldOf w0 63 48 != 0 || fieldOf w0 15 13 != 0 || w1 != 0 then none
  else if fmt == 15 then some {}
  else if 8 ≤ fmt || 1 < sf || (sf == 1 && fmt != 3) || 32768 < pitch || (xs != 0 && !(fmt == 3 && sf == 0)) then none
  else some { fmt := fmt, sfmt := sf, ov := Ov.ofCode (fieldOf w0 9 8), rm := Rm.ofCode (fieldOf w0 11 10), ftz := w0.getLsbD 12,
              pitch := pitch, xscale := BitVec.ofNat 16 xs }

/-- The element size that BASE and the strides are multiples of (R41). -/
def manifestUnit (fmt : Nat) (scl : Bool) : Nat :=
  match fmt with
  | 0 => 4 | 6 => 4 | 7 => 4 | 1 => 2 | 2 => 2
  | 3 => if scl then 104 else 96
  | _ => 1

def manifestOf (ws : List DWord) : Option Manifest :=
  let m : Manifest := { base := field ws 0 63 0, fill := BitVec.ofNat 32 (field ws 8 63 32), scl := (recWord ws 8).getLsbD 11, swz := field ws 8 10 8,
                        rank := field ws 8 6 4, fmt := field ws 8 3 0,
                        dims := [field ws 16 31 0, field ws 16 63 32, field ws 24 31 0, field ws 24 63 32, field ws 32 31 0],
                        strides := 0 :: (List.range 4).map (fun i => field ws (40 + 8 * i) 63 0),
                        box := [field ws 72 15 0, field ws 72 31 16, field ws 72 47 32, field ws 72 63 48, field ws 80 15 0] }
  let unit := manifestUnit m.fmt m.scl
  let used (k : Nat) : Bool := decide (k < m.rank)
  let box (k : Nat) : Nat := if used k then m.box.getD k 1 else 1
  let row := (if m.fmt = 3 then box 0 / 128 else box 0) * unit
  let ok := zeroFields ws ([(8, 31, 12), (8, 7, 7), (32, 63, 32), (80, 63, 16)] ++ (List.range 5).map (fun i => (88 + 8 * i, 63, 0))) &&
    decide (m.base < 2 ^ 57) && decide (1 ≤ m.rank) && decide (m.rank ≤ 5) && decide (m.swz ≤ 5) && decide (m.fmt ≤ 7) &&
    (List.range 5).all (fun k => if used k then decide (1 ≤ m.dims.getD k 0) && decide (1 ≤ m.box.getD k 0) else m.dims.getD k 0 == 0 && m.box.getD k 0 == 0) &&
    m.base % unit == 0 && (List.range 5).all (fun k => k == 0 || !used k || m.strides.getD k 0 % unit == 0) &&
    (m.fmt != 3 || (m.dims.getD 0 0 % 128 == 0 && m.box.getD 0 0 % 128 == 0)) &&
    decide (row * box 1 * box 2 * box 3 * box 4 ≤ 32768)
  if ok then some m else none

/-! ### The launch record (R34, R35, Table 2.2) -/

/-- The launch record's own fields that are not in the grid's copies. -/
structure LaunchRec where
  code    : Nat
  muster  : Nat
  mcount  : Nat
  mantab  : Nat
  mancnt  : Nat
  args    : Nat
  argLen  : Nat
  regions : Nat
  rcount  : Nat
  pseq    : Nat
  opn     : Bool
  grid    : Grid
  deriving DecidableEq, Repr, Inhabited

/-- Reserved fields of the record; those of MANTAB and REGIONS too where their addresses are ignored. -/
def launchReserved : List (Nat × Nat × Nat) :=
  resourceReserved 0x18 ++ [(0x28, 63, 57), (0x48, 63, 57), (0x60, 63, 35), (0x68, 63, 48), (0x78, 63, 16)]

/-- The roles of the crews, or nothing where a code is 3 or a crew beyond the count has one (R22, R35). -/
def rolesOf (r0 r1 : DWord) (crews : Nat) : Option (List Nat) :=
  let role (c : Nat) : Nat := if c < 32 then fieldOf r0 (2 * c + 1) (2 * c) else fieldOf r1 (2 * (c - 32) + 1) (2 * (c - 32))
  if (List.range 64).all (fun c => if c < crews then role c != 3 else role c == 0) then some ((List.range crews).map role) else none

/-- The record as far as it can be checked alone. -/
def parseLaunch (ws : List DWord) : Option LaunchRec :=
  let crews := field ws 0x10 37 32 + 1
  let gx := field ws 8 31 0 + 1
  let gy := field ws 8 63 32 + 1
  let gz := field ws 0x10 31 0 + 1
  let hnd := (recWord ws 0x18).getLsbD 51
  let meas := (recWord ws 0x18).getLsbD 50
  let regs8 := field ws 0x10 43 38
  let tiles := field ws 0x10 52 44
  let slots := field ws 0x10 59 53
  let accs := field ws 0x10 63 60
  let near := field ws 0x18 10 0
  let spill := field ws 0x18 24 16
  let mcount := field ws 0x18 37 32
  let mancnt := field ws 0x18 44 40
  let rcount := field ws 0x18 55 52
  let handler := field ws 0x38 63 32
  let argLen := field ws 0x38 31 0
  let icount := field ws 0x40 63 32
  let ifirst := field ws 0x40 31 0
  let form := field ws 0x60 34 32
  let pseq := field ws 0x60 31 0
  let fss := (List.range 8).map (fun k => fmtSlotOf (recWord ws (0x80 + 16 * k)) (recWord ws (0x88 + 16 * k)))
  let a := field ws 0x68 15 0
  let b := field ws 0x68 31 16
  let c := field ws 0x68 47 32
  match addrField ws 0 128, addrField ws 0x20 8, addrField ws 0x30 8, addrField ws 0x70 8, rolesOf (recWord ws 0x50) (recWord ws 0x58) crews with
  | some code, some muster, some args, some cbmp, some roles =>
    let mantab := if mancnt = 0 then some 0 else addrField ws 0x28 8
    let regions := if rcount = 0 then some 0 else addrField ws 0x48 8
    match mantab, regions with
    | some mantab, some regions =>
      let ok := zeroFields ws launchReserved && field ws 0x78 15 0 == 1 &&
        decide (accs ≤ 8) && decide (slots ≤ 64) && decide (tiles ≤ 256) && decide (2 ≤ regs8) && decide (regs8 ≤ 32) &&
        decide (near ≤ 1024) && decide (spill ≤ 256) && decide (1 ≤ mcount) && decide (mcount ≤ 32) && decide (mancnt ≤ 16) &&
        decide (gx * gy * gz ≤ 2 ^ 32) && decide (argLen ≤ 65536) && decide (ifirst + icount ≤ 2 ^ 31) &&
        (hnd || handler == 0) && (meas == (rcount != 0)) && fss.all Option.isSome && decide (form ≤ 4) &&
        (form != 0 || (pseq == 0 && a == 0 && b == 0 && c == 0)) && (form != 3 || decide (1 ≤ b))
      if ok then
        some { code := code, muster := muster, mcount := mcount, mantab := mantab, mancnt := mancnt, args := args, argLen := argLen, regions := regions,
               rcount := rcount, pseq := pseq, opn := (recWord ws 0x18).getLsbD 49,
               grid := { gx := gx, gy := gy, gz := gz, crews := crews, regs := 8 * regs8, tiles := tiles, slots := slots, accs := accs, near := near,
                         spill := spill, roles := roles, fss := fss.filterMap id, args := args, meas := meas, cor := (recWord ws 0x18).getLsbD 48,
                         form := form, mapA := a, mapB := b, mapC := c, cbmp := cbmp, icount := icount, nextItem := ifirst, lastItem := ifirst + icount,
                         handler := if hnd then some handler else none, code := code } }
      else none
    | _, _ => none
  | _, _, _, _, _ => none

/-- The record against the header (R33), and HANDLER below TEXTWORDS (Table 2.2). -/
def headerAgrees (ws : List DWord) (h : Header) : Bool :=
  let r10 := field ws 0x10 63 32
  let part (x hi lo : Nat) : Nat := x / 2 ^ lo % 2 ^ (hi + 1 - lo)
  let r18 := field ws 0x18 63 0
  let h18 := h.res18.toNat
  let hnd := part r18 51 51 == 1
  let handler := field ws 0x38 63 32
  decide (part h.res10 11 6 ≤ part r10 11 6) && decide (part h.res10 20 12 ≤ part r10 20 12) && decide (part h.res10 27 21 ≤ part r10 27 21) &&
  decide (part h.res10 31 28 ≤ part r10 31 28) && decide (part h18 10 0 ≤ part r18 10 0) && decide (part h18 24 16 ≤ part r18 24 16) &&
  part h.res10 5 0 == part r10 5 0 && h.roles0 == recWord ws 0x50 && h.roles1 == recWord ws 0x58 && part h18 37 32 == part r18 37 32 &&
  part h18 48 48 == part r18 48 48 && part h18 49 49 == part r18 49 49 &&
  (h.handler == 0xFFFFFFFF || (hnd && handler == h.handler)) && (!hnd || decide (handler < h.textWords))

/-- The muster template (R24). -/
def musterOk (ms : List DWord) (crews : Nat) : Bool :=
  ms.all (fun m => m != 0 && decide (m.toNat < 2 ^ crews)) &&
  (List.range crews).all (fun c => decide ((ms.filter (fun m => m.getLsbD c)).length ≤ 4))

/-- A result-region list (R37). -/
def regionsOf (ws : List DWord) : Option (List (Nat × Nat)) :=
  let rs := (List.range (ws.length / 2)).map (fun i => ((ws.getD (2 * i) 0).toNat, (ws.getD (2 * i + 1) 0).toNat))
  if rs.all (fun r => decide (1 ≤ r.2) && decide (r.2 ≤ 2 ^ 40)) then some rs else none

end Sys2Proof.Machine
end

