-- ==== Sys2Proof/Machine/Command.lean ====
section
/-! DEFINITION. The command processor (R44-R56): its own accesses, entry words, the entries' effects, the measurement chain and receipts. -/
namespace Sys2Proof.Machine
open Sys2Proof

/-! ### The command processor's accesses (R46, R49) -/

/-- Why an access of the command processor gives nothing: a page that is not present, a violation, a record that fails its checks, or a line that cannot
be read. -/
inductive CpErr
  | absent (va level : Nat) (write : Bool)
  | access
  | invalid
  | integrity (line key : Nat)
  deriving DecidableEq, Repr, Inhabited

abbrev Cp := Except CpErr

/-- The translation of an address for the command processor. -/
def State.cpLeaf (s : State) (v key va : Nat) (write : Bool) : Cp Leaf :=
  if 2 ^ 57 ≤ va then .error .access
  else
    match s.permit v key (if write then 1 else 0) va (s.walk v va) with
    | .leaf l => .ok l
    | .absent n => .error (.absent va n write)
    | .violation => .error .access
    | .hurt line => .error (.integrity line 0)

/-- The line that holds an address. What lies on another package or in host memory is not this machine's: its bytes are free (log 2). -/
def State.cpLine (s : State) (v key va : Nat) : Cp (List Byte) :=
  match s.cpLeaf v key va false with
  | .error e => .error e
  | .ok l =>
    let a := l.addr (va / 64 * 64)
    if l.host || l.pkg != s.pkg then .ok ((List.range 64).map (fun i => Config.freeByte (s.stamp v) (a + i)))
    else
      match (s.lineRead (a / 64) l.keyid (s.stamp v)).1 with
      | some bs => .ok bs
      | none => .error (.integrity (a / 64) l.keyid)

/-- n bytes from an address. -/
def State.cpRead (s : State) (v key va n : Nat) : Cp (List Byte) :=
  let lines := if n = 0 then [] else (List.range ((va + n - 1) / 64 + 1 - va / 64)).map (va / 64 + ·)
  match lines.mapM (fun l => s.cpLine v key (max va (l * 64))) with
  | .ok bs => .ok ((bs.flatten.drop (va % 64)).take n)
  | .error e => .error e

def State.cpWords (s : State) (v key va n : Nat) : Cp (List DWord) := (s.cpRead v key va (8 * n)).map wordsOf

/-- The accesses of the command processor's reads of a range, one for each line, counted where the leaf says so (R226; log 23). -/
def State.cpCount (s : State) (v key va n : Nat) : State :=
  if n = 0 then s
  else ((List.range ((va + n - 1) / 64 + 1 - va / 64)).map (va / 64 + ·)).foldl (fun (s : State) l =>
    match s.cpLeaf v key (max va (l * 64)) false with
    | .ok f => if f.cnt && !f.host && f.pkg == s.pkg then s.countAccess (f.addr (max va (l * 64))) (max va (l * 64)) 0 else s
    | .error _ => s) s

/-- Every page of a range can be written. -/
def State.cpMayWrite (s : State) (v key va n : Nat) : Cp Unit :=
  if n = 0 then .ok ()
  else
    match ((List.range ((va + n - 1) / 4096 + 1 - va / 4096)).map (fun i => max va ((va / 4096 + i) * 4096))).mapM (fun a => s.cpLeaf v key a true) with
    | .ok _ => .ok ()
    | .error e => .error e

/-- The bytes of a range that lie in one line, written, or merged by or where the operation is a reduction of one word: here at once, on another package as
a request of its own, in host memory as an output. -/
def State.cpPut (s : State) (v ctx key : Nat) (put : CpPut) (op : PType) (va : Nat) (bs : List Byte) : State :=
  match s.cpLeaf v key va true with
  | .error _ => s
  | .ok l =>
    let off := va % 64
    let line := List.replicate off 0 ++ bs ++ List.replicate (64 - off - bs.length) 0
    let mask := (2 ^ bs.length - 1) * 2 ^ off
    if l.host then s.emit (.hostWrite (l.addr va) bs)
    else if l.pkg == s.pkg then
      let s := (s.memoryOp v (l.addr va) l.keyid op .or .n32 .b32 mask line 0 0 (s.stamp v)).2
      if l.cnt then s.countAccess (l.addr va) va 0 else s
    else
      let f : Far := { id := s.nextId, vd := v, core := 255, src := .cp ctx put, op := op, aop := .or, aty := .n32, wd := .b32, keyid := key, va := va, leaf := some l, mask := mask, bytes := line }
      ({ s.bump with fars := s.fars ++ [f] }).enterQueue f.id false

/-- Bytes written from an address on, line by line. -/
def State.cpWrite (s : State) (v ctx key : Nat) (put : CpPut) (op : PType) (va : Nat) (bs : List Byte) : State :=
  if bs.isEmpty then s
  else
    ((List.range ((va + bs.length - 1) / 64 + 1 - va / 64)).map (va / 64 + ·)).foldl (fun (s : State) l =>
      let a := max va (l * 64)
      s.cpPut v ctx key put op a ((bs.drop (a - va)).take (l * 64 + 64 - a))) s

/-- An access on an absent page waits under a record of SRC 6 and CORE 255, and the row is made again when it is replayed (R46, R221). -/
def State.cpHold (s : State) (v va level : Nat) (write : Bool) (cont : TCont) : State :=
  let j : TJob := { id := s.nextId, vd := v, core := 255, va := va, acc := if write then 1 else 0, src := 6, cont := cont }
  ({ s.bump with jobs := s.jobs ++ [j] }).faultOn j.id (j.record level)

/-- A command that could not be done: a fault of the context, or a replayable fault. -/
def State.cpFail (s : State) (c : CtxRef) (again : Instr) : CpErr → State
  | .absent va level w => s.cpHold c.vd va level w (.cp again)
  | .access => s.ctxFault c.vd c.ctx 5
  | .invalid => s.ctxFault c.vd c.ctx 1
  | .integrity line key => ((s.checkLine line key (s.stamp c.vd)).2).ctxFault c.vd c.ctx 5

/-! ### Entry words (R46, R47) -/

/-- The fields of an entry. -/
def entryOf (ws : List DWord) : Entry :=
  let w := ws.getD 0 0
  { cnt := BitVec.ofNat 8 (fieldOf w 23 16), cmp := BitVec.ofNat 3 (fieldOf w 26 24), w64 := w.getLsbD 27, irq := w.getLsbD 28,
    addr := ws.getD 1 0, value := ws.getD 2 0, mask := ws.getD 3 0 }

/-- The row of an entry, or nothing where its type is reserved or a field that the type does not use is not zero (R47). -/
def entryRow (c : CtxRef) (ws : List DWord) : Option Instr :=
  let w := ws.getD 0 0
  let e := entryOf ws
  let clear (cnt cmp w64 irq addr value mask : Bool) : Bool :=
    fieldOf w 63 29 == 0 && fieldOf w 15 8 == 0 && (cnt || e.cnt == 0) && (cmp || e.cmp == 0) && (w64 || !e.w64) && (irq || !e.irq) &&
    (addr || e.addr == 0) && (value || e.value == 0) && (mask || e.mask == 0)
  match fieldOf w 7 0 with
  | 0 => if clear false false false false false false false then some (.endE c) else none
  | 1 => if clear false false false false true false false then some (.launch c e) else none
  | 2 => if clear true true true false true true true then some (.skipif c e) else none
  | 3 => if clear false false false false true false false then some (.jump c e) else none
  | 4 => if clear false false false false true false false then some (.callEntry c e) else none
  | 5 => if clear false false false false false false false then some (.retEntry c) else none
  | 6 => if clear false false true true true true false then some (.signal c e) else none
  | 7 => if clear false true true false true true true then some (.waitv c e) else none
  | 8 => if clear false false false false true true false then some (.measure c e) else none
  | 9 => if clear false false false false true true true then some (.receipt c e) else none
  | _ => none

/-- An entry word accepted: the fourth, 8 clk later, makes the entry (Table 4.3). The manual gives the four words no order: they are read in ascending order, a
DESIGN CHOICE (log 23). -/
def State.acceptWord (s : State) (v c : Nat) : State :=
  let r : CtxRef := ⟨v, c⟩
  let x := s.ctx r
  if x.st != .running then s
  else
    match s.cpWords v x.keyid (x.eptr + 8 * x.words.length) 1 with
    | .error (.absent va level w) => s.cpHold v va level w (.entry c)
    | .error e => s.cpFail r (.endE r) e
    | .ok ws =>
      let s := if x.words.isEmpty then s.cpCount v x.keyid x.eptr 32 else s
      let ws := x.words ++ ws
      let s := s.setCtx r { x with words := ws }
      if ws.length < 4 then s.enqueue .cp (s.worldNum v) (.cpWord c)
      else
        match entryRow r ws with
        | some i => s.post (s.t + 8) i
        | none => s.ctxFault v c 2

/-! ### Earlier work (R49, R51) -/

/-- Grids of a context that have not retired. -/
def State.ctxGrids (s : State) (c : CtxRef) : List Grid :=
  s.grids.filter (fun g => g.st == .active && g.vd == c.vd && g.ctx == c.ctx && g.cgen == (s.ctx c).cgen)

/-- Has every grid launched earlier retired, and every earlier SIGNAL been performed? -/
def State.earlierDone (s : State) (c : CtxRef) : Bool :=
  (s.ctxGrids c).isEmpty && !s.putPending c.vd c.ctx (.signal true) && !s.putPending c.vd c.ctx (.signal false)

/-- A world's grids that have not retired, a launch that is still being hashed among them (R51). -/
def State.liveGrids (s : State) (v : Nat) : Nat :=
  (s.grids.filter (fun g => g.st == .active && g.vd == v)).length + ((s.vd v).ctxs.filter (fun x => x.made.isSome)).length

/-- What a SIGNAL waits for: earlier work, and as a release at domain scope every earlier write of its context, a receipt's among them (R49). -/
def State.releaseDone (s : State) (c : CtxRef) : Bool := s.earlierDone c && !s.putPending c.vd c.ctx .receipt

/-- May the row of a held entry be made now? -/
def State.entryReady (s : State) : Instr → Bool
  | .launch c _ => if (s.ctx c).made.isSome then !s.putPending c.vd c.ctx .zero else decide (s.liveGrids c.vd < 64)
  | .skipif c _ | .measure c _ | .receipt c _ => s.earlierDone c
  | .signal c _ => s.releaseDone c
  | _ => false

/-- An entry that waits for work that came before it, and its effect once it need not. -/
def State.afterDone (s : State) (done : Bool) (c : CtxRef) (i : Instr) (f : State → State) : Out :=
  if !(s.ctx c).active then .next s
  else if !done then .next (s.holdEntry c i)
  else .next (f (s.setCtx c { s.ctx c with st := .running, held := none }))

/-- An entry that waits for earlier work. -/
def State.afterWork (s : State) (c : CtxRef) (i : Instr) (f : State → State) : Out := s.afterDone (s.earlierDone c) c i f

/-! ### Condition words (R48) -/

/-- Does the compare hold (Table 3.3)? -/
def compareHolds (e : Entry) (x : DWord) : Bool :=
  let w : Nat := if e.w64 then 64 else 32
  let y := (x &&& e.mask).toNat % 2 ^ w
  let v := e.value.toNat % 2 ^ w
  let sg (n : Nat) : Int := if n < 2 ^ (w - 1) then (n : Int) else (n : Int) - 2 ^ w
  match e.cmp.toNat with
  | 0 => y == v
  | 1 => y != v
  | 2 => decide (y < v)
  | 3 => decide (v ≤ y)
  | 4 => decide (sg y < sg v)
  | 5 => decide (sg v ≤ sg y)
  | 6 => y != 0
  | _ => false

/-- The word's bytes, and whether its address keeps the alignment. -/
def Entry.bytes (e : Entry) : Nat := if e.w64 then 8 else 4
def Entry.aligned (e : Entry) : Bool := e.addr.toNat % Entry.bytes e == 0

def State.condition (s : State) (c : CtxRef) (e : Entry) : Cp DWord :=
  (s.cpRead c.vd (s.ctx c).keyid e.addr.toNat (Entry.bytes e)).map (fun bs => BitVec.ofNat 64 (ofBytes bs))

/-! ### The simple entries -/

/-- DOORBELL (R45, R56, R72, R74): an IDLE context of a running world starts; otherwise the bell is kept for the world's next turn. It is a write of the host, which
is refused while the host is frozen (R347). -/
def execDoorbell (c : CtxRef) (s : State) : Out :=
  if s.health.hfrz then .next (s.emit (.reply .host .frozen []))
  else
  let s := s.returnSlots c.vd
  let x := s.ctx c
  if x.st != .idle then .next s
  else if (s.vd c.vd).run == .running then .next ((s.setVd c.vd { s.vd c.vd with quiet := none }).fetchEntry c)
  else .next (s.setCtx c { x with bell := true })

/-- END. -/
def execEndE (c : CtxRef) (s : State) : Out :=
  let x := s.ctx c
  if !x.active then .next s else .next (s.setCtx c { x with st := .idle, held := none })

/-- JUMP. -/
def execJump (c : CtxRef) (e : Entry) (s : State) : Out :=
  if !(s.ctx c).active then .next s
  else if e.addr.toNat % 32 != 0 then .next (s.ctxFault c.vd c.ctx 2)
  else .next (s.goTo c e.addr.toNat)

/-- CALL: the ninth push faults. -/
def execCallEntry (c : CtxRef) (e : Entry) (s : State) : Out :=
  let x := s.ctx c
  if !x.active then .next s
  else if e.addr.toNat % 32 != 0 then .next (s.ctxFault c.vd c.ctx 2)
  else if 8 ≤ x.stack.length then .next (s.ctxFault c.vd c.ctx 3)
  else .next ((s.setCtx c { x with stack := (x.eptr + 32) :: x.stack }).goTo c e.addr.toNat)

/-- RET. -/
def execRetEntry (c : CtxRef) (s : State) : Out :=
  let x := s.ctx c
  if !x.active then .next s
  else
    match x.stack with
    | [] => .next (s.ctxFault c.vd c.ctx 4)
    | a :: rest => .next ((s.setCtx c { x with stack := rest }).goTo c a)

/-- SKIPIF: after earlier work. -/
def execSkipif (c : CtxRef) (e : Entry) (s : State) : Out :=
  s.afterWork c (.skipif c e) (fun s =>
    if e.cnt == 0 || e.cmp == 7 || !Entry.aligned e then s.ctxFault c.vd c.ctx 2
    else s.whenPaid c 1 0 (.skipif c e) (fun s =>
      match s.condition c e with
      | .error r => s.cpFail c (.skipif c e) r
      | .ok x =>
        let s := s.cpCount c.vd (s.ctx c).keyid e.addr.toNat (Entry.bytes e)
        if compareHolds e x then s.goTo c ((s.ctx c).eptr + 32 * (1 + e.cnt.toNat)) else s.nextEntry c))

/-- When a WAITV asks for its next read: so that it comes within 2 us of the last, which is 2,800 clk, with a round for the world's next slot and the access's own
clocks (R49; log 15). -/
def State.rereadAt (s : State) : Nat := s.t + max 1 (2800 - (s.roundLen + 16))

/-- The condition word of a WAITV read: on, or waiting for the next read. A read that finds no page is made again by the row that made it. -/
def State.waitOn (s : State) (c : CtxRef) (e : Entry) (again : Instr) : State :=
  match s.condition c e with
  | .error r => s.cpFail c again r
  | .ok x =>
    let s := s.cpCount c.vd (s.ctx c).keyid e.addr.toNat (Entry.bytes e)
    if compareHolds e x then s.nextEntry c
    else
      let s := s.holdEntry c (.waitvReread c e)
      if s.agenda.any (fun a => a.2 == .waitvReread c e) then s else s.post s.rereadAt (.waitvReread c e)

/-- WAITV: does not wait for earlier work. -/
def execWaitv (c : CtxRef) (e : Entry) (s : State) : Out :=
  if !(s.ctx c).active then .next s
  else if e.cmp == 7 || !Entry.aligned e then .next (s.ctxFault c.vd c.ctx 2)
  else .next (s.whenPaid c 1 0 (.waitv c e) (fun s => s.waitOn c e (.waitv c e)))

/-- WAITV_REREAD (R49): within 2 us, or when a SIGNAL of the world is performed; not while the world does not run (R12), which makes it again once it does, nor while
the page of the last read is waited for. -/
def execWaitvReread (c : CtxRef) (e : Entry) (s : State) : Out :=
  let x := s.ctx c
  if x.st == .waiting && x.held == some (.waitvReread c e) && (s.vd c.vd).run == .running && !s.jobs.any (fun j => j.cont == .cp (.waitvReread c e)) then
    .next (s.whenPaid c 1 0 (.waitvReread c e) (fun s => s.waitOn c e (.waitvReread c e)))
  else .next s

/-- SIGNAL: after earlier work, a release at domain scope, then the interrupt. A write to another package is performed later; the context goes on. -/
def execSignal (c : CtxRef) (e : Entry) (s : State) : Out :=
  s.afterDone (s.releaseDone c) c (.signal c e) (fun s =>
    if !Entry.aligned e then s.ctxFault c.vd c.ctx 2
    else s.whenPaid c 1 0 (.signal c e) (fun s =>
      let key := (s.ctx c).keyid
      match s.cpMayWrite c.vd key e.addr.toNat (Entry.bytes e) with
      | .error r => s.cpFail c (.signal c e) r
      | .ok _ =>
        let s := s.cpWrite c.vd c.ctx key (.signal e.irq) .flag e.addr.toNat (toBytes (Entry.bytes e) e.value.toNat)
        (if s.putPending c.vd c.ctx (.signal e.irq) then s else s.putDone c.vd c.ctx (.signal e.irq)).nextEntry c))

/-! ### Hashing (R53, R54) -/

/-- SHA-512 blocks of n bytes. -/
def hashBlocks (n : Nat) : Nat := (n + 17 + 127) / 128

/-- MEASURE: after earlier work, the buffer's digest into the chain. -/
def execMeasure (c : CtxRef) (e : Entry) (s : State) : Out :=
  s.afterWork c (.measure c e) (fun s =>
    if e.value.toNat = 0 || 2 ^ 40 < e.value.toNat then s.ctxFault c.vd c.ctx 2
    else s.whenPaid c 0 (hashBlocks e.value.toNat + hashBlocks 129) (.measure c e) (fun s =>
      let x := s.ctx c
      match s.cpRead c.vd x.keyid e.addr.toNat e.value.toNat with
      | .error r => s.cpFail c (.measure c e) r
      | .ok bs => ((s.cpCount c.vd x.keyid e.addr.toNat e.value.toNat).setCtx c { x with chain := sha512 (x.chain ++ [0x03] ++ sha512 bs) }).nextEntry c))

/-- The 400 bytes of a receipt up to its signature (Table 3.5). -/
def State.receiptHead (s : State) (c : CtxRef) (e : Entry) : List Byte :=
  let x := s.ctx c
  let half (d : List Byte) : List Byte := (d ++ List.replicate 64 0).take 32
  toBytes 8 (1 * 2 ^ 32 + 0x54504352) ++
  toBytes 8 (x.cgen * 2 ^ 32 + x.keyid * 2 ^ 21 + c.ctx * 2 ^ 17 + c.vd * 2 ^ 10 + s.pkg) ++
  toBytes 8 x.rcpt ++ toBytes 4 x.launch ++ toBytes 4 0 ++ toBytes 8 e.value.toNat ++ toBytes 8 e.mask.toNat ++
  toBytes 8 ((if x.rv then 256 else 0) + x.stat) ++ toBytes 8 0 ++
  half x.pre ++ half x.chain ++ half x.codeDig ++ half x.argDig ++ half x.resDig ++ half (sha512 Config.attestationKey) ++ List.replicate 12 0

/-- A signature component: 66 bytes, zero-padded in front. -/
def sigBytes (b : List Byte) : List Byte := (List.replicate 66 0 ++ b).drop b.length

/-- RECEIPT: after earlier work; the counter rises first (R55). -/
def execReceipt (c : CtxRef) (e : Entry) (s : State) : Out :=
  s.afterWork c (.receipt c e) (fun s =>
    if e.addr.toNat % 8 != 0 then s.ctxFault c.vd c.ctx 2
    else s.whenPaid c 50 0 (.receipt c e) (fun s =>
      let x := s.ctx c
      match s.cpMayWrite c.vd x.keyid e.addr.toNat 400 with
      | .error r => s.cpFail c (.receipt c e) r
      | .ok _ =>
        let s := s.setCtx c { x with rcpt := x.rcpt + 1 }
        let head := s.receiptHead c e
        let sig := Config.signature (sha512 head)
        (s.cpWrite c.vd c.ctx x.keyid .receipt .write e.addr.toNat (head ++ sigBytes sig.1 ++ sigBytes sig.2)).nextEntry c))

/-! ### LAUNCH (R30-R43, R49-R54) -/

/-- The sealed region that CODE lies in, if it is SEALED (R34, R345). CODE whose page is homed on another package, or lies in host memory, fails the check: the manual
does not say how a LAUNCH checks a region that is sealed there (DESIGN CHOICE, log 23). -/
def State.codeRegion (s : State) (v key va : Nat) : Cp SRegion := do
  let l ← s.cpLeaf v key va false
  match if l.host || l.pkg != s.pkg then none else s.sealedOf (l.addr va / 64) with
  | some r => if r.st == .sealed then .ok r else .error .invalid
  | none => .error .invalid

/-- Where each page of a code object lies in physical memory. All of it lies in the region (R54). -/
def State.cpExtent (s : State) (v key va n : Nat) (r : SRegion) : Cp (List Nat) :=
  ((List.range ((va + n - 1) / 4096 + 1 - va / 4096)).map (fun i => max va ((va / 4096 + i) * 4096))).mapM (fun a => do
    let l ← s.cpLeaf v key a false
    if !l.host && l.pkg == s.pkg && decide (r.pfn * 4096 ≤ l.addr a) && decide (l.addr a < (r.pfn + r.len) * 4096) then .ok (l.addr a) else .error .invalid)

/-- The digest of a code object, cached by region, generation and the extent within the region (R54). -/
def State.codeDigest (s : State) (v key code len : Nat) (r : SRegion) (pas : List Nat) : Cp (CodeKey × List Byte × Bool) := do
  let k : CodeKey := { region := r.num, gen := r.gen, pages := pas, len := len }
  match s.digests.find? (fun d => d.1 == k) with
  | some d => pure (k, d.2, true)
  | none => (s.cpRead v key code len).map (fun bs => (k, sha512 bs, false))

/-- The most near banks that a world holds on one core (R35). -/
def Allot.mostBanks (a : Allot) : Nat := (((a.banks.map (·.1)).eraseDups).map (fun c => (a.banks.filter (fun b => b.1 == c)).length)).foldl max 0

/-- Words of 8 bytes of a launch's records that no hashing pays for: the header, the muster template, the manifest table and manifests, and the region list. The
record, the code and the arguments are hashed (R49, R53; log 15). -/
def launchWords (mcount mancnt rcount : Nat) : Nat := 16 + mcount + 17 * mancnt + 2 * rcount

/-- The launch that a dependence names (R39). -/
def State.producerOf (s : State) (c : CtxRef) (n : Nat) : Option Nat :=
  (List.range s.grids.length).find? (fun i =>
    let g := s.grid i
    g.vd == c.vd && g.ctx == c.ctx && g.cgen == (s.ctx c).cgen && g.launch == n && g.st != .discarded)

/-- What a LAUNCH makes of its records: the grid, the digests of code, arguments and record, the name of the code's extent and whether its digest was cached,
the words read that no hashing pays for, and the ranges read. -/
structure Made where
  grid   : Grid
  code   : List Byte
  args   : List Byte
  record : List Byte
  extent : CodeKey
  cached : Bool
  argLen : Nat
  words  : Nat
  reads  : List (Nat × Nat)

/-- Every record of a launch read once and checked (R30-R42), and the dependence resolved. Where more than one of them fails, the first in this order counts: the
launch record, the code's region, the header, the code's extent, the muster template, the manifest table and its manifests, the regions, the producer, and last the checks of one
record against another (log 16). -/
def State.makeLaunch (s : State) (c : CtxRef) (addr n : Nat) : Cp Made := do
  let key := (s.ctx c).keyid
  let v := c.vd
  let a := s.allotOfVd v
  let raw ← s.cpRead v key addr 256
  let ws := wordsOf raw
  let l ← match parseLaunch ws with | some l => pure l | none => .error .invalid
  let r ← s.codeRegion v key l.code
  let hw ← s.cpWords v key l.code 16
  let h ← match parseHeader hw with | some h => pure h | none => .error .invalid
  let pas ← s.cpExtent v key l.code h.extent r
  let ms ← s.cpWords v key l.muster l.mcount
  let tab ← s.cpWords v key l.mantab l.mancnt
  let mans ← tab.mapM (fun m => if m.toNat % 128 != 0 then .error .invalid else do
    let w ← s.cpWords v key m.toNat 16
    match manifestOf w with | some m => pure m | none => .error .invalid)
  let regs ← s.cpWords v key l.regions (2 * l.rcount)
  let regions ← match regionsOf regs with | some r => pure r | none => .error .invalid
  let prod ← if l.grid.form = 0 then pure none
    else match (if n - 256 ≤ l.pseq ∧ l.pseq < n then s.producerOf c l.pseq else none) with
      | none => .error .invalid
      | some p =>
        let q := s.grid p
        let same := q.gx == l.grid.gx && q.gy == l.grid.gy && q.gz == l.grid.gz
        if q.cbmp == 0 || ((l.grid.form == 2 || l.grid.form == 4) && !same) then .error .invalid else pure (some p)
  let g : Grid := { l.grid with vd := v, ctx := c.ctx, cgen := (s.ctx c).cgen, launch := n, keyid := key, code := l.code, text := l.code + h.textOff,
                                words := h.textWords, entry := h.entry, sealNum := r.num, sealGen := r.gen, muster := ms, mans := mans,
                                regions := regions, prod := prod, order := s.t }
  let roomy := (State.reserveAll g.size { s with wgs := [], grids := s.grids ++ [g] } s.grids.length).isSome
  if !headerAgrees ws h || !musterOk ms g.crews || l.opn != (a.cls == .opn) || 32 * Allot.mostBanks a < g.near || (g.cor && !roomy) then .error .invalid
  else
    let d ← s.codeDigest v key l.code h.extent r pas
    let args ← s.cpRead v key l.args l.argLen
    let _ ← s.cpMayWrite v key g.cbmp (if g.cbmp = 0 then 0 else (g.size + 7) / 8)
    pure { grid := g, code := d.2.1, args := sha512 args, record := sha512 raw, extent := d.1, cached := d.2.2, argLen := l.argLen,
           words := launchWords l.mcount l.mancnt l.rcount,
           reads := [(addr, 256), if d.2.2 then (l.code, 128) else (l.code, h.extent), (l.muster, 8 * l.mcount), (l.mantab, 8 * l.mancnt)] ++
             tab.map (fun m => (m.toNat, 128)) ++ [(l.regions, 16 * l.rcount), (l.args, l.argLen)] }

/-- The ranges of a list read in turn, as far as they can be. -/
def State.readable (s : State) (v key : Nat) : List (Nat × Nat) → List (Nat × Nat)
  | [] => []
  | r :: rest => r :: (match s.cpRead v key r.1 r.2 with | .ok _ => s.readable v key rest | .error _ => [])

/-- The manifests of a table read in turn, and whether all of them pass. -/
def State.manifestReads (s : State) (v key : Nat) : List DWord → List (Nat × Nat) × Bool
  | [] => ([], true)
  | m :: rest =>
    if m.toNat % 128 != 0 then ([], false)
    else
      match (s.cpWords v key m.toNat 16).map manifestOf with
      | .ok (some _) => let x := s.manifestReads v key rest; ((m.toNat, 128) :: x.1, x.2)
      | _ => ([(m.toNat, 128)], false)

/-- The ranges that a LAUNCH whose checks fail has read, in the order in which its records are read and checked. The code and the arguments are read last, so that
they count only where it is one of them that cannot be read. -/
def State.launchReads (s : State) (c : CtxRef) (addr : Nat) (why : CpErr) : List (Nat × Nat) :=
  let key := (s.ctx c).keyid
  let v := c.vd
  (addr, 256) :: (match (s.cpRead v key addr 256).map (fun raw => parseLaunch (wordsOf raw)) with
  | .ok (some l) =>
    (match s.codeRegion v key l.code with
     | .error _ => []
     | .ok r =>
       (l.code, 128) :: (match (s.cpWords v key l.code 16).map parseHeader with
       | .ok (some h) =>
         (match s.cpExtent v key l.code h.extent r with
          | .error _ => []
          | .ok _ =>
            let a := s.readable v key [(l.muster, 8 * l.mcount), (l.mantab, 8 * l.mancnt)]
            a ++ (match (if a.length = 2 then s.cpWords v key l.mantab l.mancnt else .error .invalid) with
            | .error _ => []
            | .ok tab =>
              let ms := s.manifestReads v key tab
              ms.1 ++ (if !ms.2 then [] else
                (l.regions, 16 * l.rcount) :: (if why == .invalid then [] else s.readable v key [(l.code, h.extent), (l.args, l.argLen)]))))
       | _ => []))
  | _ => [])

/-- A LAUNCH whose checks fail: its number is used, and what it has read counts (R49, R226). -/
def State.failLaunch (s : State) (c : CtxRef) (e : Entry) (why : CpErr) : State :=
  let x := s.ctx c
  let s := (s.launchReads c e.addr.toNat why).foldl (fun (s : State) r => s.cpCount c.vd x.keyid r.1 r.2) s
  (s.setCtx c { x with launch := x.launch + 1 }).cpFail c (.launch c e) why

/-- The checked launch's number is used, its code digest cached, and its records are paid for before it goes on (R49, R53, R54). -/
def State.beginLaunch (s : State) (c : CtxRef) (e : Entry) (m : Made) : State :=
  let x := s.ctx c
  let s := if m.cached then s else { s with digests := s.digests ++ [(m.extent, m.code)] }
  let s := m.reads.foldl (fun (s : State) r => s.cpCount c.vd x.keyid r.1 r.2) s
  let blocks := (if m.cached then 0 else hashBlocks m.extent.len) + hashBlocks m.argLen + hashBlocks 256 + hashBlocks 257
  (s.setCtx c { x with launch := m.grid.launch, made := some m.grid, stage := 1, codeDig := m.code, argDig := m.args, pre := x.chain, resDig := [], rv := false,
                       stat := 0, chain := sha512 (x.chain ++ [0x01] ++ m.code ++ m.args ++ m.record) }).payFor c m.words blocks (.launch c e)

/-- The grid is handed to the dispatcher, and a launch whose producer has aborted aborts (R330). The context stays RUNNING while a launch with MEAS, or the hashing
of one, keeps later entries back (R51, log 23). -/
def State.endLaunch (s : State) (c : CtxRef) (g : Grid) : State :=
  let gi := s.grids.length
  let s := { s with grids := s.grids ++ [g] }
  let s := (match g.prod with
    | some p => if (s.grid p).aborted.isSome then s.abortGrid s.grids.length gi { stat := 0x21 } else s
    | none => s)
  if g.meas then s.setCtx c { (s.ctx c).fresh with eptr := (s.ctx c).eptr + 32, measFor := some gi } else s.nextEntry c

/-- The bytes of a launch's completion bitmap. -/
def Grid.mapBytes (g : Grid) : Nat := if g.cbmp = 0 then 0 else (g.size + 7) / 8

/-- The bitmap's zeros written (R52); those on another package are waited for. -/
def State.zeroBitmap (s : State) (c : CtxRef) (e : Entry) (g : Grid) : State :=
  match s.cpMayWrite c.vd g.keyid g.cbmp g.mapBytes with
  | .error r => s.cpFail c (.launch c e) r
  | .ok _ =>
    let s := (s.cpWrite c.vd c.ctx g.keyid .zero .write g.cbmp (List.replicate g.mapBytes 0)).setCtx c { s.ctx c with stage := 3, held := some (.launch c e) }
    if s.putPending c.vd c.ctx .zero then s else s.endLaunch c g

/-- LAUNCH: checked and its number used, its records paid for, its bitmap zeroed, then the grid handed on. A LAUNCH whose ADDR breaks its alignment uses no launch
number (log 23). -/
def execLaunch (c : CtxRef) (e : Entry) (s : State) : Out :=
  let x := s.ctx c
  if !x.active then .next s
  else
    match x.made with
    | some g =>
      if x.stage = 3 then .next (if s.putPending c.vd c.ctx .zero then s else s.endLaunch c g)
      else if !x.paid s.t then .next s
      else if g.cbmp = 0 then .next (s.endLaunch c g)
      else if x.stage = 1 then .next ((s.setCtx c { x with stage := 2 }).payFor c ((g.mapBytes + 7) / 8) 0 (.launch c e))
      else .next (s.zeroBitmap c e g)
    | none =>
      if e.addr.toNat % 256 != 0 then .next (s.ctxFault c.vd c.ctx 2)
      else if !s.entryReady (.launch c e) then .next (s.holdEntry c (.launch c e))
      else
        let s := s.setCtx c { x with st := .running, held := none }
        match s.makeLaunch c e.addr.toNat (x.launch + 1) with
        | .error (.absent va level w) => .next (s.cpHold c.vd va level w (.cp (.launch c e)))
        | .error r => .next (s.failLaunch c e r)
        | .ok m => .next (s.beginLaunch c e m)

end Sys2Proof.Machine
end

