-- ==== Sys2Proof/Machine/Rota.lean ====
section
/-! DEFINITION. How the rota serves the structures of Table 4.3 (R64-R67, R72, R73, R75, R361), and the acceptance of a request. -/
namespace Sys2Proof.Machine
open Sys2Proof

/-! ### Positions and capacities (Table 4.3) -/

/-- The last acceptance position of a structure. -/
def lastPosition (S : Nat) : Struct → Nat
  | .hbm _ => S - 1 - min 16 (S / 4)
  | .basin _ | .barge _ | .ctlb _ | .l2tlb _ | .walk _ | .cp | .disp | .items | .wharf | .fibre _ => S - 1

/-- Acceptances in one clock: a fibre has up to three flit times in one. -/
def structCapacity : Struct → Nat
  | .l2tlb _ => 2
  | .fibre _ => 3
  | .basin _ | .barge _ | .ctlb _ | .walk _ | .hbm _ | .cp | .disp | .items | .wharf => 1

/-- The refresh window (R67): HBM channels and walk units serve nobody in the first F clocks of slot 0. -/
def State.inRefresh (s : State) : Bool := s.slotAt s.t == 0 && decide (s.posAt s.t < s.layout.f)

/-- May the structure accept anything at the present clock? -/
def State.structOpen (s : State) (st : Struct) : Bool :=
  decide (s.posAt s.t ≤ lastPosition s.rotaS st) && decide (s.accepted st < structCapacity st) &&
  (match st with
   | .hbm _ | .walk _ => !s.inRefresh
   | .basin _ | .barge _ | .ctlb _ | .l2tlb _ | .cp | .disp | .items | .wharf | .fibre _ => true)

/-! ### Housekeeping's work (R333, R334, R340, R341) -/

/-- The stack of a physical address. -/
def stackOf (pa : Nat) : Nat := pa / 2 ^ 36 % 8

/-- The part of a list of frames that lies in a stack, ascending. -/
def stackFrames (stack : Nat) (fs : List (Nat × Nat)) : List (Nat × Nat) :=
  sortBy (fun a b => decide (a.1 ≤ b.1)) ((fs.map (fun r =>
    let lo := max r.1 (stack * 2 ^ 24)
    (lo, min (r.1 + r.2) ((stack + 1) * 2 ^ 24) - lo))).filter (fun r => 0 < r.2))

/-- The k-th line of some frames on a channel, in ascending frame order (R333). -/
def zeroLine (fs : List (Nat × Nat)) (c k : Nat) : Option Nat :=
  (granuleFrame (stackFrames (c / 32) fs) (k / 2)).map (fun f => f * 64 + k % 2 * 32 + c % 32)

/-- Lines of a VD's freed frames that a channel has zeroed; whether any channel has one left; and the frames that the pass has not covered. -/
def Vd.zeroedOn (d : Vd) (c : Nat) : Nat := ((d.zeroed.find? (fun z => z.1 == c)).map (·.2)).getD 0
def Vd.zeroLeft (d : Vd) : Bool := !d.zeroing.isEmpty && (List.range 256).any (fun c => (zeroLine d.zeroing c (d.zeroedOn c)).isSome)
def dropFrames : Nat → List (Nat × Nat) → List (Nat × Nat)
  | _, [] => []
  | n, (f, m) :: rest => if n < m then (f + n, m - n) :: rest else dropFrames (n - m) rest
def Vd.uncovered (d : Vd) : List (Nat × Nat) :=
  (List.range 8).flatMap (fun st => dropFrames ((List.range 32).foldl (fun m i => min m (d.zeroedOn (st * 32 + i) / 2)) (2 ^ 31)) (stackFrames st d.zeroing))

/-- The next line that housekeeping is to zero on a channel (R333). -/
def State.zeroOn (s : State) (c : Nat) : Option (Nat × Nat) :=
  firstSome (fun v => (zeroLine (s.vd v).zeroing c ((s.vd v).zeroedOn c)).map (v, ·)) (List.range s.vds.length)

/-- The next line of a region that housekeeping is to zero (R340), or to sweep (R341). -/
def State.regionOn (s : State) (c : Nat) : Option WRegion :=
  s.regions.find? (fun r => !r.usable && channelOf (r.pfn * 4096 + r.zeroed * 64) == c)
def State.sweepOn (s : State) (c : Nat) : Option WRegion :=
  s.regions.find? (fun r => match r.roll with | some p => channelOf (r.pfn * 4096 + p * 64) == c | none => false)

/-- The line that a snapshot copies next (R334). -/
def State.snapLine (s : State) (v : Nat) : Option Nat :=
  (s.vd v).snap.bind (fun p => (granuleFrame (s.vd v).frames (p.ptr / 64)).map (fun f => f * 64 + p.ptr % 64))
def State.snapOn (s : State) (c : Nat) : Option Nat :=
  (List.range s.vds.length).find? (fun v => match s.snapLine v with | some l => channelOf (l * 64) == c | none => false)

/-- What housekeeping does next on a channel: zeroing freed frames, zeroing a new region, a sweep, a snapshot's copy (log 15). -/
def State.houseOn (s : State) (c : Nat) : Option Instr :=
  match s.zeroOn c, s.regionOn c, s.sweepOn c with
  | some _, _, _ => some (.zeroingPass (c / 32))
  | none, some r, _ => some (.regionZeroing r.idx)
  | none, none, some r => some (.rollSweep r.idx)
  | none, none, none => (s.snapOn c).map .snapCopy

/-! ### Who is served (R64, R72, R73, R75, R361) -/

/-- Does a pad run on the world's slots (R327)? -/
def State.padRuns (s : State) (w : Nat) : Bool := s.vds.any (fun d => d.world == some w && d.run == .saving)

/-- Is the slot in force released, or unowned (R72)? -/
def State.slotFree (s : State) : Bool :=
  match s.ownerOf (s.slotAt s.t) with
  | none => true
  | some w =>
    match s.vdOfWorld w with
    | none => true
    | some v => (s.vd v).released || (s.vd v).run == .off || (s.vd v).run == .starting

def Gift.number : Gift → Option Nat | .world w => some w | .house => none

/-- Open worlds that a released slot serves before housekeeping, and after it. -/
def State.giftsBefore (s : State) : List Nat := (s.layout.gift.takeWhile (· != .house)).filterMap Gift.number
def State.giftsAfter (s : State) : List Nat := ((s.layout.gift.dropWhile (· != .house)).filterMap Gift.number)

/-- Is the world one that runs? -/
def State.worldRuns (s : State) (w : Nat) : Bool := match s.vdOfWorld w with | some v => (s.vd v).run == .running | none => false

/-- The worlds that a structure serves at the present clock, the first first. -/
def State.servedWorlds (s : State) (st : Struct) : List Nat :=
  (match st with
   | .fibre _ => [slotQueue (s.slotAt s.t)]
   | .basin _ | .barge _ | .ctlb _ | .l2tlb _ | .walk _ | .hbm _ | .cp | .disp | .items | .wharf => []) ++
  if s.slotFree then
    let house := match st with
      | .hbm c => (s.houseOn c).isSome
      | .basin _ | .barge _ | .ctlb _ | .l2tlb _ | .walk _ | .cp | .disp | .items | .wharf | .fibre _ => false
    (s.giftsBefore ++ if house then [] else s.giftsAfter).filter s.worldRuns
  else
    match s.ownerOf (s.slotAt s.t) with
    | some w => [w]
    | none => []

/-- Does a request serve a Barge line that has started: its access, its packet, or the Basin half of a cpb.in (R318); or the copy step of a write that is served
(R334)? -/
def State.servesStarted (s : State) (r : Req) : Bool :=
  let line (f : Nat) : Bool := match s.farReq f with
    | some f => (match f.src with | .barge _ _ => true | _ => false)
    | none => false
  match r.item with
  | .access f | .tree f _ => line f
  | .send p | .resend p => (p.typ == .read || p.typ == .write) && p.src == s.pkg && line p.rtag
  | .bargeBasin q _ => (match s.bargeReq q with | some b => b.kind == .cpbIn | none => false)
  | .copy _ _ => true
  | .basin _ _ | .beat _ _ | .tlb _ | .walk _ | .cpWord _ | .work _ _ _ _ | .mstep | .land _ => false

/-- What a halted world is still served (R318, R361). A box send's source is read whole before any packet of it goes, so an answer to a PULL needs no gather. -/
def State.servedHalted (s : State) (r : Req) : Bool :=
  let landing (j : Nat) : Bool := match s.job j with
    | some j => (match j.cont with | .landing _ _ _ => true | .word _ | .far _ | .barge _ _ | .warm _ _ | .fill _ | .gather _ _ _ | .cp _ | .entry _ => false)
    | none => true
  let lands (f : Nat) : Bool := match s.farReq f with
    | some f => (match f.src with | .landing _ _ => true | _ => false)
    | none => false
  s.servesStarted r || match r.item with
  | .access f | .tree f _ =>
    (match s.farReq f with
     | some f => (match f.src with | .peer _ | .barge _ _ | .landing _ _ => true | .loads _ _ | .atomic _ _ _ | .store _ _ | .flag _ _ | .fill _ | .gather _ _ _ | .cp _ _ => false)
     | none => true)
  | .mstep =>
    (match s.vdOfWorld r.world with
     | some v =>
       let q := (s.vd v).inq
       (match q[q.length - ((s.queueOf .wharf r.world).filter (fun r => r.item == .mstep)).length]? with | some (.arrive _) => true | _ => false)
     | none => false)
  | .land _ => true
  | .send p => p.typ == .reply || p.typ == .close || p.typ == .heart || (p.typ == .msg && p.kind != .eager && p.kind != .rts) || (p.typ == .write && p.src == s.pkg && lands p.rtag)
  | .resend _ => true
  | .tlb j => landing j
  | .walk j => landing j
  | .basin _ _ | .bargeBasin _ _ | .beat _ _ | .cpWord _ | .work _ _ _ _ | .copy _ _ => false

/-- A request that stands aside without holding up those behind it: one that a halted world, or one whose pad runs, is not served (R318, R361), one that its home's order keeps waiting
(R292), a write whose granule's copy step runs (R334), a first walk step beyond the world's quota (R219). -/
def State.standsAside (s : State) (r : Req) : Bool :=
  (!s.worldRuns r.world && !(if s.padRuns r.world then s.servesStarted r else s.servedHalted r)) ||
  (match r.item with
   | .access f => (match s.farReq f with | some f => !s.homeReady f || s.copyRuns f | none => false)
   | .walk j =>
     (match s.job j with
      | some j => (match j.stage with | .walk _ _ => false | .core | .l2 | .held _ | .wantRecord | .spent => decide ((s.allotOfVd j.vd).walkers ≤ s.walksOf j.vd))
      | none => false)
   | .basin _ _ | .bargeBasin _ _ | .beat _ _ | .tlb _ | .cpWord _ | .work _ _ _ _ | .mstep | .land _ | .send _ | .resend _ | .copy _ _ | .tree _ _ => false)

/-- Conditions of the head request beyond the structure's own: a beat needs room where its access goes, a packet the flit times of its slot from now on,
a write that the world's unacknowledged ones stay below 2^14 (R254),
an entry word or another access the command processor, and a hash block three clocks of a slot of the world's own (R54). -/
def State.requestOk (s : State) (r : Req) : Bool :=
  match r.item with
  | .beat q i =>
    (match s.bargeReq q with
     | some b =>
       (match (b.lines.getD i { va := 0 }).leaf with
        | some l =>
          let op : PType := if b.kind == .cpo || b.kind == .cpbOut then .write else .read
          (match s.farTarget b.vd b.keyid op l (b.lines.getD i { va := 0 }).va 0 with | some t => s.hasRoom t.1 t.2 1 | none => true)
        | none => true)
     | none => true)
  | .send p => fits p && (match p.typ with
    | .read | .write | .atom | .cas | .red | .flag => s.mayLeave p.rtag
    | .reply | .heart | .close | .msg => true)
  | .resend p => fits p
  | .access f => s.mayLeave f
  | .cpWord _ => decide (s.cpFree ≤ s.t) && (match s.vdOfWorld r.world with | some v => decide ((s.vd v).cpFrom ≤ s.t) | none => true)
  | .work _ words _ _ => decide (s.cpFree ≤ s.t) &&
      (decide (0 < words) || (decide (s.posAt s.t + 3 ≤ s.rotaS) && s.ownerOf (s.slotAt s.t) == some r.world))
  | .basin _ _ | .bargeBasin _ _ | .tlb _ | .walk _ | .mstep | .land _ | .copy _ _ | .tree _ _ => true
where
  fits (p : Packet) : Bool :=
    match r.st with
    | .fibre f => (match s.flitPlaces f queuePosition (Packet.flits p) with | some (j :: _) => flitClock j == s.t | _ => false)
    | .basin _ | .barge _ | .ctlb _ | .l2tlb _ | .walk _ | .hbm _ | .cp | .disp | .items | .wharf => false

/-- The request of a world that a structure can accept: the first of its queue that does not stand aside (R65). -/
def State.headRequest (s : State) (st : Struct) (w : Nat) : Option Req :=
  match ((s.queueOf st w).filter (fun r => decide (r.after ≤ s.t))).find? (fun r => !s.standsAside r) with
  | some r => if s.requestOk r then some r else none
  | none => none

/-- What a structure accepts next at the present clock. -/
def State.acceptNow (s : State) (st : Struct) : Option Req :=
  if s.structOpen st then firstSome (s.headRequest st) (s.servedWorlds st) else none

/-! ### Acceptance -/

/-- What an accepted request comes to. -/
def State.serveItem (s : State) (v : Nat) (r : Req) : State :=
  match r.item with
  | .basin op line => s.basinPerform op line
  | .bargeBasin q j => s.bargeBasinPerform q j
  | .beat q i =>
    (match s.bargeReq q with
     | some b => (s.setBarge (b.setLine i .started)).post (s.t + 4) (.bargeBeat q i)
     | none => s)
  | .tlb j =>
    (match s.job j, r.st with
     | some x, .l2tlb _ => s.dieLookup x
     | some x, _ => s.coreLookup x
     | none, _ => s)
  | .walk j => (match s.job j with | some x => s.levelStep x | none => s)
  | .access f =>
    (match s.farReq f with
     | some q => (match s.copyFirst q, s.firstLevel q with
       | some (w, p, g), _ => s.beginCopy w p g r
       | none, some l => (s.markFar f .memory).readNode q r.world l
       | none, none => (s.markFar f .memory).post s.t (.homePerform f))
     | none => s)
  | .copy w g => s.copyAccess w g
  | .tree f l => s.treeAccess f l r.world
  | .cpWord c => s.acceptWord v c
  | .work c words blocks next => s.acceptWork v c words blocks next
  | .mstep => s.post (s.t + wharfService) (.matchStep v)
  | .land i => s.post (s.t + wharfService) (.landingBeat v i)
  | .send p => (match r.st with | .fibre f => s.depart f p | _ => s)
  | .resend p => (match r.st with | .fibre f => s.departAgain f p | _ => s)

/-- Work of the world that waited for room in the queue goes on. -/
def State.kickQueue (s : State) (v : Nat) : Struct → State
  | .basin c => s.bargeKick c v
  | .barge c => s.bargeKick c v
  | .ctlb c => ((s.bargeKick c v).fillKick c).wharfKick v
  | .wharf => s.wharfKick v
  | .l2tlb _ | .walk _ | .hbm _ | .cp | .disp | .items | .fibre _ => s

/-- A request leaves its queue. -/
def State.serve (s : State) (r : Req) : State :=
  let v := (s.vdOfWorld r.world).getD 0
  ((({ s with reqs := s.reqs.erase r }.countAccept r.st).serveItem v r).kickQueue v) r.st

/-- REQUEST_ACCEPT (R64, R65, R73). -/
def execRequestAccept (st : Struct) (world : Nat) (s : State) : Out :=
  match s.acceptNow st with
  | some r => if r.world == world then .next (s.serve r) else .next s
  | none => .next s

/-- Structures in one order; cores ascend at the Basin banks (R193). -/
def Struct.rank : Struct → Nat
  | .basin c => c | .barge c => 1024 + c | .ctlb c => 2048 + c | .l2tlb d => 3072 + d | .walk d => 3088 + d | .hbm c => 3104 + c
  | .cp => 3360 | .disp => 3361 | .items => 3362 | .wharf => 3363 | .fibre f => 3364 + f

/-- The next acceptance of the present clock. -/
def State.nextAccept (s : State) : Option Instr :=
  firstSome (fun st => (s.acceptNow st).map (fun r => .requestAccept st r.world))
    (sortBy (fun a b => decide (Struct.rank a ≤ Struct.rank b)) (s.reqs.map (·.st)).eraseDups)

/-- What the dispatcher or the item mover does in the present clock (R60, R119). -/
def State.nextDispatch (s : State) : Option Instr :=
  let running (w : Nat) : Option Nat := if s.worldRuns w then s.vdOfWorld w else none
  let place := if s.structOpen .disp then firstSome (fun w => (running w).bind s.nextPlacement) (s.servedWorlds .disp) else none
  match place with
  | some i => some i
  | none => if s.structOpen .items then firstSome (fun w => (running w).bind s.nextMove) (s.servedWorlds .items) else none

end Sys2Proof.Machine
end

