-- ==== Sys2Proof/Machine/Retire.lean ====
section
/-! DEFINITION. Retirement of workgroups and grids, completion bits and status records (R52, R53, R328-R331). -/
namespace Sys2Proof.Machine
open Sys2Proof

/-! ### Workgroups (R328, R329) -/

/-- Has a workgroup whose crews have retired no engine work left? -/
def State.wgIdle (s : State) (w : Nat) : Bool :=
  let d := s.vd (s.grid (s.wg w).grid).vd
  let here (p : WPlace) : Bool := match p with | .tile w' _ => w' == w | .box _ _ => false
  s.bargeRs.all (fun r => r.wg != w || r.kind == .warm || r.kind == .mig) && s.matOps.all (fun o => o.wg != w) &&
  d.txs.all (fun x => !(x.live && x.stat == .pending && here x.place)) &&
  d.rxs.all (fun r => !(r.live && (r.st == .queued || r.st == .matched) && here r.place))

/-- A workgroup that may give back its reservations. -/
def State.wgDue (s : State) (w : Nat) : Bool :=
  let x := s.wg w
  x.live && x.retired && !x.saved && (s.vd (s.grid x.grid).vd).run == .running && s.wgIdle w

/-- The item queue of a core goes with the launch's last workgroup there (R119, R128). -/
def State.dropQueue (s : State) (gi core : Nat) : State :=
  if s.wgs.any (fun w => w.live && w.grid == gi && w.core == core) then s
  else s.setGrid gi { s.grid gi with queues := (s.grid gi).queues.filter (fun q => q.core != core) }

/-- WORKGROUP_RETIRE: its reservations are free in one step. -/
def execWorkgroupRetire (wg : Nat) (s : State) : Out :=
  let x := s.wg wg
  if s.wgDue wg then .next (((s.setWg wg { x with live := false }).dropQueue x.grid x.core).retryAll (s.grid x.grid).vd) else .next s

/-! ### Completion bits (R52) -/

/-- Is every write that the workgroup issued performed? -/
def State.wgWritesDone (s : State) (w : Nat) : Bool :=
  s.fars.all (fun f => f.isPerformed || !(PType.writes f.op) ||
    (let p := s.farLanes f.src; p.2.isEmpty || (s.crew p.1).wg != w)) &&
  s.basinOps.all (fun o => o.kind == 0 || o.todo.isEmpty || (s.crew o.crew).wg != w) && s.bargeRs.all (fun r => r.wg != w || !r.kind.writes)

/-- A workgroup whose completion bit is due. -/
def State.bitDue (s : State) (w : Nat) : Bool :=
  let x := s.wg w
  let g := s.grid x.grid
  !x.live && x.retired && !x.cut && !x.asked && g.st == .active && (s.vd g.vd).run == .running && s.wgWritesDone w

/-- COMPLETION_BIT_SET: a release at domain scope, or the point at which it would have been made (Table 23.2). The bit counts once its write is performed. -/
def execCompletionBitSet (wg : Nat) (s : State) : Out :=
  let x := s.wg wg
  let g := s.grid x.grid
  let put : CpPut := .bit wg
  if x.live || !x.retired || x.cut || g.st != .active || g.bits.contains x.num || !s.wgWritesDone wg || s.putPending g.vd g.ctx put then .next s
  else
    let s := s.setWg wg { x with asked := true }
    if g.cbmp = 0 then .next (s.noteBit wg)
    else
      let va := g.cbmp + x.num / 32 * 4
      match s.cpMayWrite g.vd g.keyid va 4 with
      | .error (.absent a level w) => .next (s.cpHold g.vd a level w (.cp (.completionBitSet wg)))
      | .error _ => .next (s.putLost g.vd g.ctx put)
      | .ok _ =>
        let s := s.cpWrite g.vd g.ctx g.keyid put .red va (toBytes 4 (2 ^ (x.num % 32)))
        .next (if s.putPending g.vd g.ctx put then s else s.putDone g.vd g.ctx put)

/-! ### Grids (R331) -/

/-- A grid that may retire: every workgroup has set its bit, or it has aborted and holds nothing more. -/
def State.gridDone (s : State) (gi : Nat) : Bool :=
  let g := s.grid gi
  g.st == .active && (s.vd g.vd).run == .running &&
  (if g.aborted.isSome then
    (List.range s.wgs.length).all (fun w => (s.wg w).grid != gi || (!(s.wg w).live && ((s.wg w).cut || g.bits.contains (s.wg w).num)))
   else decide (g.bits.length = g.size))

def State.gridDue (s : State) (gi : Nat) : Bool := s.gridDone gi && (s.grid gi).phase == 0

/-- The status record (Table 23.2). -/
def statusRecord (g : Grid) (now : Nat) : List Byte :=
  let a := g.aborted.getD { stat := 0 }
  let named := g.aborted.isSome && a.stat != 0x21
  let only (n : Nat) : Nat := if named then n else 0
  toBytes 8 (g.launch * 2 ^ 32 + (if g.fb then 1024 else 0) + (if a.hm then 512 else 0) + (if g.aborted.isSome then 256 else 0) + a.stat) ++
  toBytes 8 (only a.wg * 2 ^ 32 + only a.crew) ++ toBytes 8 (only a.pc.toNat) ++ toBytes 8 (only a.info.toNat) ++
  toBytes 8 (g.start.getD now) ++ toBytes 8 now ++ toBytes 8 g.wgset ++ toBytes 8 0

/-- Where the record of a grid lies (R331). -/
def Ctx.recordAt (x : Ctx) (g : Grid) : Nat := x.ring + 64 * (g.launch % x.size)

/-- The digests of a grid's result regions, in list order. -/
def State.regionDigests (s : State) (g : Grid) : Cp (List (List Byte)) :=
  g.regions.mapM (fun r => (s.cpRead g.vd g.keyid r.1 r.2).map sha512)

/-- The completion measurement (R53). -/
def State.measureGrid (s : State) (g : Grid) (ds : List (List Byte)) : State :=
  let c : CtxRef := ⟨g.vd, g.ctx⟩
  let x := s.ctx c
  let chain := sha512 (x.chain ++ [0x02] ++ ds.flatten)
  s.setCtx c (if x.launch = g.launch then { x with chain := chain, resDig := sha512 ds.flatten, rv := true } else { x with chain := chain })

/-- The last act: the record is written (R331), and the grid is over once it is performed. -/
def State.endGrid (s : State) (gi : Nat) : State :=
  let g := s.grid gi
  let x := s.ctx ⟨g.vd, g.ctx⟩
  let va := x.recordAt g
  let put : CpPut := .record gi
  match s.cpMayWrite g.vd x.keyid va 64 with
  | .error (.absent a level w) => s.cpHold g.vd a level w (.cp (.gridRetire gi))
  | .error _ => s.putLost g.vd g.ctx put
  | .ok _ =>
    let s := s.cpWrite g.vd g.ctx x.keyid put .write va (statusRecord g (s.cycleOf g.vd s.t))
    if s.putPending g.vd g.ctx put then s else s.putDone g.vd g.ctx put

/-- The grid's retirement goes on to its record, which is paid for first. -/
def State.askRecord (s : State) (gi : Nat) : State :=
  let g := s.grid gi
  (s.setGrid gi { g with phase := 2 }).askWork g.vd g.ctx 8 0 (.gridRetire gi)

/-- Hash blocks of a grid's result regions and of its chain step (R53, R54). -/
def Grid.regionBlocks (g : Grid) : Nat :=
  (g.regions.map (fun r => hashBlocks r.2)).sum + hashBlocks (65 + 64 * g.regions.length) + hashBlocks (64 * g.regions.length)

/-- GRID_RETIRE: with MEAS the regions are hashed first; then the record is paid for and written. -/
def execGridRetire (grid : Nat) (s : State) : Out :=
  let g := s.grid grid
  if !s.gridDone grid || s.putPending g.vd g.ctx (.record grid) then .next s
  else
    match g.phase with
    | 0 =>
      if g.meas then .next ((s.setGrid grid { g with phase := 1 }).askWork g.vd g.ctx 0 g.regionBlocks (.gridRetire grid)) else .next (s.askRecord grid)
    | 1 =>
      if (s.ctx ⟨g.vd, g.ctx⟩).measFor != some grid then .next (s.askRecord grid)
      else
        match s.regionDigests g with
        | .error (.absent a level w) => .next (s.cpHold g.vd a level w (.cp (.gridRetire grid)))
        | .error _ => .next ((s.ctxFault g.vd g.ctx 5).askRecord grid)
        | .ok ds => .next (((g.regions.foldl (fun (s : State) r => s.cpCount g.vd g.keyid r.1 r.2) s).measureGrid g ds).askRecord grid)
    | _ => .next (s.endGrid grid)

/-- The next retirement step that is due. -/
def State.nextRetire (s : State) : Option Instr :=
  match (List.range s.wgs.length).find? s.wgDue with
  | some w => some (.workgroupRetire w)
  | none =>
    match (List.range s.wgs.length).find? s.bitDue with
    | some w => some (.completionBitSet w)
    | none => ((List.range s.grids.length).find? s.gridDue).map .gridRetire

end Sys2Proof.Machine
end

