-- ==== Sys2Proof/Machine/Context.lean ====
section
/-! DEFINITION. Context records (R320, R321), saving a world's on-chip state to its context area (R319, R335), and restoring workgroups (R322, R323).
A saved workgroup keeps its record in the model; the bytes of the context area are written and not read back (log 20). -/
namespace Sys2Proof.Machine
open Sys2Proof

/-! ### The crew record (Table 21.3) -/

def LaneSt.code : LaneSt → Nat
  | .run => 0 | .held => 1 | .parked => 2 | .joinwait _ => 3 | .barwait _ => 4 | .exited => 5

def LaneSt.joinIndex : LaneSt → Nat
  | .joinwait k => k
  | .run | .held | .parked | .barwait _ | .exited => 0

def PendKind.code : PendKind → Option Nat
  | .basin => some 0 | .ldf => some 1 | .atomf => some 2 | .kfaa => some 3 | .wharf => some 4
  | .alu => none | .xrd => none

/-- One outstanding entry; its TAG is its place among the lane's own (log 13). -/
def Pending.word (p : Pending) (place : Nat) : Nat :=
  match p.kind.code with
  | none => 0
  | some k =>
    let wide := if p.width ≤ 1 then 0 else if p.width = 2 then 1 else 2
    2 ^ 31 + k * 2 ^ 28 + p.win % 16 * 2 ^ 24 + p.base % 256 * 2 ^ 16 + wide * 2 ^ 14 + place % 2 ^ 14

/-- The 256 bytes of a record. -/
def Crew.record (k : Crew) (follows : Bool) : List Byte :=
  let ls := List.range 8
  ls.flatMap (fun l => toBytes 4 (k.lane l).pc.toNat) ++
  ls.map (fun l => BitVec.ofNat 8 (LaneSt.joinIndex (k.lane l).st * 32 + (if k.hl.getLsbD l then 16 else 0) + (if (k.lane l).yb = 0 then 0 else 8) +
    LaneSt.code (k.lane l).st)) ++
  ls.map (fun l => (k.lane l).cnt) ++
  (List.range 4).flatMap (fun j => [(k.joinReg j).mask, (k.joinReg j).wait]) ++
  ls.flatMap (fun l => toBytes 2 (k.lane l).preds.toNat) ++
  toBytes 8 ((match k.pend with | some t => t.code.toNat | none => 0) * 2 ^ 32 + k.tcode.toNat * 2 ^ 24 + k.role * 2 ^ 16 + k.num * 2 ^ 10 +
    (if follows then 512 else 0) + (if k.hm then 256 else 0) + k.fair.toNat) ++
  toBytes 8 k.tpc.toNat ++ toBytes 8 k.tinfo.toNat ++
  ls.flatMap (fun l => (List.range 4).flatMap (fun e => toBytes 4 (match (k.lane l).pend[e]? with | some p => p.word e | none => 0))) ++
  List.replicate 32 0

/-- The registers that follow a record, and after them the spill windows. -/
def Crew.regRows (k : Crew) (regs : Nat) : List Byte :=
  (List.range regs).flatMap (fun n => (List.range 8).flatMap (fun l => toBytes 4 ((k.lane l).regs.getD n 0).toNat))
def State.crewRows (s : State) (k : Crew) : List Byte :=
  let g := s.grid (s.wg k.wg).grid
  k.regRows g.regs ++ (List.range 8).flatMap (fun l => s.localRead k .spill l 0 (g.spill * 16))

/-! ### The workgroup's part (Table 21.4) -/

/-- A piece padded to the next 64-byte boundary. -/
def padPiece (b : List Byte) : List Byte := b ++ List.replicate ((64 - b.length % 64) % 64) 0

/-- Bytes of a VD's piece whose layout the manual does not give (log 13). -/
def State.openBytes (s : State) (v : Nat) (piece : List Nat) (n : Nat) : List Byte := (List.range n).map (Config.freeByte (piece ++ s.stamp v))

/-- The 64 bytes of a Barge request's record: the request word, its coordinates, a word of its Basin address and in its top three bits the leader's lane, then the
leader's clock. They fill it: the lines that have not started are those of the request whose chunk bits the tile entry does not hold (R321; log 13). -/
def State.bargeRecord (s : State) (r : BReq) : List Byte :=
  toBytes 8 r.word.toNat ++ (List.range 5).flatMap (fun i => toBytes 4 (BitVec.ofInt 32 (r.coords.getD i 0)).toNat) ++
    toBytes 4 (r.lane % 8 * 2 ^ 29 + r.baddr % 2 ^ 29) ++ clockBytes ((s.crew r.crew).lane r.lane).clock

/-- The item queues of a launch, a piece of its own: an entry for each core and four bytes for each item, in a layout that the manual does not give (R119, R321;
log 13). -/
def State.queueBytes (s : State) (g : Grid) : List Byte :=
  if g.queues.isEmpty then [] else padPiece (s.openBytes g.vd g.name ((g.queues.map (fun q => 8 + 4 * q.items.length)).sum))

/-- What a workgroup's part of the context area begins with, before its crew records. -/
def State.wgFront (s : State) (w : Nat) : List Byte :=
  let x := s.wg w
  let g := s.grid x.grid
  let rs := s.bargeRs.filter (fun r => r.wg == w)
  let head := toBytes 8 (g.launch * 2 ^ 32 + x.num) ++
    toBytes 8 (rs.length * 2 ^ 40 + x.tiles.length * 2 ^ 23 + x.musters.length * 2 ^ 17 + x.crews.length * 2 ^ 10 + x.core) ++ toBytes 8 1 ++
    List.replicate 40 0
  let musters := x.musters.flatMap (fun m =>
    toBytes 8 m.member.toNat ++ toBytes 8 m.arrival.toNat ++ toBytes 8 (if m.phase then 1 else 0) ++ toBytes 8 0 ++ clockBytes m.clock)
  let tiles := x.tiles.flatMap (fun t =>
    toBytes 8 (t.base * 2 ^ 32 + t.len * 2 ^ 16 + (if t.phase then 4 else 0) + TileSt.code t.st) ++ toBytes 8 t.bitmap.toNat)
  head ++ padPiece musters ++ padPiece tiles ++ rs.flatMap s.bargeRecord

/-- The crew records of a workgroup's part, one after another. -/
def State.wgCrews (s : State) (w : Nat) : List (List Byte) := (s.wg w).crews.map (fun c => padPiece ((s.crew c).record true ++ s.crewRows (s.crew c)))

/-- A workgroup's part of the context area, every unit claimed. -/
def State.wgContext (s : State) (w : Nat) : List Byte :=
  let x := s.wg w
  let g := s.grid x.grid
  let pools := x.pools.flatMap (fun p => padPiece (s.openBytes g.vd (p.part :: s.wgName w) (16 * p.slots.length) ++
    p.slots.flatMap (fun o => (List.range 4096).map (cellRead o.bytes o.serial)) ++ p.accs.flatMap (fun a => a.words.flatMap (fun v => toBytes 4 v.toNat))))
  s.wgFront w ++ (s.wgCrews w).flatten ++ padPiece (s.nearBytes w 0 (g.near * 512)) ++ pools

/-- Where pieces that follow one another from a place lie. -/
def piecePlaces (at' : Nat) : List (List Byte) → List Nat
  | [] => []
  | b :: bs => at' :: piecePlaces (at' + b.length) bs

/-- Bytes written at a physical address under a KeyID. -/
def State.keyedWrite (s : State) (pa key : Nat) (bs : List Byte) : State :=
  (spanLines pa bs.length).foldl (fun (s : State) l => s.storeLine pa key bs l) s

/-- The resident workgroups of a VD in %wg order, launches in order. -/
def State.residents (s : State) (v : Nat) : List Nat :=
  sortBy (fun a b => decide ((s.wg a).num < (s.wg b).num) || ((s.wg a).num == (s.wg b).num && decide ((s.wg a).grid ≤ (s.wg b).grid)))
    ((List.range s.wgs.length).filter (fun w => (s.wg w).live && (s.grid (s.wg w).grid).vd == v))

/-- The histogram sets of a partition: 33 words and BASE each (R321). -/
def histBytes (hs : List (Option Hist)) : List Byte :=
  hs.flatMap (fun h => match h with
    | some h => h.bins.flatMap (fun n => toBytes 4 n) ++ toBytes 4 h.spec ++ toBytes 4 (h.base % 2 ^ 32).toNat
    | none => List.replicate 136 0)

/-- The whole on-chip state of a VD written to its context area (R319, R335): its workgroups one after another, then its
histogram sets, then its launches' item queues. -/
def State.writeContext (s : State) (v : Nat) : State :=
  let d := s.vd v
  let a := s.allotOfVd v
  let units := s.mats.filter (fun u => a.parts.contains (u.core, u.part))
  let ws := (s.residents v).filter (fun w => !(s.wg w).saved)
  let bytes := ws.flatMap s.wgContext ++ padPiece (units.flatMap (fun u => histBytes u.hists)) ++
    (s.grids.filter (fun g => g.st == .active && g.vd == v)).flatMap s.queueBytes
  let places := piecePlaces d.ctxArea (ws.map s.wgContext)
  let s := (ws.zip places).foldl (fun (s : State) p => s.setWg p.1 { s.wg p.1 with records := piecePlaces (p.2 + (s.wgFront p.1).length) (s.wgCrews p.1) }) s
  s.keyedWrite d.ctxArea d.ctxKey bytes

/-- The records of a saved workgroup's crews that a late result has changed, written anew with their registers in the saved image (R318, R320). -/
def State.lateRecords (s : State) (w : Nat) : State :=
  let x := s.wg w
  let g := s.grid x.grid
  let d := s.vd g.vd
  let place (c : Nat) : Option Nat := ((x.crews.zip x.records).find? (fun p => p.1 == c)).map (·.2)
  let s := if x.saved then x.late.eraseDups.foldl (fun (s : State) c => match place c with
      | some a => s.keyedWrite a d.ctxKey ((s.crew c).record true ++ (s.crew c).regRows g.regs)
      | none => s) s else s
  s.setWg w { x with late := [] }

/-- Every saved image that a late result has changed. -/
def State.lateImages (s : State) : State :=
  ((List.range s.wgs.length).filter (fun w => !(s.wg w).late.isEmpty)).foldl State.lateRecords s

/-! ### Taking a world off its units (R319, R332) -/

/-- Where a spill window's bytes lie in a saved image. -/
def spillImage : Nat := 2 ^ 24

/-- Cells of a range, moved to another place. -/
def Cells.moved (m : Cells) (lo n to' : Nat) : Cells :=
  (m.filter (fun c => decide (lo ≤ c.1) && decide (c.1 < lo + n))).map (fun c => (c.1 - lo + to', c.2))

/-- A workgroup saved: its near store and spill windows go into its image. Zero is written where they stood by `clearUnits`, which follows. -/
def State.saveWg (s : State) (w : Nat) : State :=
  let x := s.wg w
  let n := (s.grid x.grid).near * 512
  let cs := x.crews.map s.crew
  let image := Cells.moved (s.nearOf x.core) x.near n 0 ++
    cs.zipIdx.flatMap (fun p => Cells.moved (s.spillOf p.1.core p.1.part) (p.1.spillAt 0 0) 65536 (spillImage + p.2 * 65536))
  let s := s.setWg w { x with saved := true, image := image }
  let s := s.setNear x.core (Cells.forget (s.nearOf x.core) x.near n)
  cs.foldl (fun (s : State) k => s.setSpill k.core k.part (Cells.forget (s.spillOf k.core k.part) (k.spillAt 0 0) 65536)) s

/-- Cells of a store put back. -/
def Cells.putBack (m : Cells) (image : Cells) (lo n to' : Nat) : Cells :=
  (Cells.moved image lo n to').foldl (fun (m : Cells) c => cellPut m c.1 c.2) m

/-- Is an uncorrectable error one of a unit's cells: a partition (0), a near bank (1) or a Basin bank (2)? -/
def ErrSite.inUnit (u : Nat × Nat × Nat) : ErrSite → Bool
  | .near c o => u.1 == 1 && u.2.1 == c && u.2.2 == o / 16384
  | .spill c p _ => u == (0, c, p)
  | .icache c p _ => u == (0, c, p)
  | .basin d o => u.1 == 2 && u.2.1 == d && u.2.2 == o / 2 ^ 20
  | .hbm _ | .reg _ _ _ | .slot _ _ _ _ | .acc _ _ _ _ | .unit _ | .limits | .mac _ | .pred _ _ _ | .kite _ _ => false

/-- The banks of a Basin range, as (die, bank), and the units of an allotment, numbered. -/
def Allot.basinBanks (a : Allot) : List (Nat × Nat) := a.basin.flatMap (fun b => (List.range b.2.2).map (fun i => (b.1, b.2.1 + i)))
def Allot.units (a : Allot) : List (Nat × Nat × Nat) :=
  a.parts.map (fun p => (0, p.1, p.2)) ++ a.banks.map (fun b => (1, b.1, b.2.1)) ++ (Allot.basinBanks a).map (fun b => (2, b.1, b.2))

/-- A unit's cells written zero, which mends what was uncorrectable in them (R319, R332). No world reads the zeros of a register or a spill row: at a crew's launch
its registers are set (R36) and its windows undefined (R191), so the model forgets these (log 24). -/
def State.clearUnit (s : State) (u : Nat × Nat × Nat) : State :=
  let s := { s with badSram := s.badSram.filter (fun e => !ErrSite.inUnit u e) }
  if u.1 = 0 then
    { s with icache := s.icache.filter (fun l => !(l.core == u.2.1 && l.part == u.2.2)), mats := s.mats.filter (fun m => !(m.core == u.2.1 && m.part == u.2.2)) }.setSpill
      u.2.1 u.2.2 []
  else if u.1 = 1 then s.setNear u.2.1 (Cells.zero (s.nearOf u.2.1) (u.2.2 * 16384) 16384)
  else s.setBasin u.2.1 ((s.basinOf u.2.1).clear (u.2.2 * 2 ^ 20) (2 ^ 20))

/-- A world's units cleared after its workgroups are saved: histogram sets and Basin banks are kept with the VD, every unit is written zero, and its TLB entries go
(Table 23.3; log 24). -/
def State.clearUnits (s : State) (v : Nat) : State :=
  let a := s.allotOfVd v
  let w := s.worldNum v
  let d := s.vd v
  let d := { d with histSave := a.parts.map (fun p => (s.matUnit p.1 p.2).hists),
                    basinSave := (List.range 2).map (fun die => let r := s.basinRange w die; Cells.moved (s.basinOf die) r.1 r.2 0) }
  let s := { s with
    fills := s.fills.filter (fun f => (s.grid f.grid).vd != v),
    tlbs := s.tlbs.filter (fun e => e.2.vd != v),
    l2s := s.l2s.filter (fun e => e.2.vd != v) }
  (Allot.units a).foldl State.clearUnit (s.setVd v d)

/-- What the VD kept is put back into its allotment's units: its histogram sets into the partitions of its present allotment, in their order (log 24). -/
def State.refillUnits (s : State) (v : Nat) : State :=
  let d := s.vd v
  let w := s.worldNum v
  let s := (List.range 2).foldl (fun (s : State) die =>
    let r := s.basinRange w die
    s.setBasin die (((d.basinSave.getD die []).filter (fun c => decide (c.1 < r.2))).foldl (fun (m : Memory) c => m.set (r.1 + c.1) c.2) (s.basinOf die))) s
  let s := ((s.allotOfVd v).parts.zip d.histSave).foldl (fun (s : State) h => s.setUnit { s.matUnit h.1.1 h.1.2 with hists := h.2 }) s
  s.setVd v { s.vd v with histSave := [], basinSave := [] }

/-! ### Restoring (R322) -/

/-- Cores of the die of a core, in the dispatcher's order. -/
def State.restoreCores (s : State) (v die : Nat) : List Nat :=
  let cs := (Allot.cores (s.allotOfVd v)).filter (fun c => dieOf c == die && s.coreWorks c)
  let p := (s.vd v).corePtr
  cs.filter (fun c => decide (p ≤ c)) ++ cs.filter (fun c => decide (c < p))

/-- Do the seats keep the crews of each matrix pool together, and pools apart (log 17)? -/
def poolsKept (ks : List Crew) (seats : List Seat) : Bool :=
  let ps := (ks.zip seats).filter (fun p => p.1.role == 1)
  ps.all (fun p => ps.all (fun q => (p.1.part == q.1.part) == (p.2.part == q.2.part)))

/-- A crew in its new seat. -/
def Crew.reseat (k : Crew) (core t : Nat) (x : Seat) : Crew := { k with core := core, part := x.part, pos := x.pos, slot := x.slot, ready := t }

/-- What a workgroup has under way goes with it to another core: its requests in the queues there, its lookups, and what it waits for (R322). -/
def State.moveWork (s : State) (w core : Nat) : State :=
  let crew (c : Nat) : Bool := (s.crew c).wg == w
  let far (f : Far) : Bool := let p := s.farLanes f.src; !p.2.isEmpty && crew p.1
  let barge (q : Nat) : Bool := s.bargeRs.any (fun r => r.id == q && r.wg == w)
  let job (j : TJob) : Bool := match j.cont with
    | .word c => crew c
    | .far i => s.fars.any (fun f => f.id == i && far f)
    | .barge q _ | .warm q _ => barge q
    | .fill _ | .landing _ _ _ | .gather _ _ _ | .cp _ | .entry _ => false
  let move (r : Req) : Req := match r.item, r.st with
    | .tlb i, .ctlb _ => if s.jobs.any (fun j => j.id == i && job j) then { r with st := .ctlb core } else r
    | .beat q _, .barge _ => if barge q then { r with st := .barge core } else r
    | .bargeBasin q _, .basin _ => if barge q then { r with st := .basin core } else r
    | .basin o _, .basin _ => if s.basinOps.any (fun b => b.id == o && crew b.crew) then { r with st := .basin core } else r
    | _, _ => r
  { s with
    bargeRs := s.bargeRs.map (fun (r : BReq) => if r.wg == w then { r with core := core } else r),
    fars := s.fars.map (fun (f : Far) => if far f then { f with core := core } else f),
    jobs := s.jobs.map (fun j => if job j then { j with core := core } else j),
    basinOps := s.basinOps.map (fun (b : BasinOp) => if crew b.crew then { b with core := core } else b),
    reqs := s.reqs.map move }

/-- A saved workgroup put on a core. -/
def State.restoreOn (s : State) (w core : Nat) (seats : List Seat) (near : Nat) (q : Pointers) : State :=
  let x := s.wg w
  let g := s.grid x.grid
  let v := g.vd
  let old := x.crews.map s.crew
  let part (p : Nat) : Nat := match (old.zip seats).find? (fun o => o.1.role == 1 && o.1.part == p) with | some o => o.2.part | none => p
  let s := (x.crews.zip seats).foldl (fun (s : State) c => s.setCrew c.1 ((s.crew c.1).reseat core s.t c.2)) s
  let s := s.setWg w { x with core := core, near := near, saved := false, image := [], records := [], late := [], pools := x.pools.map (fun p => { p with part := part p.part }) }
  let s := s.setNear core (Cells.putBack (Cells.forget (s.nearOf core) near (g.near * 512)) x.image 0 (g.near * 512) near)
  let s := x.crews.zipIdx.foldl (fun (s : State) c =>
    let k := s.crew c.1
    s.setSpill core k.part (Cells.putBack (Cells.forget (s.spillOf core k.part) (k.spillAt 0 0) 65536) x.image (spillImage + c.2 * 65536) 65536 (k.spillAt 0 0))) s
  let s := (s.moveWork w core).bargeKick core v
  let d := s.vd v
  s.setVd v { d with rxs := d.rxs.map (fun (r : Rx) => if r.wg == w then { r with core := core } else r),
                     txs := d.txs.map (fun (x : Tx) => if x.wg == w then { x with core := core } else x), corePtr := s.coreAfter v core, partPtr := keyed core q.part d.partPtr, barPtr := d.barPtr.filter (fun b => b.1 != core) ++ q.bar.map (fun (b : Nat × Nat) => (core, b.1, b.2)) }

/-- One saved workgroup restored to the first core that passes the check. -/
def State.restoreOne (s : State) (w : Nat) : Option State :=
  let x := s.wg w
  let g := s.grid x.grid
  firstSome (fun core => match s.fitOn g.vd g core with
    | some (seats, near, q) => if poolsKept (x.crews.map s.crew) seats then some (s.restoreOn w core seats near q) else none
    | none => none) (s.restoreCores g.vd (dieOf x.core))

def State.restoreAll (s : State) : List Nat → Option State
  | [] => some s
  | w :: ws => match s.restoreOne w with | some s' => State.restoreAll s' ws | none => none

/-- The saved workgroups of a VD in the order of R322. -/
def State.savedWgs (s : State) (v : Nat) : List Nat := (s.residents v).filter (fun w => (s.wg w).saved)

/-- What is restored with a workgroup: a co-resident grid as a whole. -/
def State.restoreGroup (s : State) (v w : Nat) : List Nat :=
  if (s.grid (s.wg w).grid).cor then (s.savedWgs v).filter (fun u => (s.wg u).grid == (s.wg w).grid) else [w]

/-- WORKGROUP_RESTORE. -/
def execWorkgroupRestore (vd wg : Nat) (s : State) : Out :=
  if (s.vd vd).run == .running && (s.savedWgs vd).head? == some wg then
    match s.restoreAll (s.restoreGroup vd wg) with
    | some s => .next s
    | none => .next s
  else .next s

/-- The next workgroup that can be restored. -/
def State.nextRestore (s : State) : Option Instr :=
  firstSome (fun v =>
    if (s.vd v).run != .running then none
    else match s.savedWgs v with
      | w :: _ => if (s.restoreAll (s.restoreGroup v w)).isSome then some (.workgroupRestore v w) else none
      | [] => none) (List.range s.vds.length)

/-! ### The debugger's view of a crew (R324) -/

/-- An outstanding entry as a record gives it: the one of the same kind and tag, with the record's window and registers. Registers that have been written since stay
discarded where the record keeps the entry's own (R114). -/
def Pending.fromRecord (p : Pending) (place : Nat) (es : List Nat) : Option Pending :=
  match p.kind.code with
  | none => some p
  | some k =>
    (es.find? (fun e => e / 2 ^ 31 % 2 == 1 && e / 2 ^ 28 % 8 == k && e % 2 ^ 14 == place)).map (fun e =>
      let base := e / 2 ^ 16 % 256
      let width := match e / 2 ^ 14 % 4 with | 0 => 1 | 1 => 2 | _ => 4
      { p with win := e / 2 ^ 24 % 16, base := base, width := width,
               regs := if base = p.base ∧ width = p.width then p.regs else (List.range width).map (base + ·) })

/-- A lane as a record gives it. An entry with V clear is dropped, and one that names no request of the lane does nothing; entries of fixed latency outside the Basin
stay, for no record holds them. A lane in BARWAIT waits at the muster set of the barrier word at its pc, which `set` gives. The host may make an EXITED lane RUN,
or every lane EXITED, though R21 has an exited lane never run and a crew without lanes retire: the record is taken as it is written, and the crew does not retire
by it (DESIGN CHOICE, log 20). -/
def Lane.fromRecord (x : Lane) (ws : List DWord) (set : BitVec 32 → Option Nat) (l : Nat) : Lane :=
  let byte (o : Nat) : Nat := (ws.getD (o / 8) 0).toNat / 2 ^ (8 * (o % 8)) % 256
  let word (o : Nat) : Nat := byte o + 256 * (byte (o + 1) + 256 * (byte (o + 2) + 256 * byte (o + 3)))
  let pc := BitVec.ofNat 32 (word (4 * l))
  let st : LaneSt := match byte (0x20 + l) % 8 with
    | 0 => .run | 1 => .held | 2 => .parked | 3 => .joinwait (byte (0x20 + l) / 32 % 4) | 5 => .exited
    | 4 => (match x.st, set pc with | .barwait m, _ => .barwait m | _, some m => .barwait m | y, none => y)
    | _ => x.st
  { x with pc := pc, st := st, yb := if byte (0x20 + l) / 8 % 2 = 1 then max x.yb 1 else 0, cnt := BitVec.ofNat 8 (byte (0x28 + l)),
           preds := BitVec.ofNat 12 (byte (0x38 + 2 * l) + 256 * byte (0x39 + 2 * l)),
           pend := x.pend.zipIdx.filterMap (fun p => p.1.fromRecord p.2 ((List.range 4).map (fun e => word (0x60 + 16 * l + 4 * e)))) }

/-- A crew as a record gives it, with its registers where RS is set. -/
def Crew.fromRecord (k : Crew) (ws : List DWord) (set : Crew → Nat → BitVec 32 → Option Nat) : Crew :=
  let w (o : Nat) : DWord := ws.getD (o / 8) 0
  let byte (o : Nat) : Nat := (w o).toNat / 2 ^ (8 * (o % 8)) % 256
  let rs := (w 0x48).getLsbD 9
  let k := (List.range 8).foldl (fun (k : Crew) l => k.setLane l ((k.lane l).fromRecord ws (set k l) l)) k
  let k := if rs then (List.range 8).foldl (fun (k : Crew) l => k.setLane l { k.lane l with
      regs := (k.lane l).regs.zipIdx.map (fun p => (((w (0x100 + 32 * p.2 + 4 * l)) >>> (32 * (l % 2))).setWidth 32)) }) k else k
  { k with joins := (List.range 4).map (fun j => ⟨BitVec.ofNat 8 (byte (0x30 + 2 * j)), BitVec.ofNat 8 (byte (0x31 + 2 * j))⟩),
           hl := laneMask ((List.range 8).filter (fun l => byte (0x20 + l) / 16 % 2 == 1)), hm := (w 0x48).getLsbD 8,
           role := fieldOf (w 0x48) 17 16, num := fieldOf (w 0x48) 15 10,
           fair := (w 0x48).setWidth 8, tcode := ((w 0x48) >>> 24).setWidth 8, tpc := (w 0x50).setWidth 32, tinfo := w 0x58,
           pend := if fieldOf (w 0x48) 39 32 = 0 then none else some { code := ((w 0x48) >>> 32).setWidth 8, info := (k.pend.map (·.info)).getD 0 } }

/-- The muster set of the barrier word at a place, as a lane would name it. -/
def State.barrierAt (s : State) (c : Nat) (k : Crew) (l : Nat) (pc : BitVec 32) : Option Nat :=
  let index (m : MusterH) : Nat := match m with | .imm i => i.toNat | .reg r => ((k.lane l).regs.getD r.toNat 0).toNat % 256
  match decodeWord (s.wordAt c pc.toNat) with
  | .ok (.bar _ m) | .ok (.barw _ m _) => some (index m)
  | _ => none

/-- The spill windows that follow a record's registers. -/
def State.spillFromRecord (s : State) (c : Nat) (ws : List DWord) : State :=
  let k := s.crew c
  let g := s.gridOf c
  let base := 0x100 + 32 * g.regs
  let bytes := (ws.drop (base / 8)).flatMap (fun x => toBytes 8 x.toNat)
  if bytes.length < 8 * g.spill * 16 then s
  else (List.range 8).foldl (fun (s : State) l => s.localWrite k .spill l 0 ((bytes.drop (l * g.spill * 16)).take (g.spill * 16))) s

end Sys2Proof.Machine
end

