-- ==== Sys2Proof/Machine/Lifecycle.lean ====
section
/-! DEFINITION. A world's slots, halts and switches (R71-R76, R318-R319, R326-R327, R361), the teardown of a VD (R266, R337), invalidations (R225), and
housekeeping (R333, R334, R340, R341). -/
namespace Sys2Proof.Machine
open Sys2Proof

/-! ### Completions of admin commands (R348) -/

/-- The answers that may be written, in acceptance order, and the commands that stay: one stays until its effect is complete, and while an earlier one that
stays names a VDID of its own. -/
def writable : List Cmd → List Nat → List (AStat × List Byte) × List Cmd
  | [], _ => ([], [])
  | c :: cs, held =>
    match (if c.vds.any (fun v => held.contains v) then none else c.answer) with
    | some a => (a :: (writable cs held).1, (writable cs held).2)
    | none => ((writable cs (held ++ c.vds)).1, c :: (writable cs (held ++ c.vds)).2)

/-- STAT (R348). -/
def AStat.code : AStat → Nat | .ok => 0 | .refused => 1 | .frozen => 2 | .busy => 3 | .vdState => 4

/-- A completion's 16 bytes, STAT in the first (log 14). -/
def AStat.completion (st : AStat) : List Byte := toBytes 16 st.code

/-- Completions written as far as the order allows. -/
def State.writeCompletions (s : State) : State :=
  { s with cmds := (writable s.cmds []).2, outs := s.outs ++ (writable s.cmds []).1.map (fun a => .completion a.1.completion a.2) }

/-- A command answered in the clock of its acceptance. -/
def State.complete (s : State) (vds : List Nat) (st : AStat) (data : List Byte) : State :=
  State.writeCompletions { s with cmds := s.cmds ++ [{ vds := vds, answer := some (st, data) }] }

/-- A command accepted whose effect is complete later. -/
def State.takeCmd (s : State) (vds : List Nat) (k : CmdKind) : State := { s with cmds := s.cmds ++ [{ vds := vds, kind := some k }] }

/-- The first command of a kind that has no answer yet gets one. -/
def answerFirst (k : CmdKind) (a : AStat × List Byte) : List Cmd → List Cmd
  | [] => []
  | c :: cs => if c.kind == some k && c.answer.isNone then { c with answer := some a } :: cs else c :: answerFirst k a cs

/-- The effect of an accepted command is complete. -/
def State.finish (s : State) (k : CmdKind) (st : AStat) : State := State.writeCompletions { s with cmds := answerFirst k (st, []) s.cmds }

/-! ### Quiescence and released slots (R72, R74) -/

/-- Has the VD nothing outstanding? A request of a peer that its home still serves, and an answer that has not left, are outstanding too: a donor has nothing
pending while its slots are given away (R74, log 24). -/
def State.isQuiet (s : State) (v : Nat) : Bool :=
  let d := s.vd v
  d.ctxs.all (fun c => c.st == .absent || c.st == .idle) &&
  s.grids.all (fun g => g.vd != v || g.st != .active) && s.bargeRs.all (fun r => r.vd != v) &&
  s.fars.all (fun f => f.vd != v) && s.reqs.all (fun r => d.world != some r.world) &&
  d.kq.isEmpty && d.inq.isEmpty && d.txs.all (fun x => !(x.live && x.stat == .pending)) && d.rxs.all (fun r => !(r.live && r.st != .final))

/-- The present clock noted as the first quiescent one, or quiescence ended. A halted world is not noted, and its quiescence begins anew when it runs again: the
manual says nothing of a halt (DESIGN CHOICE, log 24). -/
def State.noteQuiet (s : State) (v : Nat) : State :=
  let d := s.vd v
  if d.run == .running && s.isQuiet v then (if d.quiet.isSome then s else s.setVd v { d with quiet := some s.t })
  else if d.quiet.isSome then s.setVd v { d with quiet := none } else s

/-- Are a VD's slots due for release at clock t? -/
def Vd.releaseDue (d : Vd) (t : Nat) : Bool := d.run == .running && !d.released && (match d.quiet with | some q => decide (q < t) | none => false)

/-- SLOT_RELEASE (R72). -/
def execSlotRelease (vd : Nat) (s : State) : Out :=
  if s.atBoundary && (s.vd vd).releaseDue s.t then .next (s.setVd vd { s.vd vd with released := true }) else .next s

/-- SLOT_RETURN (R74). -/
def execSlotReturn (vd : Nat) (s : State) : Out := .next (s.setVd vd { s.vd vd with released := false })

/-! ### Entering and leaving a world -/

/-- A scheduled VD's pointers as a layout or a scheduling sets them (R59, R307). -/
def State.resetPointers (s : State) (v : Nat) : State :=
  (s.setVd v { s.vd v with corePtr := (Allot.cores (s.allotOfVd v)).headD 0, partPtr := [], barPtr := [] }).retryAll v

/-- A VD's Wharf tables and its side log cleared, with what was on its way for them (R306, Table 23.3). -/
def State.clearTables (s : State) (v : Nat) : State :=
  let gone (f : Far) : Bool := f.vd == v && (f.st == .sideLog || (match f.src with | .landing _ _ | .gather _ _ _ => true | _ => false))
  let dead (j : TJob) : Bool := j.vd == v && (match j.cont with
    | .landing _ _ _ | .gather _ _ _ => true
    | .far i => s.fars.any (fun f => f.id == i && gone f)
    | .word _ | .barge _ _ | .warm _ _ | .fill _ | .cp _ | .entry _ => false)
  let land (r : Req) : Bool := r.world == s.worldNum v && (match r.item with | .land _ => true | _ => false)
  { s with fars := s.fars.filter (fun f => !gone f), jobs := s.jobs.filter (fun j => !dead j), reqs := s.reqs.filter (fun r => !land r) }.setVd v
    { s.vd v with rxs := [], txs := [], posted := [], unexp := [], fulls := [] }

/-- A VD becomes world w: its kept requests stand in the world's queues again (R76), its kite cells read 0 (R284), its Wharf tables and its side log are cleared, with
GEN 0 in every entry (R306, R332), and its pointers are set. Its rank table is the one that the host gave it (R267; log 24). -/
def State.takeWorld (s : State) (v w : Nat) (run : RunSt) : State :=
  let s := s.clearTables v
  let s := { s with reqs := s.reqs.map (fun (r : Req) => if r.world == 16 + v then { r with world := w } else r) }
  (s.setVd v { s.vd v with world := some w, run := run, cells := [], released := false, quiet := none }).resetPointers v

/-- A running world's command processor goes on (R12, R326, R361): kept doorbells start their contexts, accesses replayed while it did not run are made again, and
condition words are read again. -/
def State.ringBells (s : State) (v : Nat) : State :=
  let waiting (j : TJob) : Bool := j.vd == v && (match j.stage, j.cont with
    | .held f, .cp _ => (s.vd v).faults.all (fun r => r.fid != f)
    | _, _ => false)
  let s := ((s.jobs.filter waiting).foldl (fun (s : State) j => s.post s.t (.replayedAccess v j.id)) s).wakeWaits v
  (List.range 16).foldl (fun (s : State) i =>
    let c : CtxRef := ⟨v, i⟩
    let x := s.ctx c
    if x.bell then
      let s := s.setCtx c { x with bell := false }
      if x.st == .idle then s.fetchEntry c else s
    else s) s

/-- The world's first round, or its resumed one, begins now: %cycle runs on from its frozen value (R71, R75). -/
def State.beginRounds (s : State) (v : Nat) : State :=
  let d := s.vd v
  let s := if s.health.emerg then s.setVd v { d with run := .halted, frozen := some (d.frozen.getD 0) }
    else s.setVd v { d with run := .running, base := (s.t : Int) - (d.frozen.getD 0 : Nat), frozen := none }
  let s := s.refillUnits v
  let s := if s.health.emerg then s else s.ringBells v
  if s.agenda.any (fun a => a.2 == .clockEntryRaise v) then s else s.post (s.t + 4096 * s.roundLen) (.clockEntryRaise v)

/-- FIRST_ROUND (R71). -/
def execFirstRound (vd : Nat) (s : State) : Out :=
  if (s.vd vd).run == .starting then .next ((s.beginRounds vd).finish (.schedule vd) .ok) else .next s

/-- HALT_EFFECT (R71, R318, R361): %cycle freezes; what is accepted goes on. A HALT that finds its world halted is complete, and one that finds it neither
running nor halted is not (log 24). -/
def execHaltEffect (vd : Nat) (s : State) : Out :=
  let d := s.vd vd
  if d.run == .running then
    let s := s.setVd vd { d with run := .halted, frozen := some (s.cycleOf vd s.t), released := false, quiet := none, halting := false }
    .next (if d.halting then s.finish (.halt vd) .ok else s)
  else if d.halting then .next ((s.setVd vd { d with halting := false }).finish (.halt vd) (if d.run == .halted then .ok else .vdState))
  else .next s

/-- Does an HBM bank hold one of some frames (R357)? -/
def framesInBank (fs : List (Nat × Nat)) (st n : Nat) : Bool :=
  fs.any (fun r => (List.range r.2).any (fun i => stackOf ((r.1 + i) * 4096) == st && Config.bankOf ((r.1 + i) * 4096) == n))

/-- Does a VD hold a unit? A fibre is no world's. -/
def State.holdsUnit (s : State) (v : Nat) : HwUnit → Bool
  | .core c => (s.vd v).world.isSome && (s.allotOfVd v).parts.any (fun p => p.1 == c)
  | .fibre _ | .peerFibre _ _ => false
  | .bank st n => framesInBank (s.vd v).frames st n

/-- Does a VD's allotment, or its frames, hold a unit that is out of service (R357)? -/
def State.unitOut (s : State) (v : Nat) : Bool := s.outOf.any (fun u => s.holdsUnit v u)

/-- RESUME_EFFECT (R71): not under EMERG (R358), nor of a world that holds a unit out of service (R357; log 25). -/
def execResumeEffect (vd : Nat) (s : State) : Out :=
  let d := s.vd vd
  if d.run != .halted || d.closing.isSome || s.health.emerg || s.unitOut vd then .next (s.finish (.resume vd) .vdState)
  else
    let s := s.setVd vd { d with run := .running, base := (s.t : Int) - (d.frozen.getD 0 : Nat), frozen := none }
    .next ((s.ringBells vd).finish (.resume vd) .ok)

/-! ### Translations forgotten (R225) -/

/-- Did an access use an entry within the scope? -/
def InvScope.meetsLeaf (sc : InvScope) (l : Option Leaf) : Bool := match l with | some l => InvScope.meets sc l.va l.size | none => false

/-- Translations within a scope forgotten: TLB entries, lookups, walks from the root again, and lines of Barge requests that have not started. -/
def State.forget (s : State) (v : Nat) (sc : InvScope) : State :=
  let hit (e : Nat × TlbEntry) : Bool := e.2.vd == v && InvScope.meets sc e.2.leaf.va e.2.leaf.size
  let lost (b : BReq) (l : BLine) : Bool := b.vd == v && (l.st == .ready || l.st == .queued) && InvScope.meetsLeaf sc l.leaf
  let unread (l : BLine) : BLine := if l.st == .ready && InvScope.meetsLeaf sc l.leaf then { l with st := .fresh, leaf := none } else l
  let lostBeat (r : Req) : Bool := match r.item with
    | .beat q i => (match s.bargeReq q with | some b => lost b (b.lines.getD i { va := 0 }) | none => false)
    | _ => false
  let again := s.jobs.filter (fun j => j.vd == v && InvScope.meets sc j.va 1 && (match j.stage with | .core | .l2 | .walk _ _ => true | .held _ | .wantRecord | .spent => false))
  let spent (j : TJob) : Bool := j.vd == v && j.stage == .spent &&
    (match j.res with | some (.leaf l) => InvScope.meets sc l.va l.size | some (.absent _) | some .violation | some (.hurt _) | none => InvScope.meets sc j.va 1)
  let ofAgain (i : Nat) : Bool := again.any (fun j => j.id == i)
  let s := { s with
    tlbs := s.tlbs.filter (fun e => !hit e), l2s := s.l2s.filter (fun e => !hit e),
    reqs := s.reqs.filter (fun r => !lostBeat r && (match r.item with | .tlb j => !ofAgain j | .walk j => !ofAgain j | _ => true)),
    bargeRs := s.bargeRs.map (fun (b : BReq) => { b with lines := b.lines.map (fun l => if lost b l then { l with st := .fresh, leaf := none } else l) }),
    agenda := s.agenda.filter (fun a => match a.2 with | .translationComplete j => !ofAgain j | _ => true),
    jobs := (s.jobs.filter (fun j => !spent j)).map (fun (j : TJob) => if j.vd == v then { j with stale := j.stale ++ [sc] } else j) }
  let s := s.setVd v { s.vd v with txs := (s.vd v).txs.map (fun (x : Tx) => { x with lines := x.lines.map unread }) }
  let s := again.foldl (fun (s : State) j => s.restartJob j) s
  let s := s.dropLines (fun l => l.vd == v && InvScope.meets sc l.page.1 l.page.2) (fun f => (s.grid f.grid).vd == v && InvScope.meetsLeaf sc f.leaf)
  (((s.bargeRs.filter (fun b => b.vd == v)).map (·.core)).eraseDups.foldl (fun (s : State) c => s.bargeKick c v) s).wharfKick v

/-- Walks of a VD that is descheduled: what waits for its next level stays in its place, and walks from the root when it is served (R76, R225, Table 23.3). -/
def State.restWalks (s : State) (v : Nat) : State :=
  let waits (j : TJob) : Bool := j.vd == v && s.reqs.any (fun r => r.item == .walk j.id)
  { s with jobs := s.jobs.map (fun j => if waits j then { j with stage := .l2 } else j) }

/-! ### The padded switch (R75, R319, R326, R327) -/

/-- SWITCH_BOUNDARY: the outgoing world halts and its allotment's slots serve the switch machinery alone. -/
def execSwitchBoundary (out inc : Nat) (s : State) : Out :=
  let d := s.vd out
  match d.world, d.closing with
  | none, _ => .next (s.finish (.replace out inc) .vdState)
  | some _, some _ => .next (s.finish (.replace out inc) .vdState)
  | some _, none =>
    let frozen := match d.run with
      | .running => some (s.cycleOf out s.t)
      | .off | .starting | .halted | .saving => d.frozen
    let s := s.setVd out { d with run := .saving, frozen := frozen, released := false, quiet := none }
    .next (s.post (s.t + (s.allotOfVd out).pad * s.roundLen) (.padEnd out inc))

/-- A request for a frame of a VD that no longer answers: CLOSED to a peer, or to another VD of this package; the VD's own are kept or dropped with it. -/
def State.closeAccess (s : State) (v : Nat) (r : Req) : State :=
  match r.item with
  | .access id =>
    (match s.farReq id with
     | none => s
     | some f =>
       match f.src with
       | .peer p => { s.dropFar id with reqs := s.reqs.erase r }.refuseStray p
       | _ => if f.vd == v then s else { s with reqs := s.reqs.erase r }.answerHere id .closed false)
  | _ => s

/-- Messages that wait at the Wharf of a VD that no longer answers are answered CLOSED (R267, R268). -/
def State.closeArrivals (s : State) (v : Nat) : State :=
  let d := s.vd v
  let gone := d.inq.filterMap (fun e => match e with | .arrive p => some p | _ => none)
  let s := s.setVd v { d with inq := d.inq.filter (fun e => match e with | .arrive _ => false | _ => true) }
  let n := gone.length
  let w := s.worldNum v
  let steps := s.reqs.filter (fun r => r.item == .mstep && r.world == w)
  let s := { s with reqs := (steps.take n).foldl (fun rs r => rs.erase r) s.reqs }
  gone.foldl State.refuseStray s

/-- Messages that a closing VD has taken and not acknowledged are answered CLOSED: those that wait unexpected, and those that land (R268). -/
def State.closeMessages (s : State) (v : Nat) : State :=
  let d := s.vd v
  let open' := d.unexp.filter (fun m => !m.acked) ++ (d.rxs.filter (fun r => r.live && r.st == .matched && !r.msg.acked)).map (·.msg)
  open'.foldl (fun (s : State) m => s.answerMsg v m .nack .closed 0) s

/-- The outgoing VD leaves its world: everything is saved, its units are cleared, its TLB entries and cached lines go, and its requests are kept in their queues under
no world (R76, R225, R319, R332). Messages that it has not acknowledged are answered CLOSED (R267). -/
def State.leaveWorld (s : State) (v : Nat) : State :=
  let w := s.worldNum v
  let s := s.writeContext v
  let s := (s.residents v).foldl (fun (s : State) x => if (s.wg x).saved then s else s.saveWg x) s
  let s := ((s.clearUnits v).restWalks v).dropLines (fun l => l.vd == v) (fun f => (s.grid f.grid).vd == v)
  let s := { s with reqs := s.reqs.map (fun (r : Req) => if r.world == w then { r with world := 16 + v } else r) }
  let s := s.setVd v { s.vd v with world := none, run := .off, cells := [] }
  (((s.reqs.filter (fun r => r.world == 16 + v)).foldl (fun (s : State) r => s.closeAccess v r) s).closeArrivals v).closeMessages v

/-- PAD_END: the outgoing VD is descheduled, and the incoming world's first round, or its resumed one, begins; its entry words wait for the first clock of its own
first slot (R326). A switch whose VDs were torn down meanwhile ends VD_STATE (log 24). -/
def execPadEnd (out inc : Nat) (s : State) : Out :=
  match (s.vd out).world with
  | none => .next (s.finish (.replace out inc) .vdState)
  | some w =>
    let e := s.vd inc
    if (s.vd out).run != .saving then .next (s.finish (.replace out inc) .vdState)
    else if !e.created || e.closing.isSome || e.world.isSome then .next ((s.leaveWorld out).finish (.replace out inc) .vdState)
    else
      let s := (s.leaveWorld out).takeWorld inc w .starting
      let s := s.beginRounds inc
      .next ((s.setVd inc { s.vd inc with cpFrom := s.t + s.slotOfWorld w * s.rotaS }).finish (.replace out inc) .ok)

/-! ### Teardown (R266, R268, R337) -/

/-- Packets of a world that have not started on a fibre are discarded, the replies of accepted requests apart. The numbers of all of them are free again, so
that the stream stays unbroken (R253, R266; log 24). -/
def State.discardPackets (s : State) (v : Nat) : State :=
  let w := s.worldNum v
  let mine (r : Req) : Bool := r.world == w && (match r.item with | .send _ => true | _ => false)
  let ps := sortBy (fun (a b : Packet) => !serialLt b.lseq a.lseq)
    ((s.reqs.filter mine).filterMap (fun r => match r.item with | .send p => some p | _ => none))
  let ps := ps.filter (fun (p : Packet) => p.typ != .heart)
  let free (s : State) (p : Packet) : State :=
    let x := s.stream (s.vd v).tenant p.dst
    s.setStream { x with left := x.left ++ [p.lseq] }
  let s := ps.foldl free { s with reqs := s.reqs.filter (fun r => !mine r) }
  (ps.filter (fun (p : Packet) => p.typ == .reply)).foldl (fun (s : State) p => (s.sendPacket v p s.t).2) s

/-- The other packages where a VD's tenant holds a world, as far as this package knows: those of the domain's record, of the VD's rank table, and of its streams
(R266; log 24). -/
def State.tenantPkgs (s : State) (v : Nat) : List Nat :=
  let d := s.vd v
  let told := (s.tenants.filter (fun a => a.tenant == d.tenant)).flatMap (·.pkgs)
  let ranked := (d.ranks.filter (fun r => r.2.msb)).map (fun r => r.2.toNat % 1024)
  let met := (s.streams.filter (fun x => x.tenant == d.tenant)).map (·.peer)
  ((told ++ ranked ++ met).eraseDups).filter (fun p => p != s.pkg && s.members.contains p)

/-- TEARDOWN_BOUNDARY: the world is closing; its unsent packets go, its sends end CLOSED without a trap, and CLOSE packets go out (R266 steps 1-4). -/
def execTeardownBoundary (vd : Nat) (s : State) : Out :=
  let d := s.vd vd
  if !d.created || d.closing.isSome then .next s
  else
    let s := s.setVd vd { d with closing := some s.t, run := if d.world.isSome then .halted else .off, released := false, quiet := none,
                                 frozen := if d.run == .running then some (s.cycleOf vd s.t) else d.frozen }
    let s := s.discardPackets vd
    let s := (s.reqs.filter (fun r => r.world == s.worldNum vd)).foldl (fun (s : State) r => s.closeAccess vd r) s
    let own (r : Req) : Bool := match r.item with
      | .access f | .tree f _ => (match s.farReq f with | some f => f.vd == vd && (match f.src with | .peer _ => false | _ => true) | none => true)
      | _ => false
    let s := { s with reqs := s.reqs.filter (fun r => !own r) }
    let s := (s.closeArrivals vd).closeMessages vd
    let d := s.vd vd
    let s := s.setVd vd { d with
      posted := [], unexp := [], inq := [], kq := [],
      rxs := d.rxs.map (fun (r : Rx) => { r with live := false, st := .final }),
      txs := d.txs.map (fun (x : Tx) => if x.live && x.stat == .pending then { x with stat := .closed, live := !x.nr, again := none } else x) }
    let s := if d.world.isNone then s else
      (s.tenantPkgs vd).foldl (fun (s : State) m => (s.sendPacket vd { typ := .close, dst := m } s.t).2) s
    .next (s.post (s.t + 44800) (.teardownRelease vd))

/-- Is an access under a KeyID in flight (R337)? -/
def State.keyInFlight (s : State) (key : Nat) : Bool :=
  s.fars.any (fun f => f.keyid == key && (match f.st with | .queued | .home | .memory | .answering | .sent => true | .performed | .translating | .flagQ | .sideLog => false)) ||
  s.reqs.any (fun r => match r.item with | .send p | .resend p => p.keyid == key | _ => false)

/-- Grants dropped; a KeyID whose last grant goes is RETIRING (R337). -/
def State.dropGrants (s : State) (v : Nat) : State :=
  let ks := (s.vd v).grants
  let s := s.setVd v { s.vd v with grants := [] }
  ks.foldl (fun (s : State) k =>
    if s.vds.any (fun d => d.grants.contains k) then s
    else { s with keys := s.keys.map (fun (x : KeyRec) => if x.id == k && x.st == KeySt.installed then { x with st := .retiring s.t } else x) }.post (s.t + 44800) (.keyErase k)) s

/-- Everything of a VD that is still in the machine goes. -/
def State.dropWork (s : State) (v : Nat) : State :=
  let mine (w : Nat) : Bool := (s.grid (s.wg w).grid).vd == v
  let w := s.worldNum v
  { s with
    grids := s.grids.map (fun (g : Grid) => if g.vd == v && g.st == .active then { g with st := .discarded, queues := [] } else g),
    crews := s.crews.map (fun (k : Crew) => if mine k.wg then { k with live := false } else k),
    wgs := s.wgs.map (fun (x : Wg) => if (s.grid x.grid).vd == v then { x with live := false, saved := false, image := [] } else x),
    bargeRs := s.bargeRs.filter (fun r => r.vd != v), fars := s.fars.filter (fun f => f.vd != v), jobs := s.jobs.filter (fun j => j.vd != v),
    fills := s.fills.filter (fun f => (s.grid f.grid).vd != v), basinOps := s.basinOps.filter (fun o => o.vd != v),
    mats := s.mats.map (fun (u : MUnit) => { u with fillQ := u.fillQ.filter (fun o => !mine o.wg), arrQ := u.arrQ.filter (fun o => !mine o.wg) }),
    tlbs := s.tlbs.filter (fun e => e.2.vd != v), l2s := s.l2s.filter (fun e => e.2.vd != v),
    reqs := s.reqs.filter (fun r => r.world != w) }

/-- DMG says whether a sealed region is DAMAGED (Table 25.3). -/
def State.noteDamage (s : State) : State := { s with health := { s.health with dmg := s.sealed.any (fun r => r.st == .damaged) } }

/-- Regions whose frames a VD gives back are no regions any more, and the digests of code in them go (log 24). -/
def State.dropRegions (s : State) (v : Nat) : State :=
  let fs := (s.vd v).frames
  let goes (r : SRegion) : Bool := r.vd == v || framesHold fs r.pfn
  { s with regions := s.regions.filter (fun r => !framesHold fs r.pfn), sealed := s.sealed.filter (fun r => !goes r),
           digests := s.digests.filter (fun d => !s.sealed.any (fun r => goes r && r.num == d.1.region)) }.noteDamage

/-- Is a command without an answer about a VD that is gone, or about a region that is no more? Its teardown apart. -/
def Cmd.orphan (s : State) (v : Nat) (c : Cmd) : Bool :=
  c.answer.isNone && (match c.kind with
    | some (.teardown _) => false
    | some (.region i) | some (.roll i) => s.regions.all (fun r => r.idx != i)
    | some (.seal n) => s.sealed.all (fun r => r.num != n)
    | some (.schedule _) | some (.halt _) | some (.resume _) | some (.replace _ _) | some (.invalidate _) | some (.snap _) | none => c.vds.contains v)

/-- Commands whose effect can come no more are answered VD_STATE (log 24). -/
def State.endOrphans (s : State) (v : Nat) : State :=
  State.writeCompletions { s with cmds := s.cmds.map (fun c => if Cmd.orphan s v c then { c with answer := some (.vdState, []) } else c) }

/-- TEARDOWN_RELEASE: reservations and counters go, its units are cleared for the next VD of the world (R332), the KeyIDs retire, and the frames are to be zeroed (R266 steps 5-7, R333). The world's slots are free from
the next round boundary (R72): till then its heartbeats count every write, those discarded too, as having left (R290; log 24). -/
def execTeardownRelease (vd : Nat) (s : State) : Out :=
  let d := s.vd vd
  match d.closing with
  | none => .next s
  | some b =>
    if s.t < b + 44800 then .next s
    else if !d.created then .next (if s.atBoundary then s.setVd vd { d with world := none, run := .off, closing := none } else s)
    else
      let s := ((((s.dropWork vd).clearUnits vd).dropRegions vd).endOrphans vd).dropGrants vd
      let gone := d.world.isNone
      let s := s.setVd vd { wctr := d.wctr, tenant := if gone then 0 else d.tenant, zeroing := d.frames, ready := d.frames.isEmpty, world := if gone then none else d.world, run := if gone then .off else .halted,
                            closing := if gone then none else some b }
      let s := if gone then s else s.post (s.boundaryAfter s.t) (.teardownRelease vd)
      .next (if d.frames.isEmpty then s.finish (.teardown vd) .ok else s)

/-- KEY_ERASE: once no access under the key is in flight, or after 32 us. -/
def execKeyErase (key : Nat) (s : State) : Out :=
  match s.keys.find? (fun k => k.id == key) with
  | some { id := _, st := .retiring since, keys := _ } =>
    if s.keyInFlight key && decide (s.t < since + 44800) then .next s
    else .next { s.deaden (· == key) with keys := s.keys.map (fun (k : KeyRec) => if k.id == key then { id := key } else k),
                                          ctrs := s.ctrs.filter (fun c => c.1 != key) }
  | _ => .next s

/-- A RETIRING KeyID that can be erased. -/
def State.nextErase (s : State) : Option Instr :=
  (s.keys.find? (fun k => (match k.st with | .retiring _ => true | .free | .installed => false) && !s.keyInFlight k.id)).map (fun k => .keyErase k.id)

/-! ### Invalidations (R225) -/

/-- Accesses in flight that used an entry within the scope. -/
def State.usedEntries (s : State) (v : Nat) (sc : InvScope) : List Nat :=
  (s.fars.filter (fun f => f.vd == v && !f.isPerformed && (match f.src with | .peer _ => false | _ => true) && InvScope.meetsLeaf sc f.leaf)).map (·.id)

/-- Receives that land through an entry within the scope. -/
def State.usedLands (s : State) (v : Nat) (sc : InvScope) : List Nat :=
  (List.range (s.vd v).rxs.length).filter (fun i =>
    let r := (s.vd v).rx i
    r.live && r.st == .matched && r.lines.any (fun l => InvScope.meetsLeaf sc l.leaf))

/-- Lines that the Barge has begun through an entry within the scope, and that no far request carries yet. -/
def State.usedLines (s : State) (v : Nat) (sc : InvScope) : List (Nat × Nat) :=
  (s.bargeRs.filter (fun b => b.vd == v)).flatMap (fun b =>
    (b.lines.zipIdx.filter (fun l => l.1.st == .started && InvScope.meetsLeaf sc l.1.leaf)).map (fun l => (b.id, l.2)))

/-- Has everything that an invalidation waits for drained? -/
def State.drained (s : State) (v : Nat) (q : Inval) : Bool :=
  q.lines.all (fun l => match s.bargeReq l.1 with | some b => (b.lines.getD l.2 { va := 0 }).st != .started | none => true) &&
  q.fars.all (fun i => match s.farReq i with | some f => f.isPerformed | none => true) &&
  q.lands.all (fun i => let r := (s.vd v).rx i; !(r.live && r.st == .matched))

/-- INVALIDATE_COMPLETE: in the order of acceptance. -/
def execInvalidateComplete (vd inv : Nat) (s : State) : Out :=
  match (s.vd vd).invals with
  | q :: rest => if q.id == inv && s.drained vd q then .next ((s.setVd vd { s.vd vd with invals := rest }).finish (.invalidate inv) .ok) else .next s
  | [] => .next s

def State.nextInval (s : State) : Option Instr :=
  firstSome (fun v => match (s.vd v).invals with | q :: _ => if s.drained v q then some (.invalidateComplete v q.id) else none | [] => none) (List.range s.vds.length)

/-! ### Housekeeping (R73, R333, R334, R340, R341) -/

/-- May housekeeping use a channel in the present clock? -/
def State.houseOpen (s : State) (c : Nat) : Bool := s.slotFree && s.structOpen (.hbm c)

/-- A line that housekeeping makes zero under KeyID 0 (R333, R340); errors in it are gone. -/
def State.zeroLineAt (s : State) (line : Nat) : State :=
  { s with mem := s.mem.clear (line * 64) 64, lineKeys := keyed line zeroedKey s.lineKeys, ciphers := s.ciphers.filter (fun c => c.1 != line),
           badHalves := s.badHalves.filter (fun h => h.1 / 2 != line) }

/-- One channel's next line zeroed, if the channel is open and has one. -/
def State.zeroStep (s : State) (c : Nat) : State :=
  match s.zeroOn c with
  | none => s
  | some (v, l) =>
    if !s.houseOpen c then s
    else ((s.countAccept (.hbm c)).zeroLineAt l).setVd v { s.vd v with zeroed := keyed c ((s.vd v).zeroedOn c + 1) (s.vd v).zeroed }

/-- A VD whose freed frames are all covered is ready, and its teardown is complete (R333). -/
def State.zeroOver (s : State) (v : Nat) : State :=
  let d := s.vd v
  if d.zeroing.isEmpty || d.zeroLeft then s else (s.setVd v { d with zeroing := [], zeroed := [], ready := true }).finish (.teardown v) .ok

/-- ZEROING_PASS: one line on every channel of a stack that is open (R333). -/
def execZeroingPass (stack : Nat) (s : State) : Out :=
  let s := (List.range 32).foldl (fun (s : State) i => s.zeroStep (stack * 32 + i)) s
  .next ((List.range s.vds.length).foldl State.zeroOver s)

/-- REGION_ZEROING: the next data line and its MAC under COUNTER 0. -/
def execRegionZeroing (idx : Nat) (s : State) : Out :=
  match s.regions.find? (fun r => r.idx == idx) with
  | none => .next s
  | some r =>
    let pa := r.pfn * 4096 + r.zeroed * 64
    if r.usable || !s.houseOpen (channelOf pa) then .next s
    else
      let s := (((s.countAccept (.hbm (channelOf pa))).copyFor (pa / 64)).zeroLineAt (pa / 64)).writeMac r (pa / 64) r.keyid 0
      let r' := { r with zeroed := r.zeroed + 1, usable := decide (r.len * 64 ≤ r.zeroed + 1) }
      let s := { s with regions := s.regions.map (fun (q : WRegion) => if q.idx == idx then r' else q) }
      .next (if r'.usable then s.finish (.region idx) .ok else s)

/-- ROLL_SWEEP: at the boundary the region becomes ROLLING; then one line a clock has its MAC checked and made anew. -/
def execRollSweep (region : Nat) (s : State) : Out :=
  match s.regions.find? (fun r => r.idx == region) with
  | none => .next s
  | some r =>
    let put (s : State) (x : WRegion) : State := { s with regions := s.regions.map (fun (q : WRegion) => if q.idx == region then x else q) }
    match r.roll with
    | none => if s.atBoundary then .next (put s { r with roll := some 0 }) else .next s
    | some p =>
      let line := r.pfn * 64 + p
      let c := channelOf (line * 64)
      if !s.houseOpen c then .next s
      else
        let s := s.countAccept (.hbm c)
        let s := if s.macOk r line r.keyid && !s.lineHurt line then (s.copyStep (r.macAt line)).writeMac r line r.keyid (r.counter + 1)
          else s.reportError (.mac line) (s.frameWorld (line * 64)) true
        if p + 1 < r.len * 64 then .next (put s { r with roll := some (p + 1) })
        else .next ((put s { r with roll := none, counter := r.counter + 1 }).finish (.roll region) .ok)

/-- Is every granule of the snapshot copied? -/
def State.snapOver (s : State) (v : Nat) : Bool :=
  match (s.vd v).snap with
  | some p => decide (frameCount (s.vd v).frames * 64 ≤ p.ptr)
  | none => true

/-- A snapshot whose last line is copied is complete, and the next one begins at a boundary (R334, R348). -/
def State.snapDone (s : State) (vd : Nat) : State :=
  if !s.snapOver vd then s
  else
    let s := s.finish (.snap vd) .ok
    if (s.vd vd).snapNext.isEmpty then s else s.post (s.boundaryAfter s.t) (.snapCopy vd)

/-- SNAP_COPY: at its boundary the snapshot begins and its bitmap is cleared; then one line at a time is copied, unless a write's own copy step has. -/
def execSnapCopy (vd : Nat) (s : State) : Out :=
  let d := s.vd vd
  match d.snapNext with
  | (area, bitmap) :: rest =>
    if s.snapOver vd && s.atBoundary then
      let s := s.setVd vd { d with snap := some { area := area, bitmap := bitmap }, snapNext := rest }
      .next ((s.houseWrite bitmap (List.replicate ((frameCount d.frames + 7) / 8) 0)).snapDone vd)
    else .next (copyOn s)
  | [] => .next (copyOn s)
where
  copyOn (s : State) : State :=
    let d := s.vd vd
    match d.snap, s.snapLine vd with
    | some p, some l =>
      let c := channelOf (l * 64)
      if !s.houseOpen c then s
      else
        let s := s.countAccept (.hbm c)
        let s := if p.since.contains (p.ptr / 64) || p.steps.any (fun x => x.1 == p.ptr / 64) then s else s.copyLine vd l (p.area + p.ptr * 64)
        (s.setVd vd { s.vd vd with snap := some { p with ptr := p.ptr + 1 } }).snapDone vd
    | _, _ => s

/-- What housekeeping does next in the present clock. -/
def State.nextHouse (s : State) : Option Instr :=
  if !s.slotFree then none
  else firstSome (fun c => if s.houseOpen c then s.houseOn c else none) (List.range 256)

end Sys2Proof.Machine
end

