-- ==== Sys2Proof/Machine/Admin.lean ====
section
/-! DEFINITION. The admin commands of VDID 0 (R348, Table 25.2). -/
namespace Sys2Proof.Machine
open Sys2Proof

/-! ### Accepting a command (R347, R348, R352) -/

/-- The CODE of an admin command (Table 25.2), in bits [7:0] of its word 0. The doorbell and the management port's commands are none. -/
def Instr.adminCode : Instr → Option (BitVec 8)
  | .vdCreate _ => some 0x01 | .schedule _ _ => some 0x02 | .halt _ => some 0x03 | .resume _ => some 0x04 | .replace _ _ _ => some 0x05 | .teardown _ => some 0x06
  | .ctxCreate _ _ => some 0x07 | .ranks _ _ _ => some 0x08 | .replay _ _ => some 0x09 | .invalidate _ _ => some 0x0A | .counters _ _ _ => some 0x0B
  | .snap _ _ _ => some 0x0C | .save _ => some 0x0D | .region _ => some 0x0E | .roll _ => some 0x0F | .seal _ _ => some 0x10 | .reseal _ => some 0x11
  | .debugArm _ _ | .debugComparators _ _ | .debugStopWorld _ _ | .debugStop _ _ | .debugStep _ _ | .debugResume _ _ | .debugRecordRead _ _
  | .debugRecordWrite _ _ _ => some 0x12
  | .unfreezeMgmt => some 0x13
  | .adminUnlistedCode c => some c
  | _ => none

/-- A command read from the ring: the consumer register moves on. The row stands for a command that the host has put there, so the producer register is beyond it
(R348; log 14). -/
def State.fetchCmd (s : State) : State := { s with adminCons := s.adminCons + 1, adminProd := max s.adminProd (s.adminCons + 1) }

/-- A command of the host that names some VDIDs, read from the ring: refused FROZEN while the host is frozen, and REFUSED while the device is in recovery. -/
def State.admin (s : State) (vds : List Nat) (f : State → State) : Out :=
  let s := s.fetchCmd
  if s.power != .on then .next (s.complete vds .refused [])
  else if s.health.hfrz then .next (s.complete vds .frozen [])
  else .next (f s)

/-- A command whose VD must be in a state: VD_STATE otherwise, and no effect. -/
def State.requires (s : State) (vds : List Nat) (b : Bool) (f : State → State) : State := if b then f s else s.complete vds .vdState []

/-- A command whose other fields must be as its rule says: REFUSED otherwise. -/
def State.allows (s : State) (vds : List Nat) (b : Bool) (f : State → State) : State := if b then f s else s.complete vds .refused []

/-- Is a row waiting in the agenda? -/
def State.awaits (s : State) (i : Instr) : Bool := s.agenda.any (fun a => a.2 == i)

/-! ### Virtual devices (R11, R12, R71, R266, R273, R326) -/

/-- Do two lists of (first, length) ranges meet? -/
def rangesMeet (a b : List (Nat × Nat)) : Bool :=
  a.any (fun x => b.any (fun y => decide (x.1 < y.1 + y.2) && decide (y.1 < x.1 + x.2) && decide (0 < x.2) && decide (0 < y.2)))

def isPow2 (n : Nat) : Bool := (List.range 64).any (fun k => n == 2 ^ k)

/-- Does an HBM bank that is out of service hold one of some frames (R357)? -/
def State.bankOut (s : State) (fs : List (Nat × Nat)) : Bool :=
  s.outOf.any (fun u => match u with | .bank st n => framesInBank fs st n | .core _ | .fibre _ | .peerFibre _ _ => false)

/-- Does a switch to a VD wait in the agenda (R326)? -/
def State.incoming (s : State) (v : Nat) : Bool := s.agenda.any (fun a => match a.2 with | .switchBoundary _ i | .padEnd _ i => i == v | _ => false)

/-- VD_CREATE: frames beyond the package's 512 GiB, in the device reserve, that another VD owns, or that the zeroing pass has not covered, are refused (R2, R15,
R333), and so are frames in a bank that is out of service (R357; log 25). %cycle of a VD that moves here goes on from its frozen value (R335). -/
def execVdCreate (a : VdArgs) (s : State) : Out :=
  s.admin [a.vdid] (fun s =>
    let d := s.vd a.vdid
    s.requires [a.vdid] (!d.created && d.ready && d.world.isNone) (fun s =>
      let taken := s.vds.flatMap (fun (x : Vd) => x.frames ++ x.uncovered) ++ Config.deviceReserve
      s.allows [a.vdid] (decide (1 ≤ a.vdid) && decide (a.vdid < 128) && isPow2 a.uqSize && decide (65536 ≤ a.uqSize) && decide (a.uqSize ≤ 2 ^ 26) &&
          decide (a.stack < 8) && a.frames.all (fun r => decide (r.1 + r.2 ≤ 2 ^ 27)) && !rangesMeet a.frames taken && !s.bankOut a.frames) (fun s =>
        (s.setVd a.vdid { created := true, tenant := a.tenant, uqSize := a.uqSize, root := a.root, stack := a.stack, ctxArea := a.ctxArea, ctxKey := a.ctxKey,
                          frames := a.frames, ctxs := List.replicate 16 {}, am := Clock.zero, frozen := a.frozen }).complete [a.vdid] .ok [])))

/-- Does an allotment stand unchanged in a layout, as a scheduled world needs it: every unit, the table stack, the quotas, the class and the tenant (R13, R15,
R350)? Its pad may change. -/
def Allot.keptIn (a : Allot) (l : Layout) : Bool :=
  l.allots.any (fun b => b.world == a.world && a.parts.all b.parts.contains && a.banks.all b.banks.contains && b.basin == a.basin && b.stack == a.stack &&
    decide (a.tlb ≤ b.tlb) && decide (a.l2 ≤ b.l2) && decide (a.walkers ≤ b.walkers) && b.cls == a.cls && b.tenant == a.tenant)

/-- Is a commit unfinished: a record for the generation after the one in force? -/
def State.committing (s : State) : Bool := match s.commit with | some (g, _) => g == s.layout.gen + 1 | none => false

/-- May a VD enter world w while a layout waits for its boundary? Not where the layout changes what it would hold (R13, R18; log 14). -/
def State.commitKeeps (s : State) (w : Nat) : Bool :=
  !s.committing || (match s.shadow with | some (l, _) => (s.allotOf w).all (fun a => Allot.keptIn a l) | none => true)

/-- SCHEDULE (R12, R71): into an allotment whose page-table stack holds the VD's tables (Table 1.1) and whose cores are all in service (R357). A VD that a switch
waits for is not to be scheduled besides. -/
def execSchedule (vd world : Nat) (s : State) : Out :=
  s.admin [vd] (fun s =>
    let d := s.vd vd
    s.requires [vd] (d.created && d.world.isNone && d.closing.isNone && !s.awaits (.teardownBoundary vd) && !s.incoming vd) (fun s =>
      s.allows [vd] ((s.allotOf world).any (fun a => a.stack == d.stack && (Allot.cores a).all s.coreWorks) && (s.vdOfWorld world).isNone && s.commitKeeps world) (fun s =>
        ((s.takeWorld vd world .starting).post (s.boundaryAfter s.t) (.firstRound vd)).takeCmd [vd] (.schedule vd))))

/-- HALT (R71). -/
def execHalt (vd : Nat) (s : State) : Out :=
  s.admin [vd] (fun s =>
    let d := s.vd vd
    s.requires [vd] ((d.run == .running || d.run == .starting) && !d.halting) (fun s =>
      let s := (s.setVd vd { d with halting := true }).takeCmd [vd] (.halt vd)
      if s.awaits (.haltEffect vd) then s else s.post (s.boundaryAfter s.t) (.haltEffect vd)))

/-- RESUME (R71, R358): not of a world that holds a unit out of service (R357; log 25). -/
def execResume (vd : Nat) (s : State) : Out :=
  s.admin [vd] (fun s =>
    let d := s.vd vd
    s.requires [vd] (d.run == .halted && d.closing.isNone && !s.health.emerg && !s.unitOut vd && !s.awaits (.resumeEffect vd)) (fun s =>
      (s.post (s.boundaryAfter s.t) (.resumeEffect vd)).takeCmd [vd] (.resume vd)))

/-- REPLACE (R326). -/
def execReplace (out inc allot : Nat) (s : State) : Out :=
  s.admin [out, inc] (fun s =>
    let d := s.vd out
    let e := s.vd inc
    s.requires [out, inc] (d.world == some allot && d.run != .saving && d.closing.isNone && e.created && e.world.isNone && e.closing.isNone && inc != out && !s.incoming inc) (fun s =>
      s.allows [out, inc] (e.stack == d.stack) (fun s =>
        (s.post (s.boundaryAfter s.t) (.switchBoundary out inc)).takeCmd [out, inc] (.replace out inc))))

/-- TEARDOWN (R266). -/
def execTeardown (vd : Nat) (s : State) : Out :=
  s.admin [vd] (fun s =>
    let d := s.vd vd
    s.requires [vd] (d.created && d.closing.isNone && d.run != .saving && !s.awaits (.teardownBoundary vd)) (fun s =>
      (s.post (s.boundaryAfter s.t) (.teardownBoundary vd)).takeCmd [vd] (.teardown vd)))

/-! ### Contexts (R44, R56, R331) -/

/-- A context's outstanding grids are discarded, and whatever it waited for; nothing follows any more from writes that it has under way. -/
def State.dropContext (s : State) (c : CtxRef) : State :=
  let mine (g : Grid) : Bool := g.st == .active && g.vd == c.vd && g.ctx == c.ctx
  let s := (List.range s.grids.length).foldl (fun (s : State) g => if mine (s.grid g) then (s.abortOne g { stat := 0, t := s.t }).stopGrid g else s) s
  { s with
    grids := s.grids.map (fun (g : Grid) => if mine g then { g with st := .discarded, queues := [] } else g),
    reqs := s.reqs.filter (fun r => !(r.world == s.worldNum c.vd && (match r.item with | .cpWord k => k == c.ctx | .work k _ _ i => k == c.ctx && entryCtx i == some c | _ => false))),
    jobs := s.jobs.filter (fun j => !(j.vd == c.vd && (match j.cont with | .entry k => k == c.ctx | .cp i => entryCtx i == some c | _ => false))),
    agenda := s.agenda.filter (fun a => entryCtx a.2 != some c),
    fars := s.fars.map (fun (f : Far) => match f.src with
      | .cp k _ => if f.vd == c.vd && k == c.ctx then { f with src := .cp k .gone } else f
      | _ => f) }

/-- CTX_CREATE: a created or reset context is IDLE, with the next generation. -/
def execCtxCreate (c : CtxRef) (a : CtxArgs) (s : State) : Out :=
  s.admin [c.vd] (fun s =>
    let d := s.vd c.vd
    s.requires [c.vd] d.created (fun s =>
      s.allows [c.vd] (decide (c.ctx < 16) && d.grants.contains a.key && a.eptr % 32 == 0 && a.ring % 64 == 0 && isPow2 a.size && decide (16 ≤ a.size) &&
          decide (a.size ≤ 4096)) (fun s =>
        let old := s.ctx c
        ((s.dropContext c).setCtx c { st := .idle, eptr := a.eptr, cgen := old.cgen + 1, keyid := a.key, chain := List.replicate 64 0, ring := a.ring,
                                      size := a.size }).complete [c.vd] .ok [])))

/-! ### Ranks, faults, translations, counters (R222, R225, R226, R267) -/

/-- RANKS: while the VD is not scheduled, or halted. -/
def execRanks (vd my : Nat) (table : List (Nat × Word)) (s : State) : Out :=
  s.admin [vd] (fun s =>
    let d := s.vd vd
    s.requires [vd] (d.created && (d.world.isNone || d.run == .halted)) (fun s => (s.setVd vd { d with myRank := my, ranks := table }).complete [vd] .ok []))

/-- REPLAY: every access held under the named records translates again (R222). -/
def execReplay (vd : Nat) (fid : Option Nat) (s : State) : Out :=
  s.admin [vd] (fun s =>
    let d := s.vd vd
    s.requires [vd] d.created (fun s =>
      let named (f : Nat) : Bool := match fid with | some n => n == f | none => true
      let held := s.jobs.filter (fun j => j.vd == vd && (match j.stage with | .held f => named f | _ => false))
      let s := s.setVd vd { d with faults := d.faults.filter (fun r => !named r.fid) }
      (held.foldl (fun (s : State) j => s.post s.t (.replayedAccess vd j.id)) s).complete [vd] .ok []))

/-- INVALIDATE (R225): complete once what used the old entries has drained. -/
def execInvalidate (vd : Nat) (sc : InvScope) (s : State) : Out :=
  s.admin [vd] (fun s =>
    s.requires [vd] (s.vd vd).created (fun s =>
      let q : Inval := { id := s.nextId, fars := s.usedEntries vd sc, lands := s.usedLands vd sc, lines := s.usedLines vd sc }
      let s := s.bump.forget vd sc
      (s.setVd vd { s.vd vd with invals := (s.vd vd).invals ++ [q] }).takeCmd [vd] (.invalidate q.id)))

/-- The counters of a region: local, remote and host, 16 bits each (log 14). -/
def State.counterBytes (s : State) (region : Nat) : List Byte :=
  let c := (s.counts.find? (fun c => c.1 == region)).getD (region, 0, 0, 0, false)
  toBytes 2 c.2.1 ++ toBytes 2 c.2.2.1 ++ toBytes 2 c.2.2.2.1

/-- COUNTERS: the counters of a range read, cleared and armed again. -/
def execCounters (vd va len : Nat) (s : State) : Out :=
  s.admin [vd] (fun s =>
    s.requires [vd] (s.vd vd).created (fun s =>
      let vas := (List.range ((va + len + 65535) / 65536 - va / 65536)).map (fun i => (va / 65536 + i) * 65536)
      let regions := vas.filterMap (fun a => match s.walk vd a with
        | .leaf l => if l.host || l.pkg != s.pkg then none else some (l.addr a / 65536)
        | .absent _ => none
        | .violation | .hurt _ => none)
      let data := regions.flatMap s.counterBytes
      ({ s with counts := s.counts.filter (fun c => !regions.contains c.1) }).complete [vd] .ok data))

/-! ### Snapshots and moves (R334, R335) -/

/-- SNAP: at the next boundary, or at the one after the end of those before it. Area and bitmap lie in the VD's own frames (log 24). -/
def execSnap (vd area bitmap : Nat) (s : State) : Out :=
  s.admin [vd] (fun s =>
    let d := s.vd vd
    s.requires [vd] d.created (fun s =>
      s.allows [vd] (framesHold d.frames (area / 4096) && (spanLines bitmap ((frameCount d.frames + 7) / 8)).all (fun l => framesHold d.frames (l / 64))) (fun s =>
        let s := (s.setVd vd { d with snapNext := d.snapNext ++ [(area, bitmap)] }).takeCmd [vd] (.snap vd)
        if s.snapOver vd && d.snapNext.isEmpty then s.post (s.boundaryAfter s.t) (.snapCopy vd) else s)))

/-- SAVE: a halted VD's whole on-chip state goes to its context area. -/
def execSave (vd : Nat) (s : State) : Out :=
  s.admin [vd] (fun s => s.requires [vd] ((s.vd vd).run == .halted && (s.vd vd).closing.isNone) (fun s => (s.writeContext vd).complete [vd] .ok []))

/-! ### Regions (R340, R341, R343, R345) -/

/-- Frames of a region's data and of its MACs. -/
def WRegion.spans (r : WRegion) : List (Nat × Nat) := [(r.pfn, r.len), (r.macPfn, (r.len * 512 + 4095) / 4096)]
def SRegion.spans (r : SRegion) : List (Nat × Nat) := [(r.pfn, r.len)]

def State.keyInstalled (s : State) (key : Nat) : Bool := s.keys.any (fun k => k.id == key && k.st == KeySt.installed)

/-- The region that a record of Table 24.2 describes; STATE and COUNTER are read only, so what the host gives there says nothing. -/
def RegionArgs.region (r : RegionArgs) : WRegion :=
  let w (i : Nat) : DWord := r.words.getD i 0
  { idx := fieldOf (w 2) 7 0, pfn := fieldOf (w 0) 42 12, macPfn := fieldOf (w 1) 42 12, len := fieldOf (w 2) 63 32, keyid := fieldOf (w 2) 21 12 }

/-- Is a record one of 32 bytes whose reserved bits are 0? -/
def RegionArgs.ok (r : RegionArgs) : Bool :=
  let w (i : Nat) : DWord := r.words.getD i 0
  r.words.length == 4 && fieldOf (w 0) 63 43 == 0 && fieldOf (w 0) 11 0 == 0 && fieldOf (w 1) 63 43 == 0 && fieldOf (w 1) 11 0 == 0 && fieldOf (w 2) 31 22 == 0 &&
    fieldOf (w 2) 11 9 == 0 && fieldOf (w 3) 63 32 == 0

/-- The record of a region, as Table 24.2 lays it down. -/
def WRegion.record (r : WRegion) : List DWord :=
  [BitVec.ofNat 64 (r.pfn * 2 ^ 12), BitVec.ofNat 64 (r.macPfn * 2 ^ 12),
   BitVec.ofNat 64 (r.len * 2 ^ 32 + r.keyid * 2 ^ 12 + (if r.roll.isSome then 2 ^ 8 else 0) + r.idx), BitVec.ofNat 64 r.counter]

/-- May a region have the number of an existing one? It is removed and defined anew, under another KeyID, unless it is being made or rolled (R341; log 25). -/
def State.replaces (s : State) (x : WRegion) : Bool :=
  s.regions.all (fun q => q.idx != x.idx || (q.usable && q.roll.isNone && q.keyid != x.keyid && !s.awaits (.rollSweep q.idx)))

/-- Does every frame of some ranges exist (R2)? -/
def framesExist (fs : List (Nat × Nat)) : Bool := fs.all (fun r => decide (r.1 + r.2 ≤ 2 ^ 27))

/-- REGION: complete once housekeeping has zeroed it. -/
def execRegion (r : RegionArgs) (s : State) : Out :=
  s.admin [] (fun s =>
    let x := RegionArgs.region r
    let rest := s.regions.filter (fun q => q.idx != x.idx)
    let others := rest.flatMap WRegion.spans ++ s.sealed.flatMap SRegion.spans
    s.allows [] (RegionArgs.ok r && decide (1 ≤ x.len) && decide (1 ≤ x.keyid) && s.keyInstalled x.keyid && s.replaces x && framesExist x.spans && !rangesMeet x.spans others &&
        !rangesMeet [(x.pfn, x.len)] [(x.macPfn, (x.len * 512 + 4095) / 4096)]) (fun s =>
      { s with regions := rest ++ [x] }.takeCmd [] (.region x.idx)))

/-- ROLL. -/
def execRoll (idx : Nat) (s : State) : Out :=
  s.admin [] (fun s =>
    s.allows [] (s.regions.any (fun r => r.idx == idx && r.usable && r.roll.isNone && decide (r.counter < 0xFFFFFFFF)) && !s.awaits (.rollSweep idx)) (fun s =>
      (s.post (s.boundaryAfter s.t) (.rollSweep idx)).takeCmd [] (.roll idx)))

/-- The generation in which a region was last sealed, or 0 (R343). -/
def State.genOf (s : State) (num : Nat) : Nat := ((s.gens.find? (fun g => g.1 == num)).map (·.2)).getD 0

/-- How many sealed regions a VD may read: those under KeyIDs that it has been granted (R344). -/
def State.sealedFor (s : State) (grants : List Nat) : Nat := (s.sealed.filter (fun r => grants.contains r.keyid)).length

/-- The frames of a tree area: levels 1 to h - 1, a line for each node. -/
def SRegion.treeFrames (r : SRegion) : Nat := (((List.range (r.height - 1)).map (fun l => r.nodes (l + 1))).sum + 63) / 64

/-- SEAL: the sealing pass follows in the world's command-processor slots. GEN goes up from where the region number's last one stands, and no VD may come to read
more than 64 regions (R343). -/
def execSeal (vd : Nat) (a : SealArgs) (s : State) : Out :=
  s.admin [vd] (fun s =>
    let x : SRegion := { num := a.num, vd := vd, pfn := a.pfn, len := a.len, keyid := a.keyid, tree := a.tree, gen := s.genOf a.num + 1 }
    s.requires [vd] (s.vd vd).created (fun s =>
      s.allows [vd] (decide (1 ≤ a.len) && decide (a.len ≤ 2 ^ 24) && decide (1 ≤ a.keyid) && s.keyInstalled a.keyid && s.sealed.all (fun r => r.num != a.num) &&
          s.vds.all (fun d => !d.created || !d.grants.contains a.keyid || decide (s.sealedFor d.grants < 64)) && framesExist ((a.tree, x.treeFrames) :: x.spans) &&
          !rangesMeet x.spans (s.regions.flatMap WRegion.spans ++ s.sealed.flatMap SRegion.spans)) (fun s =>
        { s with sealed := s.sealed ++ [x], gens := keyed a.num x.gen s.gens }.takeCmd [vd] (.seal a.num))))

/-- RESEAL: GEN rises first, and the tree is rebuilt (Table 24.3). -/
def execReseal (num : Nat) (s : State) : Out :=
  s.admin [] (fun s =>
    s.requires [] (s.sealed.any (fun r => r.num == num && (r.st == .sealed || r.st == .damaged))) (fun s =>
      let anew (r : SRegion) : SRegion := if r.num == num then { r with st := .resealing, gen := r.gen + 1, bad := [], ptr := 0 } else r
      let s := { s with sealed := s.sealed.map anew, gens := keyed num (s.genOf num + 1) s.gens }
      (s.noteDamage.dropRegion num).takeCmd [] (.seal num)))

/-! ### Debug (R324, R325) -/

/-- A crew of the VD that is resident. -/
def State.crewOf (s : State) (vd crew : Nat) : Bool := (s.crew crew).live && decide (crew < s.crews.length) && s.vdOf crew == vd

/-- DEBUG: arm or disarm. -/
def execDebugArm (vd : Nat) (on : Bool) (s : State) : Out :=
  s.admin [vd] (fun s =>
    let d := s.vd vd
    s.requires [vd] d.created (fun s => (s.setVd vd { d with dbg := { d.dbg with armed := on } }).complete [vd] .ok []))

/-- DEBUG: up to four comparators. -/
def execDebugComparators (vd : Nat) (cs : List Comparator) (s : State) : Out :=
  s.admin [vd] (fun s =>
    let d := s.vd vd
    s.requires [vd] d.created (fun s => s.allows [vd] (decide (cs.length ≤ 4)) (fun s =>
      (s.setVd vd { d with dbg := { d.dbg with comps := cs } }).complete [vd] .ok [])))

/-- DEBUG: the stop-world bit. -/
def execDebugStopWorld (vd : Nat) (on : Bool) (s : State) : Out :=
  s.admin [vd] (fun s =>
    let d := s.vd vd
    s.requires [vd] d.created (fun s => (s.setVd vd { d with dbg := { d.dbg with stopWorld := on } }).complete [vd] .ok []))

/-- DEBUG: stop. -/
def execDebugStop (vd crew : Nat) (s : State) : Out :=
  s.admin [vd] (fun s => s.requires [vd] (s.crewOf vd crew && (s.vd vd).dbg.armed) (fun s => (s.debugHalt crew .host).complete [vd] .ok []))

/-- DEBUG: step, a stopped crew's one packet. -/
def execDebugStep (vd crew : Nat) (s : State) : Out :=
  s.admin [vd] (fun s => s.requires [vd] (s.crewOf vd crew && (s.crew crew).halted.isSome) (fun s =>
    (s.setCrew crew { s.crew crew with step := true }).complete [vd] .ok []))

/-- DEBUG: resume. -/
def execDebugResume (vd crew : Nat) (s : State) : Out :=
  s.admin [vd] (fun s => s.requires [vd] (s.crewOf vd crew && (s.crew crew).halted.isSome) (fun s =>
    (s.setCrew crew { s.crew crew with halted := none, step := false, stepEnd := false }).complete [vd] .ok []))

/-- DEBUG: a stopped crew's record read, its registers and spill windows behind it. -/
def execDebugRecordRead (vd crew : Nat) (s : State) : Out :=
  s.admin [vd] (fun s => s.requires [vd] (s.crewOf vd crew && (s.crew crew).halted.isSome) (fun s =>
    s.complete [vd] .ok ((s.crew crew).record true ++ s.crewRows (s.crew crew))))

/-- DEBUG: a stopped crew's record written. -/
def execDebugRecordWrite (vd crew : Nat) (rec : List DWord) (s : State) : Out :=
  s.admin [vd] (fun s => s.requires [vd] (s.crewOf vd crew && (s.crew crew).halted.isSome) (fun s =>
    let s := s.setCrew crew ((s.crew crew).fromRecord rec (s.barrierAt crew))
    let s := if (rec.getD 9 0).getLsbD 9 then s.spillFromRecord crew rec else s
    s.complete [vd] .ok []))

/-! ### The rest (R347, R348) -/

/-- UNFREEZE_MGMT: a freeze of the same clock wins. -/
def execUnfreezeMgmt (s : State) : Out :=
  s.admin [] (fun s =>
    if s.frzMgmt == some s.t then s.complete [] .ok []
    else ({ s with health := { s.health with mfrz := false }, frzMgmt := none }).complete [] .ok [])

/-- An unlisted CODE completes REFUSED. -/
def execAdminUnlistedCode (_code : BitVec 8) (s : State) : Out := s.admin [] (fun s => s.complete [] .refused [])

end Sys2Proof.Machine
end

