-- ==== Sys2Proof/Machine/Barrier.lean ====
section
/-! DEFINITION. fence (R297) and the muster barriers (R298-R302). -/
namespace Sys2Proof.Machine
open Sys2Proof

/-- Some lane of the list waits: PARKED while any must be PARKED, for those that wait. -/
def laneWaits (ls : List Nat) (w : Nat → Option LaneSt) : List Nat := ls.filter (fun l => (w l).isSome)

/-- fence: each active lane is held until its conditions hold (R297). -/
def execFence (h : Hdr) (sc : Scope) (s : State) : Out :=
  word h {} (fun s k act =>
    let wait := laneWaits act (s.fenceWait sc s.cur)
    let parked := wait.filter (fun l => s.fenceWait sc s.cur l == some .parked)
    let held := wait.filter (fun l => s.fenceWait sc s.cur l != some .parked)
    .ok ((s.unissue k parked (fun _ => .parked)).unissue k held (fun _ => .held))) s

/-- The index of a muster operand on the active lanes (R298): none where a register differs. -/
def musterIndex (s : State) (k : Crew) (act : List Nat) : MusterH → Option Nat
  | .imm i => some i.toNat
  | .reg r => (uniform (act.map (fun l => (rd s k 2 l r).toNat))).map (· % 256)

def MusterH.src : MusterH → List (BitVec 8 × Nat)
  | .imm _ => []
  | .reg r => [(r, 1)]

/-- The checks of R299 after the encoding class; `whole` for bar and barv; `tok` is barw's token bit on the lanes. -/
def musterCheck (s : State) (k : Crew) (act : List Nat) (m : MusterH) (whole : Bool) (tok : List Nat) (f : Nat → Eff) : Eff :=
  if whole && laneMask act != k.aliveMask then .trap tcConvergence 0
  else
    match musterIndex s k act m, uniform tok with
    | some i, some _ =>
      let w := s.wg k.wg
      if w.musters.length ≤ i || !(w.muster i).member.getLsbD k.num then .trap tcHandle (handleInfo i 6) else f i
    | _, _ => .trap tcNonuniform 0

/-- The crew arrives at set m with its active lanes' clocks (R300 step 3). -/
def State.arrive (s : State) (k : Crew) (act : List Nat) (m : Nat) : State :=
  let x := (s.wg k.wg).muster m
  let c := act.foldl (fun c l => Clock.merge ((s.crew s.cur).lane l).clock c) x.clock
  s.setWg k.wg ((s.wg k.wg).setMuster m { x with arrival := x.arrival ||| (1#64 <<< k.num), clock := c })

/-- What holds an arrival back: fence.pkg's conditions for every active lane, then an earlier arrival of the crew (R300 steps 1 and 2). -/
def State.arriveWait (s : State) (k : Crew) (act : List Nat) (m : Nat) : Option LaneSt :=
  if act.any (fun l => s.fenceWait .pkg s.cur l == some .parked) then some .parked
  else if act.any (fun l => (s.fenceWait .pkg s.cur l).isSome) then some .held
  else if ((s.wg k.wg).muster m).arrival.getLsbD k.num then some .held
  else none

/-- bar (R300): arrive, then wait at the word. -/
def execBar (h : Hdr) (m : MusterH) (s : State) : Out :=
  word h { src := MusterH.src m } (fun s k act =>
    musterCheck s k act m true [0] (fun i =>
      match s.arriveWait k act i with
      | some st => .wait st
      | none =>
        let s := s.updCur (fun k' => k'.onLanes act (fun _ x => { x with st := .barwait i, pc := s.curPc }))
        .ok ((s.arrive k act i).musterCheck k.wg i))) s

/-- barv (R300): arrive, write the token and go on. -/
def execBarv (h : Hdr) (d : BitVec 8) (m : MusterH) (s : State) : Out :=
  word h { dst := [(d, 1)], src := MusterH.src m } (fun s k act =>
    musterCheck s k act m true [0] (fun i =>
      match s.arriveWait k act i with
      | some st => .wait st
      | none =>
        let tok : Word := if ((s.wg k.wg).muster i).phase then 1 else 0
        let s := s.updCur (fun k' => k'.onLanes act (fun _ x => regWrite x d.toNat tok))
        .ok ((s.arrive k act i).musterCheck k.wg i))) s

/-- barw (R301): goes on at once where the phase already differs from the token. -/
def execBarw (h : Hdr) (m : MusterH) (a : BitVec 8) (s : State) : Out :=
  word h { src := (a, 1) :: MusterH.src m } (fun s k act =>
    let toks := act.map (fun l => (rd s k 0 l a).toNat % 2)
    musterCheck s k act m false toks (fun i =>
      let x := (s.wg k.wg).muster i
      if x.phase != (toks.head? == some 1) then
        .ok (s.updCur (fun k' => k'.onLanes act (fun _ y => { y with clock := Clock.merge x.done y.clock })))
      else .ok (s.updCur (fun k' => k'.onLanes act (fun _ y => { y with st := .barwait i, pc := s.curPc }))))) s

end Sys2Proof.Machine
end

