-- ==== Sys2Proof/Machine/Bits.lean ====
section
/-! DEFINITION. Logic, shifts, bit fields, moves (R135, R136), comparisons and 64-bit arithmetic (R137, R138). -/
namespace Sys2Proof.Machine
open Sys2Proof

def execIand (h : Hdr) (d a b : BitVec 8) (s : State) : Out := binary h d a b (fun x y => x &&& y) s
def execIor (h : Hdr) (d a b : BitVec 8) (s : State) : Out := binary h d a b (fun x y => x ||| y) s
def execIxor (h : Hdr) (d a b : BitVec 8) (s : State) : Out := binary h d a b (fun x y => x ^^^ y) s
def execIandn (h : Hdr) (d a b : BitVec 8) (s : State) : Out := binary h d a b (fun x y => x &&& ~~~y) s
def execInot (h : Hdr) (d a : BitVec 8) (s : State) : Out := unary h d a (fun x => ~~~x) s

/-- A 32-bit shift by a register's whole value or by SH (R135). -/
def shiftWord (h : Hdr) (d a : BitVec 8) (k : Shift5) (f : Word → Nat → Word) : State → Out :=
  match k with
  | .reg b => binary h d a b (fun x y => f x y.toNat)
  | .imm n => unary h d a (fun x => f x n.toNat)

def execShl (h : Hdr) (d a : BitVec 8) (k : Shift5) (s : State) : Out := shiftWord h d a k shlResult s
def execShr (h : Hdr) (d a : BitVec 8) (k : Shift5) (s : State) : Out := shiftWord h d a k shrResult s
def execSar (h : Hdr) (d a : BitVec 8) (k : Shift5) (s : State) : Out := shiftWord h d a k sarResult s
def execRotl (h : Hdr) (d a : BitVec 8) (k : Shift5) (s : State) : Out := shiftWord h d a k rotlResult s
def execRotr (h : Hdr) (d a : BitVec 8) (k : Shift5) (s : State) : Out := shiftWord h d a k rotrResult s
def execPopc (h : Hdr) (d a : BitVec 8) (s : State) : Out := unary h d a popcResult s
def execClz (h : Hdr) (d a : BitVec 8) (s : State) : Out := unary h d a clzResult s
def execCtz (h : Hdr) (d a : BitVec 8) (s : State) : Out := unary h d a ctzResult s
def execBrev (h : Hdr) (d a : BitVec 8) (s : State) : Out := unary h d a brevResult s
def execBfx (h : Hdr) (d a b : BitVec 8) (u : Bool) (s : State) : Out := binary h d a b (bfxResult u) s
def execBfi (h : Hdr) (d a b c : BitVec 8) (s : State) : Out := ternary h d a b c bfiResult s

/-- sel (R135): a where pC is true, else b. -/
def execSel (h : Hdr) (d a b : BitVec 8) (p : BitVec 4) (s : State) : Out :=
  regWord h d [a, b] (fun r k l => if predRead (k.lane l) p then r 0 a else r 1 b) s [p]

def execMov (h : Hdr) (d a : BitVec 8) (s : State) : Out := unary h d a id s
def execMovi (h : Hdr) (d : BitVec 8) (imm : BitVec 31) (s : State) : Out := regWord h d [] (fun _ _ _ => imm.signExtend 32) s
def execMovh (h : Hdr) (d a : BitVec 8) (imm : BitVec 16) (s : State) : Out := unary h d a (fun x => movhResult x imm) s

/-- icmp (R137). -/
def execIcmp (h : Hdr) (cc : Cond) (u : Bool) (pd : BitVec 4) (a b : BitVec 8) (pc : BitVec 4) (s : State) : Out :=
  predWord h pd { src := [(a, 1), (b, 1)], preds := [pc] }
    (fun s k l => icmpResult cc u (rd s k 0 l a) (rd s k 1 l b) && predRead (k.lane l) pc) s

/-- wcmp (R138). -/
def execWcmp (h : Hdr) (cc : Cond) (u : Bool) (pd : BitVec 4) (a b : BitVec 8) (pc : BitVec 4) (s : State) : Out :=
  predWord h pd { src := [(a, 2), (b, 2)], preds := [pc] }
    (fun s k l => wcmpResult cc u (rd64 s k 0 l a) (rd64 s k 1 l b) && predRead (k.lane l) pc) s

/-- A word whose result for each active lane is a pair. -/
def pairWord (h : Hdr) (d : BitVec 8) (src : List (BitVec 8 × Nat)) (f : State → Crew → Nat → DWord) : State → Out :=
  word h { dst := [(d, 2)], src := src } (fun s k act =>
    .ok (s.updCur (fun k' => k'.onLanes act (fun l x => pairWrite x d.toNat (f s k l)))))

def execWadd (h : Hdr) (d a b : BitVec 8) (s : State) : Out :=
  pairWord h d [(a, 2), (b, 2)] (fun s k l => rd64 s k 0 l a + rd64 s k 1 l b) s

/-- wshl (R138). -/
def execWshl (h : Hdr) (d a : BitVec 8) (k : Shift6) (s : State) : Out :=
  match k with
  | .reg b => pairWord h d [(a, 2), (b, 1)] (fun s k l => wshlResult (rd64 s k 0 l a) (rd s k 1 l b).toNat) s
  | .imm n => pairWord h d [(a, 2)] (fun s k l => wshlResult (rd64 s k 0 l a) n.toNat) s

def execWaddi (h : Hdr) (d a : BitVec 8) (imm : BitVec 31) (s : State) : Out :=
  pairWord h d [(a, 2)] (fun s k l => waddiResult (rd64 s k 0 l a) imm) s

def execWmad (h : Hdr) (d a b c : BitVec 8) (u : Bool) (s : State) : Out :=
  pairWord h d [(a, 1), (b, 1), (c, 2)] (fun s k l => wmadResult u (rd s k 0 l a) (rd s k 1 l b) (rd64 s k 2 l c)) s

end Sys2Proof.Machine
end

