-- ==== Sys2Proof/Machine/Convert.lean ====
section
/-! DEFINITION. Conversion (R183-R189): cvt, nq, nx and bscale. -/
namespace Sys2Proof.Machine
open Sys2Proof

def execCvt (h : Hdr) (dst src : Cty) (m : FMod) (d a : BitVec 8) (s : State) : Out :=
  numWord h d [a] (fun r => cvtWord dst src m (r 0 a)) s

def execNq (h : Hdr) (ov : Ov) (ftz : Bool) (d a b : BitVec 8) (s : State) : Out :=
  numWord h d [a, b] (fun r => nqWord ov ftz ((r 1 b).setWidth 16) (r 0 a)) s

def execNx (h : Hdr) (ty : Fty) (m : FMod) (d a b : BitVec 8) (s : State) : Out :=
  numWord h d [a, b] (fun r => nxWord ty m ((r 1 b).setWidth 16) (r 0 a)) s

/-- A conversion through a format slot of the launch, which must be lg6 with SFMT 0 (R187). -/
def slotWord (h : Hdr) (fs : BitVec 3) (d a : BitVec 8) (f : FmtSlot → Word → Option Word) : State → Out :=
  word h { dst := [(d, 1)], src := [(a, 1)] } (fun s k act =>
    let x := (s.gridOf s.cur).fs fs
    if x.fmt != 3 || x.sfmt != 0 then .trap tcHandle (handleInfo fs.toNat 3)
    else
      let res (l : Nat) : Option Word := f x (rd s k 0 l a)
      match act.find? (fun l => (res l).isNone) with
      | some l => .trap tcNumeric (BitVec.ofNat 64 l)
      | none => .ok (s.updCur (fun k' => k'.onLanes act (fun l y => regWrite y d.toNat ((res l).getD 0)))))

def execNqFs (h : Hdr) (fs : BitVec 3) (d a : BitVec 8) (s : State) : Out :=
  slotWord h fs d a (fun x w => nqWord x.ov x.ftz x.xscale w) s

def execNxFs (h : Hdr) (ty : Fty) (fs : BitVec 3) (d a : BitVec 8) (s : State) : Out :=
  slotWord h fs d a (fun x w => nxWord ty ⟨x.rm, x.ov, x.ftz⟩ x.xscale w) s

def execBscale (h : Hdr) (ftz : Bool) (d a : BitVec 8) (s : State) : Out := unary h d a (bscaleWord ftz) s

def execBscaleFold (h : Hdr) (ftz : Bool) (d a b : BitVec 8) (s : State) : Out := binary h d a b (foldWord ftz) s

end Sys2Proof.Machine
end

