-- ==== Sys2Proof/Machine/FloatOps.lean ====
section
/-! DEFINITION. The floating-point words (R171-R182): arithmetic, comparison, the special functions, packed halves. -/
namespace Sys2Proof.Machine
open Sys2Proof

/-- The element that a scalar word reads from a register (R173). -/
def scalar (t : Fty) (w : Word) : Nat := w.toNat % 2 ^ t.width

/-- An element as it is written to a register (R154). -/
def element (x : Nat) : Word := BitVec.ofNat 32 x

def execFadd (h : Hdr) (ty : Fty) (m : FMod) (d a b : BitVec 8) (s : State) : Out :=
  numWord h d [a, b] (fun r => (fAdd ty m (scalar ty (r 0 a)) (scalar ty (r 1 b))).map element) s
def execFsub (h : Hdr) (ty : Fty) (m : FMod) (d a b : BitVec 8) (s : State) : Out :=
  numWord h d [a, b] (fun r => (fSub ty m (scalar ty (r 0 a)) (scalar ty (r 1 b))).map element) s
def execFmul (h : Hdr) (ty : Fty) (m : FMod) (d a b : BitVec 8) (s : State) : Out :=
  numWord h d [a, b] (fun r => (fMul ty m (scalar ty (r 0 a)) (scalar ty (r 1 b))).map element) s
def execFfma (h : Hdr) (ty : Fty) (m : FMod) (d a b c : BitVec 8) (s : State) : Out :=
  numWord h d [a, b, c] (fun r => (fFma ty m (scalar ty (r 0 a)) (scalar ty (r 1 b)) (scalar ty (r 2 c))).map element) s
def execFmin (h : Hdr) (ty : Fty) (ftz : Bool) (d a b : BitVec 8) (s : State) : Out :=
  binary h d a b (fun x y => element (fMin ty ftz (scalar ty x) (scalar ty y))) s
def execFmax (h : Hdr) (ty : Fty) (ftz : Bool) (d a b : BitVec 8) (s : State) : Out :=
  binary h d a b (fun x y => element (fMax ty ftz (scalar ty x) (scalar ty y))) s

/-- The fspecial group: the value is decided at issue and written 24 clk later (R175, R181). -/
def specialOp (f : SFn) (h : Hdr) (la : BitVec 4) (ov : Ov) (ftz : Bool) (d a : BitVec 8) : State → Out :=
  word h { dst := [(d, 1)], src := [(a, 1)] } (fun s k act =>
    let res (l : Nat) : Option Word := specialWord f ov ftz (rd s k 0 l a)
    match act.find? (fun l => (res l).isNone) with
    | some l => .trap tcNumeric (BitVec.ofNat 64 l)
    | none => .ok (openFixed s act .alu la d 24 (fun l => [(res l).getD 0])))

def execFrcp (h : Hdr) (la : BitVec 4) (ov : Ov) (ftz : Bool) (d a : BitVec 8) (s : State) : Out := specialOp .rcp h la ov ftz d a s
def execFrsq (h : Hdr) (la : BitVec 4) (ov : Ov) (ftz : Bool) (d a : BitVec 8) (s : State) : Out := specialOp .rsq h la ov ftz d a s
def execFsqrt (h : Hdr) (la : BitVec 4) (ov : Ov) (ftz : Bool) (d a : BitVec 8) (s : State) : Out := specialOp .sqrt h la ov ftz d a s
def execFex2 (h : Hdr) (la : BitVec 4) (ov : Ov) (ftz : Bool) (d a : BitVec 8) (s : State) : Out := specialOp .ex2 h la ov ftz d a s
def execFlg2 (h : Hdr) (la : BitVec 4) (ov : Ov) (ftz : Bool) (d a : BitVec 8) (s : State) : Out := specialOp .lg2 h la ov ftz d a s
def execFsin (h : Hdr) (la : BitVec 4) (ov : Ov) (ftz : Bool) (d a : BitVec 8) (s : State) : Out := specialOp .sin h la ov ftz d a s
def execFcos (h : Hdr) (la : BitVec 4) (ov : Ov) (ftz : Bool) (d a : BitVec 8) (s : State) : Out := specialOp .cos h la ov ftz d a s
def execFtanh (h : Hdr) (la : BitVec 4) (ov : Ov) (ftz : Bool) (d a : BitVec 8) (s : State) : Out := specialOp .tanh h la ov ftz d a s

/-- fcmp (R178). -/
def execFcmp (h : Hdr) (cc : FCond) (ty : Fty) (ftz : Bool) (pd : BitVec 4) (a b : BitVec 8) (pc : BitVec 4) (s : State) : Out :=
  predWord h pd { src := [(a, 1), (b, 1)], preds := [pc] }
    (fun s k l => fCond cc (fOrder ty ftz (scalar ty (rd s k 0 l a)) (scalar ty (rd s k 1 l b))) && predRead (k.lane l) pc) s

def execFclass (h : Hdr) (ty : Fty) (ftz : Bool) (d a : BitVec 8) (s : State) : Out :=
  unary h d a (fun x => element (fClass ty ftz (scalar ty x))) s

/-- frnd (R180). -/
def execFrnd (h : Hdr) (ty : Fty) (rm : Rm) (ftz : Bool) (d a : BitVec 8) (s : State) : Out :=
  unary h d a (fun x => element (fRound ty ⟨rm, .inf, ftz⟩ (scalar ty x))) s

/-- The element type of a packed word (R182). -/
def packType (bf : Bool) : Fty := if bf then .bf16 else .f16

def execPkadd (h : Hdr) (bf : Bool) (m : FMod) (d a b : BitVec 8) (s : State) : Out :=
  numWord h d [a, b] (fun r => packed (fAdd (packType bf) m) (r 0 a) (r 1 b)) s
def execPkmul (h : Hdr) (bf : Bool) (m : FMod) (d a b : BitVec 8) (s : State) : Out :=
  numWord h d [a, b] (fun r => packed (fMul (packType bf) m) (r 0 a) (r 1 b)) s
def execPkfma (h : Hdr) (bf : Bool) (m : FMod) (d a b c : BitVec 8) (s : State) : Out :=
  numWord h d [a, b, c] (fun r => packed3 (fFma (packType bf) m) (r 0 a) (r 1 b) (r 2 c)) s

end Sys2Proof.Machine
end

