-- ==== Sys2Proof/Machine/Integer.lean ====
section
/-! DEFINITION. Whole-number arithmetic (R132-R134). -/
namespace Sys2Proof.Machine
open Sys2Proof

def execIadd (h : Hdr) (d a b : BitVec 8) (sat u : Bool) (s : State) : Out := binary h d a b (addResult sat u) s
def execIsub (h : Hdr) (d a b : BitVec 8) (sat u : Bool) (s : State) : Out := binary h d a b (subResult sat u) s
def execImul (h : Hdr) (d a b : BitVec 8) (s : State) : Out := binary h d a b mulResult s
def execImulh (h : Hdr) (d a b : BitVec 8) (u : Bool) (s : State) : Out := binary h d a b (mulhResult u) s
def execImad (h : Hdr) (d a b c : BitVec 8) (sat u : Bool) (s : State) : Out := ternary h d a b c (madResult sat u) s
def execImin (h : Hdr) (d a b : BitVec 8) (u : Bool) (s : State) : Out := binary h d a b (minResult u) s
def execImax (h : Hdr) (d a b : BitVec 8) (u : Bool) (s : State) : Out := binary h d a b (maxResult u) s
def execIclamp (h : Hdr) (d a b c : BitVec 8) (u : Bool) (s : State) : Out := ternary h d a b c (clampResult u) s
def execIneg (h : Hdr) (d a : BitVec 8) (sat : Bool) (s : State) : Out := unary h d a (negResult sat) s
def execIabs (h : Hdr) (d a : BitVec 8) (sat : Bool) (s : State) : Out := unary h d a (absResult sat) s

/-- A chained add or subtract: the carry-in is read before the carry-out is written (R133). -/
def carryWord (h : Hdr) (d a b : BitVec 8) (ci co : BitVec 4) (f : Word → Word → Bool → Word × Bool) : State → Out :=
  word h { dst := [(d, 1)], src := [(a, 1), (b, 1)], preds := [ci], pdst := [co] } (fun s k act =>
    .ok (s.updCur (fun k' => k'.onLanes act (fun l x =>
      let r := f (rd s k 0 l a) (rd s k 1 l b) (predRead (k.lane l) ci)
      predWrite (regWrite x d.toNat r.1) co r.2))))

def execIaddc (h : Hdr) (d a b : BitVec 8) (ci co : BitVec 4) (s : State) : Out := carryWord h d a b ci co addcResult s
def execIsubb (h : Hdr) (d a b : BitVec 8) (ci co : BitVec 4) (s : State) : Out := carryWord h d a b ci co subbResult s

/-- A division: read at issue, written 32 clk later (R134, R113). -/
def divideWord (h : Hdr) (la : BitVec 4) (d a b : BitVec 8) (f : Word → Word → Word) : State → Out :=
  word h { dst := [(d, 1)], src := [(a, 1), (b, 1)] } (fun s k act =>
    .ok (openFixed s act .alu la d 32 (fun l => [f (rd s k 0 l a) (rd s k 1 l b)])))

def execIdiv (h : Hdr) (la : BitVec 4) (d a b : BitVec 8) (u : Bool) (s : State) : Out := divideWord h la d a b (divResult u) s
def execIrem (h : Hdr) (la : BitVec 4) (d a b : BitVec 8) (u : Bool) (s : State) : Out := divideWord h la d a b (remResult u) s

end Sys2Proof.Machine
end

