-- ==== Sys2Proof/Machine/Issue.lean ====
section
/-! DEFINITION. The barrel and the vote (R103-R112): fetching a word, a crew's lanes at its turn, the packet and its close; deferred traps (R310), handler
entry (R312) and comparator stops (R324). The meanings of the words come in as `ex`. -/
namespace Sys2Proof.Machine
open Sys2Proof

/-! ### Fetching (R77, R106, R122, R311) -/

/-- Opcodes that may issue as path B (Table 6.2). -/
def pathBOp (op : Nat) : Bool :=
  (decide (0x10 ≤ op) && decide (op ≤ 0x16)) || (decide (0x19 ≤ op) && decide (op ≤ 0x29)) || (decide (0x30 ≤ op) && decide (op ≤ 0x34))

/-- May the words issue in one packet (R108)? -/
def coIssue (a b : Fetched) : Bool :=
  match a, b with
  | .word x, .word y => !x.msb && !y.msb && pathBOp (FmtA.ofWord y).op.toNat && (FmtA.ofWord y).la == 0
  | _, _ => false

/-! ### A crew's lanes at its turn (R106, R113-R116) -/

/-- Does the lane want a line that is not in the cache? -/
def State.wantsLine (s : State) (c l : Nat) : Bool :=
  let x := (s.crew c).lane l
  (match x.st with | .run | .held | .parked => true | .joinwait _ | .barwait _ | .exited => false)
    && x.pend.all (fun p => p.win != 0) && s.fetch c x.pc.toNat == .missing

/-- The word of the current path, run (R95, R109, R122, R311). -/
def State.runPath (ex : Instr → State → Out) (s : State) (is : Issue) : Out :=
  match s.fetch is.crew is.at.toNat with
  | .missing => .next (s.holdPath is .held)
  | .off => .next (s.trapPath is tcIllegalOpcode 0)
  | .bad => .next (s.trapPath is tcIntegrity (integrityInfo 0 0 ((lanesOf is.path).headD 0)))
  | .word w =>
    match decodeWord w with
    | .ok i => ex i s
    | .error .illegalOpcode => .next (s.trapPath is tcIllegalOpcode 0)
    | .error .illegalEncoding => .next (s.trapPath is tcIllegalEncoding 0)

/-- The voting lanes in RUN at a word. -/
def Crew.runAt (k : Crew) (pc : BitVec 32) : BitVec 8 := laneMask (k.voters.filter (fun l => (k.lane l).st == .run && (k.lane l).pc == pc))

/-- The word at a place looked at (R10): where it would wait, its lanes wait, and what it asks for is asked; where some of its lanes would issue, only
the others' states are noted. -/
def State.lookAt (ex : Instr → State → Out) (c : Nat) (s : State) (pc : BitVec 32) : State :=
  let ls := (s.crew c).runAt pc
  let is : Issue := { crew := c, lanes := ls, pc := pc }
  match ({ s with issue := some is }).runPath ex is with
  | .next t =>
    (match t.issue with
     | none => s
     | some r =>
       if r.issued == 0 then { t with issue := none }
       else (lanesOf (ls &&& ~~~r.issued)).foldl (fun (s : State) l =>
         s.setCrew c ((s.crew c).setLane l { (s.crew c).lane l with st := ((t.crew c).lane l).st })) s)
  | .fault _ => s
  | .refused _ => s

/-- The states alone that the word at a place gives its lanes in RUN: those that would wait there (R10, R106, R129). -/
def State.probeAt (ex : Instr → State → Out) (c : Nat) (s : State) (pc : BitVec 32) : State :=
  let ls := (s.crew c).runAt pc
  let is : Issue := { crew := c, lanes := ls, pc := pc }
  match ({ s with issue := some is }).runPath ex is with
  | .next t =>
    (lanesOf (ls &&& ~~~((t.issue.map (·.issued)).getD ls))).foldl (fun (s : State) l =>
      s.setCrew c ((s.crew c).setLane l { (s.crew c).lane l with st := ((t.crew c).lane l).st })) s
  | .fault _ => s
  | .refused _ => s

/-- The places of a crew's lanes in RUN, each once. -/
def Crew.runPcs (k : Crew) : List (BitVec 32) := ((k.voters.filter (fun l => (k.lane l).st == .run)).map (fun l => (k.lane l).pc)).eraseDups

/-- A crew at its turn: every voting lane's state as it is now, missing lines asked for, and ready-since noted (R104). -/
def State.lookCrew (ex : Instr → State → Out) (s : State) (c : Nat) : State :=
  let k := s.crew c
  let s := (k.voters.filter (s.wantsLine c)).foldl (fun (s : State) l =>
    (s.fillLine k.core k.part (s.wg k.wg).grid ((s.gridOf c).wordVa ((s.crew c).lane l).pc.toNat) false).fillKick k.core) s
  let s := s.setCrew c (k.voters.foldl (fun k l => k.setLane l { k.lane l with st := s.laneNow c l }) k)
  let s := (s.crew c).runPcs.foldl (State.lookAt ex c) s
  s.setCrew c (k.noteReady (s.crew c) s.t)

/-- A resident crew's lanes in the states that they have at the present clock, and ready-since noted (R104, R106). -/
def State.probeCrew (ex : Instr → State → Out) (s : State) (c : Nat) : State :=
  let k := s.crew c
  if !k.live || !(s.wg k.wg).started || (s.wg k.wg).saved || k.entry.isSome then s
  else
    let s := s.setCrew c (k.voters.foldl (fun k l => k.setLane l { k.lane l with st := s.laneNow c l }) k)
    let s := (s.crew c).runPcs.foldl (State.probeAt ex c) s
    s.setCrew c (k.noteReady (s.crew c) s.t)

/-- Every crew's. -/
def State.probe (ex : Instr → State → Out) (s : State) : State := (List.range s.crews.length).foldl (State.probeCrew ex) s

/-! ### The vote (R107) -/

/-- The lowest of some program counters. -/
def lowestPc : List (BitVec 32) → Option (BitVec 32)
  | [] => none
  | p :: ps => some (ps.foldl (fun m q => if q.toNat < m.toNat then q else m) p)

/-- Path A's place. -/
def Crew.voteA (k : Crew) : Option (BitVec 32) :=
  let e := k.voters.filter (fun l => (k.lane l).st == .run)
  if k.fair != 0 && e.any (fun l => decide (k.fair.toNat ≤ (k.lane l).cnt.toNat)) then
    let top := e.foldl (fun m l => max m (k.lane l).cnt.toNat) 0
    lowestPc ((e.filter (fun l => (k.lane l).cnt.toNat == top)).map (fun l => (k.lane l).pc))
  else
    match lowestPc ((e.filter (fun l => (k.lane l).yb == 0)).map (fun l => (k.lane l).pc)) with
    | some p => some p
    | none => lowestPc (e.map (fun l => (k.lane l).pc))

/-- Path B's place. -/
def Crew.voteB (k : Crew) (a : BitVec 32) : Option (BitVec 32) :=
  lowestPc ((k.voters.filter (fun l => (k.lane l).st == .run && (k.lane l).pc != a)).map (fun l => (k.lane l).pc))

/-- The packet that a crew's vote gives; path B has lanes only where R108 lets it issue. -/
def State.openPacket (s : State) (c : Nat) (a : BitVec 32) : Issue :=
  let k := s.crew c
  let is : Issue := { crew := c, voters := laneMask k.voters, lanes := k.runAt a, pc := a }
  match k.voteB a with
  | none => is
  | some b => if coIssue (s.fetch c a.toNat) (s.fetch c b.toNat) then { is with lanesB := k.runAt b, pcB := b } else is

/-! ### Turns (R103, R104) -/

/-- May the crew issue at all: its lanes have started, no trap is being entered, no debugger and no halt stops it? -/
def State.mayIssue (s : State) (c : Nat) : Bool :=
  let k := s.crew c
  k.live && (s.wg k.wg).started && !(s.wg k.wg).saved && decide (k.ready ≤ s.t) && k.entry.isNone && (k.halted.isNone || k.step) && (s.vd (s.vdOf c)).run == .running

/-- The crews whose turn it is on a partition. -/
def State.turnCrews (s : State) (core part : Nat) : List Nat :=
  (List.range s.crews.length).filter (fun c =>
    (s.crew c).core == core && (s.crew c).part == part && (s.crew c).pos == s.t % 8 && s.mayIssue c)

/-- The ready crew that has waited longest. -/
def State.chooseCrew (s : State) (cs : List Nat) : Option Nat :=
  (cs.filter (fun c => (s.crew c).hasRun)).foldl (fun o c =>
    match o with
    | none => some c
    | some b =>
      if (s.crew c).ready < (s.crew b).ready ∨ ((s.crew c).ready = (s.crew b).ready ∧ (s.crew c).slot < (s.crew b).slot) then some c else some b) none

/-- A pending deferred trap that no lane in RUN can take (R310). -/
def Crew.takesAtOnce (k : Crew) : Bool :=
  k.pend.isSome && !k.hm && !k.hasRun && k.lanes.any (fun x => x.st == .held || x.st == .parked)

/-- The comparator that a packet meets (R324): the first enabled one of its launch's CODE at one of its two words. -/
def State.comparatorHit (s : State) (c : Nat) (a : BitVec 32) : Option Nat :=
  let k := s.crew c
  let d := (s.vd (s.vdOf c)).dbg
  if !d.armed || k.halted.isSome then none
  else
    let here (n : Nat) : Bool := a.toNat == n || (match k.voteB a with | some b => b.toNat == n | none => false)
    (List.range d.comps.length).find? (fun i =>
      let q := d.comps.getD i {}
      q.on && q.code == (s.gridOf c).code && here q.index && k.skip != some i)

/-- What a turn comes to: a row to run in a state, or a state alone. -/
inductive TurnAct
  | row (i : Instr) (s : State)
  | packet (is : Issue) (s : State)
  | none (s : State)

/-- The lines of a packet's words are used (R360). -/
def State.touchPacket (s : State) (is : Issue) : State :=
  let k := s.crew is.crew
  let g := s.gridOf is.crew
  let s := s.cacheTouch k.core k.part (g.wordVa is.pc.toNat) (s.genNow g)
  if is.lanesB == 0 then s else s.cacheTouch k.core k.part (g.wordVa is.pcB.toNat) (s.genNow g)

/-- The turn of a partition's barrel at the present clock. -/
def State.turn (ex : Instr → State → Out) (s : State) (core part : Nat) : TurnAct :=
  let cs := s.turnCrews core part
  let s := cs.foldl (State.lookCrew ex) s
  match cs.find? (fun c => (s.crew c).takesAtOnce) with
  | some c => .row (.deferredTrap c) s
  | none =>
    match s.chooseCrew cs with
    | none => .none { s with turns := s.turns.drop 1 }
    | some c =>
      match (s.crew c).voteA with
      | none => .none { s with turns := s.turns.drop 1 }
      | some a =>
        let is := s.openPacket c a
        if (s.crew c).pend.isSome && !(s.crew c).hm then .row (.deferredTrap c) { s with issue := some is }
        else if (s.comparatorHit c a).isSome then .row (.breakpointStop c) s
        else .packet is (({ s with issue := some is }).touchPacket is)

/-- A lane after its crew's turn (R110, R112). -/
def Lane.afterTurn (x : Lane) (votes issued : Bool) : Lane :=
  let cnt := if !votes then x.cnt else if issued then 0
    else if x.st == .run || x.st == .held then BitVec.ofNat 8 (min (x.cnt.toNat + 1) 255) else x.cnt
  { x with cnt := cnt, yb := x.yb - 1 }

/-- The turn is over (R104, R110, R112, R325): a lane whose window is used up, or whose next line is not cached, is HELD or PARKED from now on (R106). A step whose packet trapped goes on to the handler's entry. -/
def State.closePacket (s : State) (is : Issue) : State :=
  let k := s.crew is.crew
  let s := { s with issue := none, turns := s.turns.drop 1 }
  if is.issued == 0 then s
  else
    let k := { (List.range 8).foldl (fun k l => k.setLane l ((k.lane l).afterTurn (is.voters.getLsbD l) (is.issued.getLsbD l))) k with
      ready := s.t + 1, skip := none }
    let k := (s.setCrew is.crew k).settled is.crew k
    s.setCrew is.crew (if k.step then { k with step := false, halted := some .step } else k)

/-- Path B's packet part, if it is still to come (R108, R109). Where path A's word traps, path B's lanes do not issue (R110, R312; DESIGN CHOICE, log 16). -/
def Issue.pathB (is : Issue) : Option Issue :=
  if is.onB || is.trapped || is.issued == 0 || is.lanesB == 0 then none else some { is with onB := true, spent := false }

/-- The packet in progress goes on. -/
def State.goOn (ex : Instr → State → Out) (s : State) (is : Issue) : Out :=
  if !is.spent then s.runPath ex is
  else
    match is.pathB with
    | some b => ({ s with issue := some b }).runPath ex b
    | none => .next (s.closePacket is)

/-! ### Rows -/

/-- DEFERRED_TRAP (R310): on path A's word where a turn is open, else at once on the lowest word of a lane HELD or PARKED, if no lane is in RUN. -/
def execDeferredTrap (crew : Nat) (s : State) : Out :=
  let k := s.crew crew
  match k.pend with
  | none => .next s
  | some tr =>
    if k.hm || k.entry.isSome then .next s
    else
      let s' := s.setCrew crew { k with pend := none }
      match s.issue with
      | some is => if is.crew == crew && !is.spent then .next (s'.trapPath is tr.code tr.info) else .next s
      | none =>
        if k.hasRun || !s.mayIssue crew then .next s
        else
          let wait := k.voters.filter (fun l => (k.lane l).st == .held || (k.lane l).st == .parked)
          match lowestPc (wait.map (fun l => (k.lane l).pc)) with
          | none => .next s
          | some pc => .next (s'.takeTrap crew (laneMask (wait.filter (fun l => (k.lane l).pc == pc))) { tr with pc := pc })

/-- HANDLER_MODE_ENTRY (R312); a step that trapped ends here (R325). -/
def execHandlerModeEntry (crew : Nat) (s : State) : Out :=
  let k := s.crew crew
  .next (if k.entry.isSome && (s.gridOf crew).aborted.isNone && (k.outstanding k.hl).isEmpty then s.enterHandler crew else s)

/-- BREAKPOINT_STOP (R324): the crew stops before the packet, and will not match the same comparator when it is resumed. -/
def execBreakpointStop (crew : Nat) (s : State) : Out :=
  match (s.crew crew).voteA with
  | none => .next s
  | some a =>
    match s.comparatorHit crew a with
    | none => .next s
    | some i => .next ((s.setCrew crew { s.crew crew with skip := some i }).debugHalt crew .breakpoint)

end Sys2Proof.Machine
end

