-- ==== Sys2Proof/Machine/Kite.lean ====
section
/-! DEFINITION. The Kiteline (R280-R287, R295): its words, its token, and the applying of broadcasts. -/
namespace Sys2Proof.Machine
open Sys2Proof

/-! ### The words (R285-R287) -/

/-- The checks of R285: SPC is 3. -/
def kiteCheck (w : Nat) (act : List Nat) (addr : Nat → Nat) : Option Eff :=
  match act.find? (fun l => decide (65536 < addr l + w)) with
  | some l => some (.trap tcNearBounds (spaceInfo (addr l) l 3))
  | none =>
    match act.find? (fun l => addr l % w != 0) with
    | some l => some (.trap tcMisaligned (spaceInfo (addr l) l 3))
    | none => none

/-- The lowest queue entry that is free: QIDX (R282). -/
def Vd.freeQidx (d : Vd) : Nat := ((List.range 64).find? (fun i => d.kq.all (fun q => q.b.qidx != i))).getD 0

/-- A broadcast's bytes on the cells. -/
def Bcast.width (b : Bcast) : Nat := if b.w64 then 8 else 4

/-- Has the member's link to the star failed (R283)? Then its broadcasts complete CLOSED. -/
def State.starLost (s : State) : Bool := s.starDown.contains s.myMember

/-- A broadcast completes CLOSED (R265, R283): no register is written, and the crew's trap names the cell. -/
def State.closeBcast (s : State) (q : Kq) : State :=
  let s := (match q.entry with
    | some e => s.completeLane q.crew q.lane e []
    | none => s)
  s.deferTrap q.crew tcPeerClosed (BitVec.ofNat 64 (q.b.addr + 3 * 2 ^ 57 + q.lane * 2 ^ 60))

/-- A broadcast joins the world's queue (R284). -/
def State.pushBcast (s : State) (v : Nat) (q : Kq) : State :=
  let d := s.vd v
  if s.starLost then s.closeBcast q
  else s.setVd v { d with kq := d.kq ++ [{ q with b := { q.b with qidx := d.freeQidx } }] }

/-- kst and kfaa (R286): each lane's broadcast enters the queue in lane order, with the lane's clock. -/
def kiteSend (h : Hdr) (n : Needs) (faa rel : Bool) (wd : Width2) (la : BitVec 4) (d : Option (BitVec 8)) (a b : BitVec 8) (ofs : BitVec 10) : State → Out :=
  word h n (fun s k act =>
    let w := Width2.bytes wd
    let addr (l : Nat) : Nat := addr32 (rd s k 0 l a) ofs.toInt
    match kiteCheck w act addr with
    | some e => e
    | none =>
      let v := s.vdOf s.cur
      if 64 < (s.vd v).kq.length + act.length then .wait .held
      else
        let id := s.nextId
        let s1 := (match d with
          | some r => s.bump.updCur (fun k' => k'.onLanes act (fun _ x => openWindow x { id := id, kind := .kfaa, win := la.toNat, base := r.toNat, regs := [r.toNat] }))
          | none => s)
        .ok (act.foldl (fun (s' : State) l =>
          let bc : Bcast := { faa := faa, w64 := w == 8, rel := rel, src := s.pkg, slot := s.slotOfWorld (s.worldNum v), keyid := (s.gridOf s.cur).keyid,
                              addr := addr l, lane := l, data := BitVec.ofNat 64 (ofBytes (rdBytes s k 1 l b w)), clock := (k.lane l).clock }
          s'.pushBcast v { b := bc, crew := s.cur, lane := l, entry := d.map (fun _ => id), after := s'.nextId }) s1))

def execKst (h : Hdr) (rel : Bool) (wd : Width2) (a b : BitVec 8) (ofs : BitVec 10) (s : State) : Out :=
  kiteSend h { src := [(a, 1), (b, Width2.count wd)] } false rel wd 0 none a b ofs s

def execKfaa (h : Hdr) (la : BitVec 4) (rel : Bool) (d a b : BitVec 8) (ofs : BitVec 10) (s : State) : Out :=
  kiteSend h { dst := [(d, 1)], src := [(a, 1), (b, 1)] } true rel .b32 la (some d) a b ofs s

/-- Has the lane a broadcast to overlapping bytes that is not applied here (R287)? -/
def State.kiteBehind (s : State) (v c l a n : Nat) : Bool :=
  (s.vd v).kq.any (fun q => q.crew == c && q.lane == l && decide (q.b.addr < a + n) && decide (a < q.b.addr + Bcast.width q.b))

/-- Does a read of n cells meet an uncorrectable error (R311)? -/
def State.kiteBad (s : State) (v a n : Nat) : Bool :=
  !s.badSram.isEmpty && s.badSram.any (fun e => match e with | .kite v' o => v' == v && decide (a / 8 ≤ o / 8) && decide (o / 8 ≤ (a + n - 1) / 8) | _ => false)

/-- Cells that are written hold good data again. -/
def State.mendKite (s : State) (v a n : Nat) : State :=
  if s.badSram.isEmpty then s
  else { s with badSram := s.badSram.filter (fun e => match e with | .kite v' o => !(v' == v && decide (a / 8 ≤ o / 8) && decide (o / 8 ≤ (a + n - 1) / 8)) | _ => true) }

/-- INTEGRITY deferred for the lowest lane whose cells cannot be read (R311). -/
def State.kiteHurt (s : State) (ls : List Nat) : State :=
  match ls with
  | [] => s
  | l :: _ => s.deferTrap s.cur tcIntegrity (integrityInfo 0 0 l)

/-- The lanes acquire the replica clock (R287, R295). -/
def State.kiteAcquire (s : State) (v : Nat) (acq : Bool) (act : List Nat) : State :=
  if acq then s.updCur (fun k => k.onLanes act (fun _ x => { x with clock := Clock.merge (s.vd v).rc x.clock })) else s

/-- kld (R287). A lane whose cells cannot be read gets no result (R311). -/
def execKld (h : Hdr) (acq : Bool) (wd : Width2) (d a : BitVec 8) (ofs : BitVec 10) (s : State) : Out :=
  word h { dst := [(d, Width2.count wd)], src := [(a, 1)] } (fun s k act =>
    let w := Width2.bytes wd
    let addr (l : Nat) : Nat := addr32 (rd s k 0 l a) ofs.toInt
    match kiteCheck w act addr with
    | some e => e
    | none =>
      let v := s.vdOf s.cur
      if act.any (fun l => s.kiteBehind v s.cur l (addr l) w) then .wait .held
      else
        let bad := act.filter (fun l => s.kiteBad v (addr l) w)
        .ok (((s.updCur (fun k' => k'.onLanes (act.filter (fun l => !bad.contains l)) (fun l x =>
          regWrites x d.toNat (extendLoad (Width2.wide wd) ((s.vd v).cells.read (addr l) w))))).kiteAcquire v acq act).kiteHurt bad)) s

/-- kwait (R287): held until the condition holds in every active lane. A cell that cannot be read ends the wait with INTEGRITY deferred (R311; log 19). -/
def execKwait (h : Hdr) (cc : Cond) (u acq : Bool) (a b c : BitVec 8) (ofs : BitVec 10) (s : State) : Out :=
  word h { src := [(a, 1), (b, 1), (c, 1)] } (fun s k act =>
    let addr (l : Nat) : Nat := addr32 (rd s k 0 l a) ofs.toInt
    match kiteCheck 4 act addr with
    | some e => e
    | none =>
      let v := s.vdOf s.cur
      let cell (l : Nat) : Word := BitVec.ofNat 32 (ofBytes ((s.vd v).cells.read (addr l) 4))
      let holds (l : Nat) : Bool := icmpResult cc u (cell l &&& rd s k 2 l c) (rd s k 1 l b)
      let bad := act.filter (fun l => s.kiteBad v (addr l) 4)
      if act.any (fun l => s.kiteBehind v s.cur l (addr l) 4) then .wait .held
      else if !bad.isEmpty then .ok (s.kiteHurt bad)
      else if !act.all holds then .wait .held
      else .ok (s.kiteAcquire v acq act)) s

/-! ### The token (R280, R281) -/

/-- The members of this package's reach, ascending. -/
def State.reachMembers (s : State) : List Nat := sortBy (fun x y => decide (x ≤ y)) ((s.members.filter s.sameReach).map memberOf)

/-- The member after m, in ascending order with wrap. -/
def nextMember (ms : List Nat) (m : Nat) : Nat := (ms.find? (fun n => decide (m < n))).getD (ms.head?.getD m)

/-- Is everything performed that a .rel broadcast waits for (R286)? -/
def State.kiteReleased (s : State) (q : Kq) : Bool :=
  !q.b.rel || (s.fars.all (fun f => !((f.src.writeOf q.crew q.lane || s.bargeWriteOf q.crew q.lane f) && decide (f.id < q.after)) || f.isPerformed)
    && s.bargeRs.all (fun r => !(r.crew == q.crew && r.lane == q.lane && decide (r.id < q.after) && (r.kind == .cpo || r.kind == .cpbOut))))

/-- The broadcasts at the head of a queue that can go in one holding: at most eight, up to a .rel one that still waits. -/
def State.holdingSends (s : State) (v : Nat) : List Kq := (((s.vd v).kq.filter (fun q => !q.sent)).takeWhile s.kiteReleased).take 8

/-! ### Broadcasts as flits (R282) -/

/-- The header flit. -/
def Bcast.header (b : Bcast) : List Byte :=
  toBytes 8 ((if b.faa then 2 ^ 60 else 0) + (if b.w64 then 4 else 3) * 2 ^ 57 + (if b.rel then 2 ^ 56 else 0) + b.slot * 2 ^ 52 + b.src * 2 ^ 42 +
    b.keyid * 2 ^ 32 + b.addr * 2 ^ 16 + b.lane * 2 ^ 13 + b.qidx * 2 ^ 7) ++ toBytes 8 0 ++
  toBytes 8 (if b.w64 && !b.faa then b.data.toNat else b.data.toNat % 2 ^ 32) ++ toBytes 8 0

/-- A broadcast sealed for a holding of slot k: DST is its SRC, and ORIG 0x400. -/
def State.sealBcast (s : State) (k : Nat) (b : Bcast) : Bcast × State :=
  let b := { b with slot := k }
  let n := s.nextCtr b.keyid b.src b.src 0x400
  let g := gcm (s.fabricKeyOf b.keyid) (packetIv b.src b.src 0x400 n.1) (Bcast.header b) (clockBytes b.clock)
  ({ b with ctr := n.1, tag := BitVec.ofNat 128 (ofBytes g.2) }, n.2)

/-- Its three flits on the star: the clock flit goes enciphered. -/
def State.starBytes (s : State) (b : Bcast) : List Byte :=
  Bcast.header b ++ (gcm (s.fabricKeyOf b.keyid) (packetIv b.src b.src 0x400 b.ctr) (Bcast.header b) (clockBytes b.clock)).1 ++ tagFlit b.tag b.ctr

/-- Where a holding starts among the flit times of the slot in force (R280). -/
def State.holdingFlit (s : State) : Nat := 25 * (s.posAt s.t / 10)

/-- The clock at which packet p of the present holding is applied: its tag flit's clock and 64 (R283). -/
def State.applyClock (s : State) (p : Nat) : Nat := s.t / s.rotaS * s.rotaS + 2 * (s.holdingFlit + 3 + 3 * p) / 5 + 64

/-- KITELINE_HOLDING (R281): the holder sends up to eight broadcasts, its own from its queue, and the token passes. -/
def execKitelineHolding (slot member : Nat) (bs : List Bcast) (s : State) : Out :=
  if s.tokens.getD slot 0 != member then .next s
  else
    let v := s.vdOfSlot slot
    let mine := member == s.myMember
    let qs : List Kq := match v with
      | some v => if mine && !s.starLost && (s.vd v).run == .running && !(s.vd v).released then s.holdingSends v else []
      | none => []
    let sealed' := qs.foldl (fun (a : List Bcast × State) q => let r := a.2.sealBcast slot q.b; (a.1 ++ [r.1], r.2)) ([], s)
    let s := sealed'.2
    let out := if mine then sealed'.1 else bs
    let s := (match v with
      | some v => s.setVd v { s.vd v with kq := (s.vd v).kq.map (fun q => if qs.any (fun x => x.b.qidx == q.b.qidx) then { q with sent := true } else q) }
      | none => s)
    let s := out.zipIdx.foldl (fun (s : State) (p : Bcast × Nat) =>
      let s := s.post (s.applyClock p.2) (.broadcastApply p.1)
      if mine then s.emit (.star (s.applyClock p.2 - 64) p.1) else s) s
    .next { s with tokens := s.tokens.set slot (nextMember s.reachMembers member) }

/-- What a broadcast makes of the cells, and the old 32-bit value (R286). -/
def Bcast.apply (b : Bcast) (m : Memory) : Memory × Word :=
  let old := BitVec.ofNat 32 (ofBytes (m.read b.addr 4))
  (if b.faa then m.write b.addr (toBytes 4 (old + b.data.setWidth 32).toNat) else m.write b.addr (toBytes (Bcast.width b) b.data.toNat), old)

/-- BROADCAST_APPLY (R283, R286, R295): the replica changes, its clock merges, and the issuer learns the old value. -/
def execBroadcastApply (b : Bcast) (s : State) : Out :=
  match s.vdOfSlot b.slot with
  | none => .next s
  | some v =>
    let d := s.vd v
    let own := d.kq.find? (fun q => b.src == s.pkg && q.sent && q.b.qidx == b.qidx)
    if !s.keyOfTenant v b.keyid || (b.src == s.pkg && own.isNone) then .next s
    else
      let r := Bcast.apply b d.cells
      let rc := Clock.merge b.clock d.rc
      let hurt := b.faa && s.kiteBad v b.addr 4
      let s := (if b.faa then s else s.mendKite v b.addr (Bcast.width b)).setVd v { d with cells := r.1, rc := rc, kq := d.kq.filter (fun q => !(b.src == s.pkg && q.sent && q.b.qidx == b.qidx)) }
      match own with
      | none => .next s
      | some q =>
        match q.entry with
        | none => .next s
        | some e =>
          let live := ((s.crew q.crew).lane q.lane).pend.any (fun p => p.id == e)
          let s := s.completeLane q.crew q.lane e (if hurt then [] else [r.2])
          let s := if hurt then s.deferTrap q.crew tcIntegrity (integrityInfo 0 0 q.lane) else s
          .next (if live then s.updCrew q.crew (fun k => k.setLane q.lane { k.lane q.lane with clock := Clock.merge rc (k.lane q.lane).clock }) else s)

/-- KITELINE_LINK_FAIL (R283): this member's broadcasts not yet applied complete CLOSED. -/
def execKitelineLinkFail (member : Nat) (s : State) : Out :=
  let s := { s with starDown := if s.starDown.contains member then s.starDown else s.starDown ++ [member] }
  if member != s.myMember then .next s
  else .next ((List.range s.vds.length).foldl (fun (s : State) v =>
    let qs := (s.vd v).kq
    qs.foldl State.closeBcast (s.setVd v { s.vd v with kq := [] })) s)

/-- STAR_SWITCHOVER (R283): at a round boundary the reach moves to the spare star, the token positions kept. -/
def execStarSwitchover (s : State) : Out :=
  if s.atBoundary then .next { s with spareStar := true, starDown := [], health := { s.health with star := true, replace := true } }
  else .next (s.post (s.boundaryAfter s.t) .starSwitchover)

end Sys2Proof.Machine
end

