-- ==== Sys2Proof/Machine/LaneOps.lean ====
section
/-! DEFINITION. The predicate words (R139, R140) and the lane words (R141-R146). -/
namespace Sys2Proof.Machine
open Sys2Proof

/-- A predicate operand, inverted where NA or NB says so (R139). -/
def predOperand (x : Lane) (p : BitVec 4) (inv : Bool) : Bool := predRead x p != inv

def execPand (h : Hdr) (pd pa pb : BitVec 4) (na nb : Bool) (s : State) : Out :=
  predWord h pd { preds := [pa, pb] } (fun _ k l => predOperand (k.lane l) pa na && predOperand (k.lane l) pb nb) s
def execPor (h : Hdr) (pd pa pb : BitVec 4) (na nb : Bool) (s : State) : Out :=
  predWord h pd { preds := [pa, pb] } (fun _ k l => predOperand (k.lane l) pa na || predOperand (k.lane l) pb nb) s
def execPxor (h : Hdr) (pd pa pb : BitVec 4) (na nb : Bool) (s : State) : Out :=
  predWord h pd { preds := [pa, pb] } (fun _ k l => predOperand (k.lane l) pa na != predOperand (k.lane l) pb nb) s
def execPnot (h : Hdr) (pd pa : BitVec 4) (na : Bool) (s : State) : Out :=
  predWord h pd { preds := [pa] } (fun _ k l => !predOperand (k.lane l) pa na) s

/-- pset (R140). -/
def execPset (h : Hdr) (a b : BitVec 8) (s : State) : Out :=
  word h { src := [(a, 1), (b, 1)] } (fun s k act =>
    let s' := s.updCur (fun k' => k'.onLanes act (fun l x => { x with preds := psetResult x.preds (rd s k 0 l a) (rd s k 1 l b) }))
    .ok (s'.mendPreds s.cur (fun l p => act.contains l && (rd s k 1 l b).getLsbD p.toNat))) s

/-- pget (R140). -/
def execPget (h : Hdr) (d : BitVec 8) (s : State) : Out := regWord h d [] (fun _ k l => (k.lane l).preds.setWidth 32) s
  ((List.range 12).map (BitVec.ofNat 4))

/-- What a vote answers over the participants' predicates (R142). -/
def voteResult (m : VoteMode) (ps : List Bool) : Bool :=
  match m with
  | .any => ps.any id
  | .all => ps.all id
  | .eq => ps.all id || ps.all (! ·)

/-- vote (R142). -/
def execVote (h : Hdr) (mode : VoteMode) (pd pa : BitVec 4) (s : State) : Out :=
  word h { preds := [pa], pdst := [pd] } (fun s k act =>
    .ok (s.updCur (fun k' => k'.onLanes act (fun _ x => predWrite x pd (voteResult mode (act.map (fun m => predRead (k.lane m) pa))))))) s

/-- ballot (R142). -/
def execBallot (h : Hdr) (d : BitVec 8) (pa : BitVec 4) (s : State) : Out :=
  word h { dst := [(d, 1)], preds := [pa] } (fun s k act =>
    .ok (s.updCur (fun k' => k'.onLanes act (fun _ x =>
      regWrite x d.toNat ((laneMask (act.filter (fun m => predRead (k.lane m) pa))).setWidth 32))))) s

/-- lperm (R143): the validity predicate is PV, none where PV is 15. Each reader's read of a lane's register is a read of its own (R114). -/
def execLperm (h : Hdr) (mode : PermMode) (pv : BitVec 4) (d a b : BitVec 8) (s : State) : Out :=
  word h { dst := [(d, 1)], src := [(a, 1), (b, 1)], pdst := [pv] } (fun s k act =>
    .ok (s.updCur (fun k' => k'.onLanes act (fun l x =>
      let src := (permSource mode l (rd s k 1 l b).toNat).filter act.contains
      let x := regWrite x d.toNat (rd s k (8 + l) (src.getD l) a)
      if pv == 15 then x else predWrite x pv src.isSome)))) s

/-- The lane that bcast reads (R144). -/
def bcastLane (s : State) (k : Crew) (act : List Nat) : BcastSrc → Option Nat
  | .imm n => some n.toNat
  | .first => act.head?
  | .reg b => uniform (act.map (fun l => (rd s k 1 l b).toNat))

def BcastSrc.src : BcastSrc → List (BitVec 8 × Nat)
  | .reg b => [(b, 1)]
  | .imm _ => []
  | .first => []

/-- bcast (R144). -/
def execBcast (h : Hdr) (d a : BitVec 8) (src : BcastSrc) (s : State) : Out :=
  word h { dst := [(d, 1)], src := (a, 1) :: BcastSrc.src src } (fun s k act =>
    match bcastLane s k act src with
    | none => .trap tcNonuniform 0
    | some n =>
      if act.contains n then .ok (s.updCur (fun k' => k'.onLanes act (fun l x => regWrite x d.toNat (rd s k (8 + l) n a))))
      else .trap tcHandle (BitVec.ofNat 64 n)) s

/-- cred (R145). -/
def execCred (h : Hdr) (op : CredOp) (scan u : Bool) (d a : BitVec 8) (s : State) : Out :=
  word h { dst := [(d, 1)], src := [(a, 1)] } (fun s k act =>
    .ok (s.updCur (fun k' => k'.onLanes act (fun l x =>
      let ls := if scan then act.filter (fun m => decide (m ≤ l)) else act
      regWrite x d.toNat (credResult op u (ls.map (fun m => rd s k (8 + l) m a))))))) s

/-- match (R146). -/
def execMatchLanes (h : Hdr) (w : Bool) (d a : BitVec 8) (s : State) : Out :=
  word h { dst := [(d, 1)], src := [(a, if w then 2 else 1)] } (fun s k act =>
    let v (l m : Nat) : DWord := if w then rd64 s k (8 + l) m a else (rd s k (8 + l) m a).setWidth 64
    .ok (s.updCur (fun k' => k'.onLanes act (fun l x =>
      regWrite x d.toNat ((laneMask (act.filter (fun m => v l m == v l l))).setWidth 32))))) s

end Sys2Proof.Machine
end

