-- ==== Sys2Proof/Machine/Mgmt.lean ====
section
/-! DEFINITION. The management port, layouts, boot, keys and health (R346-R358), the pass that seals a region (R343), and what physics does to the
package. -/
namespace Sys2Proof.Machine
open Sys2Proof

/-! ### The two masters (R346, R347) -/

/-- Is a master frozen? -/
def State.frozen (s : State) : Master → Bool | .host => s.health.hfrz | .mgmt => s.health.mfrz

/-- Has a master a secure session? -/
def State.session (s : State) : Master → Bool | .host => s.hostSess | .mgmt => s.mgmtSess

/-- A master frozen at the present clock. -/
def State.freeze (s : State) : Master → State
  | .host => { s with health := { s.health with hfrz := true }, frzHost := some s.t }
  | .mgmt => { s with health := { s.health with mfrz := true }, frzMgmt := some s.t }

/-- A master freed, but for a freeze of the same clock, which wins. -/
def State.thaw (s : State) : Master → State
  | .host => if s.frzHost == some s.t then s else { s with health := { s.health with hfrz := false }, frzHost := none }
  | .mgmt => if s.frzMgmt == some s.t then s else { s with health := { s.health with mfrz := false }, frzMgmt := none }

/-- An answer to a master. -/
def State.answer (s : State) (m : Master) (st : AStat) (data : List Byte) : State := s.emit (.reply m st data)

/-- A request of a master in the device's normal operation: nothing answers in recovery (R352), and a frozen master is refused (R347). -/
def State.asked (s : State) (m : Master) (f : State → State) : Out :=
  if s.power != .on then .next s
  else if s.frozen m then .next (s.answer m .frozen [])
  else .next (f s)

/-- A request that must satisfy its rule: REFUSED otherwise, and nothing changes. -/
def State.grantIf (s : State) (m : Master) (b : Bool) (f : State → State) : State := if b then f s else s.answer m .refused []

/-- The version that SPDM queries are answered with: 1.3 (log 18). -/
def spdmVersion : List Byte := [0x00, 0x13]

/-- SPDM_SESSION: allowed to a frozen master; a failed authentication freezes it, and so does a secured message whose MAC fails, which is this row too (log 18).
In recovery the management port's version queries are answered (R352). -/
def execSpdmSession (m : Master) (q : SpdmMsg) (s : State) : Out :=
  match s.power, q with
  | .off, _ => .next s
  | .recovery, .version => .next (if m == .mgmt then s.answer m .ok spdmVersion else s)
  | .recovery, .session _ => .next s
  | .on, .version => .next (s.answer m .ok spdmVersion)
  | .on, .session true => .next ((match m with | .host => { s with hostSess := true } | .mgmt => { s with mgmtSess := true }).answer m .ok [])
  | .on, .session false => .next ((s.freeze m).answer m .refused [])

/-- UNFREEZE: in a secure session, and only of the other master; a frozen master's other requests are refused FROZEN. -/
def execUnfreeze (m other : Master) (s : State) : Out :=
  if s.power != .on then .next s
  else if s.session m && m != other then .next ((s.thaw other).answer m .ok [])
  else .next (s.answer m (if s.frozen m then .frozen else .refused) [])

/-! ### The health register and the masters' windows (R346, R349, R356) -/

/-- The health register of Table 25.3. -/
def Health.word (h : Health) : DWord :=
  let bit (b : Bool) (n : Nat) : Nat := if b then 2 ^ n else 0
  BitVec.ofNat 64 (h.ce % 2 ^ 16 * 2 ^ 48 + h.coff % 256 * 2 ^ 40 + h.ffail % 256 * 2 ^ 32 + h.spare % 256 * 2 ^ 24 + bit h.star 7 + bit h.dmg 6 +
    bit h.emerg 4 + bit h.mfrz 3 + bit h.hfrz 2 + bit h.degr 1 + bit h.replace 0)

/-- The VD among whose function registers a register is (R346, R349). -/
def RegName.function : RegName → Option Nat
  | .fqBase v | .fqSize v | .fqProd v | .fqCons v | .counterT v | .vecMask v => some v
  | .context c => some c.vd
  | .adminProd | .adminCons | .health | .bootFail | .errorRecords | .powerLimit | .tempLimit | .other _ => none

/-- Is a register in the window of the master, and of the function, that names it (Table 25.1)? A virtual function reaches its own registers alone. -/
def State.inWindow (s : State) (m : Master) (q : RegReq) : Bool :=
  match m, RegName.function q.reg with
  | .host, some v => decide (v < s.vds.length) && (match q.vf with | some f => f == v && decide (1 ≤ f) | none => true)
  | .host, none => q.vf.isNone && [RegName.adminProd, .adminCons, .health, .bootFail].contains q.reg
  | .mgmt, some _ => false
  | .mgmt, none => q.vf.isNone && [RegName.health, .errorRecords, .powerLimit, .tempLimit].contains q.reg

/-- What a register reads as. -/
def State.portReads (s : State) : RegName → List Byte
  | .fqBase v => toBytes 8 (s.vd v).fqBase
  | .fqSize v => toBytes 8 (s.vd v).fqSize
  | .fqProd v => toBytes 8 (s.vd v).fqProd
  | .fqCons v => toBytes 8 (s.vd v).fqCons
  | .counterT v => toBytes 8 (s.vd v).thresh
  | .vecMask v => toBytes 8 (if (s.vd v).vmask then 1 else 0)
  | .context c => (s.ctx c).block.flatMap (fun w => toBytes 8 w.toNat)
  | .adminProd => toBytes 8 s.adminProd
  | .adminCons => toBytes 8 s.adminCons
  | .health => toBytes 8 s.health.word.toNat
  | .bootFail => toBytes 8 (if s.bootFail then 1 else 0)
  | .errorRecords => s.errors.flatMap (fun e => Config.errorImage e.site e.world e.fatal)
  | .powerLimit => toBytes 8 s.powerLim
  | .tempLimit => toBytes 8 s.tempLim
  | .other _ => []

/-- A value written to a register: nothing where the register is read only, or does not take the value (R349; log 25). -/
def State.regWrite (s : State) (v : Nat) : RegName → Option State
  | .fqBase d => if v % 32 == 0 then some (s.setVd d { s.vd d with fqBase := v }) else none
  | .fqSize d => if isPow2 v && decide (16 ≤ v) && decide (v ≤ 65536) then some (s.setVd d { s.vd d with fqSize := v }) else none
  | .fqCons d => some (s.setVd d { s.vd d with fqCons := v })
  | .counterT d => if v < 65536 then some (s.setVd d { s.vd d with thresh := v }) else none
  | .vecMask d => some (s.setVd d { s.vd d with vmask := v % 2 == 1 })
  | .adminProd => some { s with adminProd := v }
  | .powerLimit => some { s with powerLim := v }
  | .tempLimit => some { s with tempLim := v }
  | .fqProd _ | .context _ | .adminCons | .health | .bootFail | .errorRecords | .other _ => none

/-- Records of a VD that wait for room are tried again. -/
def State.retryRecords (s : State) (q : RegName) : State :=
  match q with
  | .fqSize d | .fqCons d => if (s.vd d).recs.isEmpty then s else s.post s.t (.faultRecordDeferred d)
  | .fqBase _ | .fqProd _ | .counterT _ | .vecMask _ | .context _ | .adminProd | .adminCons | .health | .bootFail | .errorRecords | .powerLimit | .tempLimit
  | .other _ => s

/-- REGISTER_WRITE: an access to a register of the master's window, a read or a write; anything else is a window violation, which freezes it, a function that does
not exist among it. A write of a read-only register, or of a value that R349 does not allow, is refused (log 25). In recovery the PF reports BOOT_FAIL (R352). -/
def execRegisterWrite (m : Master) (r : RegReq) (v : Nat) (s : State) : Out :=
  if s.power == .recovery && m == .host && r.read && r.vf.isNone && r.reg == .bootFail then .next (s.answer m .ok (s.portReads r.reg))
  else s.asked m (fun s =>
    if !s.inWindow m r then (s.freeze m).answer m .refused []
    else if r.read then s.answer m .ok (s.portReads r.reg)
    else match s.regWrite v r.reg with
      | some s => (s.answer m .ok []).retryRecords r.reg
      | none => s.answer m .refused [])

/-! ### Measurements (R354) -/

/-- A corrected error (R355, R356): the count saturates. -/
def State.corrected (s : State) : State := { s with health := { s.health with ce := min 65535 (s.health.ce + 1) } }

/-- C: 1 + the highest level with a blown bit, or 0 (R353). -/
def fuseCounter (fs : List (Bool × Bool)) : Nat :=
  fs.zipIdx.foldl (fun c p => if p.1.1 || p.1.2 then p.2 + 1 else c) 0

/-- CRC-32C of bytes, most recent remainder first in (R350). -/
def crc32c (bs : List Byte) : Word :=
  let step (c : Word) : Word := if c.getLsbD 0 then (c >>> 1) ^^^ 0x82F63B78#32 else c >>> 1
  ~~~ (bs.foldl (fun c b => step (step (step (step (step (step (step (step (c ^^^ b.setWidth 32))))))))) 0xFFFFFFFF#32)

/-- The CRC of a layout. -/
def layoutCrc (l : Layout) : Word := crc32c (Config.layoutImage l)

/-- What a measurement index measures (R354). -/
def State.measurement (s : State) : Nat → Option (List Byte)
  | 1 => some Config.romDigest
  | 2 => some (Config.firmwareDigest s.version)
  | 3 => some (toBytes 8 (fuseCounter s.fuses))
  | 4 => some (toBytes 8 s.layout.gen ++ toBytes 4 (layoutCrc s.layout).toNat)
  | 5 => some (toBytes 8 s.health.word.toNat)
  | _ => none

/-- The indices that a request names: one, or with 255 all of them (log 18). -/
def MeasReq.indices (q : MeasReq) : List Nat := if q.index = 255 then [1, 2, 3, 4, 5] else [q.index]

/-- Measurements as they are given: each index before its value, nothing for an index that there is not (log 18). -/
def State.measured (s : State) (is : List Nat) : List Byte :=
  is.flatMap (fun i => match s.measurement i with | some bs => BitVec.ofNat 8 i :: bs | none => [])

/-- GET_MEASUREMENTS (R354): the measurements asked for, and the attestation key's signature over them and the nonce. -/
def execGetMeasurements (m : Master) (q : MeasReq) (s : State) : Out :=
  s.asked m (fun s =>
    let bs := s.measured (MeasReq.indices q)
    let sig := Config.signature (sha512 (Config.measurementBlock q.nonce bs))
    s.grantIf m (!bs.isEmpty) (fun s => s.answer m .ok (bs ++ sig.1 ++ sig.2)))

/-! ### Keys (R336, R337) -/

/-- INSTALL: the four keys of a FREE KeyID, the reserved one zero (Table 24.1; log 25); its fabric counters start from 0. -/
def execInstall (m : Master) (key : Nat) (k : Keys) (s : State) : Out :=
  s.asked m (fun s =>
    s.grantIf m (s.session m && decide (1 ≤ key) && k.reserved == 0 && s.keys.any (fun x => x.id == key && x.st == .free)) (fun s =>
      ({ s with keys := s.keys.map (fun (x : KeyRec) => if x.id == key then { x with st := .installed, keys := k } else x),
                ctrs := s.ctrs.filter (fun c => c.1 != key) }).answer m .ok []))

/-- GRANT: an INSTALLED KeyID, never the device's own (R14), to a VD that is halted or not scheduled, and that may read at most 64 sealed regions with it (R343). -/
def execGrant (m : Master) (key vd : Nat) (s : State) : Out :=
  s.asked m (fun s =>
    let d := s.vd vd
    s.grantIf m (s.session m && decide (1 ≤ key) && s.keyInstalled key && d.created && d.closing.isNone && (d.world.isNone || d.run == .halted) &&
        decide (s.sealedFor (if d.grants.contains key then d.grants else d.grants ++ [key]) ≤ 64)) (fun s =>
      (s.setVd vd { d with grants := if d.grants.contains key then d.grants else d.grants ++ [key] }).answer m .ok []))

/-! ### Layouts (R350, R351) -/

/-- The mask of the slots that a layout gives a world. -/
def Layout.maskOf (l : Layout) (w : Nat) : BitVec 16 := BitVec.ofNat 16 (((List.range 16).filter (fun k => l.owners.getD k none == some w)).map (2 ^ ·)).sum

/-- An allotment within Table 1.1: every bank serves one of its partitions on its core, one Basin range for each die. -/
def Allot.shape (a : Allot) : Bool :=
  decide (a.world < 16) && a.parts.all (fun p => decide (p.1 < 160) && decide (p.2 < 8)) &&
  a.banks.all (fun b => decide (b.2.1 < 32) && a.parts.contains (b.1, b.2.2)) && a.basin.all (fun b => decide (b.1 < 2) && decide (b.2.1 + b.2.2 ≤ 96)) &&
  (a.basin.map (·.1)).eraseDups.length == a.basin.length && decide (a.stack < 8) && decide (16 ≤ a.tlb) && decide (a.tlb ≤ 2048) && decide (256 ≤ a.l2) && decide (a.l2 ≤ 32768) && decide (1 ≤ a.walkers) &&
  decide (1 ≤ a.pad) && decide (a.pad ≤ 255)

/-- Do the quotas fit in the 2,048 entries of each core's TLB, for the worlds with a partition there, and in the 32,768 of the second level (R2, Table 1.1)? -/
def Layout.quotasFit (l : Layout) : Bool :=
  decide ((l.allots.map (·.l2)).sum ≤ 32768) &&
  (l.allots.flatMap Allot.cores).eraseDups.all (fun c => decide (((l.allots.filter (fun a => a.parts.any (fun p => p.1 == c))).map (·.tlb)).sum ≤ 2048))

/-- No unit stands twice in a layout, no world has two allotments (R15), and the quotas fit. -/
def Layout.shape (l : Layout) : Bool :=
  let us := l.allots.flatMap Allot.units
  us.eraseDups.length == us.length && (l.allots.map (·.world)).eraseDups.length == l.allots.length && l.allots.all Allot.shape && Layout.quotasFit l

/-- Every world has a partition and a slot (R18). -/
def Layout.givesAll (l : Layout) : Bool :=
  l.allots.all (fun a => !a.parts.isEmpty && l.owners.contains (some a.world)) &&
  l.owners.all (fun o => match o with | some w => l.allots.any (fun a => a.world == w) | none => true)

/-- The rota parameters of the domain, and those that the layout sets (R62, R67, R73). -/
def State.rotaAgrees (s : State) (l : Layout) : Bool :=
  let isOpen (w : Nat) : Bool := l.allots.any (fun a => a.world == w && a.cls == .opn)
  l.rotaL == s.rotaL && l.rotaS == s.rotaS && l.owners.length == s.rotaL && l.f % 8 == 0 && decide (8 ≤ l.f) && decide (2 * l.f ≤ s.rotaS) &&
  decide (l.gift.length ≤ 17) && l.gift.all (fun g => match g with | .world w => isOpen w | .house => true)

/-- Each tenant's worlds have the mask recorded for it in the domain, or one mask where none is recorded yet (R63). -/
def State.masksAgree (s : State) (l : Layout) : Bool :=
  l.allots.all (fun a =>
    s.tenants.all (fun m => m.tenant != a.tenant || m.mask == Layout.maskOf l a.world) && l.allots.all (fun b => b.tenant != a.tenant || Layout.maskOf l b.world == Layout.maskOf l a.world))

/-- Does a tenant hold a world on another package, as the domain records it? -/
def State.runsElsewhere (s : State) (m : Tenancy) : Bool := m.pkgs.any (· != s.pkg)

/-- KeyIDs belong to one tenant each, and a tenant that runs on other packages has the KeyIDs that the domain records for it (R250; log 14). -/
def State.keysAgree (s : State) (l : Layout) : Bool :=
  l.allots.all (fun a => a.keys.all (fun k => decide (1 ≤ k) && decide (k < 1024) && l.allots.all (fun b => b.tenant == a.tenant || !b.keys.contains k) &&
    s.tenants.all (fun m => if m.tenant == a.tenant then !s.runsElsewhere m || m.keys.contains k else !m.keys.contains k)))

/-- An allotment's cores are in service, unless a scheduled world holds it still (R357; log 25). -/
def State.unitsWork (s : State) (l : Layout) : Bool := l.allots.all (fun a => (s.vdOfWorld a.world).isSome || (Allot.cores a).all s.coreWorks)

/-- What the domain records of the tenants of a layout in force: its mask, its KeyIDs, and that it holds a world here (R63, R250, R266). -/
def State.recordTenants (s : State) (l : Layout) : List Tenancy :=
  l.allots.foldl (fun ts a =>
    let keys := ((l.allots.filter (fun b => b.tenant == a.tenant)).flatMap (·.keys)).eraseDups
    if ts.any (fun m => m.tenant == a.tenant) then
      ts.map (fun (m : Tenancy) => if m.tenant == a.tenant then { m with keys := if s.runsElsewhere m then m.keys else keys,
                                                                         pkgs := if m.pkgs.contains s.pkg then m.pkgs else m.pkgs ++ [s.pkg] } else m)
    else ts ++ [{ tenant := a.tenant, mask := Layout.maskOf l a.world, keys := keys, pkgs := [s.pkg] }]) s.tenants

/-- A scheduled world keeps what it holds (R13, R15, R350). -/
def State.keepsHeld (s : State) (l : Layout) : Bool := s.layout.allots.all (fun a => (s.vdOfWorld a.world).isNone || Allot.keptIn a l)

/-- May a layout stand? -/
def State.layoutOk (s : State) (l : Layout) : Bool :=
  Layout.shape l && Layout.givesAll l && s.rotaAgrees l && s.masksAgree l && s.keysAgree l && s.unitsWork l && l.allots.all (fun a => decide (Config.padFloor s.rotaL s.rotaS a ≤ a.pad)) &&
  s.keepsHeld l

/-- LAYOUT_WRITE. -/
def execLayoutWrite (l : Layout) (s : State) : Out :=
  s.asked .mgmt (fun s =>
    if s.committing then s.answer .mgmt .busy []
    else if s.layoutOk l then
      let l := { l with gen := s.layout.gen + 1 }
      ({ s with shadow := some (l, layoutCrc l) }).answer .mgmt .ok []
    else ({ s with shadow := none }).answer .mgmt .refused [])

/-- LAYOUT_COMMIT: a layout that no longer keeps what a scheduled world holds is refused (R13, R18); else the commit record is written, and the layout takes effect at the next round boundary, where it is answered. -/
def execLayoutCommit (s : State) : Out :=
  s.asked .mgmt (fun s =>
    if s.committing then s.answer .mgmt .busy []
    else match s.shadow with
      | some (l, crc) =>
        if layoutCrc l == crc && s.layoutOk { l with gen := s.layout.gen } then ({ s with commit := some (s.layout.gen + 1, crc) }).post (s.boundaryAfter s.t) .layoutApply
        else s.answer .mgmt .refused []
      | none => s.answer .mgmt .refused [])

/-- The world that a layout gives a unit to. -/
def Layout.holder (l : Layout) (u : Nat × Nat × Nat) : Option Nat := (l.allots.find? (fun a => (Allot.units a).contains u)).map (·.world)

/-- LAYOUT_APPLY: units that change hands are cleared, the layout is in force, and scheduled worlds' pointers are set (R59, R63, R307, R332, R350). -/
def execLayoutApply (s : State) : Out :=
  match s.shadow with
  | some (l, _) =>
    if !s.committing then .next s
    else
      let us := (l.allots.flatMap Allot.units).filter (fun u => Layout.holder s.layout u != Layout.holder l u)
      let s := us.foldl State.clearUnit s
      let s := { s with layout := l, shadow := none, tenants := s.recordTenants l }
      let s := (List.range s.vds.length).foldl (fun (s : State) v =>
        if (s.vd v).world.isSome then s.resetPointers v else s) s
      .next (s.answer .mgmt .ok [])
  | none => .next s

/-- The processor's decision at a restart (Table of R351). -/
def State.restart (s : State) (shadowOk : Bool) : State :=
  let s := { s with agenda := s.agenda.filter (fun a => a.2 != Instr.layoutApply) }
  if !s.committing then { s with shadow := none }
  else if shadowOk && s.shadow.isSome then s.post (s.boundaryAfter s.t) .layoutApply
  else ({ s with shadow := none, commit := none }).replaceRequested

/-- MGMT_RESTART. -/
def execMgmtRestart (shadowOk : Bool) (s : State) : Out := if s.power != .on then .next s else .next (s.restart shadowOk)

/-! ### Boot and the anti-rollback counter (R352, R353) -/

/-- Half-blown levels below C completed. -/
def completeFuses (fs : List (Bool × Bool)) : List (Bool × Bool) :=
  fs.zipIdx.map (fun p => if p.2 < fuseCounter fs && p.1.1 != p.1.2 then (true, true) else p.1)

/-- The next bit to blow on the way to a target: A and then B of the lowest level that lacks one. -/
def blowNext : Nat → List (Bool × Bool) → Option (List (Bool × Bool))
  | 0, _ => none
  | _, [] => none
  | n + 1, (a, b) :: rest =>
    if a && b then (blowNext n rest).map ((a, b) :: ·) else some ((true, a || b) :: rest)

/-- FUSE_ADVANCE: one bit a clock until C and its pairs reach the target; on an authenticated command, and only up to the running version. A secured
message whose MAC fails freezes the port. -/
def execFuseAdvance (target : Nat) (authentic : Bool) (s : State) : Out :=
  s.asked .mgmt (fun s =>
    if s.mgmtSess && !authentic then (s.freeze .mgmt).answer .mgmt .refused []
    else
      s.grantIf .mgmt (s.mgmtSess && decide (target ≤ 64) && decide (target ≤ s.version)) (fun s =>
        match blowNext target s.fuses with
        | some fs => ({ s with fuses := fs }).post (s.t + 1) (.fuseAdvance target authentic)
        | none => s.answer .mgmt .ok []))

/-- What happens outside the package, which goes on while it is without power. -/
def Instr.isInput : Instr → Bool
  | .boot | .recoveryLoad _ _ | .coldReset | .powerLoss | .spdmSession _ _ | .getMeasurements _ _ | .install _ _ _ | .grant _ _ _ | .unfreeze _ _
  | .emergencyHalt | .emergClear | .registerWrite _ _ _ | .domainFormation _ _ _ _ _ | .hostLinkAccess _ _ _ | .sramPatrolScrub _ _ | .layoutWrite _ | .layoutCommit
  | .fuseAdvance _ _ | .doorbell _ | .readPacket _ | .writePacket _ | .atomPacket _ | .casPacket _ | .redPacket _ | .flagPacket _ | .heartPacket _ | .closePacket _
  | .linkReplay _ _ | .packetDropTimeout _ | .kitelineLinkFail _ | .starSwitchover | .refreshWindow _ | .unitOutOfService _ | .detourTransit _ _ _ => true
  | .replyPacket p | .eager p | .rts p | .pull p | .data p | .ack p | .nack p => p.src != p.dst
  | .kitelineHolding _ _ bs => !bs.isEmpty
  | i => (Instr.adminCode i).isSome

/-- Does an entry of the agenda outlast the loss of power? A step of an advance that was under way, which is due in the next clock, does not (R353). -/
def State.outlasts (s : State) (a : Nat × Instr) : Bool :=
  Instr.isInput a.2 && (match a.2 with | .fuseAdvance _ _ => decide (s.t + 1 < a.1) | _ => true)

/-- Power gone: what is left is what lasts: fuses, the layout and its shadow with the commit record, the firmware image, the place in the domain, what HBM cells still
hold as no key will decrypt it any more (R336), health bits that only a cold reset clears, and what comes from outside (log 11). -/
def State.powerDown (s : State) : State :=
  let s := s.deaden (fun _ => true)
  { State.reset with
    agenda := s.agenda.filter s.outlasts, t := s.t, pkg := s.pkg, members := s.members, rotaL := s.rotaL, rotaS := s.rotaS, tenants := s.tenants,
    layout := s.layout, shadow := s.shadow, commit := s.commit, version := s.version, sigOk := s.sigOk, sigKey := s.sigKey, fusedKey := s.fusedKey,
    boots := s.boots, fuses := s.fuses, badHalves := s.badHalves, spareRows := s.spareRows, outOf := s.outOf, mem := s.mem, lineKeys := s.lineKeys,
    ciphers := s.ciphers, gens := s.gens, outs := s.outs, nextId := s.nextId,
    health := { spare := s.health.spare, replace := s.health.replace, degr := s.health.degr, coff := s.health.coff } }

/-- BOOT: the ROM completes half-blown levels, checks the signature, under the key whose digest is fused, and the version, and the firmware draws the device's keys;
or the device stays in recovery. -/
def execBoot (s : State) : Out :=
  if s.power == .on then .next s
  else
    let s := { s with fuses := completeFuses s.fuses }
    if s.sigOk && s.sigKey == s.fusedKey && decide (fuseCounter s.fuses ≤ s.version) then
      let n := s.boots + 1
      let zero : KeyRec := { id := 0, st := .installed, keys := { data1 := Config.drawnKey 0 n, data2 := Config.drawnKey 1 n, integ := Config.drawnKey 2 n, fabric := Config.drawnKey 3 n } }
      let s := { s with
        power := .on, bootFail := false, boots := n, vds := List.replicate 128 {}, keys := zero :: (List.range 1023).map (fun i => { id := i + 1 }) }
      .next (s.restart true)
    else .next { s with power := .recovery, bootFail := true }

/-- RECOVERY_LOAD: only in recovery; the ROM then checks the new image. -/
def execRecoveryLoad (version : Nat) (sig : ImageSig) (s : State) : Out :=
  match s.power with
  | .off => .next s
  | .on => .next (s.answer .mgmt (if s.frozen .mgmt then .frozen else .refused) [])
  | .recovery => .next ((({ s with version := version, sigOk := sig.valid, sigKey := sig.key }).post s.t .boot).answer .mgmt .ok [])

/-- COLD_RESET: it alone clears REPLACE; the device boots again. -/
def execColdReset (s : State) : Out :=
  if s.power == .off then .next s
  else
    let s := s.powerDown
    .next ({ s with health := { spare := s.health.spare }, outOf := [] }.post s.t .boot)

/-- POWER_LOSS. -/
def execPowerLoss (s : State) : Out := .next s.powerDown

/-! ### Emergencies and units out of service (R357, R358) -/

/-- Every world that runs, or is about to, halts at the next round boundary, one whose RESUME has been accepted among them. -/
def State.haltAll (s : State) : State :=
  (List.range s.vds.length).foldl (fun (s : State) v =>
    if ((s.vd v).run == .running || (s.vd v).run == .starting || s.awaits (.resumeEffect v)) && !s.awaits (.haltEffect v) then s.post (s.boundaryAfter s.t) (.haltEffect v) else s) s

/-- EMERGENCY_HALT. -/
def execEmergencyHalt (s : State) : Out :=
  if s.power != .on then .next s
  else .next (({ s with health := { s.health with emerg := true } }.reportError .limits none true).haltAll)

/-- EMERG_CLEAR. -/
def execEmergClear (s : State) : Out :=
  s.asked .mgmt (fun s => ({ s with health := { s.health with emerg := false } }).answer .mgmt .ok [])

/-- A world halts at the present boundary, and one that is about to begin, where it begins. -/
def State.haltWorld (s : State) (v : Nat) : State :=
  if (s.vd v).run == .starting then s.post ((s.agenda.find? (fun a => a.2 == .firstRound v)).elim s.t (·.1)) (.haltEffect v)
  else match execHaltEffect v s with | .next s' => s' | .fault _ => s | .refused _ => s

/-- UNIT_OUT_OF_SERVICE: at a round boundary; a unit goes out once. -/
def execUnitOutOfService (u : HwUnit) (s : State) : Out :=
  if s.power != .on || !s.atBoundary || s.outOf.contains u then .next s
  else
    let held := (List.range s.vds.length).filter (fun v => (s.vd v).world.isSome && s.holdsUnit v u)
    let gone (s : State) : State := { s with outOf := s.outOf ++ [u], health := { s.health with degr := true, replace := true } }
    let report (s : State) : State := if held.isEmpty then s.reportError (.unit u) none true else s
    let s := match u with
      | .core _ => report { gone s with health := { (gone s).health with coff := min 255 (s.health.coff + 1) } }
      | .fibre f => report ((gone s).loseFibre f)
      | .bank _ _ => report (gone s)
      | .peerFibre p f => s.losePeerFibre p f
    .next (held.foldl (fun (s : State) v => (s.reportError (.unit u) (s.vd v).world true).haltWorld v) s)

/-! ### Scrubbing (R67, R355) -/

/-- The world that owns the place of an error. -/
def State.siteWorld (s : State) : ErrSite → Option Nat
  | .hbm pa => s.frameWorld pa
  | .near core off => Layout.holder s.layout (1, core, off / 16384)
  | .spill core part _ => Layout.holder s.layout (0, core, part)
  | .basin die off => Layout.holder s.layout (2, die, off / 2 ^ 20)
  | .reg c _ _ => (s.vd (s.vdOf c)).world
  | .pred c _ _ => (s.vd (s.vdOf c)).world
  | .slot w _ _ _ => (s.vd (s.grid (s.wg w).grid).vd).world
  | .acc w _ _ _ => (s.vd (s.grid (s.wg w).grid).vd).world
  | .kite v _ => (s.vd v).world
  | .icache core part _ => Layout.holder s.layout (0, core, part)
  | .mac line => s.frameWorld (line * 64)
  | .unit _ | .limits => none

/-- SRAM_PATROL_SCRUB: a corrected error is counted; an uncorrectable one stays in its place, and is reported. -/
def execSramPatrolScrub (site : ErrSite) (fatal : Bool) (s : State) : Out :=
  if s.power != .on then .next s
  else if fatal then
    .next ({ s with badSram := if s.badSram.contains site then s.badSram else s.badSram ++ [site] }.reportError site (s.siteWorld site) true)
  else .next s.corrected

/-- The row in which a half-line lies, with its stack and its bank (log 17). -/
def rowPlace (half : Nat) : Nat × Nat × Nat := (stackOf (half * 32), Config.bankOf (half * 32), Config.rowOf (half * 32))

/-- Spare rows left in a bank (log 11). -/
def State.spareLeft (s : State) (stack bank : Nat) : Nat :=
  ((s.spareRows.find? (fun r => r.1 == stack && r.2.1 == bank)).map (·.2.2)).getD 255

/-- A row replaced by a spare one of its bank, while spare rows remain: SPARE is the fewest left in any bank (R355, R356). What could not be corrected stays lost
until it is written. -/
def State.spareRow (s : State) (p : Nat × Nat × Nat) : State :=
  match s.spareLeft p.1 p.2.1 with
  | 0 => s
  | n + 1 => { s with spareRows := s.spareRows.filter (fun r => !(r.1 == p.1 && r.2.1 == p.2.1)) ++ [(p.1, p.2.1, n)],
                      badHalves := s.badHalves.map (fun h => if rowPlace h.1 == p then (h.1, none) else h), health := { s.health with spare := min s.health.spare n } }

/-- The rows that hold an uncorrectable half-line found before the present round, and not replaced since. -/
def State.rowsDue (s : State) : List (Nat × Nat × Nat) :=
  ((s.badHalves.filter (fun h => match h.2 with | some t => decide (t < s.t - s.t % s.roundLen) | none => false)).map (fun h => rowPlace h.1)).eraseDups

/-- One finding of HBM scrubbing: a half-line of 32 bytes, and whether its error cannot be corrected. Its row is replaced in the next refresh window. -/
def State.scrubbed (s : State) (f : Nat × Bool) : State :=
  if f.2 then
    (({ s with badHalves := keyed f.1 (some s.t) s.badHalves }.reportError (.hbm (f.1 * 32)) (s.frameWorld (f.1 * 32)) true)).post (s.boundaryAfter s.t) (.refreshWindow [])
  else s.corrected

/-- REFRESH_WINDOW: rows found bad before are replaced, and scrubbing finds errors. -/
def execRefreshWindow (found : List (Nat × Bool)) (s : State) : Out :=
  if s.power != .on || !s.inRefresh then .next s
  else .next (found.foldl State.scrubbed (s.rowsDue.foldl State.spareRow s))

/-! ### What begins with a clock (R252, R280) -/

/-- Does a flit time that carries a HEART packet begin at the present clock (R252)? -/
def State.heartClock (s : State) : Bool :=
  (List.range (5 * s.rotaS / 2)).any (fun j => j % 64 == 0 && 2 * j / 5 == s.posAt s.t)

/-- HEART packets are due on every fibre that leads to a package. -/
def State.heartsDue (s : State) : State :=
  if s.heartClock then
    ((List.range 46).filter (fun f => (s.heartFor f).isSome)).foldl (fun (s : State) f => s.post s.t (.heartSend (s.slotAt s.t) f)) s
  else s

/-- Does the agenda hold a holding of a slot at the present clock? -/
def State.holdingGiven (s : State) (k : Nat) : Bool :=
  s.agenda.any (fun a => decide (a.1 ≤ s.t) && (match a.2 with | .kitelineHolding j _ _ => j == k | _ => false))

/-- A holding begins every ten clocks within a slot (R280); what another member sends in it comes from outside, or it sends nothing. -/
def State.holdingDue (s : State) : State :=
  let k := s.slotAt s.t
  if s.posAt s.t % 10 == 0 && decide (s.posAt s.t / 10 < s.rotaS / 10) && !s.holdingGiven k then s.post s.t (.kitelineHolding k (s.tokens.getD k 0) [])
  else s

/-! ### The domain and the host link (R226, R248, R338) -/

/-- What the package's own clock has made due on the star and the fibres. -/
def ownTraffic : Instr → Bool
  | .heartSend _ _ => true
  | .kitelineHolding _ _ bs => bs.isEmpty
  | _ => false

/-- DOMAIN_FORMATION: the epoch, L and S, the members, what the domain records of its tenants, the fabric key, and every token at the reach's
lowest member (R281). The clock starts anew, with what is due at epoch clock 0, so it is refused once a VD exists (log 25). -/
def execDomainFormation (pkg : Nat) (members : List Nat) (rotaL rotaS : Nat) (tenants : List Tenancy) (s : State) : Out :=
  if s.power != .on then .next s
  else if s.vds.any (fun d => d.created) || !(decide (pkg < 1024) && members.contains pkg && decide (1 ≤ rotaL) && decide (rotaL ≤ 16) &&
      [16, 32, 64, 128, 256].contains rotaS) then .next (s.answer .mgmt .refused [])
  else
    let back (n : Nat) : Nat := n - s.t
    .next (State.heartsDue (State.holdingDue { s with
      pkg := pkg, members := members, rotaL := rotaL, rotaS := rotaS, tenants := tenants, t := 0, cpFree := 0, flits := [], accepts := [],
      streams := [], tokens := List.replicate 16 (((members.filter (fun p => reachOf p == reachOf pkg)).map memberOf).foldl min (memberOf pkg)),
      fabricKey := Config.domainKey s.boots, ctrs := s.ctrs.filter (fun c => c.1 != 0),
      agenda := (s.agenda.filter (fun a => !ownTraffic a.2)).map (fun a => (back a.1, a.2)), frzHost := s.frzHost.map back, frzMgmt := s.frzMgmt.map back,
      keys := s.keys.map (fun (k : KeyRec) => match k.st with | .retiring b => { k with st := .retiring (back b) } | .free | .installed => k),
      badHalves := s.badHalves.map (fun h => (h.1, h.2.map back)) }))

/-- One line of a host write; a sealed region's frames are not written (R343). -/
def State.hostStore (s : State) (pa : Nat) (bs : List Byte) (line : Nat) : State :=
  if (s.sealedOf line).isSome then s else (s.storeLine pa 0 bs line).countAccess (line * 64) (line * 64) 2

/-- One line of a host read: nothing once a line cannot be delivered. -/
def hostLoad (x : Option (List Byte) × State) (line : Nat) : Option (List Byte) × State :=
  let r := x.2.lineRead line 0 [x.2.t]
  ((x.1.bind (fun bs => r.1.map (bs ++ ·))), r.2.countAccess (line * 64) (line * 64) 2)

/-- HOST_LINK_ACCESS: the host's accesses go under KeyID 0, and are counted as the host's (log 14). Beyond the package's 512 GiB there is nothing
(R2). -/
def execHostLinkAccess (write : Bool) (pa : Nat) (bytes : List Byte) (s : State) : Out :=
  s.asked .host (fun s =>
    let n := bytes.length
    if 2 ^ 39 < pa + n then s.answer .host .refused []
    else if write then ((spanLines pa n).foldl (fun (s : State) l => s.hostStore pa bytes l) s).answer .host .ok []
    else
      let r := (spanLines pa n).foldl hostLoad (some [], s)
      match r.1 with
      | some bs => r.2.answer .host .ok ((bs.drop (pa % 64)).take n)
      | none => r.2.answer .host .refused [])

/-! ### Sealing (R343, R345) -/

/-- A node written to its place: the top node on chip, the others in the tree area. -/
def State.putNode (s : State) (num level i : Nat) (bs : List Byte) : State :=
  match s.sealed.find? (fun r => r.num == num) with
  | none => s
  | some r =>
    if r.height ≤ level then { s with sealed := s.sealed.map (fun (q : SRegion) => if q.num == num then { q with top := bs } else q) }
    else (s.copyFor (r.nodeLine level i)).houseWrite (r.nodeLine level i * 64) bs

/-- The region of a number. -/
def State.sealRegion (s : State) (num : Nat) : SRegion := (s.sealed.find? (fun r => r.num == num)).getD { num := num, vd := 0, pfn := 0, len := 1, keyid := 0, tree := 0 }

/-- A node built from its children: blocks below level 1, nodes below the others; entries beyond the end are 0. -/
def State.buildNode (s : State) (num level i : Nat) : State :=
  let r := s.sealRegion num
  let bs := (List.range 8).flatMap (fun j =>
    let c := 8 * i + j
    if c < r.nodes (level - 1) then (if level ≤ 1 then s.blockMac r c else s.nodeMac r (level - 1) c (s.stamp r.vd)) else List.replicate 8 0)
  s.putNode num level i bs

/-- The levels above the first. -/
def State.buildUpper (s : State) (num : Nat) : State :=
  let r := s.sealRegion num
  (List.range (r.height - 1)).foldl (fun (s : State) l => (List.range (r.nodes (l + 2))).foldl (fun (s : State) i => s.buildNode num (l + 2) i) s) s

/-- Is the command processor open to the sealing world at the present clock? -/
def State.sealOpen (s : State) (r : SRegion) : Bool :=
  (r.st == .building || r.st == .resealing) && (s.vd r.vd).run == .running && s.structOpen .cp && decide (s.cpFree ≤ s.t) &&
    (s.servedWorlds .cp).contains (s.worldNum r.vd)

/-- SEALING_PASS: one node of level 1 with its eight blocks in one acceptance of the command processor, and at the last the levels above (log 15). -/
def execSealingPass (num : Nat) (s : State) : Out :=
  match s.sealed.find? (fun r => r.num == num) with
  | none => .next s
  | some r =>
    if !s.sealOpen r then .next s
    else
      let s := (s.countAccept .cp).buildNode num 1 r.ptr
      let put (s : State) (f : SRegion → SRegion) : State := { s with sealed := s.sealed.map (fun (q : SRegion) => if q.num == num then f q else q) }
      if r.ptr + 1 < r.nodes 1 then .next (put s (fun q => { q with ptr := r.ptr + 1 }))
      else .next (((put (s.buildUpper num) (fun q => { q with st := .sealed, ptr := 0 })).noteDamage).finish (.seal num) .ok)

/-- The sealing pass that goes on in the present clock. -/
def State.nextSealing (s : State) : Option Instr := (s.sealed.find? s.sealOpen).map (fun r => .sealingPass r.num)

end Sys2Proof.Machine
end

