-- ==== Sys2Proof/Machine/Pair.lean ====
section
/-! DEFINITION. The pair word (R89-R92): two halves, each with its own guard; both read before either writes. -/
namespace Sys2Proof.Machine
open Sys2Proof

/-- Does a half's operation name a source register? -/
def HalfOp.usesS : HalfOp → Bool
  | .movi6 => false
  | .iadd | .isub | .imin | .imax | .and | .or | .xor | .mov | .fadd | .fmul | .fmin | .fmax | .pkadd | .pkmul | .shl | .shr | .sar
  | .fneg | .fabs => true

/-- Does the operation read its destination as well (the d := d op s form)? -/
def HalfOp.readsD : HalfOp → Bool
  | .iadd | .isub | .imin | .imax | .and | .or | .xor | .fadd | .fmul | .fmin | .fmax | .pkadd | .pkmul => true
  | .mov | .shl | .shr | .sar | .movi6 | .fneg | .fabs => false

/-- The effect of a half operation on d and s with the field X (Table 5.8, R91). -/
def halfResult (op : HalfOp) (d s : Word) (x : BitVec 6) : Word :=
  match op with
  | .iadd => addResult false false d s
  | .isub => subResult false false d s
  | .imin => minResult false d s
  | .imax => maxResult false d s
  | .and => d &&& s
  | .or => d ||| s
  | .xor => d ^^^ s
  | .mov => s
  | .fadd => BitVec.ofNat 32 ((fAdd .f32 pairMod d.toNat s.toNat).getD 0)
  | .fmul => BitVec.ofNat 32 ((fMul .f32 pairMod d.toNat s.toNat).getD 0)
  | .fmin => BitVec.ofNat 32 (fMin .f32 false d.toNat s.toNat)
  | .fmax => BitVec.ofNat 32 (fMax .f32 false d.toNat s.toNat)
  | .pkadd => (packed (fAdd .f16 pairMod) d s).getD 0
  | .pkmul => (packed (fMul .f16 pairMod) d s).getD 0
  | .shl => shlResult s x.toNat
  | .shr => shrResult s x.toNat
  | .sar => sarResult s x.toNat
  | .movi6 => x.signExtend 32
  | .fneg => fNeg s
  | .fabs => fAbs s

/-- A half's guard (R90). -/
def Half.holds (h : Half) (x : Lane) : Bool := h.g.toNat == 7 || x.preds.getLsbD h.g.toNat

/-- The predicate that a half's guard reads. -/
def Half.guards (h : Half) : List (BitVec 4) := if h.g.toNat == 7 then [] else [h.g.setWidth 4]

/-- The fields that a half uses (R89). -/
def Half.fields (h : Half) : List (BitVec 8) := h.d :: (if HalfOp.usesS h.op then [h.s] else [])

/-- The registers that a half reads. -/
def Half.reads (h : Half) : List (BitVec 8 × Nat) :=
  (if HalfOp.usesS h.op then [(h.s, 1)] else []) ++ (if HalfOp.readsD h.op then [(h.d, 1)] else [])

/-- What the pair word needs. -/
def pairNeeds (a b : Half) : Needs :=
  { dst := [(a.d, 1), (b.d, 1)], src := Half.reads a ++ Half.reads b, banks := Half.fields a ++ Half.fields b }

/-- The lanes of a path whose guard of a half is true. -/
def halfLanes (h : Half) (k : Crew) (path : BitVec 8) : List Nat := (lanesOf path).filter (fun l => Half.holds h (k.lane l))

/-- A pair word (R92). -/
def pairPacket (a b : Half) (s : State) : Out :=
  match s.issue with
  | none => .next s
  | some is =>
    let k := s.crew is.crew
    match (pairNeeds a b).check k (s.gridOf is.crew).regs with
    | some code => .next (s.trapPath is code 0)
    | none =>
      let act0 := halfLanes a k is.path
      let act1 := halfLanes b k is.path
      let i := s.issueWord is
      let val (h : Half) (f l : Nat) : Word := halfResult h.op (rd i k f l h.d) (rd i k (f + 1) l h.s) h.x
      let hurt (h : Half) (act : List Nat) : List Nat := act.filter (fun l => s.regBad is.crew l (Half.reads h))
      let guard (l : Nat) : Bool := s.predBad is.crew l (Half.guards a ++ Half.guards b)
      match (lanesOf is.path).find? (fun l => guard l || (hurt a act0).contains l || (hurt b act1).contains l) with
      | some l => .next (s.trapPath is tcIntegrity (integrityInfo 0 0 l))
      | none =>
        let s := s.issueWord is
        let s := s.updCur (fun k' => k'.onLanes act0 (fun l x => regWrite x a.d.toNat (val a 0 l)))
        let s := s.updCur (fun k' => k'.onLanes act1 (fun l x => regWrite x b.d.toNat (val b 2 l)))
        .next ((s.mendRegs is.crew act0 [(a.d, 1)]).mendRegs is.crew act1 [(b.d, 1)])

def execPairIadd (g : BitVec 3) (d r : BitVec 8) (h1 : Half) (s : State) : Out := pairPacket ⟨.iadd, d, r, g, 0⟩ h1 s
def execPairIsub (g : BitVec 3) (d r : BitVec 8) (h1 : Half) (s : State) : Out := pairPacket ⟨.isub, d, r, g, 0⟩ h1 s
def execPairImin (g : BitVec 3) (d r : BitVec 8) (h1 : Half) (s : State) : Out := pairPacket ⟨.imin, d, r, g, 0⟩ h1 s
def execPairImax (g : BitVec 3) (d r : BitVec 8) (h1 : Half) (s : State) : Out := pairPacket ⟨.imax, d, r, g, 0⟩ h1 s
def execPairAnd (g : BitVec 3) (d r : BitVec 8) (h1 : Half) (s : State) : Out := pairPacket ⟨.and, d, r, g, 0⟩ h1 s
def execPairOr (g : BitVec 3) (d r : BitVec 8) (h1 : Half) (s : State) : Out := pairPacket ⟨.or, d, r, g, 0⟩ h1 s
def execPairXor (g : BitVec 3) (d r : BitVec 8) (h1 : Half) (s : State) : Out := pairPacket ⟨.xor, d, r, g, 0⟩ h1 s
def execPairMov (g : BitVec 3) (d r : BitVec 8) (h1 : Half) (s : State) : Out := pairPacket ⟨.mov, d, r, g, 0⟩ h1 s
def execPairFadd (g : BitVec 3) (d r : BitVec 8) (h1 : Half) (s : State) : Out := pairPacket ⟨.fadd, d, r, g, 0⟩ h1 s
def execPairFmul (g : BitVec 3) (d r : BitVec 8) (h1 : Half) (s : State) : Out := pairPacket ⟨.fmul, d, r, g, 0⟩ h1 s
def execPairFmin (g : BitVec 3) (d r : BitVec 8) (h1 : Half) (s : State) : Out := pairPacket ⟨.fmin, d, r, g, 0⟩ h1 s
def execPairFmax (g : BitVec 3) (d r : BitVec 8) (h1 : Half) (s : State) : Out := pairPacket ⟨.fmax, d, r, g, 0⟩ h1 s
def execPairPkadd (g : BitVec 3) (d r : BitVec 8) (h1 : Half) (s : State) : Out := pairPacket ⟨.pkadd, d, r, g, 0⟩ h1 s
def execPairPkmul (g : BitVec 3) (d r : BitVec 8) (h1 : Half) (s : State) : Out := pairPacket ⟨.pkmul, d, r, g, 0⟩ h1 s
def execPairShl (g : BitVec 3) (d r : BitVec 8) (x : BitVec 5) (h1 : Half) (s : State) : Out := pairPacket ⟨.shl, d, r, g, x.setWidth 6⟩ h1 s
def execPairShr (g : BitVec 3) (d r : BitVec 8) (x : BitVec 5) (h1 : Half) (s : State) : Out := pairPacket ⟨.shr, d, r, g, x.setWidth 6⟩ h1 s
def execPairSar (g : BitVec 3) (d r : BitVec 8) (x : BitVec 5) (h1 : Half) (s : State) : Out := pairPacket ⟨.sar, d, r, g, x.setWidth 6⟩ h1 s
def execMovi6 (g : BitVec 3) (d : BitVec 8) (x : BitVec 6) (h1 : Half) (s : State) : Out := pairPacket ⟨.movi6, d, 0, g, x⟩ h1 s
def execFneg (g : BitVec 3) (d r : BitVec 8) (h1 : Half) (s : State) : Out := pairPacket ⟨.fneg, d, r, g, 0⟩ h1 s
def execFabs (g : BitVec 3) (d r : BitVec 8) (h1 : Half) (s : State) : Out := pairPacket ⟨.fabs, d, r, g, 0⟩ h1 s

end Sys2Proof.Machine
end

