-- ==== Sys2Proof/Machine/SysRegs.lean ====
section
/-! DEFINITION. The special registers (R147, R148, Table 7.6), with the rota registers of Table 4.4. -/
namespace Sys2Proof.Machine
open Sys2Proof

/-- %rota.mine of world w: the slots it owns (Table 4.4). -/
def State.rotaMine (s : State) (w : Nat) : Nat :=
  (List.range s.rotaL).foldl (fun m k => if s.ownerOf k == some w then m + 2 ^ k else m) 0

/-- Linear workgroup number to coordinates: x rises fastest (R20). -/
def Grid.coords (g : Grid) (n : Nat) : Nat × Nat × Nat := (n % g.gx, n / g.gx % g.gy, n / (g.gx * g.gy))

/-- Special register n as lane l of crew c reads it at the present clock (Table 7.6). Unassigned numbers do not decode (R147). -/
def State.special (s : State) (c l n : Nat) : DWord :=
  let k := s.crew c
  let w := s.wg k.wg
  let g := s.grid w.grid
  let world := s.worldNum g.vd
  let num (v : Nat) : DWord := BitVec.ofNat 64 v
  match n with
  | 0x00 => num l
  | 0x01 => num k.num
  | 0x02 => num w.num
  | 0x03 => num (g.coords w.num).1
  | 0x04 => num (g.coords w.num).2.1
  | 0x05 => num (g.coords w.num).2.2
  | 0x06 => num g.gx
  | 0x07 => num g.gy
  | 0x08 => num g.gz
  | 0x09 => num k.core
  | 0x0A => num k.part
  | 0x0B => num world
  | 0x0C => num s.pkg
  | 0x0D => num (s.pkg / 16)
  | 0x0E => num (s.pkg % 16)
  | 0x0F => num g.icount
  | 0x10 => k.fair.setWidth 64
  | 0x11 => num (s.cycleOf g.vd s.t)
  | 0x12 => num s.rotaL
  | 0x13 => num s.rotaS
  | 0x14 => num (s.rotaMine world)
  | 0x15 => num (s.slotAt s.t)
  | 0x16 => num (s.posAt s.t)
  | 0x17 => num (((s.allotOf world).map (·.pad)).getD 0)
  | 0x18 => k.tcode.setWidth 64
  | 0x19 => k.tpc.setWidth 64
  | 0x1A => k.tinfo
  | _ => 0

/-- The 64-bit special registers (Table 7.6). -/
def specialWide (n : BitVec 8) : Bool := [0x06, 0x07, 0x08, 0x11, 0x1A].contains n.toNat

/-- sget (R147). -/
def execSget (h : Hdr) (d n : BitVec 8) (s : State) : Out :=
  word h { dst := [(d, if specialWide n then 2 else 1)] } (fun s _ act =>
    .ok (s.updCur (fun k' => k'.onLanes act (fun l x =>
      let v := s.special s.cur l n.toNat
      if specialWide n then pairWrite x d.toNat v else regWrite x d.toNat (v.setWidth 32))))) s

/-- sset of %fair, the one register that can be written (R147, R110). -/
def execSset (h : Hdr) (a : BitVec 8) (s : State) : Out :=
  word h { src := [(a, 1)] } (fun s k act =>
    match uniform (act.map (fun l => (rd s k 0 l a).toNat % 256)) with
    | none => .trap tcNonuniform 0
    | some f => .ok (s.updCur (fun k' => { k' with fair := BitVec.ofNat 8 f }))) s

end Sys2Proof.Machine
end

