-- ==== Sys2Proof/Machine/Dispatch.lean ====
section
/-! DEFINITION. The meaning of every row of the opcode table: one arm per constructor of Instr. -/
namespace Sys2Proof.Machine
open Sys2Proof

def exec (i : Instr) (s : State) : Host.Outcome State Fault Refusal :=
  match i with
  | .bra h off => Sys2Proof.Machine.execBra h off s
  | .brx h a => Sys2Proof.Machine.execBrx h a s
  | .call h d off => Sys2Proof.Machine.execCall h d off s
  | .callx h d a => Sys2Proof.Machine.execCallx h d a s
  | .ret h a => Sys2Proof.Machine.execRet h a s
  | .jmark h k => Sys2Proof.Machine.execJmark h k s
  | .join h k => Sys2Proof.Machine.execJoin h k s
  | .exit h => Sys2Proof.Machine.execExit h s
  | .yield h => Sys2Proof.Machine.execYield h s
  | .nop h => Sys2Proof.Machine.execNop h s
  | .itake h d => Sys2Proof.Machine.execItake h d s
  | .drain h => Sys2Proof.Machine.execDrain h s
  | .trap h imm => Sys2Proof.Machine.execTrap h imm s
  | .tret h nxt => Sys2Proof.Machine.execTret h nxt s
  | .brk h code => Sys2Proof.Machine.execBrk h code s
  | .iadd h d a b sat u => Sys2Proof.Machine.execIadd h d a b sat u s
  | .iaddc h d a b ci co => Sys2Proof.Machine.execIaddc h d a b ci co s
  | .isub h d a b sat u => Sys2Proof.Machine.execIsub h d a b sat u s
  | .isubb h d a b ci co => Sys2Proof.Machine.execIsubb h d a b ci co s
  | .imul h d a b => Sys2Proof.Machine.execImul h d a b s
  | .imulh h d a b u => Sys2Proof.Machine.execImulh h d a b u s
  | .imad h d a b c sat u => Sys2Proof.Machine.execImad h d a b c sat u s
  | .idiv h la d a b u => Sys2Proof.Machine.execIdiv h la d a b u s
  | .irem h la d a b u => Sys2Proof.Machine.execIrem h la d a b u s
  | .imin h d a b u => Sys2Proof.Machine.execImin h d a b u s
  | .imax h d a b u => Sys2Proof.Machine.execImax h d a b u s
  | .iclamp h d a b c u => Sys2Proof.Machine.execIclamp h d a b c u s
  | .ineg h d a sat => Sys2Proof.Machine.execIneg h d a sat s
  | .iabs h d a sat => Sys2Proof.Machine.execIabs h d a sat s
  | .iand h d a b => Sys2Proof.Machine.execIand h d a b s
  | .ior h d a b => Sys2Proof.Machine.execIor h d a b s
  | .ixor h d a b => Sys2Proof.Machine.execIxor h d a b s
  | .iandn h d a b => Sys2Proof.Machine.execIandn h d a b s
  | .inot h d a => Sys2Proof.Machine.execInot h d a s
  | .shl h d a k => Sys2Proof.Machine.execShl h d a k s
  | .shr h d a k => Sys2Proof.Machine.execShr h d a k s
  | .sar h d a k => Sys2Proof.Machine.execSar h d a k s
  | .rotl h d a k => Sys2Proof.Machine.execRotl h d a k s
  | .rotr h d a k => Sys2Proof.Machine.execRotr h d a k s
  | .popc h d a => Sys2Proof.Machine.execPopc h d a s
  | .clz h d a => Sys2Proof.Machine.execClz h d a s
  | .ctz h d a => Sys2Proof.Machine.execCtz h d a s
  | .brev h d a => Sys2Proof.Machine.execBrev h d a s
  | .bfx h d a b u => Sys2Proof.Machine.execBfx h d a b u s
  | .bfi h d a b c => Sys2Proof.Machine.execBfi h d a b c s
  | .sel h d a b p => Sys2Proof.Machine.execSel h d a b p s
  | .mov h d a => Sys2Proof.Machine.execMov h d a s
  | .movi h d imm => Sys2Proof.Machine.execMovi h d imm s
  | .movh h d a imm => Sys2Proof.Machine.execMovh h d a imm s
  | .icmp h cc u pd a b pc => Sys2Proof.Machine.execIcmp h cc u pd a b pc s
  | .wadd h d a b => Sys2Proof.Machine.execWadd h d a b s
  | .wshl h d a k => Sys2Proof.Machine.execWshl h d a k s
  | .wcmp h cc u pd a b pc => Sys2Proof.Machine.execWcmp h cc u pd a b pc s
  | .waddi h d a imm => Sys2Proof.Machine.execWaddi h d a imm s
  | .wmad h d a b c u => Sys2Proof.Machine.execWmad h d a b c u s
  | .pand h pd pa pb na nb => Sys2Proof.Machine.execPand h pd pa pb na nb s
  | .por h pd pa pb na nb => Sys2Proof.Machine.execPor h pd pa pb na nb s
  | .pxor h pd pa pb na nb => Sys2Proof.Machine.execPxor h pd pa pb na nb s
  | .pnot h pd pa na => Sys2Proof.Machine.execPnot h pd pa na s
  | .pset h a b => Sys2Proof.Machine.execPset h a b s
  | .pget h d => Sys2Proof.Machine.execPget h d s
  | .vote h mode pd pa => Sys2Proof.Machine.execVote h mode pd pa s
  | .ballot h d pa => Sys2Proof.Machine.execBallot h d pa s
  | .lperm h mode pv d a b => Sys2Proof.Machine.execLperm h mode pv d a b s
  | .bcast h d a src => Sys2Proof.Machine.execBcast h d a src s
  | .cred h op scan u d a => Sys2Proof.Machine.execCred h op scan u d a s
  | .matchLanes h w d a => Sys2Proof.Machine.execMatchLanes h w d a s
  | .sget h d n => Sys2Proof.Machine.execSget h d n s
  | .sset h a => Sys2Proof.Machine.execSset h a s
  | .fadd h ty m d a b => Sys2Proof.Machine.execFadd h ty m d a b s
  | .fsub h ty m d a b => Sys2Proof.Machine.execFsub h ty m d a b s
  | .fmul h ty m d a b => Sys2Proof.Machine.execFmul h ty m d a b s
  | .ffma h ty m d a b c => Sys2Proof.Machine.execFfma h ty m d a b c s
  | .fmin h ty ftz d a b => Sys2Proof.Machine.execFmin h ty ftz d a b s
  | .fmax h ty ftz d a b => Sys2Proof.Machine.execFmax h ty ftz d a b s
  | .frcp h la ov ftz d a => Sys2Proof.Machine.execFrcp h la ov ftz d a s
  | .frsq h la ov ftz d a => Sys2Proof.Machine.execFrsq h la ov ftz d a s
  | .fsqrt h la ov ftz d a => Sys2Proof.Machine.execFsqrt h la ov ftz d a s
  | .fex2 h la ov ftz d a => Sys2Proof.Machine.execFex2 h la ov ftz d a s
  | .flg2 h la ov ftz d a => Sys2Proof.Machine.execFlg2 h la ov ftz d a s
  | .fsin h la ov ftz d a => Sys2Proof.Machine.execFsin h la ov ftz d a s
  | .fcos h la ov ftz d a => Sys2Proof.Machine.execFcos h la ov ftz d a s
  | .ftanh h la ov ftz d a => Sys2Proof.Machine.execFtanh h la ov ftz d a s
  | .fcmp h cc ty ftz pd a b pc => Sys2Proof.Machine.execFcmp h cc ty ftz pd a b pc s
  | .fclass h ty ftz d a => Sys2Proof.Machine.execFclass h ty ftz d a s
  | .frnd h ty rm ftz d a => Sys2Proof.Machine.execFrnd h ty rm ftz d a s
  | .pkadd h bf m d a b => Sys2Proof.Machine.execPkadd h bf m d a b s
  | .pkmul h bf m d a b => Sys2Proof.Machine.execPkmul h bf m d a b s
  | .pkfma h bf m d a b c => Sys2Proof.Machine.execPkfma h bf m d a b c s
  | .cvt h dst src m d a => Sys2Proof.Machine.execCvt h dst src m d a s
  | .nq h ov ftz d a b => Sys2Proof.Machine.execNq h ov ftz d a b s
  | .nqFs h fs d a => Sys2Proof.Machine.execNqFs h fs d a s
  | .nx h ty m d a b => Sys2Proof.Machine.execNx h ty m d a b s
  | .nxFs h ty fs d a => Sys2Proof.Machine.execNxFs h ty fs d a s
  | .bscale h ftz d a => Sys2Proof.Machine.execBscale h ftz d a s
  | .bscaleFold h ftz d a b => Sys2Proof.Machine.execBscaleFold h ftz d a b s
  | .ld h la sp wd d a ofs => Sys2Proof.Machine.execLd h la sp wd d a ofs s
  | .st h sp wd a b ofs => Sys2Proof.Machine.execSt h sp wd a b ofs s
  | .atom h la op sp ty d a b ofs => Sys2Proof.Machine.execAtom h la op sp ty d a b ofs s
  | .cas h la sp wd d a b c ofs => Sys2Proof.Machine.execCas h la sp wd d a b c ofs s
  | .tset h rdy t a b => Sys2Proof.Machine.execTset h rdy t a b s
  | .tdrain h t => Sys2Proof.Machine.execTdrain h t s
  | .tfree h t => Sys2Proof.Machine.execTfree h t s
  | .tstat h map d t => Sys2Proof.Machine.execTstat h map d t s
  | .twait h t => Sys2Proof.Machine.execTwait h t s
  | .cwait h t a => Sys2Proof.Machine.execCwait h t a s
  | .bar h m => Sys2Proof.Machine.execBar h m s
  | .barv h d m => Sys2Proof.Machine.execBarv h d m s
  | .barw h m a => Sys2Proof.Machine.execBarw h m a s
  | .fence h sc => Sys2Proof.Machine.execFence h sc s
  | .cpy h t man a => Sys2Proof.Machine.execCpy h t man a s
  | .cpo h t man a => Sys2Proof.Machine.execCpo h t man a s
  | .cpbIn h t man a b => Sys2Proof.Machine.execCpbIn h t man a b s
  | .cpbOut h t man a b => Sys2Proof.Machine.execCpbOut h t man a b s
  | .cpreWarm h man a => Sys2Proof.Machine.execCpreWarm h man a s
  | .cpreMig h man a => Sys2Proof.Machine.execCpreMig h man a s
  | .xclaim h o => Sys2Proof.Machine.execXclaim h o s
  | .xrel h o => Sys2Proof.Machine.execXrel h o s
  | .xfill h o t b fs => Sys2Proof.Machine.execXfill h o t b fs s
  | .xmac h sat acc os fs => Sys2Proof.Machine.execXmac h sat acc os fs s
  | .xwait h => Sys2Proof.Machine.execXwait h s
  | .xfence h => Sys2Proof.Machine.execXfence h s
  | .xclr h acc => Sys2Proof.Machine.execXclr h acc s
  | .xrd h la d acc a => Sys2Proof.Machine.execXrd h la d acc a s
  | .xst h a acc fs hist => Sys2Proof.Machine.execXst h a acc fs hist s
  | .xhcfg h hs a => Sys2Proof.Machine.execXhcfg h hs a s
  | .xhrd h d hs a => Sys2Proof.Machine.execXhrd h d hs a s
  | .ldf h la wd d a ofs => Sys2Proof.Machine.execLdf h la wd d a ofs s
  | .stf h wd a b mask ofs => Sys2Proof.Machine.execStf h wd a b mask ofs s
  | .atomf h la op ty d a b ofs => Sys2Proof.Machine.execAtomf h la op ty d a b ofs s
  | .casf h la wd d a b c ofs => Sys2Proof.Machine.execCasf h la wd d a b c ofs s
  | .redf h op ty sw a b ofs => Sys2Proof.Machine.execRedf h op ty sw a b ofs s
  | .fencef h sc => Sys2Proof.Machine.execFencef h sc s
  | .fflag h wd a b ofs => Sys2Proof.Machine.execFflag h wd a b ofs s
  | .msend h nr d a b e => Sys2Proof.Machine.execMsend h nr d a b e s
  | .mpost h cw nr d a b e => Sys2Proof.Machine.execMpost h cw nr d a b e s
  | .mcancel h a => Sys2Proof.Machine.execMcancel h a s
  | .mprobe h la d a b => Sys2Proof.Machine.execMprobe h la d a b s
  | .mtest h la d a => Sys2Proof.Machine.execMtest h la d a s
  | .mwait h d a => Sys2Proof.Machine.execMwait h d a s
  | .kst h rel wd a b ofs => Sys2Proof.Machine.execKst h rel wd a b ofs s
  | .kfaa h la rel d a b ofs => Sys2Proof.Machine.execKfaa h la rel d a b ofs s
  | .kld h acq wd d a ofs => Sys2Proof.Machine.execKld h acq wd d a ofs s
  | .kwait h cc u acq a b c ofs => Sys2Proof.Machine.execKwait h cc u acq a b c ofs s
  | .pairIadd g d s0 h1 => Sys2Proof.Machine.execPairIadd g d s0 h1 s
  | .pairIsub g d s0 h1 => Sys2Proof.Machine.execPairIsub g d s0 h1 s
  | .pairImin g d s0 h1 => Sys2Proof.Machine.execPairImin g d s0 h1 s
  | .pairImax g d s0 h1 => Sys2Proof.Machine.execPairImax g d s0 h1 s
  | .pairAnd g d s0 h1 => Sys2Proof.Machine.execPairAnd g d s0 h1 s
  | .pairOr g d s0 h1 => Sys2Proof.Machine.execPairOr g d s0 h1 s
  | .pairXor g d s0 h1 => Sys2Proof.Machine.execPairXor g d s0 h1 s
  | .pairMov g d s0 h1 => Sys2Proof.Machine.execPairMov g d s0 h1 s
  | .pairFadd g d s0 h1 => Sys2Proof.Machine.execPairFadd g d s0 h1 s
  | .pairFmul g d s0 h1 => Sys2Proof.Machine.execPairFmul g d s0 h1 s
  | .pairFmin g d s0 h1 => Sys2Proof.Machine.execPairFmin g d s0 h1 s
  | .pairFmax g d s0 h1 => Sys2Proof.Machine.execPairFmax g d s0 h1 s
  | .pairPkadd g d s0 h1 => Sys2Proof.Machine.execPairPkadd g d s0 h1 s
  | .pairPkmul g d s0 h1 => Sys2Proof.Machine.execPairPkmul g d s0 h1 s
  | .pairShl g d s0 x h1 => Sys2Proof.Machine.execPairShl g d s0 x h1 s
  | .pairShr g d s0 x h1 => Sys2Proof.Machine.execPairShr g d s0 x h1 s
  | .pairSar g d s0 x h1 => Sys2Proof.Machine.execPairSar g d s0 x h1 s
  | .movi6 g d x h1 => Sys2Proof.Machine.execMovi6 g d x h1 s
  | .fneg g d s0 h1 => Sys2Proof.Machine.execFneg g d s0 h1 s
  | .fabs g d s0 h1 => Sys2Proof.Machine.execFabs g d s0 h1 s
  | .doorbell c => Sys2Proof.Machine.execDoorbell c s
  | .endE c => Sys2Proof.Machine.execEndE c s
  | .launch c e => Sys2Proof.Machine.execLaunch c e s
  | .skipif c e => Sys2Proof.Machine.execSkipif c e s
  | .jump c e => Sys2Proof.Machine.execJump c e s
  | .callEntry c e => Sys2Proof.Machine.execCallEntry c e s
  | .retEntry c => Sys2Proof.Machine.execRetEntry c s
  | .signal c e => Sys2Proof.Machine.execSignal c e s
  | .waitv c e => Sys2Proof.Machine.execWaitv c e s
  | .waitvReread c e => Sys2Proof.Machine.execWaitvReread c e s
  | .measure c e => Sys2Proof.Machine.execMeasure c e s
  | .receipt c e => Sys2Proof.Machine.execReceipt c e s
  | .placeWorkgroup vd grid => Sys2Proof.Machine.execPlaceWorkgroup vd grid s
  | .coresidentPass vd grid => Sys2Proof.Machine.execCoresidentPass vd grid s
  | .crewsReady wg => Sys2Proof.Machine.execCrewsReady wg s
  | .itemMove grid core => Sys2Proof.Machine.execItemMove grid core s
  | .icacheFill fill => Sys2Proof.Machine.execIcacheFill fill s
  | .requestAccept st world => Sys2Proof.Machine.execRequestAccept st world s
  | .basinResult op => Sys2Proof.Machine.execBasinResult op s
  | .fixedLatencyComplete crew lane entry => Sys2Proof.Machine.execFixedLatencyComplete crew lane entry s
  | .bargeBeat req line => Sys2Proof.Machine.execBargeBeat req line s
  | .chunkDone req chunk => Sys2Proof.Machine.execChunkDone req chunk s
  | .bargeRequestEnd req => Sys2Proof.Machine.execBargeRequestEnd req s
  | .translationComplete job => Sys2Proof.Machine.execTranslationComplete job s
  | .faultRecordDeferred vd => Sys2Proof.Machine.execFaultRecordDeferred vd s
  | .replayedAccess vd job => Sys2Proof.Machine.execReplayedAccess vd job s
  | .sideLogReissue vd entry => Sys2Proof.Machine.execSideLogReissue vd entry s
  | .homePerform far => Sys2Proof.Machine.execHomePerform far s
  | .flagSend crew lane => Sys2Proof.Machine.execFlagSend crew lane s
  | .replyPacket p => Sys2Proof.Machine.execReplyPacket p s
  | .heartSend slot fibre => Sys2Proof.Machine.execHeartSend slot fibre s
  | .requestTimeout far => Sys2Proof.Machine.execRequestTimeout far s
  | .packetDropTimeout p => Sys2Proof.Machine.execPacketDropTimeout p s
  | .clockEntryRaise vd => Sys2Proof.Machine.execClockEntryRaise vd s
  | .eager p => Sys2Proof.Machine.execEager p s
  | .rts p => Sys2Proof.Machine.execRts p s
  | .pull p => Sys2Proof.Machine.execPull p s
  | .data p => Sys2Proof.Machine.execData p s
  | .ack p => Sys2Proof.Machine.execAck p s
  | .nack p => Sys2Proof.Machine.execNack p s
  | .messageResend vd send => Sys2Proof.Machine.execMessageResend vd send s
  | .matchStep vd => Sys2Proof.Machine.execMatchStep vd s
  | .landingBeat vd rx => Sys2Proof.Machine.execLandingBeat vd rx s
  | .receiveComplete vd rx => Sys2Proof.Machine.execReceiveComplete vd rx s
  | .wharfResult crew lane entry => Sys2Proof.Machine.execWharfResult crew lane entry s
  | .kitelineHolding slot member bs => Sys2Proof.Machine.execKitelineHolding slot member bs s
  | .broadcastApply b => Sys2Proof.Machine.execBroadcastApply b s
  | .starSwitchover => Sys2Proof.Machine.execStarSwitchover s
  | .matrixOpStart core part e => Sys2Proof.Machine.execMatrixOpStart core part e s
  | .xfillComplete core part => Sys2Proof.Machine.execXfillComplete core part s
  | .xmacComplete core part => Sys2Proof.Machine.execXmacComplete core part s
  | .xclrComplete core part => Sys2Proof.Machine.execXclrComplete core part s
  | .xstComplete core part => Sys2Proof.Machine.execXstComplete core part s
  | .handlerModeEntry crew => Sys2Proof.Machine.execHandlerModeEntry crew s
  | .deferredTrap crew => Sys2Proof.Machine.execDeferredTrap crew s
  | .workgroupRetire wg => Sys2Proof.Machine.execWorkgroupRetire wg s
  | .completionBitSet wg => Sys2Proof.Machine.execCompletionBitSet wg s
  | .gridRetire grid => Sys2Proof.Machine.execGridRetire grid s
  | .workgroupRestore vd wg => Sys2Proof.Machine.execWorkgroupRestore vd wg s
  | .breakpointStop crew => Sys2Proof.Machine.execBreakpointStop crew s
  | .firstRound vd => Sys2Proof.Machine.execFirstRound vd s
  | .slotRelease vd => Sys2Proof.Machine.execSlotRelease vd s
  | .slotReturn vd => Sys2Proof.Machine.execSlotReturn vd s
  | .haltEffect vd => Sys2Proof.Machine.execHaltEffect vd s
  | .resumeEffect vd => Sys2Proof.Machine.execResumeEffect vd s
  | .switchBoundary out inc => Sys2Proof.Machine.execSwitchBoundary out inc s
  | .padEnd out inc => Sys2Proof.Machine.execPadEnd out inc s
  | .teardownBoundary vd => Sys2Proof.Machine.execTeardownBoundary vd s
  | .teardownRelease vd => Sys2Proof.Machine.execTeardownRelease vd s
  | .keyErase key => Sys2Proof.Machine.execKeyErase key s
  | .zeroingPass stack => Sys2Proof.Machine.execZeroingPass stack s
  | .snapCopy vd => Sys2Proof.Machine.execSnapCopy vd s
  | .rollSweep region => Sys2Proof.Machine.execRollSweep region s
  | .invalidateComplete vd inv => Sys2Proof.Machine.execInvalidateComplete vd inv s
  | .sealingPass num => Sys2Proof.Machine.execSealingPass num s
  | .regionZeroing idx => Sys2Proof.Machine.execRegionZeroing idx s
  | .layoutApply => Sys2Proof.Machine.execLayoutApply s
  | .fuseAdvance target authentic => Sys2Proof.Machine.execFuseAdvance target authentic s
  | .vdCreate a => Sys2Proof.Machine.execVdCreate a s
  | .schedule vd world => Sys2Proof.Machine.execSchedule vd world s
  | .halt vd => Sys2Proof.Machine.execHalt vd s
  | .resume vd => Sys2Proof.Machine.execResume vd s
  | .replace out inc allot => Sys2Proof.Machine.execReplace out inc allot s
  | .teardown vd => Sys2Proof.Machine.execTeardown vd s
  | .ctxCreate c a => Sys2Proof.Machine.execCtxCreate c a s
  | .ranks vd my table => Sys2Proof.Machine.execRanks vd my table s
  | .replay vd fid => Sys2Proof.Machine.execReplay vd fid s
  | .invalidate vd sc => Sys2Proof.Machine.execInvalidate vd sc s
  | .counters vd va len => Sys2Proof.Machine.execCounters vd va len s
  | .snap vd area bitmap => Sys2Proof.Machine.execSnap vd area bitmap s
  | .save vd => Sys2Proof.Machine.execSave vd s
  | .region r => Sys2Proof.Machine.execRegion r s
  | .roll idx => Sys2Proof.Machine.execRoll idx s
  | .seal vd a => Sys2Proof.Machine.execSeal vd a s
  | .reseal num => Sys2Proof.Machine.execReseal num s
  | .debugArm vd on => Sys2Proof.Machine.execDebugArm vd on s
  | .debugComparators vd cs => Sys2Proof.Machine.execDebugComparators vd cs s
  | .debugStopWorld vd on => Sys2Proof.Machine.execDebugStopWorld vd on s
  | .debugStop vd crew => Sys2Proof.Machine.execDebugStop vd crew s
  | .debugStep vd crew => Sys2Proof.Machine.execDebugStep vd crew s
  | .debugResume vd crew => Sys2Proof.Machine.execDebugResume vd crew s
  | .debugRecordRead vd crew => Sys2Proof.Machine.execDebugRecordRead vd crew s
  | .debugRecordWrite vd crew r => Sys2Proof.Machine.execDebugRecordWrite vd crew r s
  | .unfreezeMgmt => Sys2Proof.Machine.execUnfreezeMgmt s
  | .adminUnlistedCode code => Sys2Proof.Machine.execAdminUnlistedCode code s
  | .layoutWrite l => Sys2Proof.Machine.execLayoutWrite l s
  | .layoutCommit => Sys2Proof.Machine.execLayoutCommit s
  | .mgmtRestart shadowOk => Sys2Proof.Machine.execMgmtRestart shadowOk s
  | .boot => Sys2Proof.Machine.execBoot s
  | .recoveryLoad version sigOk => Sys2Proof.Machine.execRecoveryLoad version sigOk s
  | .coldReset => Sys2Proof.Machine.execColdReset s
  | .spdmSession m authentic => Sys2Proof.Machine.execSpdmSession m authentic s
  | .getMeasurements m nonce => Sys2Proof.Machine.execGetMeasurements m nonce s
  | .install m key k => Sys2Proof.Machine.execInstall m key k s
  | .grant m key vd => Sys2Proof.Machine.execGrant m key vd s
  | .unfreeze m other => Sys2Proof.Machine.execUnfreeze m other s
  | .emergencyHalt => Sys2Proof.Machine.execEmergencyHalt s
  | .emergClear => Sys2Proof.Machine.execEmergClear s
  | .registerWrite m r v => Sys2Proof.Machine.execRegisterWrite m r v s
  | .domainFormation pkg members rotaL rotaS tenants => Sys2Proof.Machine.execDomainFormation pkg members rotaL rotaS tenants s
  | .hostLinkAccess write pa bytes => Sys2Proof.Machine.execHostLinkAccess write pa bytes s
  | .sramPatrolScrub site fatal => Sys2Proof.Machine.execSramPatrolScrub site fatal s
  | .powerLoss => Sys2Proof.Machine.execPowerLoss s
  | .readPacket p => Sys2Proof.Machine.execReadPacket p s
  | .writePacket p => Sys2Proof.Machine.execWritePacket p s
  | .atomPacket p => Sys2Proof.Machine.execAtomPacket p s
  | .casPacket p => Sys2Proof.Machine.execCasPacket p s
  | .redPacket p => Sys2Proof.Machine.execRedPacket p s
  | .flagPacket p => Sys2Proof.Machine.execFlagPacket p s
  | .heartPacket p => Sys2Proof.Machine.execHeartPacket p s
  | .closePacket p => Sys2Proof.Machine.execClosePacket p s
  | .linkReplay fibre p => Sys2Proof.Machine.execLinkReplay fibre p s
  | .kitelineLinkFail member => Sys2Proof.Machine.execKitelineLinkFail member s
  | .refreshWindow found => Sys2Proof.Machine.execRefreshWindow found s
  | .unitOutOfService u => Sys2Proof.Machine.execUnitOutOfService u s
  | .detourTransit fibre slot p => Sys2Proof.Machine.execDetourTransit fibre slot p s

end Sys2Proof.Machine
end

