-- ==== Sys2Proof/Machine/Placed.lean ====
section
/-! DEFINITION. A package whose next step fetches a given word: what a boot, a layout, a scheduled VD, a launch and a placement come to, put in place at once
(log 4). It stands for the loading of a program from outside; no run from reset has it. -/
namespace Sys2Proof.Machine
open Sys2Proof

/-- The role that may issue a word (R22). -/
def roleFor (w : DWord) : Nat :=
  let op := (FmtA.ofWord w).op.toNat
  if w.msb then 0 else if 0x58 ≤ op ∧ op ≤ 0x61 then 1 else if 0x50 ≤ op ∧ op ≤ 0x53 then 2 else 0

/-- A launch of one workgroup of one crew, with a little of everything. -/
def placedGrid (w : DWord) : Grid :=
  { vd := 1, keyid := 1, words := 8, regs := 256, tiles := 4, slots := 4, accs := 2, near := 8, spill := 4, roles := [roleFor w], muster := [1],
    mans := List.replicate 16 {}, fss := List.replicate 8 {}, nextWg := 1, start := some 0 }

/-- Its crew, on partition 0 of core 0. -/
def placedCrew (w : DWord) (wg : Nat) : Crew :=
  { live := true, wg := wg, role := roleFor w, lanes := List.replicate 8 { regs := List.replicate 256 0, clock := Clock.zero }, joins := List.replicate 4 {} }

/-- Its workgroup. -/
def placedWg (w : DWord) (grid crew : Nat) : Wg :=
  { live := true, grid := grid, crews := [crew], tiles := List.replicate 4 {}, musters := [{ member := 1 }], placed := true, started := true,
    pools := (placedGrid w).pools [default] [] }

/-- The VD that runs it, as world 0. -/
def placedVd : Vd :=
  { created := true, world := some 0, run := .running, ctxs := List.replicate 16 { st := .idle, keyid := 1 }, grants := [1], am := Clock.zero,
    ranks := [(0, 0)], frames := [(0, 2 ^ 24)] }

/-- The layout that it runs in. -/
def placedLayout : Layout :=
  { allots := [{ parts := [(0, 0)], banks := (List.range 8).map (fun b => (0, b, 0)), basin := [(0, 0, 4)] }], owners := List.replicate 16 (some 0), f := 8 }

/-- s with a word at the place where its next step fetches. -/
def State.placedAt (s : State) (w : DWord) : State :=
  let g := s.grids.length
  let x := s.wgs.length
  let c := s.crews.length
  { s with
    power := .on, layout := placedLayout, agenda := [], turns := [],
    vds := (if s.vds.isEmpty then List.replicate 128 {} else s.vds).set 1 placedVd,
    grids := s.grids ++ [placedGrid w], wgs := s.wgs ++ [placedWg w g c], crews := s.crews ++ [placedCrew w x],
    icache := { core := 0, part := 0, va := 0, words := w :: List.replicate 7 0 } :: s.icache,
    issue := some { crew := c, lanes := 255 } }

end Sys2Proof.Machine
end

