-- ==== Sys2Proof/Machine/Scan.lean ====
section
/-! DEFINITION. What the package does by itself at a clock, in the order in which the model takes it (log 2), and the passing of a clock. -/
namespace Sys2Proof.Machine
open Sys2Proof

/-! ### What is due in the present clock -/

/-- A held entry of a running world that may go on (R51). -/
def State.entryDue (s : State) : Option Instr :=
  firstSome (fun v => if (s.vd v).run != .running then none
    else firstSome (fun (c : Ctx) => match c.held with
      | some i => if s.entryReady i then some i else none
      | none => none) (s.vd v).ctxs) (List.range s.vds.length)

/-- A flag of a running world whose turn has come (R264). -/
def State.nextFlag (s : State) : Option Instr :=
  firstSome (fun c => if (s.vd (s.vdOf c)).run != .running then none
    else ((List.range 8).find? (fun l => (s.flagReady c l).isSome)).map (fun l => .flagSend c l)) (List.range s.crews.length)

/-- A side-log entry of a running world that may go (R224). -/
def State.nextLog (s : State) : Option Instr :=
  (s.fars.find? (fun f => (s.vd f.vd).run == .running && s.logReady f)).map (fun f => .sideLogReissue f.vd f.id)

/-- The next row of the present clock, beyond the agenda and the crews' turns. -/
def State.nextRow (s : State) : Option Instr :=
  firstSome (fun (f : State → Option Instr) => f s)
    [State.nextAccept, State.nextDispatch, State.entryDue, State.nextFlag, State.nextLog, State.nextRestore, State.nextRetire,
     State.nextErase, State.nextInval, State.nextHouse, State.nextSealing]

/-! ### The passing of a clock -/

/-- Partitions with a resident crew whose barrel position has its turn at the present clock, in order (R103). -/
def State.turnPlaces (s : State) : List (Nat × Nat) :=
  sortBy (fun a b => decide (a.1 < b.1) || (a.1 == b.1 && decide (a.2 ≤ b.2)))
    (((List.range s.crews.length).filter (fun c => (s.crew c).live && (s.crew c).pos == s.t % 8)).map (fun c => ((s.crew c).core, (s.crew c).part))).eraseDups

/-- Slots released at a boundary come before everything else of its clock (R72). -/
def State.releasesDue (s : State) : State :=
  if s.atBoundary then
    let vs := (List.range s.vds.length).filter (fun v => (s.vd v).releaseDue s.t)
    { s with agenda := vs.map (fun v => (s.t, .slotRelease v)) ++ s.agenda }
  else s

/-- Where the dispatcher served a world and placed nothing, its searches have been made in vain (R59, R61). -/
def State.dispatchOver (s : State) : State :=
  if s.accepted .disp != 0 || !s.structOpen .disp then s
  else (s.servedWorlds .disp).foldl (fun (s : State) w => match s.vdOfWorld w with
    | some v => if (s.vd v).run == .running && (s.passNext v).isNone then s.noteTried v none else s
    | none => s) s

/-- A clock ends and the next begins, with every lane in the state that it has then (R106). A saved image takes the clock's late results first. -/
def State.tick (ex : Instr → State → Out) (s : State) : State :=
  let s := s.dispatchOver.stopAborted.lateImages
  let s := (List.range s.vds.length).foldl State.noteQuiet s
  let s := { s with t := s.t + 1, accepts := [], probed := false }.probe ex
  let s := { s with turns := s.turnPlaces }
  s.holdingDue.heartsDue.releasesDue

/-- Without power, or in recovery, only these are heard (R352). -/
def Instr.wakes (p : Power) : Instr → Bool
  | .boot => true
  | .recoveryLoad _ _ | .coldReset | .powerLoss | .spdmSession .mgmt .version | .registerWrite .host { reg := .bootFail, vf := none, read := true } _ => p == .recovery
  | _ => false

end Sys2Proof.Machine
end

