-- ==== Sys2Proof/Machine/Step.lean ====
section
/-! DEFINITION. One step of the package (log 2): the packet in progress goes on; else the first row that is due in the agenda; else the next partition's turn;
else whatever else the clock holds; else the clock passes. -/
namespace Sys2Proof.Machine
open Sys2Proof

/-- A partition's turn. -/
def State.takeTurn (s : State) (core part : Nat) : Host.Outcome State Fault Refusal :=
  match s.turn exec core part with
  | .row i s' => exec i s'
  | .packet is s' => s'.goOn exec is
  | .none s' => .next s'

/-- The rest of a clock after its turns. -/
def State.stepRest (s : State) : Host.Outcome State Fault Refusal :=
  match s.nextRow with
  | some i => exec i s
  | none =>
    match s.transitReady with
    | some x => .next (s.transitDepart x)
    | none => .next (s.tick exec)

/-- The clock after its turns: an xst's near writes come after the clock's instruction accesses (R232), and the engines' steps on tiles after its instructions
(R201). -/
def State.stepLate (s : State) : Host.Outcome State Fault Refusal :=
  match s.xstDue with
  | some i => exec i s
  | none =>
    match s.agenda with
    | [] => s.stepRest
    | (a, i) :: rest => if a ≤ s.t then exec i { s with agenda := rest } else s.stepRest

/-- Nothing of the agenda is due before the turns. What the clock's events have made of the lanes is noted once, before the first of them (R104). -/
def State.stepNow (s : State) : Host.Outcome State Fault Refusal :=
  let s := if s.probed then s else { s.probe exec with probed := true }
  match s.turns with
  | (core, part) :: _ => s.takeTurn core part
  | [] => s.stepLate

/-- A package that runs. -/
def State.stepOn (s : State) : Host.Outcome State Fault Refusal :=
  match s.issue with
  | some is => s.goOn exec is
  | none =>
    match s.agenda with
    | [] => s.stepNow
    | (a, i) :: rest => if a ≤ s.t ∧ Instr.rank i < 2 then exec i { s with agenda := rest } else s.stepNow

/-- A package without power, or in recovery: what it does not hear is lost. -/
def State.stepDark (s : State) : Host.Outcome State Fault Refusal :=
  match s.agenda with
  | [] => if s.power == .off then .fault .poweredOff else .next { s with t := s.t + 1 }
  | (a, i) :: rest =>
    if a ≤ s.t then (if Instr.wakes s.power i then exec i { s with agenda := rest } else .next { s with agenda := rest })
    else .next { s with t := s.t + 1 }

def step (s : State) : Host.Outcome State Fault Refusal :=
  match s.power with
  | .on => s.stepOn
  | .off => s.stepDark
  | .recovery => s.stepDark

/-- s with an instruction word where the next step fetches: a crew of a launched grid has its turn, and its path stands at the word (log 4). -/
def State.withFetchWord (s : State) (nbits w : Nat) : State := s.placedAt (BitVec.ofNat 64 (w % 2 ^ nbits))

end Sys2Proof.Machine
end

