-- ==== Sys2Proof/Safety.lean ====
section
/-! DEFINITION. The terms in which claims are made: when a word may take its effect, what a word that acts on lanes alone leaves unchanged, the
canonical form of every memory, and a safe run. -/
namespace Sys2Proof.Machine
open Sys2Proof

/-! ### Words -/

/-- A crew's records have the sizes of R9, R14 and R118: eight lanes with the launch's registers each, four join registers. -/
structure Crew.Shaped (k : Crew) (regs : Nat) : Prop where
  lanes : k.lanes.length = 8
  joins : k.joins.length = 4
  regs  : ∀ x ∈ k.lanes, x.regs.length = regs

/-- The lanes that the word in progress acts on (R9, R79). -/
def State.acting (s : State) (is : Issue) (h : Hdr) : List Nat := activeLanes h (s.crew is.crew) is.path

/-- The word in progress may take its effect: its turn is open, its crew exists, its encoding class passes (R82, R88, R23), and neither its guard nor what it
reads on an active lane holds an uncorrectable error (R311). -/
structure Ready (s : State) (is : Issue) (h : Hdr) (n : Needs) : Prop where
  turn   : s.issue = some is
  resident : is.crew < s.crews.length
  shaped : (s.crew is.crew).Shaped (s.gridOf is.crew).regs
  passes : n.check (s.crew is.crew) (s.gridOf is.crew).regs = none
  guard  : ∀ l ∈ lanesOf is.path, s.predBad is.crew l [h.g] = false
  sound  : ∀ l ∈ s.acting is h, s.readBad is.crew l n = false

/-- Operand field f of lane l, read as ReadReg reads it at issue (R10, R114). -/
def State.operand (s : State) (is : Issue) (f l : Nat) (r : BitVec 8) : Word := regRead ((s.issueWord is).readAt (s.crew is.crew)) f l ((s.crew is.crew).lane l) r.toNat
def State.operand64 (s : State) (is : Issue) (f l : Nat) (r : BitVec 8) : DWord := pairRead ((s.issueWord is).readAt (s.crew is.crew)) f l ((s.crew is.crew).lane l) r.toNat

/-- What every word that completes leaves alone among the crews: the path's lanes that are not active only issue; the other lanes of the crew, its other
fields and every other crew stay as they were. -/
structure LaneFrame (s t : State) (is : Issue) (act : List Nat) : Prop where
  path   : ∀ l < 8, l ∉ act → is.path.getLsbD l = true → (t.crew is.crew).lane l = ((s.crew is.crew).lane l).issueOne
  others : ∀ l, is.path.getLsbD l = false → (t.crew is.crew).lane l = (s.crew is.crew).lane l
  crew   : t.crew is.crew = { s.crew is.crew with lanes := (t.crew is.crew).lanes }
  crews  : ∀ c, c ≠ is.crew → t.crew c = s.crew c

/-- An uncorrectable error goes only where it lay in a register or a predicate of an active lane, and none comes. -/
structure RegErrors (s t : State) (c : Nat) (act : List Nat) : Prop where
  old    : ∀ e ∈ t.badSram, e ∈ s.badSram
  mended : ∀ e ∈ s.badSram, e ∈ t.badSram ∨ ∃ l ∈ act, (∃ r, e = .reg c l r) ∨ ∃ p, e = .pred c l p

/-- What a word that acts on lanes alone does, and nothing else: each active lane goes by `R` from the lane as it stands after issuing, the path's
other lanes only issue, and all the rest of the package is unchanged but the packet in progress, and errors in registers and predicates that
are written. -/
structure LanesOnly (s t : State) (is : Issue) (act : List Nat) (R : Nat → Lane → Lane → Prop) : Prop where
  active : ∀ l ∈ act, R l ((s.crew is.crew).lane l).issueOne ((t.crew is.crew).lane l)
  frame  : LaneFrame s t is act
  errors : RegErrors s t is.crew act
  rest   : t = { s with crews := t.crews, badSram := t.badSram, issue := some { is with issued := is.issued ||| is.path, spent := true } }

/-- What a word of fixed latency does at issue (R113): the active lanes, in ascending order, each open a window of their own that holds the result, and
its completion is due `clk` clocks later; no register changes. -/
structure OpensFixed (s t : State) (is : Issue) (act : List Nat) (kind : PendKind) (la : BitVec 4) (d clk : Nat) (vals : Nat → List Word) : Prop where
  window : ∀ j l, act[j]? = some l → (t.crew is.crew).lane l = openWindow ((s.crew is.crew).lane l).issueOne
    { id := s.nextId + j, kind := kind, win := la.toNat, base := d, regs := (List.range (vals l).length).map (d + ·), value := vals l }
  due    : ∀ j l, act[j]? = some l → (s.t + clk, Instr.fixedLatencyComplete is.crew l (s.nextId + j)) ∈ t.agenda
  kept   : ∀ e ∈ s.agenda, e ∈ t.agenda
  frame  : LaneFrame s t is act
  errors : RegErrors s t is.crew act
  rest   : t = { s with crews := t.crews, badSram := t.badSram, nextId := s.nextId + act.length, agenda := t.agenda,
                        issue := some { is with issued := is.issued ||| is.path, spent := true } }

/-- Lane x becomes y by a write of register d: no other register, no predicate, nothing else changes, but that results still to come for d are
dropped (R114). -/
structure WritesReg (d : Nat) (v : Word) (x y : Lane) : Prop where
  value : y.regs.getD d 0 = v
  frame : ∀ r, r ≠ d → y.regs.getD r 0 = x.regs.getD r 0
  size  : y.regs.length = x.regs.length
  pends : y.pend = x.pend.map (fun p => { p with regs := p.regs.filter (· != d) })
  rest  : y = { x with regs := y.regs, pend := y.pend }

/-- Lane x becomes y by a write of a register pair (R4). -/
structure WritesPair (d : Nat) (v : DWord) (x y : Lane) : Prop where
  low   : y.regs.getD d 0 = v.setWidth 32
  high  : y.regs.getD (d + 1) 0 = (v >>> 32).setWidth 32
  frame : ∀ r, r ≠ d → r ≠ d + 1 → y.regs.getD r 0 = x.regs.getD r 0
  size  : y.regs.length = x.regs.length
  pends : y.pend = x.pend.map (fun p => { p with regs := p.regs.filter (fun r => r != d && r != d + 1) })
  rest  : y = { x with regs := y.regs, pend := y.pend }

/-- Lane x becomes y by a write of registers d upwards from a list of words. -/
structure WritesRegs (d : Nat) (vs : List Word) (x y : Lane) : Prop where
  values : ∀ j < vs.length, y.regs.getD (d + j) 0 = vs.getD j 0
  frame  : ∀ r, (r < d ∨ d + vs.length ≤ r) → y.regs.getD r 0 = x.regs.getD r 0
  size   : y.regs.length = x.regs.length
  rest   : y = { x with regs := y.regs, pend := y.pend }

/-- Lane x becomes y by a write of predicate p. -/
structure WritesPred (p : Nat) (v : Bool) (x y : Lane) : Prop where
  value : y.preds.getLsbD p = v
  frame : ∀ q, q ≠ p → y.preds.getLsbD q = x.preds.getLsbD q
  rest  : y = { x with preds := y.preds }

/-- The word runs and each active lane's register d takes the value; nothing else happens. -/
def GivesReg (i : Instr) (s : State) (is : Issue) (h : Hdr) (d : BitVec 8) (v : Nat → Word) : Prop :=
  ∃ t, exec i s = .next t ∧ LanesOnly s t is (s.acting is h) (fun l => WritesReg d.toNat (v l))

def GivesPair (i : Instr) (s : State) (is : Issue) (h : Hdr) (d : BitVec 8) (v : Nat → DWord) : Prop :=
  ∃ t, exec i s = .next t ∧ LanesOnly s t is (s.acting is h) (fun l => WritesPair d.toNat (v l))

def GivesPred (i : Instr) (s : State) (is : Issue) (h : Hdr) (p : BitVec 4) (v : Nat → Bool) : Prop :=
  ∃ t, exec i s = .next t ∧ LanesOnly s t is (s.acting is h) (fun l => WritesPred p.toNat (v l))

/-- The word traps (R309, R312): the packet part is over, its lanes count as issued, and the trap is taken with the word's own place. -/
def Traps (i : Instr) (s : State) (is : Issue) (code : BitVec 8) (info : DWord) : Prop :=
  exec i s = .next (({ s with issue := some { is with issued := is.issued ||| is.path, spent := true, trapped := true } }).takeTrap is.crew is.path
    ⟨code, info, is.at⟩)

/-- The word waits (R10): its lanes stand in the given state, nothing has issued. -/
def Waits (i : Instr) (s : State) (is : Issue) (st : LaneSt) : Prop := exec i s = .next (s.holdPath is st)

/-! ### Terms of the statements -/

/-- The registers and the value of a shift count (R135). -/
def shiftCount (s : State) (is : Issue) (k : Shift5) (l : Nat) : Nat :=
  match k with
  | .reg b => (s.operand is 1 l b).toNat
  | .imm n => n.toNat

/-- Two numbers compared by a condition of Table 7.1. -/
def condOf (c : Cond) (a b : Int) : Prop :=
  match c with
  | .eq => a = b | .ne => a ≠ b | .lt => a < b | .le => a ≤ b | .gt => b < a | .ge => b ≤ a

/-- The source lane of lperm (R143). -/
def permLane (mode : PermMode) (l k : Nat) : Int :=
  match mode with
  | .sel => k | .back => (l : Int) - k | .fwd => l + k | .flip => (l ^^^ k : Nat) | .rot => ((l + k) % 8 : Nat)

/-- The words whose result may be NUMERIC: their destination, sources and result (R173, R176, R182-R187). -/
def numericForms (s : State) (is : Issue) (h : Hdr) (ty : Fty) (m : FMod) (bf : Bool) (dst src : Cty) (d a b c : BitVec 8) :
    List (Instr × List (BitVec 8) × (Nat → Option Word)) :=
  let A := fun l => s.operand is 0 l a
  let B := fun l => s.operand is 1 l b
  let C := fun l => s.operand is 2 l c
  let lo := fun w : Word => w.toNat % 2 ^ ty.width
  let pt : Fty := if bf then .bf16 else .f16
  let word := Option.map (BitVec.ofNat 32)
  [(.fadd h ty m d a b, [a, b], fun l => word (fAdd ty m (lo (A l)) (lo (B l)))),
   (.fsub h ty m d a b, [a, b], fun l => word (fSub ty m (lo (A l)) (lo (B l)))),
   (.fmul h ty m d a b, [a, b], fun l => word (fMul ty m (lo (A l)) (lo (B l)))),
   (.ffma h ty m d a b c, [a, b, c], fun l => word (fFma ty m (lo (A l)) (lo (B l)) (lo (C l)))),
   (.pkadd h bf m d a b, [a, b], fun l => packed (fAdd pt m) (A l) (B l)),
   (.pkmul h bf m d a b, [a, b], fun l => packed (fMul pt m) (A l) (B l)),
   (.pkfma h bf m d a b c, [a, b, c], fun l => packed3 (fFma pt m) (A l) (B l) (C l)),
   (.cvt h dst src m d a, [a], fun l => cvtWord dst src m (A l)),
   (.nq h m.ov m.ftz d a b, [a, b], fun l => nqWord m.ov m.ftz ((B l).setWidth 16) (A l)),
   (.nx h ty m d a b, [a, b], fun l => nxWord ty m ((B l).setWidth 16) (A l))]

/-- The words of the fspecial group with their functions (Table 9.5). -/
def specialForms (h : Hdr) (la : BitVec 4) (ov : Ov) (ftz : Bool) (d a : BitVec 8) : List (Instr × SFn) :=
  [(.frcp h la ov ftz d a, .rcp), (.frsq h la ov ftz d a, .rsq), (.fsqrt h la ov ftz d a, .sqrt), (.fex2 h la ov ftz d a, .ex2),
   (.flg2 h la ov ftz d a, .lg2), (.fsin h la ov ftz d a, .sin), (.fcos h la ov ftz d a, .cos), (.ftanh h la ov ftz d a, .tanh)]

/-- The lanes' accesses of R196 and R197 in ascending order: each lane's bytes go by `f` from what the lanes before it left. -/
def State.localRun (s : State) (k : Crew) (sp : Space) (w : Nat) (addr : Nat → Nat) (f : Nat → List Byte → List Byte) (ls : List Nat) : State :=
  ls.foldl (fun s l => s.localWrite k sp l (addr l) (f l (s.localRead k sp l (addr l) w))) s

/-- The four words of R190 with what they need, their width, address register and offset. -/
def memoryForms (h : Hdr) (la : BitVec 4) (sp : Space) (wd : Width) (w2 : Width2) (op : Aop) (ty : Aty) (d a b c : BitVec 8) (o8 : BitVec 8)
    (o10 : BitVec 10) : List (Instr × Needs × Nat × Int) :=
  [(.ld h la sp wd d a o10, { dst := [(d, Width.count wd)], src := [(a, 1)] }, Width.bytes wd, o10.toInt),
   (.st h sp wd a b o10, { src := [(a, 1), (b, Width.count wd)] }, Width.bytes wd, o10.toInt),
   (.atom h la op sp ty d a b o8, { dst := [(d, 1)], src := [(a, 1), (b, 1)] }, 4, o8.toInt),
   (.cas h la sp w2 d a b c o10, { dst := [(d, Width2.count w2)], src := [(a, 1), (b, Width2.count w2), (c, Width2.count w2)] }, Width2.bytes w2, o10.toInt)]

/-- The state in which a word's own effect begins, its operand as the active lanes give it: a tile handle, a slot, a muster set. -/
def State.tileOf (s : State) (is : Issue) (h : Hdr) (t : TileH) : Option (Nat × Bool) := tileHandle (s.issueWord is) (s.crew is.crew) (s.acting is h) t
def State.slotOf (s : State) (is : Issue) (h : Hdr) (f : Nat) (o : SlotH) : Option Nat := slotIndex (s.issueWord is) (s.crew is.crew) (s.acting is h) f o
def State.setOf (s : State) (is : Issue) (h : Hdr) (m : MusterH) : Option Nat := musterIndex (s.issueWord is) (s.crew is.crew) (s.acting is h) m
def State.pairOf (s : State) (is : Issue) (h : Hdr) (o : SlotPair) : Option (Nat × Nat) := slotPair (s.issueWord is) (s.crew is.crew) (s.acting is h) o

/-- The one value of a register on the active lanes. -/
def State.sameOn (s : State) (is : Issue) (h : Hdr) (f : Nat) (r : BitVec 8) : Option Nat :=
  uniform ((s.acting is h).map (fun l => (s.operand is f l r).toNat))

/-- A word that touches one workgroup's records only: its lanes have issued, and of the rest only the workgroup list changes, in that workgroup. -/
structure WgOnly (s t : State) (is : Issue) (w : Nat) : Prop where
  others : ∀ v, v ≠ w → t.wg v = s.wg v
  rest   : t = { s.issueWord is with wgs := t.wgs }

/-- The operation that entered an engine's queue: it is last in the queue of its partition, its start is due, and no other queue changed. -/
structure Queued (s t : State) (is : Issue) (e : MEngine) (op : MKindOp) : Prop where
  queue : (t.matUnit (s.crew is.crew).core (s.crew is.crew).part).queue e =
    (s.matUnit (s.crew is.crew).core (s.crew is.crew).part).queue e ++ [{ id := s.nextId, crew := is.crew, wg := (s.crew is.crew).wg, op := op }]
  due   : (s.t, Instr.matrixOpStart (s.crew is.crew).core (s.crew is.crew).part e) ∈ t.agenda
  other : ∀ c p, (c, p) ≠ ((s.crew is.crew).core, (s.crew is.crew).part) → t.matUnit c p = s.matUnit c p
  rest  : t = { s.issueWord is with wgs := t.wgs, mats := t.mats, nextId := s.nextId + 1, agenda := t.agenda }

/-- The pair words with their first half (Table 5.8); `h` is the second half of each. -/
def pairForms (g : BitVec 3) (d r : BitVec 8) (x5 : BitVec 5) (x6 : BitVec 6) (h : Half) : List (Instr × Half) :=
  [(.pairIadd g d r h, ⟨.iadd, d, r, g, 0⟩), (.pairIsub g d r h, ⟨.isub, d, r, g, 0⟩), (.pairImin g d r h, ⟨.imin, d, r, g, 0⟩),
   (.pairImax g d r h, ⟨.imax, d, r, g, 0⟩), (.pairAnd g d r h, ⟨.and, d, r, g, 0⟩), (.pairOr g d r h, ⟨.or, d, r, g, 0⟩),
   (.pairXor g d r h, ⟨.xor, d, r, g, 0⟩), (.pairMov g d r h, ⟨.mov, d, r, g, 0⟩), (.pairFadd g d r h, ⟨.fadd, d, r, g, 0⟩),
   (.pairFmul g d r h, ⟨.fmul, d, r, g, 0⟩), (.pairFmin g d r h, ⟨.fmin, d, r, g, 0⟩), (.pairFmax g d r h, ⟨.fmax, d, r, g, 0⟩),
   (.pairPkadd g d r h, ⟨.pkadd, d, r, g, 0⟩), (.pairPkmul g d r h, ⟨.pkmul, d, r, g, 0⟩), (.pairShl g d r x5 h, ⟨.shl, d, r, g, x5.setWidth 6⟩),
   (.pairShr g d r x5 h, ⟨.shr, d, r, g, x5.setWidth 6⟩), (.pairSar g d r x5 h, ⟨.sar, d, r, g, x5.setWidth 6⟩),
   (.movi6 g d x6 h, ⟨.movi6, d, 0, g, x6⟩), (.fneg g d r h, ⟨.fneg, d, r, g, 0⟩), (.fabs g d r h, ⟨.fabs, d, r, g, 0⟩)]

/-- The Barge words that name a tile, with their kind and Basin address register (R208). -/
def bargeForms (h : Hdr) (t : TileH) (man : BitVec 4) (a b : BitVec 8) : List (Instr × BKind × Option (BitVec 8)) :=
  [(.cpy h t man a, .cpy, none), (.cpo h t man a, .cpo, none), (.cpbIn h t man a b, .cpbIn, some b), (.cpbOut h t man a b, .cpbOut, some b)]

/-- The matrix words with the registers that they write and read (Table 13.2). -/
def matrixForms (h : Hdr) (la : BitVec 4) (o : SlotH) (os : SlotPair) (t : TileH) (acc fs : BitVec 3) (sat : Bool) (hist : Option (BitVec 3))
    (d a : BitVec 8) : List (Instr × List (BitVec 8 × Nat) × List (BitVec 8 × Nat)) :=
  [(.xclaim h o, [], SlotH.src o), (.xrel h o, [], SlotH.src o), (.xfill h o t a fs, [], SlotH.src o ++ (a, 1) :: TileH.src t),
   (.xmac h sat acc os fs, [], SlotPair.src os), (.xwait h, [], []), (.xfence h, [], []), (.xclr h acc, [], []),
   (.xrd h la d acc a, [(d, 4)], [(a, 1)]), (.xst h a acc fs hist, [], [(a, 1)]), (.xhcfg h fs a, [], [(a, 1)]), (.xhrd h d fs a, [(d, 1)], [(a, 1)])]

/-- The word's operation enters an engine's queue, and no workgroup's record changes. -/
def Enters (i : Instr) (s : State) (is : Issue) (e : MEngine) (op : MKindOp) : Prop :=
  ∃ t, exec i s = .next t ∧ Queued s t is e op ∧ t.wgs = s.wgs

/-- What a far word asks for: its operation, its offset, the requests that it makes of the lanes' addresses, the source that each answers to, and the window
of each lane. -/
structure FarForm where
  i     : Instr
  needs : Needs
  op    : FarOp
  ofs   : Int
  asks  : List Nat → (Nat → Nat) → List FarAsk
  src   : FarAsk → FarSrc
  opens : Option (PendKind × BitVec 8 × Nat) := none

/-- The far words (R258-R261): a request for each line that a load or store names, and one for each lane of the others. -/
def farForms (s : State) (is : Issue) (h : Hdr) (la : BitVec 4) (wd : Width) (w2 : Width2) (op : Aop) (ty : Aty) (sw : Bool) (d a b c : BitVec 8)
    (mk : Option (BitVec 8)) (o10 : BitVec 10) (o9 : BitVec 9) : List FarForm :=
  let u := s.issueWord is
  let k := s.crew is.crew
  let n := Width.bytes wd
  let m := Width2.bytes w2
  let j := Width2.count w2
  let first := fun q : FarAsk => (q.lanes.head?.map (·.1)).getD 0
  [{ i := .ldf h la wd d a o10, needs := { dst := [(d, Width.count wd)], src := [(a, 2)] }, op := { op := .read, wd := wd }, ofs := o10.toInt,
     asks := fun act addr => asksByLine act addr (fun _ => ([], 0)),
     src := fun q => .loads is.crew (q.lanes.map (fun x => (x.1, s.nextId, x.2 % 64))), opens := some (.ldf, d, Width.count wd) },
   { i := .stf h wd a b mk o10, needs := { src := [(a, 2), (b, Width.count wd)] ++ (mk.map (·, 1)).toList }, op := { op := .write, wd := wd, acc := 1, src := 1 },
     ofs := o10.toInt, asks := fun act addr => asksByLine act addr (fun l => (rdBytes u k 1 l b n,
       match mk with | some r => (s.operand is 2 l r).toNat % 2 ^ n | none => 2 ^ n - 1)),
     src := fun q => .store is.crew (q.lanes.map (·.1)) },
   { i := .atomf h la op ty d a b o10, needs := { dst := [(d, 1)], src := [(a, 2), (b, 1)] }, op := { op := .atom, aop := op, aty := ty, acc := 2, src := 2 },
     ofs := o10.toInt, asks := fun act addr => asksByLane act addr (fun l => rdBytes u k 1 l b 4) (fun _ => 0),
     src := fun q => .atomic is.crew (first q) s.nextId, opens := some (.atomf, d, 1) },
   { i := .casf h la w2 d a b c o10, needs := { dst := [(d, j)], src := [(a, 2), (b, j), (c, j)] }, op := { op := .cas, wd := Width2.wide w2, acc := 2, src := 2 },
     ofs := o10.toInt, asks := fun act addr => asksByLane act addr (fun l => rdBytes u k 2 l c m) (fun l => BitVec.ofNat 64 (ofBytes (rdBytes u k 1 l b m))),
     src := fun q => .atomic is.crew (first q) s.nextId, opens := some (.atomf, d, j) },
   { i := .redf h op ty sw a b o9, needs := { src := [(a, 2), (b, 1)] }, op := { op := .red, aop := op, aty := ty, sw := sw, acc := 2, src := 1 },
     ofs := o9.toInt, asks := fun act addr => asksByLane act addr (fun l => rdBytes u k 1 l b 4) (fun _ => 0),
     src := fun q => .store is.crew (q.lanes.map (·.1)) },
   { i := .fflag h w2 a b o10, needs := { src := [(a, 2), (b, j)] }, op := { op := .flag, wd := Width2.wide w2, acc := 1, src := 1 }, ofs := o10.toInt,
     asks := fun act addr => asksByLane act addr (fun l => rdBytes u k 1 l b m) (fun _ => 0), src := fun q => .flag is.crew (first q) }]

/-- A source or a destination of a Wharf word as the one active lane gives it (R276). -/
def State.endOf (s : State) (is : Issue) (h : Hdr) (e : WEnd) (l : Nat) : Except Eff (WPlace × Nat × Option (Nat × Bool)) :=
  wharfEnd (s.issueWord is) (s.crew is.crew) (s.acting is h) e l

/-- The replica clock comes into the lane's clock (R287, R295). -/
def acquired (acq : Bool) (rc : Clock) (x : Lane) : Lane := if acq then { x with clock := Clock.merge rc x.clock } else x

/-- A context comes to the entry at an address: it runs, has fetched nothing of the entry yet, and the entry's first word is asked for (R46). `x` is the context
as it goes there. -/
structure EntryAt (s t : State) (c : CtxRef) (x : Ctx) (n : Nat) : Prop where
  ctx  : t.ctx c = { x with eptr := n, st := .running, words := [], held := none, made := none, stage := 0, pay := none }
  asks : (⟨.cp, s.worldNum c.vd, .cpWord c.ctx, s.t⟩ : Req) ∈ t.reqs
  kept : ∀ r ∈ s.reqs, r ∈ t.reqs
  rest : t = { s.setCtx c (t.ctx c) with reqs := t.reqs }

/-- The row runs and the context goes to an address. -/
def GoesTo (i : Instr) (s : State) (c : CtxRef) (x : Ctx) (n : Nat) : Prop := ∃ t, exec i s = .next t ∧ EntryAt s t c x n

/-- Row i is that of packet p coming from another package in LSEQ order (R253), and q is what it hands on. -/
def PacketRow (p : Packet) (i : Instr) (q : Packet) : Prop :=
  (i = .readPacket p ∧ q = { p with typ := .read }) ∨ (i = .writePacket p ∧ q = { p with typ := .write }) ∨ (i = .atomPacket p ∧ q = { p with typ := .atom }) ∨
  (i = .casPacket p ∧ q = { p with typ := .cas }) ∨ (i = .redPacket p ∧ q = { p with typ := .red }) ∨ (i = .flagPacket p ∧ q = { p with typ := .flag }) ∨
  (i = .closePacket p ∧ q = { p with typ := .close }) ∨ (i = .eager p ∧ q = { p with typ := .msg, kind := .eager }) ∨
  (i = .rts p ∧ q = { p with typ := .msg, kind := .rts }) ∨ (i = .pull p ∧ q = { p with typ := .msg, kind := .pull }) ∨
  (i = .data p ∧ q = { p with typ := .msg, kind := .data }) ∨ (i = .ack p ∧ q = { p with typ := .msg, kind := .ack }) ∨
  (i = .nack p ∧ q = { p with typ := .msg, kind := .nack })

/-- The rows of the admin commands (Table 25.2). -/
def AdminRow (i : Instr) : Prop :=
  (∃ a, i = .vdCreate a) ∨ (∃ v w, i = .schedule v w) ∨ (∃ v, i = .halt v) ∨ (∃ v, i = .resume v) ∨ (∃ o n a, i = .replace o n a) ∨ (∃ v, i = .teardown v) ∨
  (∃ c a, i = .ctxCreate c a) ∨ (∃ v m t, i = .ranks v m t) ∨ (∃ v f, i = .replay v f) ∨ (∃ v sc, i = .invalidate v sc) ∨ (∃ v a n, i = .counters v a n) ∨
  (∃ v a b, i = .snap v a b) ∨ (∃ v, i = .save v) ∨ (∃ r, i = .region r) ∨ (∃ n, i = .roll n) ∨ (∃ v a, i = .seal v a) ∨ (∃ n, i = .reseal n) ∨
  (∃ v b, i = .debugArm v b) ∨ (∃ v c, i = .debugComparators v c) ∨ (∃ v b, i = .debugStopWorld v b) ∨ (∃ v c, i = .debugStop v c) ∨
  (∃ v c, i = .debugStep v c) ∨ (∃ v c, i = .debugResume v c) ∨ (∃ v c, i = .debugRecordRead v c) ∨ (∃ v c r, i = .debugRecordWrite v c r) ∨
  i = .unfreezeMgmt ∨ (∃ c, i = .adminUnlistedCode c)

/-- The VDIDs that an admin command names (Table 25.2). -/
def namedVds : Instr → List Nat
  | .vdCreate a => [a.vdid]
  | .replace o n _ => [o, n]
  | .ctxCreate c _ => [c.vd]
  | .schedule v _ | .halt v | .resume v | .teardown v | .ranks v _ _ | .replay v _ | .invalidate v _ | .counters v _ _ | .snap v _ _ | .save v | .seal v _
  | .debugArm v _ | .debugComparators v _ | .debugStopWorld v _ | .debugStop v _ | .debugStep v _ | .debugResume v _ | .debugRecordRead v _
  | .debugRecordWrite v _ _ => [v]
  | _ => []

/-- The row is answered with a status and data once it may be (R348), in a state. -/
def Completes (i : Instr) (s t : State) (st : AStat) (data : List Byte) : Prop := exec i s = .next (t.complete (namedVds i) st data)

/-- The row is accepted in a state, its effect to come. -/
def Takes (i : Instr) (s t : State) (k : CmdKind) : Prop := exec i s = .next (t.takeCmd (namedVds i) k)

/-- The row is the end of an accepted command's effect, in a state, and the command is answered. -/
def Finishes (i : Instr) (s t : State) (k : CmdKind) (st : AStat) : Prop := exec i s = .next (t.finish k st)

/-- Every answer that may be written has been. -/
def Written (s : State) : Prop := writable s.cmds [] = ([], s.cmds)

/-- The row answers a master, in a state. -/
def Answers (i : Instr) (s t : State) (m : Master) (st : AStat) (data : List Byte) : Prop := exec i s = .next { t with outs := t.outs ++ [.reply m st data] }

/-! ### What a word needs (R82, R88, R23) -/

/-- The words whose own effect never traps or waits, for it is on registers and predicates alone, each with its header and what it needs. -/
def plainNeeds : Instr → Option (Hdr × Needs)
  | .iadd h d a b _ _ | .isub h d a b _ _ | .imul h d a b | .imulh h d a b _ | .imin h d a b _ | .imax h d a b _ | .iand h d a b | .ior h d a b
    | .ixor h d a b | .iandn h d a b | .bfx h d a b _ | .fmin h _ _ d a b | .fmax h _ _ d a b | .bscaleFold h _ d a b | .idiv h _ d a b _
    | .irem h _ d a b _ => some (h, { dst := [(d, 1)], src := [(a, 1), (b, 1)] })
  | .ineg h d a _ | .iabs h d a _ | .inot h d a | .popc h d a | .clz h d a | .ctz h d a | .brev h d a | .mov h d a | .movh h d a _
    | .fclass h _ _ d a | .frnd h _ _ _ d a | .bscale h _ d a => some (h, { dst := [(d, 1)], src := [(a, 1)] })
  | .imad h d a b c _ _ | .iclamp h d a b c _ | .bfi h d a b c => some (h, { dst := [(d, 1)], src := [(a, 1), (b, 1), (c, 1)] })
  | .iaddc h d a b ci co | .isubb h d a b ci co => some (h, { dst := [(d, 1)], src := [(a, 1), (b, 1)], preds := [ci], pdst := [co] })
  | .shl h d a k | .shr h d a k | .sar h d a k | .rotl h d a k
    | .rotr h d a k => some (h, { dst := [(d, 1)], src := (a, 1) :: (shiftSrc5 k).map (·, 1) })
  | .sel h d a b p => some (h, { dst := [(d, 1)], src := [(a, 1), (b, 1)], preds := [p] })
  | .movi h d _ => some (h, { dst := [(d, 1)] })
  | .icmp h _ _ pd a b pc | .fcmp h _ _ _ pd a b pc => some (h, { src := [(a, 1), (b, 1)], preds := [pc], pdst := [pd] })
  | .wcmp h _ _ pd a b pc => some (h, { src := [(a, 2), (b, 2)], preds := [pc], pdst := [pd] })
  | .wadd h d a b => some (h, { dst := [(d, 2)], src := [(a, 2), (b, 2)] })
  | .wshl h d a k => some (h, { dst := [(d, 2)], src := (a, 2) :: (shiftSrc6 k).map (·, 1) })
  | .waddi h d a _ => some (h, { dst := [(d, 2)], src := [(a, 2)] })
  | .wmad h d a b c _ => some (h, { dst := [(d, 2)], src := [(a, 1), (b, 1), (c, 2)] })
  | .pand h pd pa pb _ _ | .por h pd pa pb _ _ | .pxor h pd pa pb _ _ => some (h, { preds := [pa, pb], pdst := [pd] })
  | .pnot h pd pa _ | .vote h _ pd pa => some (h, { preds := [pa], pdst := [pd] })
  | .pset h a b => some (h, { src := [(a, 1), (b, 1)] })
  | .pget h d => some (h, { dst := [(d, 1)], preds := (List.range 12).map (BitVec.ofNat 4) })
  | .ballot h d pa => some (h, { dst := [(d, 1)], preds := [pa] })
  | .lperm h _ pv d a b => some (h, { dst := [(d, 1)], src := [(a, 1), (b, 1)], pdst := [pv] })
  | .cred h _ _ _ d a => some (h, { dst := [(d, 1)], src := [(a, 1)] })
  | .matchLanes h w d a => some (h, { dst := [(d, 1)], src := [(a, if w then 2 else 1)] })
  | .sget h d n => some (h, { dst := [(d, if specialWide n then 2 else 1)] })
  | _ => none

/-- Every word but the pair words, with its header and what it needs. -/
def wordNeeds : Instr → Option (Hdr × Needs)
  | .bra h _ | .jmark h _ | .join h _ | .exit h | .yield h | .nop h | .drain h | .trap h _ | .tret h _ | .brk h _ | .fence h _
    | .fencef h _ => some (h, {})
  | .call h d _ => some (h, { dst := [(d, 1)] })
  | .brx h a | .ret h a | .sset h a | .mcancel h a => some (h, { src := [(a, 1)] })
  | .callx h d a => some (h, { dst := [(d, 1)], src := [(a, 1)] })
  | .itake h d => some (h, { dst := [(d, 1)] })
  | .bcast h d a src => some (h, { dst := [(d, 1)], src := (a, 1) :: BcastSrc.src src })
  | .fadd h _ _ d a b | .fsub h _ _ d a b | .fmul h _ _ d a b | .pkadd h _ _ d a b | .pkmul h _ _ d a b | .nq h _ _ d a b
    | .nx h _ _ d a b => some (h, { dst := [(d, 1)], src := [(a, 1), (b, 1)] })
  | .ffma h _ _ d a b c | .pkfma h _ _ d a b c => some (h, { dst := [(d, 1)], src := [(a, 1), (b, 1), (c, 1)] })
  | .cvt h _ _ _ d a | .nqFs h _ d a | .nxFs h _ _ d a | .frcp h _ _ _ d a | .frsq h _ _ _ d a | .fsqrt h _ _ _ d a | .fex2 h _ _ _ d a
    | .flg2 h _ _ _ d a | .fsin h _ _ _ d a | .fcos h _ _ _ d a | .ftanh h _ _ _ d a => some (h, { dst := [(d, 1)], src := [(a, 1)] })
  | .ld h _ _ wd d a _ => some (h, { dst := [(d, Width.count wd)], src := [(a, 1)] })
  | .st h _ wd a b _ => some (h, { src := [(a, 1), (b, Width.count wd)] })
  | .atom h _ _ _ _ d a b _ | .kfaa h _ _ d a b _ => some (h, { dst := [(d, 1)], src := [(a, 1), (b, 1)] })
  | .cas h _ _ wd d a b c _ => some (h, { dst := [(d, Width2.count wd)], src := [(a, 1), (b, Width2.count wd), (c, Width2.count wd)] })
  | .tset h _ t a b => some (h, { src := [(a, 1), (b, 1)] ++ TileH.src t })
  | .tdrain h t | .tfree h t | .twait h t => some (h, { src := TileH.src t })
  | .tstat h m d t => some (h, { dst := [(d, if m then 2 else 1)], src := TileH.src t })
  | .cwait h t a => some (h, { src := (a, 2) :: TileH.src t })
  | .bar h m => some (h, { src := MusterH.src m })
  | .barv h d m => some (h, { dst := [(d, 1)], src := MusterH.src m })
  | .barw h m a => some (h, { src := (a, 1) :: MusterH.src m })
  | .cpy h t _ a | .cpo h t _ a => some (h, bargeNeeds t a none)
  | .cpbIn h t _ a b | .cpbOut h t _ a b => some (h, bargeNeeds t a (some b))
  | .cpreWarm h _ a | .cpreMig h _ a => some (h, { group := [(a, 5)], banks := [a], role := some 2 })
  | .xclaim h o | .xrel h o => some (h, { src := SlotH.src o, role := some 1 })
  | .xfill h o t b _ => some (h, { src := SlotH.src o ++ (b, 1) :: TileH.src t, role := some 1 })
  | .xmac h _ _ os _ => some (h, { src := SlotPair.src os, role := some 1 })
  | .xwait h | .xfence h | .xclr h _ => some (h, { role := some 1 })
  | .xrd h _ d _ a => some (h, { dst := [(d, 4)], src := [(a, 1)], role := some 1 })
  | .xst h a _ _ _ | .xhcfg h _ a => some (h, { src := [(a, 1)], role := some 1 })
  | .xhrd h d _ a => some (h, { dst := [(d, 1)], src := [(a, 1)], role := some 1 })
  | .ldf h _ wd d a _ => some (h, { dst := [(d, Width.count wd)], src := [(a, 2)] })
  | .stf h wd a b mk _ => some (h, { src := [(a, 2), (b, Width.count wd)] ++ (mk.map (·, 1)).toList })
  | .atomf h _ _ _ d a b _ => some (h, { dst := [(d, 1)], src := [(a, 2), (b, 1)] })
  | .casf h _ wd d a b c _ => some (h, { dst := [(d, Width2.count wd)], src := [(a, 2), (b, Width2.count wd), (c, Width2.count wd)] })
  | .redf h _ _ _ a b _ => some (h, { src := [(a, 2), (b, 1)] })
  | .fflag h wd a b _ => some (h, { src := [(a, 2), (b, Width2.count wd)] })
  | .msend h _ d a b e => some (h, WEnd.needs e d [(a, 1), (b, 2)])
  | .mpost h _ _ d a b e => some (h, WEnd.needs e d [(a, 2), (b, 2)])
  | .mprobe h _ d a b => some (h, { dst := [(d, 2)], src := [(a, 1), (b, 2)] })
  | .mtest h _ d a | .mwait h d a => some (h, { dst := [(d, 2)], src := [(a, 1)] })
  | .kst h _ wd a b _ => some (h, { src := [(a, 1), (b, Width2.count wd)] })
  | .kld h _ wd d a _ => some (h, { dst := [(d, Width2.count wd)], src := [(a, 1)] })
  | .kwait h _ _ _ a b c _ => some (h, { src := [(a, 1), (b, 1), (c, 1)] })
  | i => plainNeeds i

/-- The bytes that a near write may race with (log 10) are left out: what engines and messages have under way, without the bytes that they hold or will write. -/
def State.untorn (s : State) : State :=
  let blank (bs : List Byte) : List Byte := bs.map (fun _ => 0)
  let op (o : MOp) : MOp := { o with bytes := blank o.bytes, torn := [] }
  let msg (m : Msg) : Msg := { m with bytes := blank m.bytes }
  let arrival (i : WIn) : WIn := match i with | .arrive p => .arrive { p with data := blank p.data } | x => x
  let vd (d : Vd) : Vd := { d with
    txs := d.txs.map (fun (x : Tx) => { x with bytes := blank x.bytes, buf := x.buf.map (fun b => (b.1, 0)) }), unexp := d.unexp.map msg,
    rxs := d.rxs.map (fun (r : Rx) => { r with msg := msg r.msg, torn := [] }), inq := d.inq.map arrival }
  { s with
    mats := s.mats.map (fun (u : MUnit) => { u with fillQ := u.fillQ.map op, arrQ := u.arrQ.map op }),
    bargeRs := s.bargeRs.map (fun (r : BReq) => { r with torn := [] }), vds := s.vds.map vd,
    reqs := s.reqs.map (fun (r : Req) => match r.item with | .send p => { r with item := .send { p with data := blank p.data } } | _ => r) }

/-! ### Memories and runs -/

/-- Every memory of the package is in its canonical form (log 5, log 6). -/
def State.memoryOk (s : State) : Bool :=
  s.mem.wf && s.basins.all Memory.wf && s.near.all (fun p => Cells.wf p.2) && s.spill.all (fun p => Cells.wf p.2) && s.vds.all (fun d => d.cells.wf)

/-- n steps of the package. -/
def State.steps : Nat → State → Option State
  | 0, s => some s
  | n + 1, s => match step s with
    | .next t => State.steps n t
    | .fault _ => none
    | .refused _ => none

/-- A safe run: it does not stop, and its memories stay canonical. -/
def State.SafeFor (s : State) (n : Nat) : Prop := ∀ k ≤ n, ∃ t, s.steps k = some t ∧ t.memoryOk = true

end Sys2Proof.Machine
end

