-- ==== Sys2Proof/WellFormed.lean ====
section
/-! DEFINITION. Well-formed instruction words: the guard is one that R79 allows, the operands are those that the instruction's own
description allows, and both halves of a pair word use their fields as Table 5.8 lays down. -/
namespace Sys2Proof

/-- The guard fields of a full word; a row that is no full word has none. -/
def Instr.guard? (i : Instr) : Option Hdr := (encodeWord i).bind (fun w => if w.msb then none else some (FmtA.ofWord w).hdr)

/-- The second half of a pair word. -/
def Instr.secondHalf? (i : Instr) : Option Half := (encodeWord i).bind (fun w => if w.msb then halfOf (w.extractLsb' 0 31) else none)

/-- Is the row an instruction word of Rosyn? -/
def Instr.isWord (i : Instr) : Bool := (encodeWord i).isSome

/-- Well-formed: what the decoder of Decode.lean can give. Rows that are no words are well-formed whatever they carry. -/
def WellFormed (i : Instr) : Bool :=
  operandsOk i
    && (match i.guard? with | some h => hdrOk h | none => true)
    && (match i.secondHalf? with | some h => h.ok | none => true)

end Sys2Proof
end

