-- ==== Sys2Proof/Certificates/Slice0/Obligations.lean ====
section
/-! DEFINITION. The statements about the machine. Each docstring cites the rules of the manual that the statement formalises; where a clause rests on a choice
of the model, it names the log entry. -/
open Sys2Proof Sys2Proof.Machine

/-! ### Steps, decoding, memory -/

/-- R95, R105, R109; log 2: while a packet is in progress and its word has not issued, the step runs the instruction that the word at the path's place decodes
to (exec says what it does, the program counters among it); a word that does not decode traps with the code of the encoding class. Log 2: with no packet in progress, the first agenda row whose clock has come is run, taken off the agenda; the late rows of a clock wait for its turns and its near writes. Log 4: a word placed for the next fetch is the one that the very next step runs, whatever state it is placed in. -/
def Obligations.StepRunsWhatIsDue : Prop :=
  (∀ (s : State) (is : Issue) (w : DWord), s.power = .on → s.issue = some is → is.spent = false → s.fetch is.crew is.at.toNat = .word w →
    (∀ i, decodeWord w = .ok i → step s = exec i s) ∧
    (decodeWord w = .error .illegalOpcode → step s = .next (s.trapPath is tcIllegalOpcode 0)) ∧
    (decodeWord w = .error .illegalEncoding → step s = .next (s.trapPath is tcIllegalEncoding 0))) ∧
  (∀ (s : State) (a : Nat) (i : Instr) (rest : List (Nat × Instr)), s.issue = none → s.agenda = (a, i) :: rest → a ≤ s.t →
    (s.power = .on → Instr.rank i < 2 → step s = exec i { s with agenda := rest }) ∧
    (s.power = .on → s.probed = true → s.turns = [] → s.xstDue = none → step s = exec i { s with agenda := rest }) ∧
    (s.power ≠ .on → Instr.wakes s.power i = true → step s = exec i { s with agenda := rest }) ∧
    (s.power ≠ .on → Instr.wakes s.power i = false → step s = .next { s with agenda := rest })) ∧
  (∀ (s : State) (nbits w : Nat) (i : Instr), decodeWord (BitVec.ofNat 64 (w % 2 ^ nbits)) = .ok i →
    step (s.withFetchWord nbits w) = exec i (s.withFetchWord nbits w))

/-- Words written out from the manual's own encodings (R121, R133, R137 and Table 5.4) decode to the instructions that they stand for; a word of a reserved
opcode, and one with a reserved bit set, do not decode. -/
def Obligations.DecodedWordsOfTheManual : Prop :=
  decodeWord 0x000C000000018000 = .ok (.bra ⟨12, false⟩ 3) ∧
  decodeWord 0x010C000300000000 = .ok (.brx ⟨12, false⟩ 6) ∧
  decodeWord 0x020C00000002801E = .ok (.call ⟨12, false⟩ 30 5) ∧
  decodeWord 0x030C0F0300000000 = .ok (.callx ⟨12, false⟩ 30 6) ∧
  decodeWord 0x050C008000000000 = .ok (.jmark ⟨12, false⟩ 1) ∧
  decodeWord 0x0A0C020000000000 = .ok (.itake ⟨12, false⟩ 4) ∧
  decodeWord 0x110C020304008200 = .ok (.iaddc ⟨12, false⟩ 4 6 8 1 2) ∧
  decodeWord 0x240C008203860500 = .ok (.icmp ⟨12, false⟩ .ge false 1 4 7 12) ∧
  decodeWord 0x090C000000000001 = .error .illegalEncoding ∧
  decodeWord 0x7F0C000000000000 = .error .illegalOpcode

/-- R77-R94: for every well-formed instruction word, decoding its encoding gives it back, with every operand at every value that the encoding admits. R83, R94: a word that decodes is the encoding of what it decodes to, so every reserved bit of it is as the manual says. -/
def Obligations.EncodingAndDecodingAgree : Prop :=
  (∀ (i : Instr) (w : DWord), WellFormed i = true → encodeWord i = some w → decodeWord w = .ok i) ∧
  (∀ (i : Instr) (w : DWord), decodeWord w = .ok i → encodeWord i = some w)

/-- Every row of the opcode table runs in every state: no instruction ends in a refusal or a fault. -/
def Obligations.EveryRowAnswersANextState : Prop :=
  ∀ (i : Instr) (s : State), ∃ t, exec i s = .next t

/-- A step changes no memory of the package out of its canonical form (log 5, log 6): HBM, the Basins, the near stores, the spill stacks and the kite cells of every VD. -/
def Obligations.StepKeepsMemoriesCanonical : Prop :=
  ∀ (s t : State), s.memoryOk = true → step s = .next t → t.memoryOk = true

/-- The state after reset has every memory in its canonical form. R352, R353, R280: after reset power is off and the boot is due at clock 0; no virtual device, grid, crew or translation exists; the fuses are unburnt, and
member 0 holds every token. Once the boot has run, power is on, KeyID 0 alone is installed, neither port is frozen and no VD is created. -/
def Obligations.ResetState : Prop :=
  (State.reset.memoryOk = true) ∧
  (State.reset.power = .off ∧ State.reset.agenda = [(0, .boot)] ∧ State.reset.vds = [] ∧ State.reset.grids = [] ∧ State.reset.crews = [] ∧
  State.reset.wgs = [] ∧ State.reset.tlbs = [] ∧ State.reset.mem = [] ∧ State.reset.fuses = List.replicate 64 (false, false) ∧
  State.reset.tokens = List.replicate 16 0 ∧
  ∃ t, step State.reset = .next t ∧ t.power = .on ∧ (∀ k ∈ t.keys, k.st ≠ .free ↔ k.id = 0) ∧ t.frzMgmt = none ∧
    t.frzHost = none ∧ t.vds.all (fun d => !d.created) = true)

/-! ### Whole numbers, logic, comparison -/

/-- R131, R132: iadd, isub, imul, imulh, imad, imin, imax, iclamp, ineg and iabs write their exact result, wrapped or saturated, in the active lanes and
nothing else. R131: what `finish` is: reduction modulo 2^32, or clamping to the range that U names. -/
def Obligations.ArithmeticWords : Prop :=
  (∀ (s : State) (is : Issue) (h : Hdr) (d a b c : BitVec 8) (sat u : Bool),
    let A := fun l => s.operand is 0 l a
    let B := fun l => s.operand is 1 l b
    let C := fun l => s.operand is 2 l c
    (Ready s is h { dst := [(d, 1)], src := [(a, 1)] } →
      GivesReg (.ineg h d a sat) s is h d (fun l => finish sat false (-(A l).toInt)) ∧
      GivesReg (.iabs h d a sat) s is h d (fun l => finish sat false ((A l).toInt.natAbs))) ∧
    (Ready s is h { dst := [(d, 1)], src := [(a, 1), (b, 1)] } →
      GivesReg (.iadd h d a b sat u) s is h d (fun l => finish sat u (ival u (A l) + ival u (B l))) ∧
      GivesReg (.isub h d a b sat u) s is h d (fun l => finish sat u (ival u (A l) - ival u (B l))) ∧
      GivesReg (.imul h d a b) s is h d (fun l => A l * B l) ∧
      GivesReg (.imulh h d a b u) s is h d (fun l => wrap ((ival u (A l) * ival u (B l)).fdiv (2 ^ 32))) ∧
      GivesReg (.imin h d a b u) s is h d (fun l => if ival u (A l) ≤ ival u (B l) then A l else B l) ∧
      GivesReg (.imax h d a b u) s is h d (fun l => if ival u (B l) ≤ ival u (A l) then A l else B l)) ∧
    (Ready s is h { dst := [(d, 1)], src := [(a, 1), (b, 1), (c, 1)] } →
      GivesReg (.imad h d a b c sat u) s is h d (fun l => finish sat u (ival u (A l) * ival u (B l) + ival u (C l))) ∧
      GivesReg (.iclamp h d a b c u) s is h d (fun l =>
        if ival u (C l) < max (ival u (A l)) (ival u (B l)) then C l else if ival u (A l) < ival u (B l) then B l else A l))) ∧
  (∀ (u : Bool) (x : Int),
    (finish false u x = BitVec.ofInt 32 x) ∧
    (ival u (finish true u x) = if u then (if x < 0 then 0 else if 2 ^ 32 ≤ x then 2 ^ 32 - 1 else x)
      else (if x < -(2 ^ 31) then -(2 ^ 31) else if 2 ^ 31 ≤ x then 2 ^ 31 - 1 else x)))

/-- R133: iaddc and isubb write the wrapped sum or difference to vD and the carry or borrow to pO; the carry-in is read first, so both may be one predicate. -/
def Obligations.CarryWordsChain : Prop :=
  ∀ (s : State) (is : Issue) (h : Hdr) (d a b : BitVec 8) (ci co : BitVec 4), co.toNat < 12 →
    Ready s is h { dst := [(d, 1)], src := [(a, 1), (b, 1)], preds := [ci], pdst := [co] } →
    let A := fun l => ((s.operand is 0 l a).toNat : Int)
    let B := fun l => ((s.operand is 1 l b).toNat : Int)
    let K := fun l => ((predRead ((s.crew is.crew).lane l) ci).toNat : Int)
    (∃ t, exec (.iaddc h d a b ci co) s = .next t ∧ LanesOnly s t is (s.acting is h) (fun l x y => ∃ z,
      WritesReg d.toNat (wrap (A l + B l + K l)) x z ∧ WritesPred co.toNat (decide (2 ^ 32 ≤ A l + B l + K l)) z y)) ∧
    (∃ t, exec (.isubb h d a b ci co) s = .next t ∧ LanesOnly s t is (s.acting is h) (fun l x y => ∃ z,
      WritesReg d.toNat (wrap (A l - B l - K l)) x z ∧ WritesPred co.toNat (decide (A l - B l - K l < 0)) z y))

/-- R113, R134: idiv and irem open a window of LA words in every active lane; the quotient towards zero, or the remainder, is due 32 clk after issue; a zero
divisor and the one overflow give Table 7.3's values. -/
def Obligations.DivisionsOpenAWindow : Prop :=
  ∀ (s : State) (is : Issue) (h : Hdr) (la : BitVec 4) (d a b : BitVec 8) (u : Bool), Ready s is h { dst := [(d, 1)], src := [(a, 1), (b, 1)] } →
    let A := fun l => s.operand is 0 l a
    let B := fun l => s.operand is 1 l b
    (∃ t, exec (.idiv h la d a b u) s = .next t ∧ OpensFixed s t is (s.acting is h) .alu la d.toNat 32 (fun l =>
      [if B l = 0 then 0xFFFFFFFF else if u = false ∧ A l = 0x80000000 ∧ B l = 0xFFFFFFFF then 0x80000000 else wrap ((ival u (A l)).tdiv (ival u (B l)))])) ∧
    (∃ t, exec (.irem h la d a b u) s = .next t ∧ OpensFixed s t is (s.acting is h) .alu la d.toNat 32 (fun l =>
      [if B l = 0 then A l else if u = false ∧ A l = 0x80000000 ∧ B l = 0xFFFFFFFF then 0 else wrap ((ival u (A l)).tmod (ival u (B l)))]))

/-- R135: the logic words, sel, mov, movi and movh. R135: shifts by the whole count, from a register or the word; 32 or more gives 0, or the sign; rotations go by k mod 32. -/
def Obligations.LogicMoveAndShiftWords : Prop :=
  (∀ (s : State) (is : Issue) (h : Hdr) (d a b : BitVec 8) (p : BitVec 4) (imm : BitVec 31) (hi : BitVec 16),
    let A := fun l => s.operand is 0 l a
    let B := fun l => s.operand is 1 l b
    (Ready s is h { dst := [(d, 1)], src := [] } → GivesReg (.movi h d imm) s is h d (fun _ => BitVec.ofInt 32 imm.toInt)) ∧
    (Ready s is h { dst := [(d, 1)], src := [(a, 1)] } →
      GivesReg (.mov h d a) s is h d A ∧
      GivesReg (.inot h d a) s is h d (fun l => ~~~ A l) ∧
      GivesReg (.movh h d a hi) s is h d (fun l => BitVec.ofNat 32 (hi.toNat * 2 ^ 16) + (A l &&& 0xFFFF))) ∧
    (Ready s is h { dst := [(d, 1)], src := [(a, 1), (b, 1)] } →
      GivesReg (.iand h d a b) s is h d (fun l => A l &&& B l) ∧
      GivesReg (.ior h d a b) s is h d (fun l => A l ||| B l) ∧
      GivesReg (.ixor h d a b) s is h d (fun l => A l ^^^ B l) ∧
      GivesReg (.iandn h d a b) s is h d (fun l => A l &&& ~~~ B l)) ∧
    (Ready s is h { dst := [(d, 1)], src := [(a, 1), (b, 1)], preds := [p] } →
      GivesReg (.sel h d a b p) s is h d (fun l => if predRead ((s.crew is.crew).lane l) p then A l else B l))) ∧
  (∀ (s : State) (is : Issue) (h : Hdr) (d a : BitVec 8) (k : Shift5), Ready s is h { dst := [(d, 1)], src := (a :: shiftSrc5 k).map (·, 1) } →
    let A := fun l => s.operand is 0 l a
    let K := shiftCount s is k
    GivesReg (.shl h d a k) s is h d (fun l => BitVec.ofNat 32 ((A l).toNat * 2 ^ K l)) ∧
    GivesReg (.shr h d a k) s is h d (fun l => BitVec.ofNat 32 ((A l).toNat / 2 ^ K l)) ∧
    GivesReg (.sar h d a k) s is h d (fun l => BitVec.ofInt 32 ((A l).toInt / 2 ^ min (K l) 31)) ∧
    GivesReg (.rotl h d a k) s is h d (fun l => (A l).rotateLeft (K l % 32)) ∧
    GivesReg (.rotr h d a k) s is h d (fun l => (A l).rotateRight (K l % 32)))

/-- R135, R136: bit counts, bit reversal and bit fields. -/
def Obligations.BitWords : Prop :=
  ∀ (s : State) (is : Issue) (h : Hdr) (d a b c : BitVec 8) (u : Bool),
    let A := fun l => s.operand is 0 l a
    let B := fun l => s.operand is 1 l b
    let C := fun l => s.operand is 2 l c
    (Ready s is h { dst := [(d, 1)], src := [(a, 1)] } →
      (∃ t, exec (.popc h d a) s = .next t ∧ LanesOnly s t is (s.acting is h) (fun l x y => ∃ v, WritesReg d.toNat v x y ∧
        v.toNat = ((List.range 32).filter (fun i => (A l).getLsbD i)).length)) ∧
      (∃ t, exec (.clz h d a) s = .next t ∧ LanesOnly s t is (s.acting is h) (fun l x y => ∃ v, WritesReg d.toNat v x y ∧ v.toNat ≤ 32 ∧
        (∀ i < v.toNat, (A l).getLsbD (31 - i) = false) ∧ (v.toNat < 32 → (A l).getLsbD (31 - v.toNat) = true))) ∧
      (∃ t, exec (.ctz h d a) s = .next t ∧ LanesOnly s t is (s.acting is h) (fun l x y => ∃ v, WritesReg d.toNat v x y ∧ v.toNat ≤ 32 ∧
        (∀ i < v.toNat, (A l).getLsbD i = false) ∧ (v.toNat < 32 → (A l).getLsbD v.toNat = true))) ∧
      (∃ t, exec (.brev h d a) s = .next t ∧ LanesOnly s t is (s.acting is h) (fun l x y => ∃ v, WritesReg d.toNat v x y ∧
        ∀ i < 32, v.getLsbD i = (A l).getLsbD (31 - i)))) ∧
    (Ready s is h { dst := [(d, 1)], src := [(a, 1), (b, 1)] } →
      GivesReg (.bfx h d a b u) s is h d (fun l =>
        let p := min ((B l).toNat % 256) 32
        let n := min ((B l).toNat / 256 % 256) 32
        let f := (A l).toNat / 2 ^ p % 2 ^ n
        if u = false ∧ 1 ≤ n ∧ 2 ^ (n - 1) ≤ f then BitVec.ofInt 32 ((f : Int) - 2 ^ n) else BitVec.ofNat 32 f)) ∧
    (Ready s is h { dst := [(d, 1)], src := [(a, 1), (b, 1), (c, 1)] } →
      GivesReg (.bfi h d a b c) s is h d (fun l =>
        let p := min ((C l).toNat % 256) 32
        let n := min ((C l).toNat / 256 % 256) 32
        let m := BitVec.ofNat 32 ((2 ^ n - 1) * 2 ^ p)
        (A l &&& ~~~m) ||| (BitVec.ofNat 32 ((B l).toNat * 2 ^ p) &&& m)))

/-- R137, R138: comparisons write the condition, ANDed with pC, to a predicate. R138: the 64-bit words write both halves of a pair, modulo 2^64. -/
def Obligations.ComparisonAndWideWords : Prop :=
  (∀ (s : State) (is : Issue) (h : Hdr) (cc : Cond) (u : Bool) (pd : BitVec 4) (a b : BitVec 8) (pc : BitVec 4), pd.toNat < 12 →
    let P := fun l => predRead ((s.crew is.crew).lane l) pc = true
    (Ready s is h { src := [(a, 1), (b, 1)], preds := [pc], pdst := [pd] } → ∃ t, exec (.icmp h cc u pd a b pc) s = .next t ∧ LanesOnly s t is (s.acting is h) (fun l x y =>
      ∃ v, WritesPred pd.toNat v x y ∧ (v = true ↔ condOf cc (ival u (s.operand is 0 l a)) (ival u (s.operand is 1 l b)) ∧ P l))) ∧
    (Ready s is h { src := [(a, 2), (b, 2)], preds := [pc], pdst := [pd] } → ∃ t, exec (.wcmp h cc u pd a b pc) s = .next t ∧ LanesOnly s t is (s.acting is h) (fun l x y =>
      ∃ v, WritesPred pd.toNat v x y ∧ (v = true ↔ condOf cc (ival64 u (s.operand64 is 0 l a)) (ival64 u (s.operand64 is 1 l b)) ∧ P l)))) ∧
  (∀ (s : State) (is : Issue) (h : Hdr) (d a b c : BitVec 8) (u : Bool) (n : BitVec 6) (imm : BitVec 31),
    let A := fun l => s.operand64 is 0 l a
    (Ready s is h { dst := [(d, 2)], src := [(a, 2), (b, 2)] } → GivesPair (.wadd h d a b) s is h d (fun l => A l + s.operand64 is 1 l b)) ∧
    (Ready s is h { dst := [(d, 2)], src := [(a, 2), (b, 1)] } →
      GivesPair (.wshl h d a (.reg b)) s is h d (fun l => BitVec.ofNat 64 ((A l).toNat * 2 ^ (s.operand is 1 l b).toNat))) ∧
    (Ready s is h { dst := [(d, 2)], src := [(a, 2)] } →
      GivesPair (.wshl h d a (.imm n)) s is h d (fun l => BitVec.ofNat 64 ((A l).toNat * 2 ^ n.toNat)) ∧
      GivesPair (.waddi h d a imm) s is h d (fun l => BitVec.ofInt 64 ((A l).toNat + imm.toInt))) ∧
    (Ready s is h { dst := [(d, 2)], src := [(a, 1), (b, 1), (c, 2)] } →
      GivesPair (.wmad h d a b c u) s is h d (fun l =>
        BitVec.ofInt 64 (ival u (s.operand is 0 l a) * ival u (s.operand is 1 l b) + (s.operand64 is 2 l c).toNat))))

/-! ### Predicates, lanes, special registers -/

/-- R139, R140, R142: the predicate words, pset, pget, vote and ballot. -/
def Obligations.PredicateWords : Prop :=
  ∀ (s : State) (is : Issue) (h : Hdr) (pd pa pb : BitVec 4) (na nb : Bool) (d a b : BitVec 8) (mode : VoteMode), pd.toNat < 12 →
    let P := fun l => predRead ((s.crew is.crew).lane l) pa
    let X := fun l => (predRead ((s.crew is.crew).lane l) pa).xor na
    let Y := fun l => (predRead ((s.crew is.crew).lane l) pb).xor nb
    (Ready s is h { preds := [pa, pb], pdst := [pd] } →
      GivesPred (.pand h pd pa pb na nb) s is h pd (fun l => X l && Y l) ∧
      GivesPred (.por h pd pa pb na nb) s is h pd (fun l => X l || Y l) ∧
      GivesPred (.pxor h pd pa pb na nb) s is h pd (fun l => (X l).xor (Y l))) ∧
    (Ready s is h { preds := [pa], pdst := [pd] } →
      GivesPred (.pnot h pd pa na) s is h pd (fun l => !X l) ∧
      GivesPred (.vote h mode pd pa) s is h pd (fun _ => match mode with
        | .any => decide (∃ l ∈ s.acting is h, P l = true)
        | .all => decide (∀ l ∈ s.acting is h, P l = true)
        | .eq => decide (∀ l ∈ s.acting is h, ∀ m ∈ s.acting is h, P l = P m))) ∧
    (Ready s is h { dst := [(d, 1)], preds := (List.range 12).map (BitVec.ofNat 4) } →
      GivesReg (.pget h d) s is h d (fun l => ((s.crew is.crew).lane l).preds.setWidth 32)) ∧
    (Ready s is h { dst := [(d, 1)], preds := [pa] } →
      (∃ t, exec (.ballot h d pa) s = .next t ∧ LanesOnly s t is (s.acting is h) (fun _ x y => ∃ v, WritesReg d.toNat v x y ∧
        ∀ m < 32, v.getLsbD m = decide (m ∈ s.acting is h ∧ P m = true)))) ∧
    (Ready s is h { src := [(a, 1), (b, 1)] } →
      ∃ t, exec (.pset h a b) s = .next t ∧ LanesOnly s t is (s.acting is h) (fun l x y => y = { x with preds := y.preds } ∧
        ∀ k < 12, y.preds.getLsbD k = if (s.operand is 1 l b).getLsbD k then (s.operand is 0 l a).getLsbD k else x.preds.getLsbD k))

/-- R141, R143-R146: lperm, bcast, cred and match read the participants as they stood, and write the participants alone. A read of another lane's register is
one of its own (R114; log 7: operand field 8 + L for reader L). -/
def Obligations.LaneWords : Prop :=
  ∀ (s : State) (is : Issue) (h : Hdr) (d a b : BitVec 8) (u scan : Bool) (mode : PermMode) (pv : BitVec 4) (op : CredOp),
    let V := fun l m => s.operand is (8 + l) m a
    (Ready s is h { dst := [(d, 1)], src := [(a, 1), (b, 1)], pdst := [pv] } →
      let src := fun l => permLane mode l (s.operand is 1 l b).toNat
      let ok := fun l => decide (0 ≤ src l ∧ src l ≤ 7 ∧ (src l).toNat ∈ s.acting is h)
      let val := fun l => V l (if ok l then (src l).toNat else l)
      (pv = 15 → GivesReg (.lperm h mode pv d a b) s is h d val) ∧
      (pv.toNat < 12 → ∃ t, exec (.lperm h mode pv d a b) s = .next t ∧ LanesOnly s t is (s.acting is h) (fun l x y => ∃ z,
        WritesReg d.toNat (val l) x z ∧ WritesPred pv.toNat (ok l) z y))) ∧
    (Ready s is h { dst := [(d, 1)], src := [(a, 1), (b, 1)] } →
      (∀ n, uniform ((s.acting is h).map (fun l => (s.operand is 1 l b).toNat)) = some n → n ∈ s.acting is h →
        GivesReg (.bcast h d a (.reg b)) s is h d (fun l => V l n)) ∧
      (∀ n, uniform ((s.acting is h).map (fun l => (s.operand is 1 l b).toNat)) = some n → n ∉ s.acting is h →
        Traps (.bcast h d a (.reg b)) s is tcHandle (BitVec.ofNat 64 n)) ∧
      (s.acting is h ≠ [] → uniform ((s.acting is h).map (fun l => (s.operand is 1 l b).toNat)) = none →
        Traps (.bcast h d a (.reg b)) s is tcNonuniform 0)) ∧
    (Ready s is h { dst := [(d, 1)], src := [(a, 1)] } →
      (∀ n, (s.acting is h).head? = some n → GivesReg (.bcast h d a .first) s is h d (fun l => V l n)) ∧
      (∀ n : BitVec 3, n.toNat ∈ s.acting is h → GivesReg (.bcast h d a (.imm n)) s is h d (fun l => V l n.toNat)) ∧
      (∀ n : BitVec 3, s.acting is h ≠ [] → n.toNat ∉ s.acting is h → Traps (.bcast h d a (.imm n)) s is tcHandle (BitVec.ofNat 64 n.toNat)) ∧
      GivesReg (.cred h op scan u d a) s is h d (fun l =>
        credResult op u (((s.acting is h).filter (fun m => !scan || decide (m ≤ l))).map (V l))) ∧
      (∃ t, exec (.matchLanes h false d a) s = .next t ∧ LanesOnly s t is (s.acting is h) (fun l x y => ∃ v, WritesReg d.toNat v x y ∧
        ∀ m < 32, v.getLsbD m = decide (m ∈ s.acting is h ∧ V l m = V l l)))) ∧
    (Ready s is h { dst := [(d, 1)], src := [(a, 2)] } →
      ∃ t, exec (.matchLanes h true d a) s = .next t ∧ LanesOnly s t is (s.acting is h) (fun l x y => ∃ v, WritesReg d.toNat v x y ∧
        ∀ m < 32, v.getLsbD m = decide (m ∈ s.acting is h ∧ s.operand64 is (8 + l) m a = s.operand64 is (8 + l) l a)))

/-- R110, R147, R148: sget gives the special register's value at the clock of issue, both halves of a 64-bit one; sset writes bits [7:0] of a uniform source to
%fair and nothing else, and traps NONUNIFORM where they differ. R147, R148, Table 7.6: what the special registers of a lane, its crew, its workgroup and its grid read; %fair reads 0 above bit 7, and the trap registers
are those that taking a trap wrote. -/
def Obligations.SpecialRegisters : Prop :=
  (∀ (s : State) (is : Issue) (h : Hdr) (d n a : BitVec 8),
    let F := (s.acting is h).map (fun l => (s.operand is 0 l a).toNat % 256)
    (n ∈ [0x06, 0x07, 0x08, 0x11, 0x1A] → Ready s is h { dst := [(d, 2)] } →
      GivesPair (.sget h d n) s is h d (fun l => s.special is.crew l n.toNat)) ∧
    (n ∉ [0x06, 0x07, 0x08, 0x11, 0x1A] → Ready s is h { dst := [(d, 1)] } →
      GivesReg (.sget h d n) s is h d (fun l => (s.special is.crew l n.toNat).setWidth 32)) ∧
    (Ready s is h { src := [(a, 1)] } → s.acting is h ≠ [] →
      (uniform F = none → Traps (.sset h a) s is tcNonuniform 0) ∧
      (∀ f, uniform F = some f → ∃ t, exec (.sset h a) s = .next t ∧
        t.crew is.crew = { (s.issueWord is).crew is.crew with fair := BitVec.ofNat 8 f } ∧ t = { s.issueWord is with crews := t.crews } ∧
        ∀ c, c ≠ is.crew → t.crew c = s.crew c))) ∧
  (∀ (s : State) (c l : Nat),
    let g := s.gridOf c
    s.special c l 0x00 = BitVec.ofNat 64 l ∧ s.special c l 0x01 = BitVec.ofNat 64 (s.crew c).num ∧ s.special c l 0x02 = BitVec.ofNat 64 (s.wgOf c).num ∧
    s.special c l 0x06 = BitVec.ofNat 64 g.gx ∧ s.special c l 0x09 = BitVec.ofNat 64 (s.crew c).core ∧ s.special c l 0x0A = BitVec.ofNat 64 (s.crew c).part ∧
    s.special c l 0x0C = BitVec.ofNat 64 s.pkg ∧ s.special c l 0x0D = BitVec.ofNat 64 (s.pkg / 2 ^ 4) ∧ s.special c l 0x0E = BitVec.ofNat 64 (s.pkg % 2 ^ 4) ∧
    s.special c l 0x0F = BitVec.ofNat 64 g.icount ∧ (s.special c l 0x10).toNat = (s.crew c).fair.toNat ∧
    s.special c l 0x07 = BitVec.ofNat 64 g.gy ∧ s.special c l 0x08 = BitVec.ofNat 64 g.gz ∧ s.special c l 0x0B = BitVec.ofNat 64 (s.worldNum g.vd) ∧
    (∀ f, (s.vd g.vd).frozen = some f → s.special c l 0x11 = BitVec.ofNat 64 f) ∧
    (∀ b : Nat, (s.vd g.vd).frozen = none → (s.vd g.vd).base = (b : Int) → b ≤ s.t → s.special c l 0x11 = BitVec.ofNat 64 (s.t - b)) ∧
    s.special c l 0x12 = BitVec.ofNat 64 s.rotaL ∧ s.special c l 0x13 = BitVec.ofNat 64 s.rotaS ∧
    (s.rotaL ≤ 32 → ∀ j, (s.special c l 0x14).getLsbD j = decide (j < s.rotaL ∧ s.ownerOf j = some (s.worldNum g.vd))) ∧
    s.special c l 0x15 = BitVec.ofNat 64 (s.t / s.rotaS % s.rotaL) ∧ s.special c l 0x16 = BitVec.ofNat 64 (s.t % s.rotaS) ∧
    (∀ a, s.allotOf (s.worldNum g.vd) = some a → s.special c l 0x17 = BitVec.ofNat 64 a.pad) ∧
    s.special c l 0x18 = (s.crew c).tcode.setWidth 64 ∧ s.special c l 0x19 = (s.crew c).tpc.setWidth 64 ∧ s.special c l 0x1A = (s.crew c).tinfo ∧
    (0 < g.gx → 0 < g.gy → ∃ x y z : Nat, s.special c l 0x03 = BitVec.ofNat 64 x ∧ s.special c l 0x04 = BitVec.ofNat 64 y ∧ s.special c l 0x05 = BitVec.ofNat 64 z ∧
      x < g.gx ∧ y < g.gy ∧ x + g.gx * (y + g.gy * z) = (s.wgOf c).num))

/-! ### Floating point and conversion -/

/-- R174: the arithmetic and converting words write their result in the active lanes where no lane has a NUMERIC cell; otherwise no lane is written and the
word traps NUMERIC with the lowest such lane in %trapinfo. -/
def Obligations.NumericWordsGiveOrTrap : Prop :=
  ∀ (s : State) (is : Issue) (h : Hdr) (ty : Fty) (m : FMod) (bf : Bool) (dst src : Cty) (d a b c : BitVec 8),
    ∀ f ∈ numericForms s is h ty m bf dst src d a b c, Ready s is h { dst := [(d, 1)], src := f.2.1.map (·, 1) } →
      (∀ v : Nat → Word, (∀ l ∈ s.acting is h, f.2.2 l = some (v l)) → GivesReg f.1 s is h d v) ∧
      (∀ l ∈ s.acting is h, f.2.2 l = none → (∀ k ∈ s.acting is h, k < l → (f.2.2 k).isSome) → Traps f.1 s is tcNumeric (BitVec.ofNat 64 l))

/-- R152, R174, R176: only the overflow policy TRAP makes an arithmetic word NUMERIC, and never on a NaN operand, whose result is the canonical NaN. R176: the sign of an exact zero: +0 + +0 is +0 and -0 + -0 is -0 in every mode, and x - x is +0 except under rdn, where it is -0, for every finite x. -/
def Obligations.FloatCorners : Prop :=
  (∀ (ty : Fty) (m : FMod) (x y z : Nat),
    (m.ov ≠ .trap → (fAdd ty m x y).isSome ∧ (fSub ty m x y).isSome ∧ (fMul ty m x y).isSome ∧ (fFma ty m x y z).isSome) ∧
    (isNaN ty x = true ∨ isNaN ty y = true →
      fAdd ty m x y = some ty.canonNaN ∧ fSub ty m x y = some ty.canonNaN ∧ fMul ty m x y = some ty.canonNaN ∧ fFma ty m x y z = some ty.canonNaN)) ∧
  (∀ (ty : Fty) (m : FMod) (x : Nat), (∃ d, decodeF ty m.ftz x = .fin d) →
    fAdd ty m 0 0 = some 0 ∧ fAdd ty m (2 ^ (ty.width - 1)) (2 ^ (ty.width - 1)) = some (2 ^ (ty.width - 1)) ∧
    fSub ty m x x = some (if m.rm = .rdn then 2 ^ (ty.width - 1) else 0))

/-- R177-R180, R188: the words of this chapter that never trap; fmin and fmax give one of their operands, unchanged after FTZ, or the canonical NaN where both
are NaN. -/
def Obligations.FloatWordsThatNeverTrap : Prop :=
  ∀ (s : State) (is : Issue) (h : Hdr) (ty : Fty) (ftz : Bool) (rm : Rm) (cc : FCond) (pd pc : BitVec 4) (d a b : BitVec 8),
    let X := fun l => (s.operand is 0 l a).toNat % 2 ^ ty.width
    let Y := fun l => (s.operand is 1 l b).toNat % 2 ^ ty.width
    (Ready s is h { dst := [(d, 1)], src := [(a, 1), (b, 1)] } →
      GivesReg (.fmin h ty ftz d a b) s is h d (fun l => BitVec.ofNat 32 (fMin ty ftz (X l) (Y l))) ∧
      GivesReg (.fmax h ty ftz d a b) s is h d (fun l => BitVec.ofNat 32 (fMax ty ftz (X l) (Y l))) ∧
      GivesReg (.bscaleFold h ftz d a b) s is h d (fun l => foldWord ftz (s.operand is 0 l a) (s.operand is 1 l b)) ∧
      ∀ l, (fMin ty ftz (X l) (Y l) = flushF ty ftz (X l) ∨ fMin ty ftz (X l) (Y l) = flushF ty ftz (Y l) ∨
        (isNaN ty (flushF ty ftz (X l)) = true ∧ isNaN ty (flushF ty ftz (Y l)) = true ∧ fMin ty ftz (X l) (Y l) = ty.canonNaN))) ∧
    (Ready s is h { dst := [(d, 1)], src := [(a, 1)] } →
      GivesReg (.fclass h ty ftz d a) s is h d (fun l => BitVec.ofNat 32 (fClass ty ftz (X l))) ∧
      GivesReg (.frnd h ty rm ftz d a) s is h d (fun l => BitVec.ofNat 32 (fRound ty ⟨rm, .inf, ftz⟩ (X l))) ∧
      GivesReg (.bscale h ftz d a) s is h d (fun l => bscaleWord ftz (s.operand is 0 l a))) ∧
    (pd.toNat < 12 → Ready s is h { src := [(a, 1), (b, 1)], preds := [pc], pdst := [pd] } →
      GivesPred (.fcmp h cc ty ftz pd a b pc) s is h pd (fun l => fCond cc (fOrder ty ftz (X l) (Y l)) && predRead ((s.crew is.crew).lane l) pc))

/-- R174, R187: nq.fs and nx.fs take the scale and the modes from a format slot of FMT lg6 and SFMT 0; any other slot traps HANDLE with its number and kind 3
before a NUMERIC. -/
def Obligations.SlotConversionWords : Prop :=
  ∀ (s : State) (is : Issue) (h : Hdr) (ty : Fty) (fs : BitVec 3) (d a : BitVec 8), Ready s is h { dst := [(d, 1)], src := [(a, 1)] } →
    let f := (s.gridOf is.crew).fs fs
    let q := fun l => nqWord f.ov f.ftz f.xscale (s.operand is 0 l a)
    let x := fun l => nxWord ty ⟨f.rm, f.ov, f.ftz⟩ f.xscale (s.operand is 0 l a)
    (s.acting is h ≠ [] → (f.fmt ≠ 3 ∨ f.sfmt ≠ 0) →
      Traps (.nqFs h fs d a) s is tcHandle (BitVec.ofNat 64 (fs.toNat + 512 * 3)) ∧ Traps (.nxFs h ty fs d a) s is tcHandle (BitVec.ofNat 64 (fs.toNat + 512 * 3))) ∧
    (f.fmt = 3 → f.sfmt = 0 → ∀ v : Nat → Word,
      ((∀ l ∈ s.acting is h, q l = some (v l)) → GivesReg (.nqFs h fs d a) s is h d v) ∧
      ((∀ l ∈ s.acting is h, x l = some (v l)) → GivesReg (.nxFs h ty fs d a) s is h d v))

/-- R113, R175, R181: a special function opens a window in each active lane and writes its result 24 clk after issue; a pole or overflow under TRAP in any
active lane traps NUMERIC, and no window opens. Within the bounds of Table 9.5 the value is a free one (log 8). R181, Table 9.5: the special cases, whatever value is free elsewhere: an invalid input gives the canonical NaN, the listed infinities and zeros are exact,
and a pole follows OV. -/
def Obligations.SpecialFunctions : Prop :=
  (∀ (s : State) (is : Issue) (h : Hdr) (la : BitVec 4) (ov : Ov) (ftz : Bool) (d a : BitVec 8), ∀ f ∈ specialForms h la ov ftz d a,
    Ready s is h { dst := [(d, 1)], src := [(a, 1)] } →
      let r := fun l => specialWord f.2 ov ftz (s.operand is 0 l a)
      (∀ v : Nat → Word, (∀ l ∈ s.acting is h, r l = some (v l)) →
        ∃ t, exec f.1 s = .next t ∧ OpensFixed s t is (s.acting is h) .alu la d.toNat 24 (fun l => [v l])) ∧
      (∀ l ∈ s.acting is h, r l = none → (∀ k ∈ s.acting is h, k < l → (r k).isSome) → Traps f.1 s is tcNumeric (BitVec.ofNat 64 l))) ∧
  (∀ (ov : Ov) (ftz neg : Bool),
    let z : Word := if neg then 0x80000000 else 0
    let inf : Word := if neg then 0xFF800000 else 0x7F800000
    (specialWord .rcp ov ftz z = match ov with
      | .sat => some (if neg then 0xFF7FFFFF else 0x7F7FFFFF) | .inf => some inf | .nan => some 0x7FC00000 | .trap => none) ∧
    specialWord .rcp ov ftz inf = some z ∧ specialWord .sqrt ov ftz z = some z ∧ specialWord .sqrt ov ftz 0x7F800000 = some 0x7F800000 ∧
    specialWord .sqrt ov ftz 0xBF800000 = some 0x7FC00000 ∧ specialWord .sqrt ov ftz 0x40800000 = some 0x40000000 ∧
    specialWord .ex2 ov ftz z = some 0x3F800000 ∧ specialWord .ex2 ov ftz 0xFF800000 = some 0 ∧ specialWord .ex2 ov ftz 0x7F800000 = some 0x7F800000 ∧
    specialWord .lg2 ov ftz 0xBF800000 = some 0x7FC00000 ∧ specialWord .sin ov ftz z = some z ∧ specialWord .sin ov ftz inf = some 0x7FC00000 ∧
    specialWord .cos ov ftz z = some 0x3F800000 ∧ specialWord .tanh ov ftz inf = some (if neg then 0xBF800000 else 0x3F800000))

/-! ### Control flow, traps -/

/-- R122, R123: bra and call move the active lanes to pc + OFF32, call with the link; a target off the text traps ILLEGAL_ENCODING whatever the guard. R122, R124: brx, callx and ret take each active lane to its own target, callx with the link, read before it is written; a target at or above TEXTWORDS traps
HANDLE with the lowest such lane's target. -/
def Obligations.BranchesAndReturns : Prop :=
  (∀ (s : State) (is : Issue) (h : Hdr) (d : BitVec 8) (off : BitVec 32),
    let target : Int := (is.at.toNat : Int) + off.toInt
    (0 ≤ target → target < (s.gridOf is.crew).words → target < 2 ^ 32 →
      (Ready s is h {} → ∃ t, exec (.bra h off) s = .next t ∧
        LanesOnly s t is (s.acting is h) (fun _ x y => y = { x with pc := y.pc } ∧ (y.pc.toNat : Int) = target)) ∧
      (Ready s is h { dst := [(d, 1)] } → ∃ t, exec (.call h d off) s = .next t ∧
        LanesOnly s t is (s.acting is h) (fun _ x y => ∃ z, WritesReg d.toNat (is.at + 1) x z ∧ y = { z with pc := y.pc } ∧ (y.pc.toNat : Int) = target))) ∧
    (s.issue = some is → (target < 0 ∨ (s.gridOf is.crew).words ≤ target) →
      Traps (.bra h off) s is tcIllegalEncoding 0 ∧ Traps (.call h d off) s is tcIllegalEncoding 0)) ∧
  (∀ (s : State) (is : Issue) (h : Hdr) (d a : BitVec 8),
    let T := fun l => s.operand is 0 l a
    let words := (s.gridOf is.crew).words
    (Ready s is h { src := [(a, 1)] } →
      ((∀ l ∈ s.acting is h, (T l).toNat < words) →
        (∃ t, exec (.brx h a) s = .next t ∧ LanesOnly s t is (s.acting is h) (fun l x y => y = { x with pc := T l })) ∧
        (∃ t, exec (.ret h a) s = .next t ∧ LanesOnly s t is (s.acting is h) (fun l x y => y = { x with pc := T l }))) ∧
      (∀ l ∈ s.acting is h, words ≤ (T l).toNat → (∀ k ∈ s.acting is h, k < l → (T k).toNat < words) →
        Traps (.brx h a) s is tcHandle ((T l).setWidth 64) ∧ Traps (.ret h a) s is tcHandle ((T l).setWidth 64))) ∧
    (Ready s is h { dst := [(d, 1)], src := [(a, 1)] } →
      ((∀ l ∈ s.acting is h, (T l).toNat < words) →
        ∃ t, exec (.callx h d a) s = .next t ∧ LanesOnly s t is (s.acting is h) (fun l x y => ∃ z, WritesReg d.toNat (is.at + 1) x z ∧ y = { z with pc := T l })) ∧
      (∀ l ∈ s.acting is h, words ≤ (T l).toNat → (∀ k ∈ s.acting is h, k < l → (T k).toNat < words) →
        Traps (.callx h d a) s is tcHandle ((T l).setWidth 64))))

/-- R118, R125: jmark records the active lanes in a join register that no lane waits at, else traps ILLEGAL_CONVERGENCE; join makes the recorded active lanes wait
at their word, and when every recorded lane that has not exited waits, all go on after their own words. -/
def Obligations.JoinWords : Prop :=
  ∀ (s : State) (is : Issue) (h : Hdr) (k : BitVec 2), Ready s is h {} → s.acting is h ≠ [] →
    let r := (s.crew is.crew).joinReg k.toNat
    (r.wait ≠ 0 → Traps (.jmark h k) s is tcConvergence 0) ∧
    (r.wait = 0 → ∃ t, exec (.jmark h k) s = .next t ∧ t = { s.issueWord is with crews := t.crews } ∧ (∀ c, c ≠ is.crew → t.crew c = s.crew c) ∧
      t.crew is.crew = { (s.issueWord is).crew is.crew with joins := (s.crew is.crew).joins.set k.toNat { mask := laneMask (s.acting is h), wait := 0 } }) ∧
    (let here := (s.acting is h).filter (fun l => r.mask.getLsbD l)
     let wait := r.wait ||| laneMask here
     let b := fun l : Nat => if l ∈ here then { ((s.issueWord is).crew is.crew).lane l with st := .joinwait k.toNat, pc := is.at }
       else ((s.issueWord is).crew is.crew).lane l
     let alive := laneMask ((List.range 8).filter (fun l => (b l).st != .exited))
     let released := r.mask ≠ 0 ∧ (r.mask &&& alive) &&& ~~~wait = 0
     ∃ t, exec (.join h k) s = .next t ∧ t = { s.issueWord is with crews := t.crews } ∧ (∀ c, c ≠ is.crew → t.crew c = s.crew c) ∧
       (¬ released → (t.crew is.crew).joinReg k.toNat = { r with wait := wait }) ∧ (released → (t.crew is.crew).joinReg k.toNat = { r with wait := 0 }) ∧
       (∀ j, j ≠ k.toNat → (t.crew is.crew).joinReg j = (s.crew is.crew).joinReg j) ∧
       ∀ l < 8, (¬ (released ∧ wait.getLsbD l = true) → (t.crew is.crew).lane l = b l) ∧
         (released → wait.getLsbD l = true → (t.crew is.crew).lane l = { b l with pc := (b l).pc + 1, st := .run }))

/-- R117, R126, R21: exit makes the active lanes EXITED, with their outstanding results discarded and their bits gone from every MASK; a crew whose lanes have all
exited retires. (A lane that stands in a WAIT does not issue, so each clause speaks of lanes that stand in none.) -/
def Obligations.ExitWord : Prop :=
  ∀ (s : State) (is : Issue) (h : Hdr), Ready s is h {} → s.acting is h ≠ [] →
    ∃ t, exec (.exit h) s = .next t ∧
      (∀ l ∈ s.acting is h, (∀ j < 4, ((s.crew is.crew).joinReg j).wait.getLsbD l = false) →
        ((t.crew is.crew).lane l).st = .exited ∧ ((t.crew is.crew).lane l).pend = []) ∧
      (∀ j < 4, ((t.crew is.crew).joinReg j).mask = ((s.crew is.crew).joinReg j).mask &&& ~~~laneMask (s.acting is h)) ∧
      ((∃ l < 8, l ∉ s.acting is h ∧ ((s.crew is.crew).lane l).st ≠ .exited) →
        t = { s.issueWord is with crews := t.crews } ∧ (∀ c, c ≠ is.crew → t.crew c = s.crew c) ∧ (t.crew is.crew).live = (s.crew is.crew).live) ∧
      ((∀ l < 8, l ∉ s.acting is h → ((s.crew is.crew).lane l).st = .exited) → (∀ j < 4, ((s.crew is.crew).joinReg j).wait = 0) →
        (t.crew is.crew).live = false)

/-- R112, R127: nop and yield. The yield bit lasts to the end of the crew turn after the one on which it is set: `yb` counts the turns that are left. R128: itake hands the items at the head of the core's queue to the active lanes in ascending order, -1 where the queue is empty and the range is spent; it
waits, HELD, while the queue is short and the range is not spent. -/
def Obligations.NopYieldAndItake : Prop :=
  (∀ (s : State) (is : Issue) (h : Hdr), Ready s is h {} →
    (∃ t, exec (.nop h) s = .next t ∧ LanesOnly s t is (s.acting is h) (fun _ x y => y = x)) ∧
    (∃ t, exec (.yield h) s = .next t ∧ LanesOnly s t is (s.acting is h) (fun _ x y => y = { x with yb := 2 })) ∧
    (∀ (x : Lane) (v i : Bool), (({ x with yb := 2 }.afterTurn v i).afterTurn v i).yb = 0)) ∧
  (∀ (s : State) (is : Issue) (h : Hdr) (d : BitVec 8), Ready s is h { dst := [(d, 1)] } → s.acting is h ≠ [] →
    let k := s.crew is.crew
    let g := s.gridOf is.crew
    let q := (g.queue k.core).items
    (q.length < (s.acting is h).length → g.nextItem < g.lastItem → Waits (.itake h d) s is .held) ∧
    (((s.acting is h).length ≤ q.length ∨ g.lastItem ≤ g.nextItem) → ∃ t, exec (.itake h d) s = .next t ∧
      LaneFrame s t is (s.acting is h) ∧
      t = { s with crews := t.crews, badSram := t.badSram, grids := t.grids, issue := some { is with issued := is.issued ||| is.path, spent := true } } ∧
      (∀ (j l : Nat), (s.acting is h)[j]? = some l → WritesReg d.toNat (match (q[j]? : Option Nat) with | some i => BitVec.ofNat 32 i | none => 0xFFFFFFFF)
        (k.lane l).issueOne ((t.crew is.crew).lane l)) ∧
      ((t.gridOf is.crew).queue k.core).items = q.drop (s.acting is h).length ∧
      (∀ c, c ≠ k.core → (t.gridOf is.crew).queue c = g.queue c) ∧ (∀ i, i ≠ (s.wgOf is.crew).grid → t.grid i = s.grid i)))

/-- R315-R317: trap raises SOFTWARE with its immediate; brk stops the crew for the debugger where debug is armed, else raises BREAKPOINT with its code. R316: tret in handler mode with ACTIVE = HL takes the handler lanes to %trappc, or the word after it, and leaves handler mode, the trap registers kept;
otherwise it traps ILLEGAL_CONVERGENCE. That a brk under a debug step stops with BREAKPOINT and not STEP (R325), and that a trap leaves STEP, is log 16's choice. -/
def Obligations.TrapBrkAndTret : Prop :=
  (∀ (s : State) (is : Issue) (h : Hdr) (imm : BitVec 31) (code : BitVec 8), Ready s is h {} → s.acting is h = [] →
    exec (.trap h imm) s = .next (s.issueWord is) ∧ exec (.brk h code) s = .next (s.issueWord is)) ∧
  (∀ (s : State) (is : Issue) (h : Hdr) (imm : BitVec 31) (code : BitVec 8), Ready s is h {} → s.acting is h ≠ [] →
    let armed := (s.vd (s.vdOf is.crew)).dbg.armed
    Traps (.trap h imm) s is tcSoftware (imm.setWidth 64) ∧
    (armed = false → Traps (.brk h code) s is tcBreakpoint (code.setWidth 64)) ∧
    (armed = true → (s.crew is.crew).live = true → ∃ t, exec (.brk h code) s = .next t ∧ t = { s.issueWord is with crews := t.crews } ∧
      (t.crew is.crew).halted = some (if (s.crew is.crew).step then .breakpoint else (s.crew is.crew).halted.getD .breakpoint) ∧ (t.crew is.crew).lanes = ((s.issueWord is).crew is.crew).lanes ∧
      ((s.vd (s.vdOf is.crew)).dbg.stopWorld = false → ∀ c, c ≠ is.crew → t.crew c = s.crew c))) ∧
  (∀ (s : State) (is : Issue) (h : Hdr) (nxt : Bool), Ready s is h {} → s.acting is h ≠ [] →
    let k := s.crew is.crew
    ((k.hm = false ∨ laneMask (s.acting is h) ≠ k.hl) → Traps (.tret h nxt) s is tcConvergence 0) ∧
    (k.hm = true → laneMask (s.acting is h) = k.hl → ∃ t, exec (.tret h nxt) s = .next t ∧
      t = { s.issueWord is with crews := t.crews, agenda := t.agenda } ∧ (∀ c, c ≠ is.crew → t.crew c = s.crew c) ∧
      (k.pend = none → t.agenda = s.agenda) ∧ (k.pend ≠ none → (s.t, Instr.deferredTrap is.crew) ∈ t.agenda) ∧
      t.crew is.crew = { (s.issueWord is).crew is.crew with hm := false, hl := 0, lanes := (t.crew is.crew).lanes } ∧
      ∀ l < 8, (t.crew is.crew).lane l = (if l ∈ s.acting is h then { (k.lane l).issueOne with pc := if nxt then k.tpc + 1 else k.tpc }
        else if is.path.getLsbD l then (k.lane l).issueOne else k.lane l)))

/-- R312 steps 1 and 2: taking a trap stops the handler lanes, HELD or PARKED by what is outstanding for them, keeps the code, the word index and the information
for handler mode, which begins at once where nothing is outstanding; no other lane and no other crew changes. R313: without a handler, and in handler mode, a trap
aborts the grid: its first trap is recorded with its clock and place, %wg, %crew and a flag for handler mode, the grid places nothing more, and the workgroup sets no
completion bit that it has not asked for; at the end of that clock every crew of an aborted grid stops. -/
def Obligations.TakingATrap : Prop :=
  (∀ (s : State) (c : Nat) (hl : BitVec 8) (tr : Trap), c < s.crews.length → (s.crew c).lanes.length = 8 → (s.crew c).hm = false →
    (s.gridOf c).handler ≠ none →
    let t := s.takeTrap c hl tr
    t = { s with crews := t.crews, jobs := t.jobs, agenda := t.agenda } ∧ (∀ d, d ≠ c → t.crew d = s.crew d) ∧
    t.crew c = { s.crew c with entry := some tr, hl := hl, lanes := (t.crew c).lanes, step := false, stepEnd := (s.crew c).step } ∧
    (∀ l < 8, (t.crew c).lane l = (if hl.getLsbD l && ((s.crew c).lane l).st != .exited then { (s.crew c).lane l with
        st := if ((s.crew c).lane l).pend.all (fun p => p.kind.isFixed) then .held else .parked } else (s.crew c).lane l)) ∧
    ((∀ l, hl.getLsbD l = true → ((s.crew c).lane l).pend = []) → (s.t, Instr.handlerModeEntry c) ∈ t.agenda)) ∧
  (∀ (s : State) (c : Nat) (hl : BitVec 8) (tr : Trap), c < s.crews.length → (s.wgOf c).grid < s.grids.length →
    ((s.crew c).hm = true ∨ (s.gridOf c).handler = none) → (s.gridOf c).aborted = none → (s.gridOf c).st = .active →
    let g := (s.wgOf c).grid
    let t := s.takeTrap c hl tr
    (t.grid g).aborted = some { stat := tr.code.toNat, t := s.t, core := (s.crew c).core, part := (s.crew c).part, hm := (s.crew c).hm, wg := (s.wgOf c).num, crew := (s.crew c).num, pc := tr.pc, info := tr.info } ∧
    (t.grid g).nextWg = (s.grid g).gx * (s.grid g).gy * (s.grid g).gz ∧
    ((s.crew c).wg < s.wgs.length → (s.wgOf c).asked = false → (t.wgOf c).cut = true)) ∧
  (∀ (s : State) (w d : Nat), (s.grid (s.wg w).grid).st = .active → (s.grid (s.wg w).grid).aborted.isSome = true → (s.wg w).live = true → w < s.wgs.length →
    (s.wg w).grid < s.grids.length → d ∈ (s.wg w).crews → d < s.crews.length → (s.crew d).live = true →
    (s.stopAborted.crew d).live = false ∧ ∀ x ∈ (s.stopAborted.crew d).lanes, x.st = .exited)

/-- R312 steps 3 and 4, R310: handler mode begins when nothing is outstanding for the handler lanes: %trapcode, %trappc and %trapinfo are written and every lane
of HL goes to the handler with its yield bit cleared; a deferred trap is taken on the word of path A, which has no effect. R325: a step that trapped ends with the entry. R324: a crew whose next packet meets an enabled comparator stops with reason BREAKPOINT before the packet, and nothing has issued. -/
def Obligations.HandlerEntryDeferredTrapsAndStops : Prop :=
  ((∀ (s : State) (c : Nat) (tr : Trap), c < s.crews.length → (s.crew c).lanes.length = 8 → (s.crew c).entry = some tr → (s.gridOf c).aborted = none →
    (∀ l, (s.crew c).hl.getLsbD l = true → ((s.crew c).lane l).pend = []) →
    ∃ t, exec (.handlerModeEntry c) s = .next t ∧ t = { s with crews := t.crews } ∧ (∀ d, d ≠ c → t.crew d = s.crew d) ∧
      t.crew c = { s.crew c with entry := none, hm := true, tcode := tr.code, tpc := tr.pc, tinfo := tr.info, lanes := (t.crew c).lanes, stepEnd := false, halted := if (s.crew c).stepEnd then some .step else (s.crew c).halted } ∧
      ∀ l < 8, (t.crew c).lane l = if (s.crew c).hl.getLsbD l then { (s.crew c).lane l with pc := BitVec.ofNat 32 ((s.gridOf c).handler.getD 0), yb := 0, st := .run }
        else (s.crew c).lane l) ∧
  (∀ (s : State) (is : Issue) (tr : Trap), (s.crew is.crew).pend = some tr → (s.crew is.crew).hm = false → (s.crew is.crew).entry = none → s.issue = some is →
    is.spent = false →
    exec (.deferredTrap is.crew) s = .next ((s.setCrew is.crew { s.crew is.crew with pend := none }).trapPath is tr.code tr.info))) ∧
  (∀ (s : State) (c i : Nat) (a : BitVec 32), c < s.crews.length → (s.crew c).live = true → (s.crew c).halted = none → (s.crew c).voteA = some a → s.comparatorHit c a = some i →
    ∃ t, exec (.breakpointStop c) s = .next t ∧ t = { s with crews := t.crews } ∧
      t.crew c = { s.crew c with halted := some .breakpoint, skip := some i, step := false, stepEnd := false } ∧
      ((s.vd (s.vdOf c)).dbg.stopWorld = false → ∀ d, d ≠ c → t.crew d = s.crew d))

/-- R82, R88, R23, R95: of every word, an encoding class that does not pass traps with its code whatever the guard, in the order of Table 5.13: a register at or beyond
the count, a bank named three times, a role that the crew has not. R311: an uncorrectable error in the guard predicate of a lane of the path traps INTEGRITY with the
lowest such lane (log 19); past that a word with no active lane only issues; and an error in any register or predicate that an active lane reads keeps the word from its effect: it traps
INTEGRITY with the lowest such lane, unless it waits or has another trap of its own. -/
def Obligations.ChecksBeforeTheEffect : Prop :=
  (∀ (i : Instr) (s : State) (is : Issue) (h : Hdr) (n : Needs), wordNeeds i = some (h, n) → s.issue = some is →
    let k := s.crew is.crew
    let count := (s.gridOf is.crew).regs
    let regs := ∀ r ∈ n.dst ++ n.src ++ n.group, r.1.toNat + r.2 ≤ count
    let banks := ∀ b < 4, (n.banks.filter (fun r => r.toNat % 4 == b)).length ≤ 2
    (¬ regs → Traps i s is tcIllegalEncoding 0) ∧
    ((∀ (off : BitVec 32) (d : BitVec 8), (i = .bra h off ∨ i = .call h d off) → branchTarget is.at off (s.gridOf is.crew).words ≠ none) →
      (regs → ¬ banks → Traps i s is tcBankConflict 0) ∧
      (regs → banks → ∀ r, n.role = some r → k.role ≠ r → Traps i s is tcRole 0) ∧
      (n.check k count = none →
        (∀ l ∈ lanesOf is.path, s.predBad is.crew l [h.g] = true → (∀ m ∈ lanesOf is.path, m < l → s.predBad is.crew m [h.g] = false) →
          Traps i s is tcIntegrity (BitVec.ofNat 64 (l * 2 ^ 60))) ∧
        ((∀ l ∈ lanesOf is.path, s.predBad is.crew l [h.g] = false) →
          (s.acting is h = [] → exec i s = .next (s.issueWord is)) ∧
          (∀ l ∈ s.acting is h, s.readBad is.crew l n = true → (∀ m ∈ s.acting is h, m < l → s.readBad is.crew m n = false) →
            (plainNeeds i = some (h, n) → Traps i s is tcIntegrity (BitVec.ofNat 64 (l * 2 ^ 60))) ∧
            (Traps i s is tcIntegrity (BitVec.ofNat 64 (l * 2 ^ 60)) ∨ (∃ st, Waits i s is st) ∨ ∃ code info, Traps i s is code info)))))) ∧
  (∀ (s : State) (is : Issue) (g : BitVec 3) (d r : BitVec 8) (x5 : BitVec 5) (x6 : BitVec 6) (h1 : Half), ∀ f ∈ pairForms g d r x5 x6 h1, s.issue = some is →
    let k := s.crew is.crew
    let reads := fun (q : Half) (l : Nat) => Half.holds q (k.lane l) = true ∧ s.regBad is.crew l (Half.reads q) = true
    let bad := fun l : Nat => s.predBad is.crew l (Half.guards f.2 ++ Half.guards h1) = true ∨ reads f.2 l ∨ reads h1 l
    (∀ code, (pairNeeds f.2 h1).check k (s.gridOf is.crew).regs = some code → Traps f.1 s is code 0) ∧
    ((pairNeeds f.2 h1).check k (s.gridOf is.crew).regs = none → ∀ l ∈ lanesOf is.path, bad l → (∀ m ∈ lanesOf is.path, m < l → ¬ bad m) →
      Traps f.1 s is tcIntegrity (BitVec.ofNat 64 (l * 2 ^ 60))))

/-! ### Near, spill and Basin memory -/

/-- R190, R198, R309: every lane is checked before any lane reads or writes; a bound condition in any lane ranks above MISALIGNED in any lane, and %trapinfo
holds the lowest such lane's address, its number and the space. -/
def Obligations.MemoryWordsCheckEveryLane : Prop :=
  ∀ (s : State) (is : Issue) (h : Hdr) (la : BitVec 4) (sp : Space) (wd : Width) (w2 : Width2) (op : Aop) (ty : Aty) (d a b c o8 : BitVec 8) (o10 : BitVec 10),
    ∀ f ∈ memoryForms h la sp wd w2 op ty d a b c o8 o10, Ready s is h f.2.1 →
      let w := f.2.2.1
      let addr := fun l => addr32 (s.operand is 0 l a) f.2.2.2
      let bound := (s.spaceBound (s.crew is.crew) sp).1
      let code := match sp with | .near => tcNearBounds | .spill => tcSpillOverflow | .basin => tcNearBounds
      let info := fun l : Nat => BitVec.ofNat 64 (addr l + l * 2 ^ 32 + (match sp with | .near => 0 | .spill => 1 | .basin => 2) * 2 ^ 35)
      (∀ l ∈ s.acting is h, bound < addr l + w → (∀ k ∈ s.acting is h, k < l → addr k + w ≤ bound) → Traps f.1 s is code (info l)) ∧
      ((∀ l ∈ s.acting is h, addr l + w ≤ bound) → ∀ l ∈ s.acting is h, addr l % w ≠ 0 → (∀ k ∈ s.acting is h, k < l → addr k % w = 0) →
        Traps f.1 s is tcMisaligned (info l))

/-- R190, R195, R191: ld in the near store or the lane's spill window writes each active lane's bytes, extended as Table 10.3 says, and changes no memory. Table 10.3: what a load of a width writes from its bytes: i8 sign-extended, n8 and b16 zero-extended, wider ones lowest register first. -/
def Obligations.LocalLoads : Prop :=
  (∀ (s : State) (is : Issue) (h : Hdr) (la : BitVec 4) (sp : Space) (wd : Width) (d a : BitVec 8) (ofs : BitVec 10), sp ≠ .basin →
    Ready s is h { dst := [(d, Width.count wd)], src := [(a, 1)] } →
    let addr := fun l => addr32 (s.operand is 0 l a) ofs.toInt
    let w := Width.bytes wd
    let k := s.crew is.crew
    (∀ l ∈ s.acting is h, addr l % w = 0 ∧ addr l + w ≤ (s.spaceBound k sp).1 ∧ ∀ e ∈ s.badSram, s.localSite k sp l (addr l) w e = false) →
    ∃ t, exec (.ld h la sp wd d a ofs) s = .next t ∧
      LanesOnly s t is (s.acting is h) (fun l => WritesRegs d.toNat (extendLoad wd (s.localRead k sp l (addr l) w)))) ∧
  (∀ b0 b1 b2 b3 b4 b5 b6 b7 : Byte,
    extendLoad .i8 [b0] = [b0.signExtend 32] ∧ extendLoad .n8 [b0] = [b0.setWidth 32] ∧ extendLoad .b16 [b0, b1] = [0#16 ++ (b1 ++ b0)] ∧
    extendLoad .b32 [b0, b1, b2, b3] = [b3 ++ (b2 ++ (b1 ++ b0))] ∧
    extendLoad .b64 [b0, b1, b2, b3, b4, b5, b6, b7] = [b3 ++ (b2 ++ (b1 ++ b0)), b7 ++ (b6 ++ (b5 ++ b4))])

/-- R193, R195: st in the near store writes each active lane's bytes in its issue clock; where lanes name the same byte the highest lane's stands; every other byte of
every near store, and all other memory, is unchanged; of what engines and messages have under way only bytes that the store races with may change (log 10). R193, R195: st in the spill space, likewise, each lane in its own window. -/
def Obligations.LocalStores : Prop :=
  (∀ (s : State) (is : Issue) (h : Hdr) (wd : Width) (a b : BitVec 8) (ofs : BitVec 10), Ready s is h { src := [(a, 1), (b, Width.count wd)] } →
    let addr := fun l => addr32 (s.operand is 0 l a) ofs.toInt
    let w := Width.bytes wd
    let k := s.crew is.crew
    let base := (s.wg k.wg).near
    (∀ l ∈ s.acting is h, addr l % w = 0 ∧ addr l + w ≤ (s.spaceBound k .near).1) →
    let free := fun n : Nat => (∀ x ∈ (s.wg k.wg).tiles, x.fillLen ≠ 0 → Tile.filling x n = false) ∧ ∀ u ∈ s.mats, ∀ q ∈ u.arrQ, MOp.drains q k.wg n = false
    ∃ t, exec (.st h .near wd a b ofs) s = .next t ∧
      t = { s.issueWord is with near := t.near, badSram := t.badSram, mats := t.mats, bargeRs := t.bargeRs, vds := t.vds, reqs := t.reqs } ∧
      t.untorn = { (s.issueWord is).untorn with near := t.near, badSram := t.badSram } ∧
      (∀ l ∈ s.acting is h, ∀ i < w, free (addr l + i) → (∀ m ∈ s.acting is h, l < m → ¬ (addr m ≤ addr l + i ∧ addr l + i < addr m + w)) →
        cellAt (t.nearOf (s.wg k.wg).core) (base + addr l + i) = (rdBytes (s.issueWord is) k 1 l b w)[i]?) ∧
      (∀ o, (∀ l ∈ s.acting is h, ¬ (base + addr l ≤ o ∧ o < base + addr l + w)) →
        cellAt (t.nearOf (s.wg k.wg).core) o = cellAt (s.nearOf (s.wg k.wg).core) o) ∧
      (∀ core, core ≠ (s.wg k.wg).core → t.nearOf core = s.nearOf core)) ∧
  (∀ (s : State) (is : Issue) (h : Hdr) (wd : Width) (a b : BitVec 8) (ofs : BitVec 10), Ready s is h { src := [(a, 1), (b, Width.count wd)] } →
    let addr := fun l => addr32 (s.operand is 0 l a) ofs.toInt
    let w := Width.bytes wd
    let k := s.crew is.crew
    (∀ l ∈ s.acting is h, addr l % w = 0 ∧ addr l + w ≤ (s.spaceBound k .spill).1) → (s.spaceBound k .spill).1 ≤ 8192 → k.part < 8 →
    ∃ t, exec (.st h .spill wd a b ofs) s = .next t ∧
      t = { s.issueWord is with spill := t.spill, badSram := t.badSram } ∧
      (∀ l ∈ s.acting is h, ∀ i < w, cellAt (t.spillOf k.core k.part) (k.spillAt l (addr l + i)) = (rdBytes (s.issueWord is) k 1 l b w)[i]?) ∧
      (∀ o, (∀ l ∈ s.acting is h, ¬ (k.spillAt l (addr l) ≤ o ∧ o < k.spillAt l (addr l) + w)) →
        cellAt (t.spillOf k.core k.part) o = cellAt (s.spillOf k.core k.part) o) ∧
      (∀ core part, part < 8 → (core, part) ≠ (k.core, k.part) → t.spillOf core part = s.spillOf core part))

/-- R193, R196, R197: atom and cas in the near and spill spaces: the lanes in ascending order, each on what the lower lanes left; each returns the value that it
found, and the bytes change by the operation, or only where the compared bytes are equal. -/
def Obligations.LocalAtomics : Prop :=
  ∀ (s : State) (is : Issue) (h : Hdr) (la : BitVec 4) (sp : Space) (op : Aop) (ty : Aty) (wd : Width2) (d a b c o8 : BitVec 8) (o10 : BitVec 10), sp ≠ .basin →
    let k := s.crew is.crew
    let clear := fun (addr : Nat → Nat) (w : Nat) => ∀ l ∈ s.acting is h, addr l % w = 0 ∧ addr l + w ≤ (s.spaceBound k sp).1 ∧
      ∀ e ∈ s.badSram, s.localSite k sp l (addr l) w e = false
    let does := fun (i : Instr) (wd : Width) (addr : Nat → Nat) (f : Nat → List Byte → List Byte) =>
      let w := Width.bytes wd
      let run := fun ls => (s.issueWord is).localRun k sp w addr f ls
      ∃ t, exec i s = .next t ∧ LaneFrame s t is (s.acting is h) ∧ t = { run (s.acting is h) with crews := t.crews, badSram := t.badSram } ∧
        ∀ l ∈ s.acting is h, WritesRegs d.toNat (extendLoad wd ((run ((s.acting is h).filter (fun m => decide (m < l)))).localRead k sp l (addr l) w))
          (k.lane l).issueOne ((t.crew is.crew).lane l)
    (Ready s is h { dst := [(d, 1)], src := [(a, 1), (b, 1)] } →
      let addr := fun l => addr32 (s.operand is 0 l a) o8.toInt
      clear addr 4 → does (.atom h la op sp ty d a b o8) .b32 addr (fun l old =>
        toBytes 4 (atomResult op ty false (BitVec.ofNat 64 (ofBytes old)) ((s.operand is 1 l b).setWidth 64)).toNat)) ∧
    (Ready s is h { dst := [(d, Width2.count wd)], src := [(a, 1), (b, Width2.count wd), (c, Width2.count wd)] } →
      let addr := fun l => addr32 (s.operand is 0 l a) o10.toInt
      let w := Width2.bytes wd
      clear addr w → does (.cas h la sp wd d a b c o10) (Width2.wide wd) addr (fun l old =>
        if old = rdBytes (s.issueWord is) k 1 l b w then rdBytes (s.issueWord is) k 2 l c w else old))

/-- R64, R65, R192: an access in the Basin space makes one request for each distinct line at the core's port, in order of the lowest lane that names each, if the
world's queue has room for all of them, and otherwise waits, HELD; a load, atom or cas opens a window in each active lane. -/
def Obligations.BasinAccesses : Prop :=
  ∀ (s : State) (is : Issue) (h : Hdr) (la : BitVec 4) (wd : Width) (w2 : Width2) (op : Aop) (ty : Aty) (d a b c o8 : BitVec 8) (o10 : BitVec 10),
    ∀ f ∈ memoryForms h la .basin wd w2 op ty d a b c o8 o10, Ready s is h f.2.1 → s.acting is h ≠ [] →
      let w := f.2.2.1
      let addr := fun l => addr32 (s.operand is 0 l a) f.2.2.2
      let k := s.crew is.crew
      let lines := ((s.acting is h).map (fun l => addr l / 64)).eraseDups
      let world := s.worldNum (s.vdOf is.crew)
      (∀ l ∈ s.acting is h, addr l % w = 0 ∧ addr l + w ≤ (s.spaceBound k .basin).1) →
      (64 < (s.queueOf (.basin k.core) world).length + lines.length → Waits f.1 s is .held) ∧
      ((s.queueOf (.basin k.core) world).length + lines.length ≤ 64 → ∃ t o, exec f.1 s = .next t ∧ LaneFrame s t is (s.acting is h) ∧
        t = { s.issueWord is with crews := t.crews, badSram := t.badSram, nextId := s.nextId + 1, basinOps := s.basinOps ++ [o], reqs := t.reqs } ∧
        o.id = s.nextId ∧ o.crew = is.crew ∧ o.core = k.core ∧ o.todo = lines ∧ o.lanes.map (fun x => (x.1, x.2.1)) = (s.acting is h).map (fun l => (l, addr l)) ∧
        (∀ r ∈ s.reqs, r ∈ t.reqs) ∧ (∀ line ∈ lines, (⟨.basin k.core, world, .basin s.nextId line, s.t⟩ : Req) ∈ t.reqs) ∧
        ∀ l ∈ s.acting is h, (t.crew is.crew).lane l = (match f.2.1.dst with
          | [] => (k.lane l).issueOne
          | r :: _ => openWindow (k.lane l).issueOne { id := s.nextId, kind := .basin, win := la.toNat, base := r.1.toNat, regs := (List.range r.2).map (r.1.toNat + ·) }))

/-- R113, R114, R116, R192: a result that arrives is written to the registers that are still its own, its window closes, and a lane that waited may run (a lane
that a trap is stopping keeps waiting for the rest); a Basin result is gone from the list. R318: a crew whose workgroup is saved is noted for its saved image. -/
def Obligations.ResultsArrive : Prop :=
  (∀ (s : State) (c l e : Nat) (p : Pending), c < s.crews.length → l < (s.crew c).lanes.length → ((s.crew c).lane l).pend.find? (fun q => q.id == e) = some p →
    ((s.crew c).entry.isNone ∨ (s.crew c).hl.getLsbD l = false) →
    ∃ t, exec (.fixedLatencyComplete c l e) s = .next t ∧ t = { s with crews := t.crews, agenda := t.agenda, wgs := t.wgs } ∧
      t.wgs = (if (s.wg (s.crew c).wg).saved then s.wgs.set (s.crew c).wg { s.wg (s.crew c).wg with late := (s.wg (s.crew c).wg).late ++ [c] } else s.wgs) ∧
      (∀ d, d ≠ c → t.crew d = s.crew d) ∧ (∀ m, m ≠ l → (t.crew c).lane m = (s.crew c).lane m) ∧
      ((t.crew c).lane l).pend = ((s.crew c).lane l).pend.filter (fun q => q.id != e) ∧
      (((s.crew c).lane l).st = .held ∨ ((s.crew c).lane l).st = .parked → ((t.crew c).lane l).st = .run) ∧
      (∀ r, r ∈ p.regs → r - p.base < p.value.length → r < ((s.crew c).lane l).regs.length → ((t.crew c).lane l).regs.getD r 0 = p.value.getD (r - p.base) 0) ∧
      (∀ r, r ∉ p.regs → ((t.crew c).lane l).regs.getD r 0 = ((s.crew c).lane l).regs.getD r 0)) ∧
  (∀ (s : State) (o : BasinOp), s.basinOps.find? (fun q => q.id == o.id) = some o → o.kind ≠ 1 → o.dead = [] →
    exec (.basinResult o.id) s = .next (o.got.foldl (fun s p => s.completeLane o.crew p.1 o.id (extendLoad o.wd p.2))
      { s with basinOps := s.basinOps.filter (fun q => q.id != o.id) }))

/-! ### Tiles, barriers, fences -/

/-- R199, R200, R203, R204: tset, tdrain and tfree move an entry as Table 10.5 says once it has the required state and the handle's phase, and wait, HELD, before;
no other entry and no other workgroup changes. R205, R206, R295: tstat reads the entry at once, as a word or as its bitmap; twait and cwait wait for the tile, or for the chunks of a mask, and acquire their
clocks; cwait of nothing goes on at once, and of a chunk that the tile lacks traps HANDLE. That a chunk counts as acquired for every crew from the first wait on it, the entry's
seen mask, is log 10's choice. -/
def Obligations.TileWords : Prop :=
  (∀ (s : State) (is : Issue) (h : Hdr) (rdy : Bool) (th : TileH) (a b : BitVec 8) (i base n : Nat) (ph : Bool), s.tileOf is h th = some (i, ph) →
    let w := (s.crew is.crew).wg
    let x := (s.wg w).tile i
    i < (s.wg w).tiles.length →
    let gives := fun (j : Instr) (y : Tile) => ∃ t, exec j s = .next t ∧ WgOnly s t is w ∧ t.wg w = { s.wg w with tiles := (t.wg w).tiles } ∧
      (t.wg w).tile i = y ∧ (∀ m, m ≠ i → (t.wg w).tile m = (s.wg w).tile m)
    (Ready s is h { src := [(a, 1), (b, 1)] ++ TileH.src th } → s.sameOn is h 0 a = some base → s.sameOn is h 1 b = some n →
      n % 512 = 0 → 512 ≤ n → n ≤ 32768 → base % 512 = 0 → base + n ≤ (s.gridOf is.crew).near * 512 →
      let full := BitVec.ofNat 64 (2 ^ (n / 512) - 1)
      (x.st = .empty ∧ x.phase = ph → gives (.tset h rdy th a b)
        { x with base := base, len := n / 512, clocks := [], fillLen := 0, fillAt := none, bitmap := if rdy then full else 0, st := if rdy then .ready else .empty }) ∧
      (¬ (x.st = .empty ∧ x.phase = ph) → Waits (.tset h rdy th a b) s is .held)) ∧
    (Ready s is h { src := TileH.src th } → s.acting is h ≠ [] →
      (x.len = 0 → Traps (.tdrain h th) s is tcHandle (handleInfo (handleValue i ph) 2) ∧ Traps (.tfree h th) s is tcHandle (handleInfo (handleValue i ph) 2)) ∧
      (x.len ≠ 0 →
        (x.st = .ready ∧ x.phase = ph → gives (.tdrain h th) { x with st := .draining }) ∧
        (¬ (x.st = .ready ∧ x.phase = ph) → Waits (.tdrain h th) s is .held) ∧
        (x.st = .draining ∧ x.phase = ph ∧ s.tileBusy w i = false → gives (.tfree h th) { x with st := .empty, phase := !x.phase, bitmap := 0, clocks := [], fillLen := 0, fillAt := none }) ∧
        (¬ (x.st = .draining ∧ x.phase = ph ∧ s.tileBusy w i = false) → Waits (.tfree h th) s is .held)))) ∧
  (∀ (s : State) (is : Issue) (h : Hdr) (th : TileH) (d a : BitVec 8) (i : Nat) (ph : Bool) (m : DWord), s.tileOf is h th = some (i, ph) → s.acting is h ≠ [] →
    let x := (s.wg (s.crew is.crew).wg).tile i
    i < (s.wg (s.crew is.crew).wg).tiles.length →
    (Ready s is h { dst := [(d, 1)], src := TileH.src th } →
      GivesReg (.tstat h false d th) s is h d (fun _ => BitVec.ofNat 32 (x.len * 2 ^ 10 + ones64 x.bitmap * 2 ^ 3 + x.phase.toNat * 2 ^ 2 +
        (match x.st with | .empty => 0 | .filling => 1 | .ready => 2 | .draining => 3)))) ∧
    (Ready s is h { dst := [(d, 2)], src := TileH.src th } → GivesPair (.tstat h true d th) s is h d (fun _ => x.bitmap)) ∧
    (x.len ≠ 0 → Ready s is h { src := TileH.src th } →
      (x.st = .ready ∧ x.phase = ph → ∃ t, exec (.twait h th) s = .next t ∧
        LanesOnly (s.setTile (s.crew is.crew).wg i { x with seen := BitVec.ofNat 64 (2 ^ 64 - 1) }) t is (s.acting is h) (fun _ y z => z = { y with clock := x.acquire (BitVec.ofNat 64 (2 ^ 64 - 1)) y.clock })) ∧
      (¬ (x.st = .ready ∧ x.phase = ph) → Waits (.twait h th) s is .held)) ∧
    (x.len ≠ 0 → Ready s is h { src := (a, 2) :: TileH.src th } → (∀ l ∈ s.acting is h, s.operand64 is 0 l a = m) →
      (∀ j, m.getLsbD j = true → x.len ≤ j → Traps (.cwait h th a) s is tcHandle (handleInfo (handleValue i ph) 2)) ∧
      (m = 0 → ∃ t, exec (.cwait h th a) s = .next t ∧ LanesOnly s t is (s.acting is h) (fun _ y z => z = y)) ∧
      (m ≠ 0 → (∀ j, m.getLsbD j = true → j < x.len) →
        let done := x.phase = ph ∧ (x.st = .filling ∨ x.st = .ready) ∧ m &&& ~~~x.bitmap = 0
        (done → ∃ t, exec (.cwait h th a) s = .next t ∧
          LanesOnly (s.setTile (s.crew is.crew).wg i { x with seen := x.seen ||| m }) t is (s.acting is h) (fun _ y z => z = { y with clock := x.acquire m y.clock })) ∧
        (¬ done → Waits (.cwait h th a) s is .held))))

/-- R297, R263: fence and fencef let a lane go on whose conditions hold; the others stand at the word, waiting as Table 17.2 and R263 say. R129: drain lets an active lane with nothing outstanding go on; the others stand at the word, PARKED while any outstanding instruction is of variable latency,
and HELD otherwise. -/
def Obligations.DrainAndFenceWords : Prop :=
  (∀ (s : State) (is : Issue) (h : Hdr) (sc : Scope), Ready s is h {} →
    let stays := fun (i : Instr) (wait : Nat → Option LaneSt) =>
      ∃ t, exec i s = .next t ∧ t = { s with crews := t.crews, issue := t.issue } ∧ (∀ c, c ≠ is.crew → t.crew c = s.crew c) ∧
        t.issue = some { is with issued := (is.issued ||| is.path) &&& ~~~laneMask ((s.acting is h).filter (fun l => (wait l).isSome)), spent := true } ∧
        ∀ l < 8, (t.crew is.crew).lane l = (if l ∈ s.acting is h then (match wait l with
            | some st => { (s.crew is.crew).lane l with st := st }
            | none => ((s.crew is.crew).lane l).issueOne)
          else if is.path.getLsbD l then ((s.crew is.crew).lane l).issueOne else (s.crew is.crew).lane l)
    stays (.fence h sc) (fun l => if !s.fenceFar sc is.crew l then some .parked else if s.basinDone is.crew l && s.matrixDone is.crew then none else some .held) ∧
    stays (.fencef h sc) (fun l => if s.fencefDone sc is.crew l then none else some .parked)) ∧
  (∀ (s : State) (is : Issue) (h : Hdr), Ready s is h {} →
    let waits := (s.acting is h).filter (fun l => !((s.crew is.crew).lane l).pend.isEmpty)
    ∃ t, exec (.drain h) s = .next t ∧
      t = { s with crews := t.crews, issue := some { is with issued := (is.issued ||| is.path) &&& ~~~laneMask waits, spent := true } } ∧
      (∀ c, c ≠ is.crew → t.crew c = s.crew c) ∧
      ∀ l < 8, (t.crew is.crew).lane l = (if l ∈ waits then { (s.crew is.crew).lane l with
          st := if ((s.crew is.crew).lane l).pend.all (fun p => p.kind.isFixed) then .held else .parked }
        else if is.path.getLsbD l then ((s.crew is.crew).lane l).issueOne else (s.crew is.crew).lane l))

/-- R298-R300: bar and barv arrive at a muster set with every lane of the crew that has not exited; the arrival that fills the set completes it: its phase toggles
and every waiting lane goes on. barv gives the phase as its token and goes on at once. R299, R301: barw goes on at once, acquiring the set's clock, where the phase differs from the token, and otherwise waits at the set; every barrier word traps
ILLEGAL_CONVERGENCE where a lane of the crew is missing (bar, barv), and HANDLE for a set that the crew does not belong to. -/
def Obligations.BarrierWords : Prop :=
  (∀ (s : State) (is : Issue) (h : Hdr) (d : BitVec 8) (m : MusterH) (i : Nat), s.setOf is h m = some i → s.acting is h ≠ [] →
    laneMask (s.acting is h) = (s.crew is.crew).aliveMask →
    let k := s.crew is.crew
    let x := (s.wg k.wg).muster i
    let arrived := x.arrival ||| (1#64 <<< k.num)
    let clock := (s.acting is h).foldl (fun c l => Clock.merge (k.lane l).clock c) x.clock
    i < (s.wg k.wg).musters.length → x.member.getLsbD k.num = true → s.arriveWait k (s.acting is h) i = none →
    (arrived ≠ x.member →
      (Ready s is h { src := MusterH.src m } → ∃ t, exec (.bar h m) s = .next t ∧ t = { s.issueWord is with crews := t.crews, wgs := t.wgs } ∧
        (∀ w, w ≠ k.wg → t.wg w = s.wg w) ∧ (t.wg k.wg).muster i = { x with arrival := arrived, clock := clock } ∧
        LaneFrame s t is (s.acting is h) ∧
        ∀ l ∈ s.acting is h, (t.crew is.crew).lane l = { (k.lane l).issueOne with st := .barwait i, pc := is.at }) ∧
      (Ready s is h { dst := [(d, 1)], src := MusterH.src m } → ∃ t, exec (.barv h d m) s = .next t ∧ LaneFrame s t is (s.acting is h) ∧
        t = { s.issueWord is with crews := t.crews, wgs := t.wgs, badSram := t.badSram } ∧
        (t.wg k.wg).muster i = { x with arrival := arrived, clock := clock } ∧
        ∀ l ∈ s.acting is h, WritesReg d.toNat (if x.phase then 1 else 0) (k.lane l).issueOne ((t.crew is.crew).lane l))) ∧
    (arrived = x.member →
      (Ready s is h { src := MusterH.src m } → ∃ t, exec (.bar h m) s = .next t ∧
        (t.wg k.wg).muster i = { x with arrival := 0, phase := !x.phase, done := clock, clock := Clock.zero } ∧
        (is.crew ∈ (s.wg k.wg).crews → ∀ l ∈ s.acting is h, ((t.crew is.crew).lane l).st = .run ∧ ((t.crew is.crew).lane l).pc = is.at + 1) ∧
        ∀ c ∈ (s.wg k.wg).crews, c ≠ is.crew → ∀ l < (s.crew c).lanes.length, ((s.crew c).lane l).st = .barwait i →
          ((t.crew c).lane l).st = .run ∧ ((t.crew c).lane l).clock = Clock.merge clock ((s.crew c).lane l).clock) ∧
      (Ready s is h { dst := [(d, 1)], src := MusterH.src m } → ∃ t, exec (.barv h d m) s = .next t ∧
        (t.wg k.wg).muster i = { x with arrival := 0, phase := !x.phase, done := clock, clock := Clock.zero } ∧
        ∀ l ∈ s.acting is h, ((t.crew is.crew).lane l).regs.getD d.toNat 0 = if x.phase then 1 else 0))) ∧
  (∀ (s : State) (is : Issue) (h : Hdr) (d a : BitVec 8) (m : MusterH) (i : Nat) (tok : Nat), s.acting is h ≠ [] →
    let k := s.crew is.crew
    let x := (s.wg k.wg).muster i
    (Ready s is h { src := (a, 1) :: MusterH.src m } → s.setOf is h m = some i → (∀ l ∈ s.acting is h, (s.operand is 0 l a).toNat % 2 = tok) →
      (i < (s.wg k.wg).musters.length → x.member.getLsbD k.num = true →
        (x.phase.toNat ≠ tok → ∃ t, exec (.barw h m a) s = .next t ∧
          LanesOnly s t is (s.acting is h) (fun _ y z => z = { y with clock := Clock.merge x.done y.clock })) ∧
        (x.phase.toNat = tok → ∃ t, exec (.barw h m a) s = .next t ∧
          LanesOnly s t is (s.acting is h) (fun _ y z => z = { y with st := .barwait i, pc := is.at }))) ∧
      (¬ (i < (s.wg k.wg).musters.length ∧ x.member.getLsbD k.num = true) → Traps (.barw h m a) s is tcHandle (handleInfo i 6))) ∧
    (laneMask (s.acting is h) ≠ k.aliveMask →
      (Ready s is h { src := MusterH.src m } → Traps (.bar h m) s is tcConvergence 0) ∧
      (Ready s is h { dst := [(d, 1)], src := MusterH.src m } → Traps (.barv h d m) s is tcConvergence 0)) ∧
    (laneMask (s.acting is h) = k.aliveMask → s.setOf is h m = some i → ¬ (i < (s.wg k.wg).musters.length ∧ x.member.getLsbD k.num = true) →
      (Ready s is h { src := MusterH.src m } → Traps (.bar h m) s is tcHandle (handleInfo i 6)) ∧
      (Ready s is h { dst := [(d, 1)], src := MusterH.src m } → Traps (.barv h d m) s is tcHandle (handleInfo i 6))))


/-! ### Pair, Barge and matrix words -/

/-- R90-R92, Table 5.8: a pair word acts on the lanes whose guard of a half is true; both halves read before either writes, and where both write one register
the second half's value stands. Each operation has the effect of Table 5.8. -/
def Obligations.PairWords : Prop :=
  (decodeWord 0x800102E0121013C0 = .ok (.pairIadd 7 1 2 ⟨.fmul, 8, 9, 7, 0⟩)) ∧
  (∀ (s : State) (is : Issue) (g : BitVec 3) (d r : BitVec 8) (x5 : BitVec 5) (x6 : BitVec 6) (h1 : Half), ∀ f ∈ pairForms g d r x5 x6 h1,
    s.issue = some is → is.crew < s.crews.length → (s.crew is.crew).Shaped (s.gridOf is.crew).regs →
    (pairNeeds f.2 h1).check (s.crew is.crew) (s.gridOf is.crew).regs = none →
    (∀ l < 8, s.regBad is.crew l (Half.reads f.2 ++ Half.reads h1) = false ∧ s.predBad is.crew l (Half.guards f.2 ++ Half.guards h1) = false) →
    let on := fun (q : Half) (l : Nat) => q.g = 7 ∨ ((s.crew is.crew).lane l).preds.getLsbD q.g.toNat = true
    let val := fun (q : Half) (n l : Nat) => halfResult q.op (s.operand is n l q.d) (s.operand is (n + 1) l q.s) q.x
    ∃ t, exec f.1 s = .next t ∧ LanesOnly s t is ((lanesOf is.path).filter (fun l => decide (on f.2 l ∨ on h1 l))) (fun l x y =>
      y = { x with regs := y.regs, pend := y.pend } ∧ y.regs.length = x.regs.length ∧
      ∀ n, y.regs.getD n 0 = if on h1 l ∧ n = h1.d.toNat then val h1 2 l else if on f.2 l ∧ n = f.2.d.toNat then val f.2 0 l else x.regs.getD n 0)) ∧
  (∀ (d s : Word) (x : BitVec 6),
    halfResult .iadd d s x = d + s ∧ halfResult .isub d s x = d - s ∧ halfResult .imin d s x = (if d.toInt ≤ s.toInt then d else s) ∧
    halfResult .imax d s x = (if d.toInt ≤ s.toInt then s else d) ∧ halfResult .and d s x = d &&& s ∧ halfResult .or d s x = d ||| s ∧
    halfResult .xor d s x = d ^^^ s ∧ halfResult .mov d s x = s ∧
    some (halfResult .fadd d s x).toNat = fAdd .f32 ⟨.rne, .inf, false⟩ d.toNat s.toNat ∧
    some (halfResult .fmul d s x).toNat = fMul .f32 ⟨.rne, .inf, false⟩ d.toNat s.toNat ∧
    (halfResult .fmin d s x).toNat = fMin .f32 false d.toNat s.toNat ∧ (halfResult .fmax d s x).toNat = fMax .f32 false d.toNat s.toNat ∧
    some (halfResult .pkadd d s x) = packed (fAdd .f16 ⟨.rne, .inf, false⟩) d s ∧ some (halfResult .pkmul d s x) = packed (fMul .f16 ⟨.rne, .inf, false⟩) d s ∧
    (x.toNat < 32 → halfResult .shl d s x = s <<< x.toNat ∧ halfResult .shr d s x = s >>> x.toNat ∧ halfResult .sar d s x = s.sshiftRight x.toNat) ∧
    halfResult .movi6 d s x = x.signExtend 32 ∧
    halfResult .fneg d s x = (if isNaN .f32 s.toNat then 0x7FC00000 else s ^^^ 0x80000000) ∧
    halfResult .fabs d s x = (if isNaN .f32 s.toNat then 0x7FC00000 else s &&& 0x7FFFFFFF))

/-- R209-R212, R203, R244: a Barge word that names a tile is one lane's. It traps on a manifest that the launch lacks; it waits until the entry has the state and
the phase of its kind and the list of 16 has room; then, if box, tile and addresses fit, its request enters the list, and the entry of a cpy or cpb is FILLING
with the bits above the image set. R209, R210, R214: cpre makes one request for each active lane, if the list has room for all of them, with the box's pages for .warm; it touches no tile. -/
def Obligations.BargeWords : Prop :=
  (∀ (s : State) (is : Issue) (h : Hdr) (th : TileH) (man : BitVec 4) (a b : BitVec 8), ∀ f ∈ bargeForms h th man a b,
    Ready s is h (bargeNeeds th a f.2.2) → s.acting is h ≠ [] →
    let k := s.crew is.crew
    let g := s.gridOf is.crew
    let m := g.mans.getD man.toNat {}
    ((s.acting is h).length ≠ 1 → Traps f.1 s is tcConvergence 0) ∧
    ∀ l, s.acting is h = [l] →
      (g.mans.length ≤ man.toNat → Traps f.1 s is tcHandle (handleInfo man.toNat 7)) ∧
      (∀ (i : Nat) (ph : Bool), man.toNat < g.mans.length → s.regBad is.crew l [(a, m.rank)] = false → s.tileOf is h th = some (i, ph) → i < (s.wg k.wg).tiles.length → ((s.wg k.wg).tile i).len ≠ 0 →
        let x := (s.wg k.wg).tile i
        let cs := boxCoords (s.issueWord is) k l a
        let base := match f.2.2 with | some r => (s.operand is 1 l r).toNat | none => 0
        let ready := x.st = (if f.2.1 = .cpo then .ready else .empty) ∧ x.phase = ph ∧ (s.bargeList k.core g.vd).length < 16
        let n := (m.packed + 511) / 512
        let fits := n ≤ x.len ∧ (m.swz = 0 ∨ m.rowBytes % 512 = 0) ∧ (m.fmt = 3 → cs.getD 0 0 % 128 = 0) ∧
          (f.2.2.isSome → base % 64 = 0 ∧ base + m.packed ≤ (s.basinRange (s.worldNum g.vd) (dieOf k.core)).2)
        (¬ ready → Waits f.1 s is .held) ∧
        (ready → ¬ (n ≤ x.len ∧ (m.swz = 0 ∨ m.rowBytes % 512 = 0)) → Traps f.1 s is tcHandle (handleInfo (handleValue i ph) 2)) ∧
        (ready → fits →
          let r : BReq := { id := 0, kind := f.2.1, vd := g.vd, wg := k.wg, crew := is.crew, lane := l, core := k.core, tile := i, man := m, coords := cs,
                            baddr := base, keyid := g.keyid, lines := m.lines cs, word := s.wordAt is.crew is.at.toNat, chunks := if f.2.1 = .cpo then [] else List.range n }
          let u := s.issueWord is
          let full := BitVec.ofNat 64 (2 ^ x.len - 1) &&& ~~~BitVec.ofNat 64 (2 ^ n - 1)
          let u := if f.2.1 = .cpo then u else u.setTile k.wg i { x with st := .filling, bitmap := full, clocks := [], seen := 0, fillLen := if f.2.1 = .cpy then m.packed else 0, fillAt := if f.2.1 = .cpbIn then some (base, m.packed) else none }
          let u := if f.2.1 = .cpy then u.setNear k.core (Cells.forget (s.nearOf k.core) ((s.wg k.wg).near + x.base) m.packed) else u
          exec f.1 s = .next ((u.addBarge r).bargeKick k.core g.vd)))) ∧
  (∀ (s : State) (is : Issue) (h : Hdr) (man : BitVec 4) (a : BitVec 8), Ready s is h { group := [(a, 5)], banks := [a], role := some 2 } → s.acting is h ≠ [] →
    let k := s.crew is.crew
    let g := s.gridOf is.crew
    let m := g.mans.getD man.toNat {}
    let cs := fun l => boxCoords (s.issueWord is) k l a
    let adds := fun (kind : BKind) (lines : Nat → List BLine) => ((s.acting is h).foldl (fun (u : State) l => u.addBarge
      { id := 0, kind := kind, vd := g.vd, wg := k.wg, crew := is.crew, lane := l, core := k.core, man := m, coords := cs l, keyid := g.keyid, lines := lines l })
      (s.issueWord is)).bargeKick k.core g.vd
    (g.mans.length ≤ man.toNat →
      Traps (.cpreWarm h man a) s is tcHandle (handleInfo man.toNat 7) ∧ Traps (.cpreMig h man a) s is tcHandle (handleInfo man.toNat 7)) ∧
    (man.toNat < g.mans.length → 16 < (s.bargeList k.core g.vd).length + (s.acting is h).length →
      Waits (.cpreWarm h man a) s is .held ∧ Waits (.cpreMig h man a) s is .held) ∧
    (man.toNat < g.mans.length → (s.bargeList k.core g.vd).length + (s.acting is h).length ≤ 16 → (∀ l ∈ s.acting is h, (m.fmt = 3 → (cs l).getD 0 0 % 128 = 0) ∧ s.regBad is.crew l [(a, m.rank)] = false) →
      exec (.cpreWarm h man a) s = .next (adds .warm (fun l => pagesOf (m.lines (cs l)))) ∧ exec (.cpreMig h man a) s = .next (adds .mig (fun _ => []))))

/-- R235-R237: a matrix word needs all eight lanes, else it traps ILLEGAL_CONVERGENCE. xclaim takes a slot that is FREE or its own and waits for another's; xrel
frees its own slot once no operation names it; xfill tags the slot from its format slot and its copy enters the fill engine's queue. -/
def Obligations.MatrixSlotWords : Prop :=
  (∀ (s : State) (is : Issue) (h : Hdr) (la : BitVec 4) (o : SlotH) (os : SlotPair) (th : TileH) (acc fs : BitVec 3) (sat : Bool) (hist : Option (BitVec 3))
    (d a : BitVec 8), ∀ f ∈ matrixForms h la o os th acc fs sat hist d a, Ready s is h { dst := f.2.1, src := f.2.2, role := some 1 } → s.acting is h ≠ [] →
    (s.acting is h).length ≠ 8 → Traps f.1 s is tcConvergence 0) ∧
  (∀ (s : State) (is : Issue) (h : Hdr) (o : SlotH) (i : Nat), (s.acting is h).length = 8 → s.slotOf is h 0 o = some i →
    let k := s.crew is.crew
    let p := (s.wg k.wg).pool k.part
    let x := p.slot i
    let puts := fun (t : State) (y : OSlot) => t.wg k.wg = { s.wg k.wg with pools := (t.wg k.wg).pools } ∧ ((t.wg k.wg).pool k.part).slot i = y ∧
      ∀ m, m ≠ i → ((t.wg k.wg).pool k.part).slot m = p.slot m
    (Ready s is h { src := SlotH.src o, role := some 1 } →
      (p.slots.length ≤ i → Traps (.xclaim h o) s is tcHandle (handleInfo i 0) ∧ Traps (.xrel h o) s is tcHandle (handleInfo i 0)) ∧
      (i < p.slots.length →
        ((x.owner = none ∨ x.owner = some is.crew) → ∃ t, exec (.xclaim h o) s = .next t ∧ WgOnly s t is k.wg ∧ puts t { x with owner := some is.crew }) ∧
        (∀ c, x.owner = some c → c ≠ is.crew → Waits (.xclaim h o) s is .held) ∧
        (x.owner ≠ some is.crew → Traps (.xrel h o) s is tcHandle (handleInfo i 0)) ∧
        (x.owner = some is.crew → (s.crewOps is.crew).any (fun q => q.op.names i) = true → Waits (.xrel h o) s is .held) ∧
        (x.owner = some is.crew → (s.crewOps is.crew).any (fun q => q.op.names i) = false →
          ∃ t, exec (.xrel h o) s = .next t ∧ WgOnly s t is k.wg ∧ puts t { x with owner := none }))) ∧
    (∀ (th : TileH) (b : BitVec 8) (fs : BitVec 3) (off pitch ti : Nat) (ph : Bool), Ready s is h { src := SlotH.src o ++ (b, 1) :: TileH.src th, role := some 1 } →
      s.sameOn is h 1 b = some off → s.tileOf is h th = some (ti, ph) → i < p.slots.length → x.owner = some is.crew →
      let f := (s.gridOf is.crew).fs fs
      let y := (s.wg k.wg).tile ti
      ti < (s.wg k.wg).tiles.length → y.len ≠ 0 → f.isOperand = true → f.pitchFor f.operandRow 8 = some pitch →
      (¬ (y.st = .ready ∧ y.phase = ph ∧ s.matRoom k.core k.part .fill = true) → Waits (.xfill h o th b fs) s is .held) ∧
      (y.st = .ready → y.phase = ph → s.matRoom k.core k.part .fill = true → off + 31 * pitch + f.operandRow ≤ y.len * 512 → off % 8 = 0 →
        ∃ t, exec (.xfill h o th b fs) s = .next t ∧ Queued s t is .fill (.fill i ti off pitch f.operandRow) ∧ (∀ w, w ≠ k.wg → t.wg w = s.wg w) ∧
          puts t { x with fmt := some f.fmt, scl := f.sfmt == 1, xscale := f.xscale })))

/-- R238-R243: xmac, xclr, xst and xfence enter the array's queue while it has room and wait otherwise; xwait and the reading words wait for the crew's operations;
xrd opens a window for elements 4L to 4L + 3 of a row, written 16 clk later; xhcfg clears a histogram, and xhrd reads one. -/
def Obligations.MatrixArrayWords : Prop :=
  ∀ (s : State) (is : Issue) (h : Hdr) (la : BitVec 4) (d a : BitVec 8) (acc fs hs : BitVec 3) (sat : Bool) (os : SlotPair) (hist : Option (BitVec 3)),
    (s.acting is h).length = 8 →
    let k := s.crew is.crew
    let p := (s.wg k.wg).pool k.part
    let f := (s.gridOf is.crew).fs fs
    let room := s.matRoom k.core k.part .array
    let u := s.matUnit k.core k.part
    let takes := fun (i : Instr) (op : MKindOp) => (room = true → Enters i s is .array op) ∧ (room = false → Waits i s is .held)
    (Ready s is h { role := some 1 } →
      ((s.crewOps is.crew = [] → ∃ t, exec (.xwait h) s = .next t ∧ LanesOnly s t is (s.acting is h) (fun _ x y => y = x)) ∧
       (s.crewOps is.crew ≠ [] → Waits (.xwait h) s is .held)) ∧
      takes (.xfence h) (.fence (((s.mats.flatMap (·.fillQ)).filter (fun o => o.crew == is.crew && o.pending s.t)).map (·.id))) ∧
      (acc.toNat < p.accs.length → takes (.xclr h acc) (.clr acc.toNat)) ∧
      (p.accs.length ≤ acc.toNat → Traps (.xclr h acc) s is tcHandle (handleInfo acc.toNat 1))) ∧
    (∀ i j, Ready s is h { src := SlotPair.src os, role := some 1 } → s.pairOf is h os = some (i, j) → i < p.slots.length → j < p.slots.length →
      acc.toNat < p.accs.length → (p.slot i).owner = some is.crew → (p.slot j).owner = some is.crew → (p.slot i).fmt = some f.fmt → (p.slot j).fmt = some f.fmt →
      ((f.fmt ≠ 15 ∧ f.rm = .rne ∧ (sat = true → f.fmt = 4)) → takes (.xmac h sat acc os fs)
        (.mac i j acc.toNat f sat (p.slot i).scl (p.slot j).scl (p.slot i).xscale (p.slot j).xscale)) ∧
      (¬ (f.fmt ≠ 15 ∧ f.rm = .rne ∧ (sat = true → f.fmt = 4)) → Traps (.xmac h sat acc os fs) s is tcHandle (handleInfo fs.toNat 3))) ∧
    (∀ v, s.sameOn is h 0 a = some v →
      (∀ pitch, Ready s is h { src := [(a, 1)], role := some 1 } → acc.toNat < p.accs.length → f.fmt ≠ 3 → f.fmt ≠ 15 → f.sfmt ≠ 1 → f.ov ≠ .trap →
        (hist.isSome → f.fmt < 4) → f.pitchFor (32 * f.esz) f.esz = some pitch → v + 31 * pitch + 32 * f.esz ≤ (s.gridOf is.crew).near * 512 → v % f.esz = 0 →
        takes (.xst h a acc fs hist) (.drain acc.toNat v { f with pitch := pitch } (hist.map (·.toNat)))) ∧
      (Ready s is h { dst := [(d, 4)], src := [(a, 1)], role := some 1 } → acc.toNat < p.accs.length →
        (31 < v → Traps (.xrd h la d acc a) s is tcHandle (handleInfo v 5)) ∧
        (v ≤ 31 → s.arrayOps is.crew ≠ [] → Waits (.xrd h la d acc a) s is .held) ∧
        (v ≤ 31 → s.arrayOps is.crew = [] → (∀ m < 32, s.accBad k.wg k.part acc.toNat (32 * v + m) = false) → ∃ t, exec (.xrd h la d acc a) s = .next t ∧
          OpensFixed s t is (s.acting is h) .xrd la d.toNat 16 (fun l => (List.range 4).map (fun m => (p.accs.getD acc.toNat {}).word (32 * v + 4 * l + m))))) ∧
      (Ready s is h { src := [(a, 1)], role := some 1 } →
        (s.arrayOps is.crew ≠ [] → Waits (.xhcfg h hs a) s is .held) ∧
        (s.arrayOps is.crew = [] → ∃ t, exec (.xhcfg h hs a) s = .next t ∧ t = { s.issueWord is with mats := t.mats } ∧
          t.matUnit k.core k.part = { u.count s.t with hists := (u.count s.t).hists.set hs.toNat (some { base := (BitVec.ofNat 32 v).toInt, bins := List.replicate 32 0, spec := 0 }) } ∧
          ∀ c q, (c, q) ≠ (k.core, k.part) → t.matUnit c q = s.matUnit c q)) ∧
      (Ready s is h { dst := [(d, 1)], src := [(a, 1)], role := some 1 } →
        (4 < v → Traps (.xhrd h d hs a) s is tcHandle (handleInfo v 5)) ∧
        (v ≤ 4 → s.arrayOps is.crew ≠ [] → Waits (.xhrd h d hs a) s is .held) ∧
        (∀ x, v ≤ 4 → s.arrayOps is.crew = [] → (u.count s.t).hists.getD hs.toNat none = some x →
          GivesReg (.xhrd h d hs a) s is h d (fun l => BitVec.ofNat 32 (if v < 4 then x.bins.getD (8 * v + l) 0 else if l = 0 then x.spec else 0)))))

/-! ### Far, Kiteline and Wharf words -/

/-- R258-R261, R264, R265, R309: a far word checks every lane first; it waits, HELD, until each page that it names has been looked up; then, with room for its
replies and its requests and no lane behind the side log or a queued flag, it opens its windows and makes one request for each line or lane, in lane order. -/
def Obligations.FarWords : Prop :=
  ∀ (s : State) (is : Issue) (h : Hdr) (la : BitVec 4) (wd : Width) (w2 : Width2) (op : Aop) (ty : Aty) (sw : Bool) (d a b c : BitVec 8)
    (mk : Option (BitVec 8)) (o10 : BitVec 10) (o9 : BitVec 9), ∀ f ∈ farForms s is h la wd w2 op ty sw d a b c mk o10 o9,
    Ready s is h f.needs → s.acting is h ≠ [] →
    let k := s.crew is.crew
    let v := s.vdOf is.crew
    let u := s.issueWord is
    let w := Width.bytes f.op.wd
    let addr := fun l => (BitVec.ofInt 64 (((s.operand64 is 0 l a).toNat : Int) + f.ofs)).toNat
    let busy := (f.asks (s.acting is h) addr).filter (fun q => !q.idle f.op)
    (∀ l ∈ s.acting is h, addr l % w ≠ 0 → (∀ m ∈ s.acting is h, m < l → addr m % w = 0) → Traps f.i s is tcMisaligned (farInfo (addr l) 0 l)) ∧
    ((∀ l ∈ s.acting is h, addr l % w = 0) →
      (∀ l ∈ s.acting is h, 2 ^ 57 ≤ addr l → (∀ m ∈ s.acting is h, m < l → addr m < 2 ^ 57) → Traps f.i s is tcFarAccess (farInfo (addr l) 0 l)) ∧
      ((∀ l ∈ s.acting is h, addr l < 2 ^ 57) →
        ((∃ q ∈ busy, s.wordJob is.crew q.page f.op.acc = none) → ∃ t, exec f.i s = .next t ∧
          (∀ l ∈ lanesOf is.path, (t.crew is.crew).lane l = { (s.crew is.crew).lane l with st := .held }) ∧ (∀ x, x ≠ is.crew → t.crew x = s.crew x) ∧
          ((s.queueOf (.ctlb k.core) (s.worldNum v)).length + 8 ≤ 64 → ∀ q ∈ busy, ∃ j ∈ t.jobs, j.cont = .word is.crew ∧ j.va / 4096 = q.page ∧ j.acc = f.op.acc)) ∧
        (∀ leaf : Nat → Leaf, (∀ l ∈ s.acting is h, u.pageResult is.crew f.op (addr l / 4096) = some (.leaf (leaf l))) →
          u.reserved v k.core + busy.length ≤ 256 →
          (∀ l ∈ s.acting is h, u.farMustWait is.crew l (addr l) w (f.op.op = .read ∨ f.op.op = .atom ∨ f.op.op = .cas) (some (Leaf.home (leaf l))) = false) →
          (f.op.op = .write ∨ f.op.op = .red → ∀ l ∈ s.acting is h, u.laneSideLog is.crew l = []) →
          (f.op.op = .flag → ∀ l ∈ s.acting is h, (k.lane l).flags.length < 4) →
          (∀ q ∈ busy, ∀ x n st, u.pageResult is.crew f.op q.page = some (.leaf x) →
            u.farTarget v (s.gridOf is.crew).keyid f.op.op x q.va n = some st → (s.queueOf st.1 st.2).length + 8 ≤ 64) →
          let u := match f.opens with
            | none => u
            | some (kind, d, n) => u.setCrew is.crew ((u.crew is.crew).onLanes (s.acting is h) (fun _ x =>
                openWindow x { id := s.nextId, kind := kind, win := la.toNat, base := d.toNat, regs := (List.range n).map (d.toNat + ·) }))
          let u := (busy.foldl (fun (u : State) q => u.issueAsk f.op f.src q) u).dropWordJobs is.crew
          let u := if f.op.op = .flag then u.queueFlags else u
          exec f.i s = .next (u.mend is.crew (s.acting is h) f.needs))))

/-- R285-R287, R295: kst and kfaa queue one broadcast for each active lane, in lane order, with the lane's clock, kfaa with a window; kld reads the replica and
kwait compares it, both behind the lane's own broadcasts; the acquiring forms take the replica clock. -/
def Obligations.KiteWords : Prop :=
  ∀ (s : State) (is : Issue) (h : Hdr) (la : BitVec 4) (rel acq u : Bool) (wd : Width2) (cc : Cond) (d a b c : BitVec 8) (ofs : BitVec 10), s.acting is h ≠ [] →
    let k := s.crew is.crew
    let v := s.vdOf is.crew
    let addr := fun l => addr32 (s.operand is 0 l a) ofs.toInt
    let inside := fun w => ∀ l ∈ s.acting is h, addr l + w ≤ 65536 ∧ addr l % w = 0
    let n := (s.acting is h).length
    let sends := fun (t : State) (w : Nat) (faa : Bool) (e : Option Nat) => ∃ qs, t.vd v = { s.vd v with kq := (s.vd v).kq ++ qs } ∧ (∀ x, x ≠ v → t.vd x = s.vd x) ∧
      qs.map (fun q => (q.crew, q.lane, q.entry, q.sent)) = (s.acting is h).map (fun l => (is.crew, l, e, false)) ∧
      qs.map (fun q => (q.b.faa, q.b.w64, q.b.rel, q.b.addr, q.b.data, q.b.clock)) = (s.acting is h).map (fun l =>
        (faa, decide (w = 8), rel, addr l, BitVec.ofNat 64 (ofBytes (rdBytes (s.issueWord is) k 1 l b w)), (k.lane l).clock))
    let w := Width2.bytes wd
    (Ready s is h { src := [(a, 1), (b, Width2.count wd)] } →
      (∀ l ∈ s.acting is h, 65536 < addr l + w → (∀ m ∈ s.acting is h, m < l → addr m + w ≤ 65536) →
        Traps (.kst h rel wd a b ofs) s is tcNearBounds (spaceInfo (addr l) l 3)) ∧
      (inside w → 64 < (s.vd v).kq.length + n → Waits (.kst h rel wd a b ofs) s is .held) ∧
      (inside w → (s.vd v).kq.length + n ≤ 64 → s.starLost = false → v < s.vds.length →
        ∃ t, exec (.kst h rel wd a b ofs) s = .next t ∧ t = { s.issueWord is with vds := t.vds } ∧ sends t w false none)) ∧
    (Ready s is h { dst := [(d, 1)], src := [(a, 1), (b, 1)] } → inside 4 → (s.vd v).kq.length + n ≤ 64 → s.starLost = false → v < s.vds.length →
      ∃ t, exec (.kfaa h la rel d a b ofs) s = .next t ∧ LaneFrame s t is (s.acting is h) ∧
        t = { s.issueWord is with crews := t.crews, badSram := t.badSram, vds := t.vds, nextId := s.nextId + 1 } ∧ sends t 4 true (some s.nextId) ∧
        ∀ l ∈ s.acting is h, (t.crew is.crew).lane l =
          openWindow (k.lane l).issueOne { id := s.nextId, kind := .kfaa, win := la.toNat, base := d.toNat, regs := [d.toNat] }) ∧
    (Ready s is h { dst := [(d, Width2.count wd)], src := [(a, 1)] } → inside w → (∀ l ∈ s.acting is h, s.kiteBad v (addr l) w = false) →
      ((∃ l ∈ s.acting is h, s.kiteBehind v is.crew l (addr l) w = true) → Waits (.kld h acq wd d a ofs) s is .held) ∧
      ((∀ l ∈ s.acting is h, s.kiteBehind v is.crew l (addr l) w = false) → ∃ t, exec (.kld h acq wd d a ofs) s = .next t ∧
        LanesOnly s t is (s.acting is h) (fun l x y => ∃ z, WritesRegs d.toNat (extendLoad (Width2.wide wd) ((s.vd v).cells.read (addr l) w)) x z ∧
          y = acquired acq (s.vd v).rc z))) ∧
    (Ready s is h { src := [(a, 1), (b, 1), (c, 1)] } → inside 4 → (∀ l ∈ s.acting is h, s.kiteBad v (addr l) 4 = false) →
      let holds := fun l => condOf cc (ival u (BitVec.ofNat 32 (ofBytes ((s.vd v).cells.read (addr l) 4)) &&& s.operand is 2 l c)) (ival u (s.operand is 1 l b))
      let goes := ∀ l ∈ s.acting is h, holds l ∧ s.kiteBehind v is.crew l (addr l) 4 = false
      (goes → ∃ t, exec (.kwait h cc u acq a b c ofs) s = .next t ∧ LanesOnly s t is (s.acting is h) (fun _ x y => y = acquired acq (s.vd v).rc x)) ∧
      (¬ goes → Waits (.kwait h cc u acq a b c ofs) s is .held))

/-- R276-R278: msend and mpost are one lane's. Once the rank is valid, the place exists, a table entry is free and a tile end has its state and phase, msend
makes the entry of the lowest free index, takes the next MSEQ of its destination, and reads its bytes; mpost makes its entry, empties and fills its tile, and its
match step is asked for. Each gives the handle of its entry. -/
def Obligations.WharfPostingWords : Prop :=
  ∀ (s : State) (is : Issue) (h : Hdr) (cw nr : Bool) (d a b : BitVec 8) (e : WEnd), s.acting is h ≠ [] →
    let k := s.crew is.crew
    let v := s.vdOf is.crew
    let g := s.gridOf is.crew
    let u := s.issueWord is
    let gives := fun (u : State) (w : Word) => u.setCrew is.crew ((u.crew is.crew).onLanes (s.acting is h) (fun _ y => regWrite y d.toNat w))
    (Ready s is h (WEnd.needs e d [(a, 1), (b, 2)]) →
      ((s.acting is h).length ≠ 1 → Traps (.msend h nr d a b e) s is tcConvergence 0) ∧
      ∀ l, s.acting is h = [l] →
        let r := (s.operand is 0 l a).toNat % 4096
        let en := (s.vd v).rankEntry r
        let pair := s.operand64 is 1 l b
        let n := (pair >>> 32).toNat
        (en.msb = false → Traps (.msend h nr d a b e) s is tcHandle (BitVec.ofNat 64 (r * 4096 + 5 * 512))) ∧
        ∀ place cap tile i, en.msb = true → s.endOf is h e l = .ok (place, cap, tile) → (s.vd v).freeTx = some i →
          (s.endReady k tile .ready = false → Waits (.msend h nr d a b e) s is .held) ∧
          (s.endReady k tile .ready = true → n ≤ 32768 → n ≤ cap → place.coordBad = none → s.regBad is.crew l (WEnd.reads e place) = false → (∀ ti ph, tile = some (ti, ph) → s.tileHurt k.wg ti n = false) →
            let pkg := en.toNat % 1024
            let dvd := en.toNat / 1024 % 128
            let q := (((s.vd v).mseqs.find? (fun m => m.1 == pkg && m.2.1 == dvd)).map (·.2.2)).getD 0
            let gen := ((s.vd v).tx i).gen + 1
            let x : Tx := { gen := gen, live := true, nr := nr, crew := is.crew, lane := l, wg := k.wg, core := k.core, place := place, rank := r, pkg := pkg, dvd := dvd,
                            tag := pair.setWidth 32, mlen := n, mseq := q, keyid := g.keyid, clock := (k.lane l).clock, lines := place.lines n }
            let u := u.setTx v i x
            let u := u.setVd v { u.vd v with mseqs := (u.vd v).mseqs.filter (fun m => !(m.1 == pkg && m.2.1 == dvd)) ++ [(pkg, dvd, q + 1)] }
            let u := ((gives u (handleWord true gen i)).gather v i (List.range x.lines.length)).txReady v i
            exec (.msend h nr d a b e) s = .next (u.mend is.crew (s.acting is h) (WEnd.needs e d [(a, 1), (b, 2)])))) ∧
    (Ready s is h (WEnd.needs e d [(a, 2), (b, 2)]) →
      ((s.acting is h).length ≠ 1 → Traps (.mpost h cw nr d a b e) s is tcConvergence 0) ∧
      ∀ l, s.acting is h = [l] → ∀ place cap tile i, s.endOf is h e l = .ok (place, cap, tile) → (s.vd v).freeRx = some i →
        let pa := s.operand64 is 0 l a
        let pb := s.operand64 is 1 l b
        let o := (pa >>> 32).toNat
        let ready := s.endReady k tile .empty = true ∧ (s.queueOf .wharf (s.worldNum v)).length < 64
        (¬ ready → Waits (.mpost h cw nr d a b e) s is .held) ∧
        (ready → place.coordBad = none → s.regBad is.crew l (WEnd.reads e place) = false → (cw = true → o + 8 ≤ g.near * 512 ∧ o % 8 = 0) →
          let gen := ((s.vd v).rx i).gen + 1
          let r : Rx := { gen := gen, live := true, nr := nr, rank := pa.toNat % 4096, rmask := pa.toNat / 65536 % 4096, rtag := pb.setWidth 32,
                          tmask := (pb >>> 32).setWidth 32, place := place, wg := k.wg, crew := is.crew, lane := l, core := k.core, keyid := g.keyid, cap := cap,
                          phase := (match tile with | some (_, ph) => ph | none => false), cw := if cw then some o else none }
          let u := u.setRx v i r
          let u := match tile with
            | none => u
            | some (ti, _) =>
              let x := (s.wg k.wg).tile ti
              u.setTile k.wg ti { x with st := .filling, bitmap := 0, clocks := [], fillLen := x.len * 512, fillAt := none, seen := 0 }
          exec (.mpost h cw nr d a b e) s = .next (((gives u (handleWord false gen i)).wharfIn v (.post i)).mend is.crew (s.acting is h) (WEnd.needs e d [(a, 2), (b, 2)]))))

/-- R279, R304: mcancel, mprobe and mtest put one entry for each active lane in the input queue, if it has room for all, the last two with a window for the
status word; mwait waits until every lane's entry is final, then gives each status word at once and frees the entry. -/
def Obligations.WharfQueryWords : Prop :=
  ∀ (s : State) (is : Issue) (h : Hdr) (la : BitVec 4) (d a b : BitVec 8), s.acting is h ≠ [] →
    let k := s.crew is.crew
    let v := s.vdOf is.crew
    let full := 64 < (s.queueOf .wharf (s.worldNum v)).length + (s.acting is h).length
    let A := fun l => s.operand is 0 l a
    let puts := fun (t : State) (entry : Nat → WIn) => (t.vd v) = { s.vd v with inq := (s.vd v).inq ++ (s.acting is h).map entry } ∧ (∀ x, x ≠ v → t.vd x = s.vd x) ∧
      (t.queueOf .wharf (s.worldNum v)).length = (s.queueOf .wharf (s.worldNum v)).length + (s.acting is h).length
    let opens := fun (i : Instr) (entry : Nat → WIn) => (full → Waits i s is .held) ∧ (¬ full → v < s.vds.length → ∃ t, exec i s = .next t ∧ LaneFrame s t is (s.acting is h) ∧
      t = { s.issueWord is with crews := t.crews, badSram := t.badSram, vds := t.vds, reqs := t.reqs, nextId := s.nextId + 1 } ∧ puts t entry ∧
      ∀ l ∈ s.acting is h, (t.crew is.crew).lane l =
        openWindow (k.lane l).issueOne { id := s.nextId, kind := .wharf, win := la.toNat, base := d.toNat, regs := [d.toNat, d.toNat + 1] })
    (Ready s is h { src := [(a, 1)] } → (full → Waits (.mcancel h a) s is .held) ∧
      (¬ full → v < s.vds.length → ∃ t, exec (.mcancel h a) s = .next t ∧ t = { s.issueWord is with vds := t.vds, reqs := t.reqs } ∧ puts t (fun l => .cancel (A l)))) ∧
    (Ready s is h { dst := [(d, 2)], src := [(a, 1), (b, 2)] } → opens (.mprobe h la d a b) (fun l =>
      let p := s.operand64 is 1 l b
      .probe is.crew l s.nextId ((A l).toNat % 4096) ((A l).toNat / 65536 % 4096) (p.setWidth 32) ((p >>> 32).setWidth 32))) ∧
    (Ready s is h { dst := [(d, 2)], src := [(a, 1)] } →
      opens (.mtest h la d a) (fun l => .test is.crew l s.nextId (A l)) ∧
      ((∃ l ∈ s.acting is h, ((s.vd v).handleStat (A l)).final = false) → Waits (.mwait h d a) s is .held) ∧
      ((∀ l ∈ s.acting is h, ((s.vd v).handleStat (A l)).final = true) →
        exec (.mwait h d a) s = .next (((s.acting is h).foldl (fun (u : State) l =>
          (u.setCrew is.crew ((u.crew is.crew).setLane l ((pairWrite ((u.crew is.crew).lane l) d.toNat ((u.vd v).handleWordOf (A l))).acquire
            ((u.vd v).handleClock (A l))))).report v (A l)) (s.issueWord is)).mend is.crew (s.acting is h) { dst := [(d, 2)], src := [(a, 1)] })))

/-! ### Command entries and placement -/

/-- R45-R49, R56, Tables 3.2 and 3.3: a doorbell starts an IDLE context; END idles it; JUMP, CALL and RET move it, with faults 2, 3 and 4 for a bad address, a
ninth push and an empty stack; SKIPIF, after earlier work, goes on past CNT entries or to the next; WAITV goes on where its compare holds, and otherwise looks
again, by a read asked for so early that it comes within 2,800 clk (log 15); a frozen host's doorbell is refused (R347). R49-R56: an entry that must wait does, and one that reads, writes or hashes asks the command processor for its acceptances first (log 15);
then SIGNAL, after its context's receipts too, releases its value and raises its interrupt (on the vector of log 23), MEASURE hashes the buffer into the chain, RECEIPT counts and writes 400 bytes and
their signature, and LAUNCH is numbered, measured, its bitmap zeroed, and handed to the dispatcher. -/
def Obligations.CommandEntries : Prop :=
  (∀ (s : State) (c : CtxRef) (e : Entry) (x : Ctx), s.ctx c = x →
    let stops := fun (i : Instr) (code : Nat) => exec i s = .next (s.ctxFault c.vd c.ctx code)
    (s.health.hfrz = true → exec (.doorbell c) s = .next (s.emit (.reply .host .frozen []))) ∧
    (s.health.hfrz = false → x.st = .idle → (s.vd c.vd).released = false →
      ((s.vd c.vd).run = .running → exec (.doorbell c) s = .next ((s.setVd c.vd { s.vd c.vd with quiet := none }).fetchEntry c)) ∧
      ((s.vd c.vd).run ≠ .running → exec (.doorbell c) s = .next (s.setCtx c { x with bell := true }))) ∧
    (x.active = true →
      exec (.endE c) s = .next (s.setCtx c { x with st := .idle, held := none }) ∧
      (e.addr.toNat % 32 ≠ 0 → stops (.jump c e) 2 ∧ stops (.callEntry c e) 2) ∧
      (e.addr.toNat % 32 = 0 →
        GoesTo (.jump c e) s c x e.addr.toNat ∧
        (x.stack.length < 8 → GoesTo (.callEntry c e) s c { x with stack := (x.eptr + 32) :: x.stack } e.addr.toNat) ∧
        (8 ≤ x.stack.length → stops (.callEntry c e) 3)) ∧
      (x.stack = [] → stops (.retEntry c) 4) ∧
      (∀ a rest, x.stack = a :: rest → GoesTo (.retEntry c) s c { x with stack := rest } a) ∧
      (s.earlierDone c = false → exec (.skipif c e) s = .next (s.setCtx c { x with st := .waiting, held := some (.skipif c e) })) ∧
      ((e.cnt = 0 ∨ e.cmp = 7 ∨ Entry.aligned e = false) → s.earlierDone c = true → stops (.skipif c e) 2) ∧
      ((e.cmp = 7 ∨ Entry.aligned e = false) → stops (.waitv c e) 2) ∧
      (e.cmp ≠ 7 → Entry.aligned e = true →
        let looks := fun (v : State) => v.cpCount c.vd x.keyid e.addr.toNat (Entry.bytes e)
        (e.cnt ≠ 0 → s.earlierDone c = true →
          (x.pay = none → exec (.skipif c e) s = .next ((s.setCtx c { x with st := .running, held := none }).payFor c 1 0 (.skipif c e))) ∧
          (∀ w, x.paid s.t = true → (s.setCtx c { x with st := .running, held := none, pay := none }).condition c e = .ok w →
            ∃ t, exec (.skipif c e) s = .next t ∧ EntryAt (looks (s.setCtx c { x with st := .running, held := none, pay := none })) t c x
              (x.eptr + 32 * (1 + if compareHolds e w then e.cnt.toNat else 0)))) ∧
        (x.pay = none → exec (.waitv c e) s = .next (s.payFor c 1 0 (.waitv c e))) ∧
        (∀ w, x.paid s.t = true → (s.setCtx c { x with pay := none }).condition c e = .ok w →
          (compareHolds e w = true → ∃ t, exec (.waitv c e) s = .next t ∧ EntryAt (looks (s.setCtx c { x with pay := none })) t c x (x.eptr + 32)) ∧
          (compareHolds e w = false → ∃ t, exec (.waitv c e) s = .next t ∧ t.ctx c = { x with st := .waiting, held := some (.waitvReread c e), pay := none } ∧
            ((∀ a ∈ s.agenda, a.2 ≠ .waitvReread c e) → (s.rereadAt, Instr.waitvReread c e) ∈ t.agenda))) ∧
        (x.st = .waiting → x.held = some (.waitvReread c e) → (s.vd c.vd).run = .running → (∀ j ∈ s.jobs, j.cont ≠ .cp (.waitvReread c e)) →
          (x.pay = none → exec (.waitvReread c e) s = .next (s.payFor c 1 0 (.waitvReread c e))) ∧
          (∀ w, x.paid s.t = true → (s.setCtx c { x with pay := none }).condition c e = .ok w → compareHolds e w = true →
            ∃ t, exec (.waitvReread c e) s = .next t ∧ EntryAt (looks (s.setCtx c { x with pay := none })) t c x (x.eptr + 32)))))) ∧
  (∀ (s : State) (c : CtxRef) (e : Entry) (x : Ctx), s.ctx c = x → x.active = true →
    let u := s.setCtx c { x with st := .running, held := none }
    let y : Ctx := { x with st := .running, held := none, pay := none }
    let z := s.setCtx c y
    let holds := fun (i : Instr) => exec i s = .next (s.setCtx c { x with st := .waiting, held := some i })
    let stops := fun (i : Instr) (code : Nat) => exec i s = .next (s.ctxFault c.vd c.ctx code)
    let big := e.value.toNat = 0 ∨ 2 ^ 40 < e.value.toNat
    (s.earlierDone c = false → holds (.measure c e) ∧ holds (.receipt c e)) ∧
    ((s.earlierDone c = false ∨ s.putPending c.vd c.ctx .receipt = true) → holds (.signal c e)) ∧
    (s.earlierDone c = true →
      let first := s.putPending c.vd c.ctx .receipt = false
      ((first → Entry.aligned e = false → stops (.signal c e) 2) ∧ (big → stops (.measure c e) 2) ∧ (e.addr.toNat % 8 ≠ 0 → stops (.receipt c e) 2)) ∧
      (x.pay = none →
        (first → Entry.aligned e = true → exec (.signal c e) s = .next (u.payFor c 1 0 (.signal c e))) ∧
        (¬ big → exec (.measure c e) s = .next (u.payFor c 0 (hashBlocks e.value.toNat + hashBlocks 129) (.measure c e))) ∧
        (e.addr.toNat % 8 = 0 → exec (.receipt c e) s = .next (u.payFor c 50 0 (.receipt c e)))) ∧
      (x.paid s.t = true →
        (first → Entry.aligned e = true → z.cpMayWrite c.vd x.keyid e.addr.toNat (Entry.bytes e) = .ok () →
          let w := z.cpWrite c.vd c.ctx x.keyid (.signal e.irq) .flag e.addr.toNat (toBytes (Entry.bytes e) e.value.toNat)
          let done := if e.irq then (w.wakeWaits c.vd).emit (.msix c.vd (c.ctx + 1)) else w.wakeWaits c.vd
          exec (.signal c e) s = .next ((if w.putPending c.vd c.ctx (.signal e.irq) then w else done).nextEntry c)) ∧
        (∀ bs, ¬ big → z.cpRead c.vd x.keyid e.addr.toNat e.value.toNat = .ok bs → ∃ t, exec (.measure c e) s = .next t ∧
          EntryAt (z.cpCount c.vd x.keyid e.addr.toNat e.value.toNat) t c { y with chain := sha512 (x.chain ++ [0x03] ++ sha512 bs) } (x.eptr + 32)) ∧
        (e.addr.toNat % 8 = 0 → z.cpMayWrite c.vd x.keyid e.addr.toNat 400 = .ok () →
          let w := z.setCtx c { y with rcpt := x.rcpt + 1 }
          let head := w.receiptHead c e
          let sig := Config.signature (sha512 head)
          exec (.receipt c e) s = .next ((w.cpWrite c.vd c.ctx x.keyid .receipt .write e.addr.toNat (head ++ sigBytes sig.1 ++ sigBytes sig.2)).nextEntry c)))) ∧
    (x.made = none → e.addr.toNat % 256 ≠ 0 → stops (.launch c e) 2) ∧
    (x.made = none → e.addr.toNat % 256 = 0 → 64 ≤ s.liveGrids c.vd → holds (.launch c e)) ∧
    (x.made = none → e.addr.toNat % 256 = 0 → s.liveGrids c.vd < 64 →
      (u.makeLaunch c e.addr.toNat (x.launch + 1) = .error .invalid → exec (.launch c e) s = .next
        ((((u.launchReads c e.addr.toNat .invalid).foldl (fun (s : State) r => s.cpCount c.vd x.keyid r.1 r.2) u).setCtx c
          { x with st := .running, held := none, launch := x.launch + 1 }).ctxFault c.vd c.ctx 1)) ∧
      (∀ m, u.makeLaunch c e.addr.toNat (x.launch + 1) = .ok m →
        let blocks := (if m.cached then 0 else hashBlocks m.extent.len) + hashBlocks m.argLen + hashBlocks 256 + hashBlocks 257
        ∃ t, exec (.launch c e) s = .next t ∧ (⟨.cp, s.worldNum c.vd, .work c.ctx m.words blocks (.launch c e), s.t⟩ : Req) ∈ t.reqs ∧
          t.ctx c = { x with st := .running, held := none, pay := some none, launch := m.grid.launch, made := some m.grid, stage := 1, codeDig := m.code, argDig := m.args, pre := x.chain, resDig := [], rv := false, stat := 0, chain := sha512 (x.chain ++ [0x01] ++ m.code ++ m.args ++ m.record) })) ∧
    (∀ g, x.made = some g →
      (x.stage ≠ 3 → x.paid s.t = false → exec (.launch c e) s = .next s) ∧
      (x.stage ≠ 3 → x.paid s.t = true → g.cbmp = 0 → exec (.launch c e) s = .next (s.endLaunch c g)) ∧
      (x.stage = 1 → x.paid s.t = true → g.cbmp ≠ 0 → exec (.launch c e) s = .next ((s.setCtx c { x with stage := 2 }).payFor c ((g.mapBytes + 7) / 8) 0 (.launch c e))) ∧
      (x.stage = 2 → x.paid s.t = true → g.cbmp ≠ 0 → s.cpMayWrite c.vd g.keyid g.cbmp g.mapBytes = .ok () →
        let w := (s.cpWrite c.vd c.ctx g.keyid .zero .write g.cbmp (List.replicate g.mapBytes 0)).setCtx c { x with stage := 3, held := some (.launch c e) }
        exec (.launch c e) s = .next (if w.putPending c.vd c.ctx .zero then w else w.endLaunch c g)) ∧
      (x.stage = 3 → exec (.launch c e) s = .next (if s.putPending c.vd c.ctx .zero then s else s.endLaunch c g)) ∧
      (g.prod = none → g.meas = false → EntryAt { s with grids := s.grids ++ [g] } (s.endLaunch c g) c x (x.eptr + 32))))

/-- R57-R61, R25, R36, R119, R207: PLACE_WORKGROUP reserves and starts the grid's next workgroup on the first core that fits, its crews ready 32 clk later at ENTRY
with the launch's registers, passing over a core that is out of service (R357; log 25); a co-resident grid is reserved whole or not at all; ITEM_MOVE adds up to 64 items. -/
def Obligations.PlacementEvents : Prop :=
  (∀ (s : State) (v gi core near : Nat) (seats : List Seat) (q : Pointers), s.passNext v = none → gi < s.grids.length → Grid.wants (s.grid gi) v = true → (s.grid gi).cor = false →
    (s.grid gi).tried = false → s.depsMet (s.grid gi) (s.grid gi).nextWg = true → s.findCore v (s.grid gi) = some (core, seats, near, q) →
    let g := s.grid gi
    let w := s.wgs.length
    let start := [BitVec.ofNat 32 g.args, BitVec.ofNat 32 (g.args / 2 ^ 32), BitVec.ofNat 32 (g.near * 512)] ++ List.replicate (g.regs - 3) 0
    let lane : Lane := { pc := BitVec.ofNat 32 g.entry, st := .held, clock := s.marks v, regs := start }
    ∃ t, exec (.placeWorkgroup v gi) s = .next t ∧ t = (((s.noteTried v (some gi)).countAccept .disp).reserve gi (core, seats, near, q)).placeReserved w ∧
      (t.wg w).live = true ∧ (t.wg w).placed = true ∧ (t.wg w).grid = gi ∧ (t.wg w).num = g.nextWg ∧ (t.wg w).core = core ∧ (t.wg w).near = near ∧
      (t.wg w).tiles = List.replicate g.tiles {} ∧ (t.wg w).musters = g.muster.map (fun m => { member := m }) ∧
      (t.wg w).crews = (List.range g.crews).map (s.crews.length + ·) ∧ (t.grid gi).nextWg = g.nextWg + 1 ∧ (s.t + 32, Instr.crewsReady w) ∈ t.agenda ∧
      (∀ x < w, t.wg x = s.wg x) ∧ (∀ c < s.crews.length, t.crew c = s.crew c) ∧
      ∀ c < g.crews, let k := t.crew (s.crews.length + c)
        k.live = true ∧ k.wg = w ∧ k.num = c ∧ k.role = g.roles.getD c 0 ∧ k.core = core ∧ k.part = (seats.getD c default).part ∧ k.ready = s.t + 32 ∧
        k.joins = List.replicate 4 {} ∧ k.lanes = List.replicate 8 lane) ∧
  (∀ (s : State) (v w : Nat), s.passNext v = some w → exec (.placeWorkgroup v (s.wg w).grid) s = .next ((s.countAccept .disp).placeReserved w)) ∧
  (∀ (s : State) (v gi : Nat), Grid.wants (s.grid gi) v = true → (s.grid gi).nextWg = 0 → (s.grid gi).cor = true →
    (∀ w < (s.grid gi).size, s.depsMet (s.grid gi) w = true) →
    (∀ u, (s.grid gi).tried = false → State.reserveAll (s.grid gi).size s gi = some u →
      exec (.coresidentPass v gi) s = .next ((State.reserveAll (s.grid gi).size (s.noteTried v (some gi)) gi).getD s) ∧
      (s.noteTried v (some gi) = s → exec (.coresidentPass v gi) s = .next u)) ∧
    (State.reserveAll (s.grid gi).size s gi = none → exec (.coresidentPass v gi) s = .next s)) ∧
  (∀ (s : State) (w : Nat), (∀ c ∈ (s.wg w).crews, c < s.crews.length) → ∃ t, exec (.crewsReady w) s = .next t ∧ t = { s with crews := t.crews, wgs := t.wgs } ∧
    (∀ x, x ≠ w → t.wg x = s.wg x) ∧ (w < s.wgs.length → t.wg w = { s.wg w with started := true }) ∧
    (∀ c, c ∉ (s.wg w).crews → t.crew c = s.crew c) ∧
    ∀ c ∈ (s.wg w).crews, (s.crew c).live = true → t.crew c = { s.crew c with ready := s.t, lanes := (s.crew c).lanes.map Lane.wake }) ∧
  (∀ (s : State) (gi core : Nat), (s.grid gi).queues.any (fun q => q.core == core && q.fell.isSome) = true → (s.grid gi).nextItem < (s.grid gi).lastItem →
    let g := s.grid gi
    let n := min 64 (g.lastItem - g.nextItem)
    ∃ t, exec (.itemMove gi core) s = .next t ∧ t = { s.countAccept .items with grids := t.grids } ∧ (∀ x, x ≠ gi → t.grid x = s.grid x) ∧
      (t.grid gi).nextItem = g.nextItem + n ∧ ∀ q ∈ g.queues, q.core = core → q.fell.isSome →
        ∃ q' ∈ (t.grid gi).queues, q'.core = core ∧ q'.items = q.items ++ (List.range n).map (g.nextItem + ·)) ∧
  (∀ (s : State) (f : Fill) (bs : List Byte), s.fills.find? (fun (x : Fill) => x.id == f.id) = some f → f.data = some bs →
    ∃ t l, exec (.icacheFill f.id) s = .next t ∧ l ∈ t.icache ∧ l.core = f.core ∧ l.part = f.part ∧ l.va = f.va ∧ l.gen = s.genNow (s.grid f.grid) ∧ l.pins = f.pins ∧ l.region = (s.grid f.grid).sealNum ∧
      l.words = (List.range 8).map (fun i => BitVec.ofNat 64 (ofBytes ((bs.drop (8 * i)).take 8))) ∧ t.fills = s.fills.filter (fun (x : Fill) => x.id != f.id) ∧
      ∀ x ∈ t.icache, x = l ∨ x ∈ s.icache)

/-- R64, R65, R72, R73: a structure accepts the head of the queue of a world that its slot serves, within the structure's positions and capacity, and nothing else: an owned slot serves its owner alone, and of a world whose pad runs
only the lines of Barge requests that had started (R318). Where R64 names the head of the queue, a request that the world is not served, or that its home keeps waiting,
stands aside and holds up none behind it: that is log 3's choice. -/
def Obligations.AcceptanceFollowsTheRota : Prop :=
  (∀ (s : State) (st : Struct) (r : Req), s.acceptNow st = some r →
    r ∈ s.reqs ∧ r.st = st ∧ r.after ≤ s.t ∧ r.world ∈ s.servedWorlds st ∧ s.structOpen st = true ∧ s.standsAside r = false ∧
    exec (.requestAccept st r.world) s = .next (s.serve r) ∧
    (∀ q ∈ s.reqs, q.st = st → q.world = r.world → q.after ≤ s.t → s.standsAside q = false → s.reqs.idxOf r ≤ s.reqs.idxOf q)) ∧
  (∀ (s : State) (st : Struct) (w : Nat), (∀ r, s.acceptNow st = some r → r.world ≠ w) → exec (.requestAccept st w) s = .next s) ∧
  (∀ (s : State) (st : Struct) (w v : Nat), s.ownerOf (s.slotAt s.t) = some w → s.vdOfWorld w = some v → (s.vd v).released = false → (s.vd v).run ≠ .off →
    (s.vd v).run ≠ .starting → s.servedWorlds st = (match st with | .fibre _ => [slotQueue (s.slotAt s.t)] | _ => []) ++ [w]) ∧
  (∀ (s : State) (st : Struct) (r : Req), s.acceptNow st = some r → s.worldRuns r.world = false → (if s.padRuns r.world then s.servesStarted r else s.servedHalted r) = true) ∧
  (∀ (s : State) (st : Struct), lastPosition s.rotaS st < s.posAt s.t → s.acceptNow st = none)

/-! ### Translations, the Barge's engine, homes, packets -/

/-- R213, R215, R218-R223, R224: what a translation comes to, for a far request: a leaf sends it on, and goes into the TLBs; an absent page gets a record, a
violation a deferred trap, and so does a page-table line that cannot be read (R311; log 19). A replayed access translates again; one of the command processor is made
again only once its VD runs (log 23). A Barge line becomes a far request, whose bytes are undefined where the read of the tile races (log 10); a chunk's bit is set
after its fill; a failed request drains its entry and defers its trap. -/
def Obligations.TranslationAndBargeEvents : Prop :=
  (∀ (s u : State) (j : TJob), s.job j.id = some j → ((j.stage = .core ∧ u = s) ∨ ((j.stage = .l2 ∨ ∃ a b, j.stage = .walk a b) ∧ u = s.fillTlbs j)) →
    let beyond := (s.setJob { j with stage := .spent }).dropJob j.id
    (∀ c l, j.cont = .word c → TJob.result s j = .leaf l → exec (.translationComplete j.id) s = .next (u.setJob { j with stage := .spent })) ∧
    (∀ f : Far, j.cont = .far f.id → s.farReq f.id = some f →
      (∀ l, TJob.result s j = .leaf l → f.st = .translating → exec (.translationComplete j.id) s =
        .next ((((u.setJob { j with stage := .spent }).dropJob j.id).setFar { f with leaf := some l }).enterQueue f.id false)) ∧
      (∀ n, TJob.result s j = .absent n → exec (.translationComplete j.id) s = .next (s.faultOn j.id (j.record n))) ∧
      (TJob.result s j = .violation → exec (.translationComplete j.id) s = .next (beyond.farWithout f tcFarAccess (farInfo f.va 4))) ∧
      (∀ q, TJob.result s j = .hurt q → exec (.translationComplete j.id) s = .next (beyond.farWithout f tcIntegrity (integrityInfo (f.va / 64 * 64) 2)))) ∧
    (∀ l, j.res = some (.leaf l) → (∀ sc ∈ j.stale, InvScope.meets sc l.va l.size = false) → (∃ e ∈ (s.fillTlbs j).tlbs, e.1 = tlbPort j.core ∧ e.2.vd = j.vd ∧ e.2.leaf = l) ∧
      ∃ e ∈ (s.fillTlbs j).l2s, e.1 = dieOf (tlbPort j.core) ∧ e.2.vd = j.vd ∧ e.2.leaf = l)) ∧
  (∀ (s : State) (j : TJob) (fid : Nat), s.job j.id = some j → j.stage = .held fid →
    (∀ i, j.cont = .cp i → exec (.replayedAccess j.vd j.id) s = .next (if (s.vd j.vd).run = .running then (s.dropJob j.id).post s.t i else s)) ∧
    (∀ c, j.cont = .entry c → exec (.replayedAccess j.vd j.id) s = .next ((s.dropJob j.id).enqueue .cp (s.worldNum j.vd) (.cpWord c))) ∧
    (∀ f, j.cont = .far f → exec (.replayedAccess j.vd j.id) s =
      .next ((s.setJob { j with stage := .core, res := none, stale := [] }).enqueue (.ctlb (tlbPort j.core)) (s.worldNum j.vd) (.tlb j.id)))) ∧
  (∀ (s : State) (v : Nat) (r : HeldRec) (rest : List HeldRec), (s.vd v).recs = r :: rest →
    let d := s.vd v
    (d.recordRoom = false → exec (.faultRecordDeferred v) s = .next s) ∧
    (d.recordRoom = true → ∃ t, exec (.faultRecordDeferred v) s = .next t ∧ (t.vd v).recs = rest ∧ (t.vd v).fqProd = d.fqProd + 1 ∧
      (t.vd v).nextFid = d.nextFid + 1 ∧ Output.hostWrite (d.fqBase + 32 * (d.fqProd % d.fqSize)) (recordBytes v d.nextFid r) ∈ t.outs ∧
      (rest ≠ [] → (s.t, Instr.faultRecordDeferred v) ∈ t.agenda))) ∧
  (∀ (s : State) (f : Far), s.farReq f.id = some f →
    (s.logReady f = true → exec (.sideLogReissue f.vd f.id) s = .next (s.enterQueue f.id true)) ∧
    (s.logReady f = false → exec (.sideLogReissue f.vd f.id) s = .next s)) ∧
  (∀ (s : State) (r : BReq) (i : Nat) (leaf : Leaf), s.bargeReq r.id = some r →
    let l := r.lines.getD i { va := 0 }
    let byte := fun p : Nat => if r.kind = .cpo then (cellAt r.torn p).getD ((s.racedFor r.wg r.tile (fun _ => false) (((s.wg r.wg).tile r.tile).base + p) [s.nearByte r.wg (((s.wg r.wg).tile r.tile).base + p)]).headD 0) else (cellAt r.buf p).getD 0
    let out := if r.kind.writes then r.lineOut (l.va / 64) byte else ([], 0)
    let op : PType := if r.kind.writes then .write else .read
    let f : Far := { id := s.nextId, vd := r.vd, core := r.core, src := .barge r.id i, op := op, keyid := r.keyid, va := l.va / 64 * 64, leaf := some leaf, mask := out.2, bytes := out.1 }
    l.leaf = some leaf → (r.kind = .cpo → s.badSram = []) →
    exec (.bargeBeat r.id i) s = .next (({ s.bump with fars := s.fars ++ [f] }).enterQueue f.id false)) ∧
  (∀ (s : State) (r : BReq) (n : Nat), s.bargeReq r.id = some r → n ∈ r.chunks → r.chunkReady n = true →
    let x := (s.wg r.wg).tile r.tile
    let fill := (List.range 512).foldl (fun (s : State) i => if n * 512 + i < r.man.packed ∧ (r.man.byteAddr r.coords (n * 512 + i)).isNone then
      s.engineWrite r.wg (x.base + (n * 512 + i)) [(cellAt r.torn (n * 512 + i)).getD (r.man.fillByte (n * 512 + i))] else s) s
    let u := if r.kind = .cpy then fill else s
    exec (.chunkDone r.id n) s = .next (((u.setTile r.wg r.tile (((u.wg r.wg).tile r.tile).chunkDone n)).setBarge { r with chunks := r.chunks.filter (· != n) }).bargeKick r.core r.vd)) ∧
  (∀ (x : Tile) (n : Nat), x.st = .filling → (x.chunkDone n).bitmap = x.bitmap ||| (1#64 <<< n) ∧
    ((x.chunkDone n).st = .ready ↔ x.bitmap ||| (1#64 <<< n) = BitVec.ofNat 64 (2 ^ x.len - 1))) ∧
  (∀ (s : State) (r : BReq) (tr : Trap), s.bargeReq r.id = some r → r.failed = some tr → (∀ l ∈ r.lines, l.st ≠ .started) →
    let x := (s.wg r.wg).tile r.tile
    let u := { s with bargeRs := s.bargeRs.filter (fun (q : BReq) => q.id != r.id) }
    let u := if (r.kind = .cpy ∨ r.kind = .cpbIn ∨ r.kind = .cpbOut) ∧ x.st = .filling then u.setTile r.wg r.tile { x with st := .draining } else u
    let code := if (u.crew r.crew).live = false ∧ tr.code = tcPeerClosed then tcFarAccess else tr.code
    exec (.bargeRequestEnd r.id) s = .next ((u.deferTrap r.crew code tr.info).bargeKick r.core r.vd))

/-- R252, R253, R255-R257, R260, R261, R264, R265, R290, R292, R293: a home performs a request once and answers 64 clk later; a flag leaves when its turn has come;
packets of another package are handed on in LSEQ order, early ones kept, old ones dropped; replies, heartbeats, timeouts, closings, replays and detours. The model's choices here
are the heartbeat's MAC input and its cut to 8 bytes (logs 12, 13), what a link carries beside its flits: the clock of departure, a failed tag check, the leaf's KeyID (log 21), and
which requests in flight race at a home, so that the bytes are undefined (log 10). -/
def Obligations.HomeAndFabricEvents : Prop :=
  (∀ (s : State) (f : Far) (l : Leaf), s.farReq f.id = some f → f.st = .memory → (∀ p, f.src ≠ .peer p) → f.leaf = some l →
    let m := (s.tearFars f).memoryOp f.vd (l.addr f.va) l.keyid f.op f.aop f.aty f.wd f.mask f.bytes f.cmp (s.tornBytes f) (s.stamp f.vd)
    let u := if l.cnt then m.2.countAccess (l.addr f.va) f.va 0 else m.2
    let u := u.homeClock f.vd f.clock u.myMember (if PType.writes f.op then f.wseq else none)
    let r : Packet := { typ := .reply, wd := f.wd, src := u.pkg, dst := u.pkg, rtag := f.id, data := m.1.getD [], bad := m.1.isNone, clock := some (u.vd f.vd).hc }
    let w := match m.1 with | some bs => u.decideFar f bs | none => u
    exec (.homePerform f.id) s = .next ((w.markFar f.id .answering).post (w.t + 64) (.replyPacket r))) ∧
  (∀ (s : State) (f : Far) (p : Packet), s.farReq f.id = some f → f.src = .peer p →
    (f.st = .answering → exec (.homePerform f.id) s = .next ((s.dropFar f.id).sendPacket f.vd p s.t).2) ∧
    (f.st = .memory → let m := (s.tearFars f).memoryOp f.vd p.pa (p.lkey.getD p.keyid) p.typ p.aop p.aty p.wd p.bmask.toNat p.data (Packet.compare p) (s.tornBytes f) [p.src, p.slot, p.lseq.toNat]
      let u := if p.cnt then m.2.countAccess p.pa p.pa 1 else m.2
      let w := match p.clock with | some c => u.homeClock f.vd c (memberOf p.src) (if PType.writes p.typ then some p.wseq else none) | none => u
      let r : Packet := { typ := .reply, wd := p.wd, dst := p.src, keyid := p.keyid, rtag := p.rtag, pa := p.pa, data := m.1.getD [], bad := m.1.isNone, clock := p.clock.map (fun _ => (w.vd f.vd).hc) }
      exec (.homePerform f.id) s = .next ((w.setFar { f with st := .answering, src := .peer r }).post (w.t + 64) (.homePerform f.id)))) ∧
  (∀ (s : State) (v pa key mask : Nat) (bytes : List Byte) (who : List Nat), s.regions = [] → (∀ d ∈ s.vds, d.snap = none) → (s.vd v).txs = [] → 0 < mask →
    let old := s.linePlain (pa / 64) key who
    let line := (List.range 64).map (fun i => if mask.testBit i then bytes.getD i 0 else old.getD i 0)
    s.memoryOp v pa key .write .add .i32 .b32 mask bytes 0 0 who =
      (some [], { s with lineKeys := keyed (pa / 64) key s.lineKeys, mem := s.mem.write (pa / 64 * 64) line, ciphers := s.ciphers.filter (fun c => c.1 != pa / 64), badHalves := s.badHalves.filter (fun h => !(h.1 / 2 == pa / 64 && coversHalf mask h.1)) })) ∧
  (∀ (s : State) (f g : Far), s.raceMask f g ≠ 0 → (PType.writes f.op = true ∨ PType.writes g.op = true) ∧ (Far.touches f).1 = (Far.touches g).1 ∧
    s.orderedAfter f g = false ∧ s.orderedAfter g f = false ∧ s.oneSource f g = false ∧ ¬ (f.op = .flag ∧ g.op = .read) ∧ ¬ (f.op = .read ∧ g.op = .flag)) ∧
  (∀ (s : State) (c l : Nat), (∀ f, s.flagReady c l = some f → exec (.flagSend c l) s = .next (s.enterQueue f.id false)) ∧
    (s.flagReady c l = none → exec (.flagSend c l) s = .next s)) ∧
  (∀ (s : State) (p : Packet) (f : Far), p.src = s.pkg → s.farReq p.rtag = some f →
    ((s.vd f.vd).closing.isSome → exec (.replyPacket p) s = .next (s.dropFar f.id)) ∧
    ((s.vd f.vd).closing = none →
      (p.stat = .ok → p.bad = false → exec (.replyPacket p) s = .next (s.farOk f p)) ∧
      (p.stat = .ok → p.bad = true → exec (.replyPacket p) s = .next (s.farFailed f tcIntegrity 2)) ∧
      (p.stat = .closed → exec (.replyPacket p) s = .next (s.farFailed f tcPeerClosed (if p.orig = 1 then 3 else 2))) ∧
      (p.stat = .access → exec (.replyPacket p) s = .next (s.farFailed f tcFarAccess (if p.orig = 1 then 3 else 2))))) ∧
  (∀ (s : State) (f : Far), s.farReq f.id = some f →
    (f.st = .sent → exec (.requestTimeout f.id) s = .next (s.takeReply { typ := .reply, stat := .closed, rtag := f.id, orig := 1 })) ∧
    (f.st ≠ .sent → exec (.requestTimeout f.id) s = .next s)) ∧
  (∀ (s : State) (slot fib v dst : Nat), s.vdOfSlot slot = some v → s.heartFor fib = some dst → (s.vd v).run = .running ∨ (s.vd v).run = .halted →
    s.healthy fib = true → ∃ t p,
    exec (.heartSend slot fib) s = .next t ∧ t.outs = s.outs ++ [.packet fib s.t (s.t + s.deliveryTime dst false) p] ∧ p.typ = .heart ∧ p.src = s.pkg ∧
    p.dst = dst ∧ p.slot = slot ∧ p.keyid = 0 ∧ p.det = false ∧ p.wseq = s.heartMark v dst ∧
    p.bmask = BitVec.ofNat 64 (ofBytes ((gcm (s.fabricKeyOf 0) (packetIv p.src p.dst p.orig p.ctr) (Packet.header { p with bmask := 0 }) (Packet.plain p)).2.take 8)) ∧
    t = { s with outs := t.outs, ctrs := t.ctrs }) ∧
  (∀ (s : State) (v : Nat), ∃ t, exec (.clockEntryRaise v) s = .next t ∧ (∀ c l, c < s.crews.length → l < (s.crew c).lanes.length →
    ((t.crew c).lane l).clock = if (s.gridOf c).vd = v then Clock.raiseStale ((s.crew c).lane l).clock (s.marks v) else ((s.crew c).lane l).clock) ∧
    ∀ (i : Nat) (f : Far), s.fars[i]? = some f → ∃ g : Far, t.fars[i]? = some g ∧ g.clock = if f.vd = v then Clock.raiseStale f.clock (s.marks v) else f.clock) ∧
  (∀ (s : State) (p q : Packet) (v : Nat) (i : Instr), PacketRow p i q →
    (p.dst ≠ s.pkg → exec i s = .next s) ∧
    (p.dst = s.pkg → p.src ≠ s.pkg → p.garbled = true → ∃ r, exec i s = .next (s.emit (.linkReplay r)) ∧ r = q) ∧
    (p.dst = s.pkg → p.src ≠ s.pkg → p.garbled = false → s.vdOfSlot p.slot = some v →
      let u := s.wakeDonor q
      let x := s.stream (s.vd v).tenant p.src
      (p.lseq = x.want → exec i s = .next (((u.setStream { x with want := x.want + 1 }).handOn v q).drainEarly x.early.length v p.src)) ∧
      (serialLt x.want p.lseq = true → q ∉ x.early → exec i s = .next (u.setStream { x with early := x.early ++ [q] })) ∧
      (serialLt p.lseq x.want = true → serialLt x.want p.lseq = false → exec i s = .next u))) ∧
  (∀ (s : State) (v : Nat) (p : Packet), s.frameOwner p.pa = none → p.typ = .read →
    s.handOn v p = (s.sendPacket v { typ := .reply, stat := .access, dst := p.src, rtag := p.rtag, pa := p.pa, clock := if s.sameReach p.src then some (s.vd v).hc else none } s.t).2) ∧
  (∀ (s : State) (v n : Nat) (p : Packet), p.typ = .close → s.tenantOfSlot p.slot = some n → (n, p.src) ∈ (s.handOn v p).closed) ∧
  (∀ (s : State) (p : Packet) (v : Nat), p.dst = s.pkg → p.garbled = false → s.vdOfSlot p.slot = some v → s.sameReach p.src = true → v < s.vds.length →
    let d := s.vd v
    let m := memberOf p.src
    let h := d.am.getD m 0
    ((p.wseq - h).toNat < 2 ^ 14 ∨ (h - p.wseq).toNat < 2 ^ 14) → ∃ t, exec (.heartPacket p) s = .next t ∧ t = { s with vds := t.vds } ∧
    (m ∈ d.heard → t.vd v = { d with am := d.am.set m (serialMax h p.wseq) }) ∧ (m ∉ d.heard → t.vd v = { d with am := d.am.set m p.wseq, heard := d.heard ++ [m] }) ∧
    ∀ x, x ≠ v → t.vd x = s.vd x) ∧
  (∀ (s : State) (fib : Nat) (p : Packet),
    let key := Packet.replayKey p
    let n := ((s.replays.find? (fun r => r.1 == fib && r.2.1 == key)).map (·.2.2)).getD 0
    let w := s.queueOfSlot p.slot
    (n < 3 → ∃ t, exec (.linkReplay fib p) s = .next t ∧ (p.src = s.pkg → t.reqs = ⟨.fibre fib, w, .resend p, 0⟩ :: s.reqs ∧ t.transit = s.transit) ∧
      (p.src ≠ s.pkg → t.transit = (fib, p.slot, p) :: s.transit ∧ t.reqs = s.reqs) ∧ (fib, key, n + 1) ∈ t.replays ∧ t.failed = s.failed ∧
      (p.left + 44800, Instr.packetDropTimeout p) ∈ t.agenda) ∧
    (3 ≤ n → p.src = s.pkg → (∀ r ∈ s.reqs, r.st ≠ .fibre fib) → (∀ x ∈ s.transit, x.1 ≠ fib) → ∀ f det, (s.failFibre fib).route p.dst (p.lseq.getLsbD 0) = some (f, det) →
      ∃ t, exec (.linkReplay fib p) s = .next t ∧ fib ∈ t.failed ∧ t.reqs = reqInsert ⟨.fibre f, w, .send { p with det := det }, 0⟩ s.reqs)) ∧
  (∀ (s : State) (p : Packet), let held := (∃ x ∈ s.transit, x.2.2 = p) ∨ ∃ r ∈ s.reqs, r.item = .resend p
    (held → p.left + 44800 ≤ s.t → ∃ t, exec (.packetDropTimeout p) s = .next t ∧ t.health.replace = true ∧ (∀ x ∈ t.transit, x.2.2 ≠ p) ∧
      (∀ x ∈ s.transit, x.2.2 ≠ p → x ∈ t.transit) ∧ (∀ r ∈ t.reqs, r.item ≠ .resend p) ∧ ∀ r ∈ s.reqs, r.item ≠ .resend p → r ∈ t.reqs) ∧
    (¬ held ∨ s.t < p.left + 44800 → exec (.packetDropTimeout p) s = .next s)) ∧
  (∀ (s : State) (fib slot : Nat) (p : Packet),
    (p.garbled = true → exec (.detourTransit fib slot p) s = .next { s with outs := s.outs ++ [.linkReplay p] }) ∧
    (p.garbled = false → s.keyHoldsSlot p.keyid slot p.dst = true → ∀ g, (s.healthy fib = true ∧ g = fib ∨ s.healthy fib = false ∧ s.pairRoute (memberOf p.dst) (p.lseq.getLsbD 0) = some g) →
      exec (.detourTransit fib slot p) s = .next ({ s with transit := s.transit ++ [(g, slot, p)] }.post (p.left + 44800) (.packetDropTimeout p))) ∧
    (p.garbled = false → s.keyHoldsSlot p.keyid slot p.dst = false → exec (.detourTransit fib slot p) s = .next { s with outs := s.outs ++ [.windowReport p] }))

/-- R267-R274, R278, R279, R304-R306, R329: what each message packet does in its turn, the match steps in queue order, a landing's beats, and the end of a receive;
a send that was NACKed FULL goes again from the fourth round boundary, and behind it each later message to that world, whose own refusals are counted off (log 21). -/
def Obligations.MessageEvents : Prop :=
  (∀ (s : State) (p : Packet), p.dst = s.pkg → p.src = s.pkg → p.garbled = false →
    let u := s.returnSlots p.dvd
    let d := u.vd p.dvd
    let as := fun (k : MKind) => { p with typ := PType.msg, kind := k }
    let first := fun (i : Instr) (q : Packet) =>
      (∀ st, u.wharfCheck q = some st → exec i s = .next (u.refuseMsg q st)) ∧ (u.wharfCheck q = none → exec i s = .next (u.wharfIn p.dvd (.arrive q)))
    let more := fun (i : Instr) (q : Packet) => u.wharfCheck q = none → exec i s = .next (u.joinMsg p.dvd q)
    (p.off = 0 → first (.eager p) (as .eager)) ∧ (p.off ≠ 0 → more (.eager p) (as .eager)) ∧ first (.rts p) (as .rts) ∧ more (.data p) (as .data) ∧
    (∀ i, d.sendTo p.src p.svd p.mseq = some i →
      let x := d.tx i
      exec (.pull p) s = .next ((u.bytePackets { u.txPacket p.dvd x .data with rxid := p.rxid } x.bytes).foldl (fun (s : State) q => (s.sendMsg p.dvd q).2) u) ∧
      exec (.ack p) s = .next ((u.finishTx p.dvd i .done).sendNext p.dvd x.pkg x.dvd) ∧
      (p.stat = .full → x.skips ≠ 0 → exec (.nack p) s = .next (u.setTx p.dvd i { x with skips := x.skips - 1 })) ∧
      (p.stat = .full → x.skips = 0 → let c := u.boundaryAfter u.t + 3 * u.roundLen
        exec (.nack p) s = .next ((u.setTx p.dvd i { x with again := some c }).post c (.messageResend p.dvd i))) ∧
      (p.stat = .closed → exec (.nack p) s = .next ((u.failTx p.dvd i .closed).sendNext p.dvd x.pkg x.dvd)) ∧
      (p.stat = .access → exec (.nack p) s = .next ((u.failTx p.dvd i .access).sendNext p.dvd x.pkg x.dvd)))) ∧
  (∀ (s : State) (v i c : Nat), let x := (s.vd v).tx i
    x.again = some c → c ≤ s.t → x.live = true → x.stat = .pending →
    exec (.messageResend v i) s = .next ((((s.setTx v i { x with again := none, sent := false }).sendAgain v x).transmit v i).sendNext v x.pkg x.dvd)) ∧
  (∀ (s : State) (v i : Nat) (x : Tx), v < s.vds.length → i < (s.vd v).txs.length →
    let y := (s.vd v).tx i
    let after := y.live = true ∧ y.stat = .pending ∧ y.sent = true ∧ y.pkg = x.pkg ∧ y.dvd = x.dvd ∧ serialLt x.mseq y.mseq = true
    ((s.sendAgain v x).vd v).tx i = if after then { y with sent := false, again := none, skips := y.skips + (if y.again.isNone then 1 else 0) } else y) ∧
  (∀ (s : State) (v : Nat) (e : WIn) (rest : List WIn), (s.vd v).inq = e :: rest →
    let d := s.vd v
    let u := s.setVd v { d with inq := rest }
    let gives := fun (t : State) => exec (.matchStep v) s = .next t
    (∀ p, e = .arrive p →
      let m := Packet.msg p
      let fs := d.fulls.filter (fun f => !(f.1 == m.srcPkg && f.2.1 == m.srcVd))
      (∀ k, d.fullOf m = some k → k ≠ m.mseq → gives (u.answerMsg v m .nack .full 0)) ∧
      ((∀ k, d.fullOf m = some k → k = m.mseq) →
        (∀ i, d.posted.find? (fun i => matchesRx (d.rx i) m) = some i →
          gives ((s.setVd v { d with inq := rest, fulls := fs, posted := d.posted.erase i }).takeMsg v i m)) ∧
        (d.posted.find? (fun i => matchesRx (d.rx i) m) = none →
          (d.unexpUsed + m.space ≤ d.uqSize → gives ((s.setVd v { d with inq := rest, fulls := fs, unexp := d.unexp ++ [m] }).ackQueued v)) ∧
          (d.uqSize < d.unexpUsed + m.space →
            gives ((s.setVd v { d with inq := rest, fulls := fs ++ [(m.srcPkg, m.srcVd, m.mseq)] }).answerMsg v m .nack .full 0))))) ∧
    (∀ i, e = .post i → (d.rx i).live = true → (d.rx i).st = .queued →
      (∀ m, d.unexp.find? (matchesRx (d.rx i)) = some m → gives ((s.setVd v { d with inq := rest, unexp := d.unexp.erase m }).takeMsg v i m)) ∧
      (d.unexp.find? (matchesRx (d.rx i)) = none → s.rxOrphan (d.rx i) = false → ∃ t, gives t ∧ (t.vd v).posted = d.posted ++ [i] ∧
        (t.vd v).rx i = { d.rx i with st := .posted } ∧ ∀ j, j ≠ i → (t.vd v).rx j = d.rx j) ∧
      (d.unexp.find? (matchesRx (d.rx i)) = none → s.rxOrphan (d.rx i) = true → ∃ t, gives t ∧ (t.vd v).posted = d.posted ∧ ((t.vd v).rx i).live = false ∧
        ((t.vd v).rx i).stat = .cancelled)) ∧
    (∀ h, e = .cancel h →
      let i := handleIndex h
      let r := d.rx i
      let hit := h.msb = false ∧ r.live = true ∧ r.gen = handleGen h ∧ r.st = .posted
      let w := u.setRx v i { r with st := .final, stat := .cancelled, live := !r.nr }
      (hit → gives (((w.setVd v { w.vd v with posted := d.posted.erase i }).readyTile { r with msg := {} }).writeCw r .cancelled)) ∧
      (¬ hit → gives u)) ∧
    (∀ c l id rank rmask rtag tmask, e = .probe c l id rank rmask rtag tmask →
      gives (u.stepResult c l id (match d.unexp.find? (matchesRx { rank := rank, rmask := rmask, rtag := rtag, tmask := tmask }) with
        | some m => statusWord .done m.tag m.mlen m.srank
        | none => statusWord .none 0 0 0) none)) ∧
    (∀ c l id h, e = .test c l id h → gives ((u.stepResult c l id (d.handleWordOf h) (d.handleClock h)).report v h))) ∧
  (∀ (s : State) (c l id : Nat) (p : Pending), ((s.crew c).lane l).pend.find? (fun q => q.id == id) = some p →
    exec (.wharfResult c l id) s = .next (let u := s.completeLane c l id p.value
      u.updCrew c (fun k => k.setLane l ((k.lane l).acquire p.clock)))) ∧
  (∀ (x : Lane) (c : Clock), x.acquire (some c) = { x with clock := Clock.merge c x.clock } ∧ x.acquire none = x) ∧
  (∀ (s : State) (v i w ti : Nat), let r := (s.vd v).rx i
    r.live = true → r.st = .matched → r.failed = none → r.place = .tile w ti →
    let lo := 64 * r.landed
    let bs := (r.msg.bytes.drop lo).take (min r.size (lo + 64) - lo)
    exec (.landingBeat v i) s = .next ((((s.setRx v i { r with landed := r.landed + 1 }).engineWrite w (((s.wg w).tile ti).base + lo) (Cells.overlay r.torn lo bs)).rxChunks v i).rxDrive v i)) ∧
  (∀ (s : State) (v i : Nat) (m : Manifest) (cs : List Int), let r := (s.vd v).rx i
    r.live = true → r.st = .matched → r.failed = none → r.place = .box m cs →
    let lo := 64 * r.landed
    let bs := (r.msg.bytes.drop lo).take (min r.size (lo + 64) - lo)
    let hits := bs.zipIdx.filterMap (fun p => (m.byteAddr cs (lo + p.2)).map (fun a => (a, p.1)))
    let put := fun (u : State) (n : Nat) =>
      let here := hits.filter (fun p => p.1 / 64 == n)
      let f : Far := { id := u.nextId, vd := v, core := r.core, src := .landing v i, op := .write, keyid := r.keyid, va := n * 64, leaf := (r.lines.find? (fun l => l.va / 64 == n)).bind (·.leaf), mask := here.foldl (fun k p => k ||| 2 ^ (p.1 % 64)) 0, bytes := (List.range 64).map (fun j => ((here.find? (fun p => p.1 % 64 == j)).map (·.2)).getD 0) }
      let u := u.setRx v i { (u.vd v).rx i with flying := ((u.vd v).rx i).flying + 1 }
      ({ u.bump with fars := u.fars ++ [f] }).enterQueue f.id false
    exec (.landingBeat v i) s = .next ((((hits.map (fun p => p.1 / 64)).eraseDups).foldl put (s.setRx v i { r with landed := r.landed + 1 })).rxDrive v i)) ∧
  (∀ (s : State) (v i : Nat), let r := (s.vd v).rx i
    r.live = true → r.landedAll = true →
    let st : WStat := r.failed.getD (if r.cap < r.msg.mlen then .trunc else .done)
    let u := (s.readyTile r).writeCw r st
    let u := u.setRx v i { r with st := .final, stat := st, live := !r.nr }
    exec (.receiveComplete v i) s = .next (if r.msg.acked then u else u.answerMsg v r.msg .ack .ok i)) ∧
  (∀ (s : State) (r : Rx) (st : WStat), (r.cw = none → s.writeCw r st = s) ∧
    ∀ o, r.cw = some o → (s.wg r.wg).live = true →
      s.writeCw r st = (s.landedSeen r).engineWrite r.wg o (toBytes 8 (statusWord st r.msg.tag r.msg.mlen r.msg.srank).toNat))

/-- R280-R284, R286, R295: the holder of a slot's token sends up to eight broadcasts, which apply 64 clk after their tag flits, and the token goes to the next member;
a broadcast writes or adds at its cell, merges its clock, and gives its issuer the old value. A failed link closes the member's broadcasts; the spare star keeps
the tokens. A broadcast's tag and what it covers (logs 12 and 13), and what a failed link closes (log 21), are the model's choices. -/
def Obligations.KitelineEvents : Prop :=
  (∀ (s : State) (slot m : Nat) (bs : List Bcast), (s.tokens.getD slot 0 ≠ m → exec (.kitelineHolding slot m bs) s = .next s) ∧
    (s.tokens.getD slot 0 = m → m ≠ s.myMember → ∃ t, exec (.kitelineHolding slot m bs) s = .next t ∧ t.tokens = s.tokens.set slot (nextMember s.reachMembers m) ∧
      t.outs = s.outs ∧ ∀ (i : Nat) (b : Bcast), bs[i]? = some b → (s.applyClock i, Instr.broadcastApply b) ∈ t.agenda) ∧
    (∀ v, s.tokens.getD slot 0 = m → m = s.myMember → s.vdOfSlot slot = some v → s.starLost = false → (s.vd v).run = .running →
      (s.vd v).released = false →
      let qs := s.holdingSends v
      ∃ (t : State) (gs : List Bcast), exec (.kitelineHolding slot m bs) s = .next t ∧ t.tokens = s.tokens.set slot (nextMember s.reachMembers m) ∧
        qs.length ≤ 8 ∧ gs.length = qs.length ∧ t.outs = s.outs ++ gs.zipIdx.map (fun p => .star (s.applyClock p.2 - 64) p.1) ∧
        (∀ (i : Nat) (q : Kq), qs[i]? = some q → ∃ g : Bcast, gs[i]? = some g ∧ (s.applyClock i, Instr.broadcastApply g) ∈ t.agenda ∧
          g = { q.b with slot := slot, ctr := g.ctr, tag := BitVec.ofNat 128 (ofBytes (gcm (s.fabricKeyOf g.keyid) (packetIv g.src g.src 0x400 g.ctr) (Bcast.header g) (clockBytes g.clock)).2) }) ∧
        (t.vd v).kq = (s.vd v).kq.map (fun q => if qs.any (fun x => x.b.qidx == q.b.qidx) then { q with sent := true } else q))) ∧
  (∀ (s : State) (v : Nat) (b : Bcast), s.vdOfSlot b.slot = some v → s.keyOfTenant v b.keyid = true → b.src ≠ s.pkg → s.badSram = [] → v < s.vds.length →
    let d := s.vd v
    let old := BitVec.ofNat 32 (ofBytes (d.cells.read b.addr 4))
    let new := if b.faa then toBytes 4 (old + b.data.setWidth 32).toNat else toBytes (Bcast.width b) b.data.toNat
    ∃ t, exec (.broadcastApply b) s = .next t ∧ t = { s with vds := t.vds } ∧ (∀ x, x ≠ v → t.vd x = s.vd x) ∧
      t.vd v = { d with cells := d.cells.write b.addr new, rc := Clock.merge b.clock d.rc }) ∧
  (∀ (s : State) (v : Nat) (b : Bcast) (q : Kq) (e : Nat), s.vdOfSlot b.slot = some v → s.keyOfTenant v b.keyid = true → b.src = s.pkg → v < s.vds.length →
    (s.vd v).kq.find? (fun q => q.sent && q.b.qidx == b.qidx) = some q → q.entry = some e → b.faa = true → s.badSram = [] →
    q.crew < s.crews.length → q.lane < (s.crew q.crew).lanes.length →
    let d := s.vd v
    let old := BitVec.ofNat 32 (ofBytes (d.cells.read b.addr 4))
    let x := (s.crew q.crew).lane q.lane
    ∃ t, exec (.broadcastApply b) s = .next t ∧ (t.vd v).cells = d.cells.write b.addr (toBytes 4 (old + b.data.setWidth 32).toNat) ∧
      (t.vd v).kq = d.kq.filter (fun q => !(q.sent && q.b.qidx == b.qidx)) ∧ (t.vd v).rc = Clock.merge b.clock d.rc ∧
      ((t.crew q.crew).lane q.lane).regs = (x.complete e [old]).regs ∧ ((t.crew q.crew).lane q.lane).pend = (x.complete e [old]).pend ∧
      (x.pend.any (fun p => p.id == e) = true → ((t.crew q.crew).lane q.lane).clock = Clock.merge (Clock.merge b.clock d.rc) x.clock)) ∧
  (∀ (s : State) (m : Nat), ∃ t, exec (.kitelineLinkFail m) s = .next t ∧ m ∈ t.starDown ∧ (m ≠ s.myMember → t = { s with starDown := t.starDown }) ∧
    (m = s.myMember → ∀ d ∈ t.vds, d.kq = [])) ∧
  (∀ s : State, (s.atBoundary = true → exec .starSwitchover s = .next { s with spareStar := true, starDown := [], health := { s.health with star := true, replace := true } }) ∧
    (s.atBoundary = false → exec .starSwitchover s = .next (s.post (s.boundaryAfter s.t) .starSwitchover)))

/-- R231-R243, Table 13.1: an engine's next operation starts when those before it are complete and its condition holds, reading its operands then; its result stands
when its clocks are over, and it leaves its queue. Bytes of an operand or of a drain that race with other accesses are undefined, as log 10 says. -/
def Obligations.MatrixEngineEvents : Prop :=
  (∀ (s : State) (core part : Nat) (e : MEngine) (o : MOp), let u := s.matUnit core part
    (u.queue e).find? (fun o => o.start.isNone) = some o →
    (((u.queue e).any (fun p => decide (p.id < o.id) && p.pending s.t) = true ∨ u.mayStart s.t o = false) → exec (.matrixOpStart core part e) s = .next s) ∧
    ((u.queue e).any (fun p => decide (p.id < o.id) && p.pending s.t) = false → u.mayStart s.t o = true → s.matBad u o = false →
      let d := s.t + (match o.op with | .fill _ _ _ _ rb => (32 * rb + 511) / 512 | .mac _ _ _ f _ _ _ _ _ => (if f.fmt = 3 then 8 else 16) | .clr _ => 4 | .drain _ _ _ _ => 16 | .fence _ => 0)
      let o' := { s.matRead u o with start := some s.t, done := d }
      (∀ ids, o.op ≠ .fence ids) → ∃ t, exec (.matrixOpStart core part e) s = .next t ∧ t = { s with mats := t.mats, agenda := t.agenda } ∧
        (t.matUnit core part).queue e = (u.queue e).map (fun (p : MOp) => if p.id == o.id then o' else p) ∧
        (∀ c p, (c, p) ≠ (core, part) → t.matUnit c p = s.matUnit c p) ∧ (d, Instr.matrixOpStart core part e) ∈ t.agenda ∧
        ∀ i, o.op.completion core part = some i → (d, i) ∈ t.agenda) ∧
    (∀ ids, o.op = .fence ids → (u.queue e).any (fun p => decide (p.id < o.id) && p.pending s.t) = false → u.mayStart s.t o = true →
      ∃ t, exec (.matrixOpStart core part e) s = .next t ∧ (t.matUnit core part).queue e = (u.queue e).filter (fun (p : MOp) => p.id != o.id))) ∧
  (∀ (s : State) (core part : Nat) (o : MOp) (i ti off pitch rb : Nat), (s.matUnit core part).finished .fill s.t (fun _ => true) = some o →
    o.op = .fill i ti off pitch rb → s.badSram = [] →
    let x := ((s.wg o.wg).pool part).slot i
    exec (.xfillComplete core part) s = .next ((s.setSlot o.wg part i { x with serial := part :: i :: 2 :: s.wgName o.wg ++ s.stamp (s.grid (s.wg o.wg).grid).vd, bytes := Cells.write [] 0 o.bytes }).matLeave core part .fill o)) ∧
  (∀ (s : State) (core part acc : Nat) (o : MOp), s.badSram = [] →
    let x := ((s.wg o.wg).pool part).accs.getD acc {}
    (∀ i j f sat a b p q, (s.matUnit core part).finished .array s.t (fun op => match op with | .mac _ _ _ _ _ _ _ _ _ => true | _ => false) = some o →
      o.op = .mac i j acc f sat a b p q →
      exec (.xmacComplete core part) s = .next ((s.setAcc o.wg part acc { x with vals := some o.words, i8 := f.fmt == 4 }).matLeave core part .array o)) ∧
    ((s.matUnit core part).finished .array s.t (fun op => match op with | .clr _ => true | _ => false) = some o → o.op = .clr acc →
      exec (.xclrComplete core part) s = .next ((s.setAcc o.wg part acc { x with vals := some o.words }).matLeave core part .array o))) ∧
  (∀ (s : State) (core part acc off : Nat) (o : MOp) (f : FmtSlot) (hist : Option Nat), s.badSram = [] →
    (s.matUnit core part).finished .array s.t (fun op => match op with | .drain _ _ _ _ => true | _ => false) = some o → o.op = .drain acc off f hist →
    let u := s.matUnit core part
    let s1 := (s.setUnit (u.count s.t)).matLeave core part .array o
    exec (.xstComplete core part) s = .next ((List.range 32).foldl (fun (s : State) i =>
      let bs := ((o.words.drop (32 * i)).take 32).flatMap (drainElement f)
      (s.tearEngines o.wg (off + i * f.pitch) bs.length).nearPut o.wg (off + i * f.pitch) (Cells.overlay o.torn (off + i * f.pitch) bs)) s1)) ∧
  (∀ (u : MUnit) (now acc off h : Nat) (o : MOp) (f : FmtSlot) (x : Hist), u.arrQ = [o] → o.op = .drain acc off f (some h) → u.hists.getD h none = some x →
    ((o.pending now = true ∨ o.counted = true) → u.count now = u) ∧
    (o.pending now = false → o.counted = false → (u.count now).hists = u.hists.set h (some (o.words.foldl Hist.count x)) ∧ (u.count now).arrQ = [{ o with counted := true }])) ∧
  (∀ (h : Hist) (x : Word), let e : Nat := x.toNat / 2 ^ 23 % 256
    (e = 255 → (h.count x).spec = min (h.spec + 1) 4294967295 ∧ (h.count x).bins = h.bins) ∧
    (e ≠ 255 → (h.count x).spec = h.spec ∧ ∀ b < h.bins.length, (h.count x).bins.getD b 0 =
      if (b : Int) = max 0 (min 31 ((e : Int) - h.base)) then min (h.bins.getD b 0 + 1) 4294967295 else h.bins.getD b 0))

/-- R52, R53, R322, R328-R331: a workgroup whose crews have exited retires when its engines are idle; its completion bit is set once its writes are performed; a grid
whose bits are all set writes its status record and retires, its regions measured first under MEAS; a saved workgroup comes back on its own die. What a workgroup is
restored from (log 20), the acceptances paid for records and regions (log 15), pools kept together (log 17) and CMD_ACCESS for a write that is not allowed (log 23) are
the model's choices. -/
def Obligations.RetirementEvents : Prop :=
  (∀ (s : State) (w : Nat), (s.wgDue w = true → exec (.workgroupRetire w) s =
      .next (((s.setWg w { s.wg w with live := false }).dropQueue (s.wg w).grid (s.wg w).core).retryAll (s.grid (s.wg w).grid).vd)) ∧
    (s.wgDue w = false → exec (.workgroupRetire w) s = .next s)) ∧
  (∀ (s : State) (w : Nat), let x := s.wg w
    let g := s.grid x.grid
    let u := s.setWg w { x with asked := true }
    let va := g.cbmp + x.num / 32 * 4
    x.live = false → x.retired = true → x.cut = false → g.st = .active → x.num ∉ g.bits → s.wgWritesDone w = true → s.putPending g.vd g.ctx (.bit w) = false →
    (g.cbmp = 0 → x.grid < s.grids.length → w < s.wgs.length → ∃ t, exec (.completionBitSet w) s = .next t ∧
      t = { s with wgs := t.wgs, grids := t.grids } ∧ t.wg w = { x with asked := true } ∧
      t.grid x.grid = { g with bits := g.bits ++ [x.num], wgset := min (g.wgset + 1) 0xFFFFFFFF }) ∧
    (g.cbmp ≠ 0 → u.cpMayWrite g.vd g.keyid va 4 = .ok () →
      let r := u.cpWrite g.vd g.ctx g.keyid (.bit w) .red va (toBytes 4 (2 ^ (x.num % 32)))
      exec (.completionBitSet w) s = .next (if r.putPending g.vd g.ctx (.bit w) then r else r.putDone g.vd g.ctx (.bit w)))) ∧
  (∀ (s : State) (gi w v c : Nat), let g := s.grid gi
    (w < s.wgs.length → (s.wg w).grid = gi → gi < s.grids.length → (s.wg w).num ∉ g.bits →
      s.putDone v c (.bit w) = s.setGrid gi { g with bits := g.bits ++ [(s.wg w).num], wgset := min (g.wgset + 1) 0xFFFFFFFF }) ∧
    (gi < s.grids.length → (s.putDone v c (.record gi)).grid gi = { g with st := .retired, queues := [] })) ∧
  (∀ (s : State) (gi : Nat), let g := s.grid gi
    let x := s.ctx ⟨g.vd, g.ctx⟩
    (s.gridDone gi = false → exec (.gridRetire gi) s = .next s) ∧
    (s.gridDone gi = true → s.putPending g.vd g.ctx (.record gi) = true → exec (.gridRetire gi) s = .next s) ∧
    (s.gridDone gi = true → s.putPending g.vd g.ctx (.record gi) = false →
      (g.phase = 0 → g.meas = false → exec (.gridRetire gi) s = .next (s.askRecord gi)) ∧
      (g.phase = 0 → g.meas = true → exec (.gridRetire gi) s = .next ((s.setGrid gi { g with phase := 1 }).askWork g.vd g.ctx 0 g.regionBlocks (.gridRetire gi))) ∧
      (g.phase = 1 → x.measFor ≠ some gi → exec (.gridRetire gi) s = .next (s.askRecord gi)) ∧
      (∀ ds, g.phase = 1 → x.measFor = some gi → s.regionDigests g = .ok ds →
        exec (.gridRetire gi) s = .next (((g.regions.foldl (fun (s : State) r => s.cpCount g.vd g.keyid r.1 r.2) s).measureGrid g ds).askRecord gi)) ∧
      (2 ≤ g.phase → s.cpMayWrite g.vd x.keyid (x.recordAt g) 64 = .ok () →
        let r := s.cpWrite g.vd g.ctx x.keyid (.record gi) .write (x.recordAt g) (statusRecord g (s.cycleOf g.vd s.t))
        exec (.gridRetire gi) s = .next (if r.putPending g.vd g.ctx (.record gi) then r else r.putDone g.vd g.ctx (.record gi))))) ∧
  (∀ (g : Grid) (now : Nat), (statusRecord g now).length = 64) ∧
  (∀ (s : State) (v w : Nat), (s.vd v).run = .running → (s.savedWgs v).head? = some w →
    (∀ t, s.restoreAll (s.restoreGroup v w) = some t → exec (.workgroupRestore v w) s = .next t) ∧
    (s.restoreAll (s.restoreGroup v w) = none → exec (.workgroupRestore v w) s = .next s)) ∧
  (∀ (s t : State) (w : Nat), w < s.wgs.length → s.restoreOne w = some t → (t.wg w).saved = false ∧ dieOf (t.wg w).core = dieOf (s.wg w).core ∧
    (t.wg w).tiles = (s.wg w).tiles ∧ (t.wg w).musters = (s.wg w).musters ∧ ∀ c ∈ (s.wg w).crews, (t.crew c).lanes = (s.crew c).lanes)

/-- R71-R76, R266, R318, R319, R326, R327, R337, R361: a world's first round, its halts and resumptions with %cycle frozen between, the release and return of its
slots, the padded switch, and the teardown of a VD up to the erasure of its keys. A switch whose VDs were torn down meanwhile, and a RESUME under EMERG (R358) or of a
world that holds a unit out of service (R357; log 25), end VD_STATE; a torn-down world is descheduled at the round boundary after its release (log 24). -/
def Obligations.WorldEvents : Prop :=
  (∀ (s : State) (v : Nat), v < s.vds.length →
    let d := s.vd v
    ((d.run = .starting → s.health.emerg = false → ∃ t, Finishes (.firstRound v) s t (.schedule v) .ok ∧ (t.vd v).run = .running ∧ t.cycleOf v s.t = d.frozen.getD 0) ∧
      (d.run = .starting → s.health.emerg = true → ∃ t, Finishes (.firstRound v) s t (.schedule v) .ok ∧ (t.vd v).run = .halted) ∧
      (d.run ≠ .starting → exec (.firstRound v) s = .next s)) ∧
    ((s.t % s.roundLen = 0 → d.run = .running → d.released = false → (∃ q < s.t, d.quiet = some q) →
        exec (.slotRelease v) s = .next (s.setVd v { d with released := true })) ∧
      (s.t % s.roundLen ≠ 0 → exec (.slotRelease v) s = .next s)) ∧
    exec (.slotReturn v) s = .next (s.setVd v { d with released := false }) ∧
    (d.run = .running →
      let u := s.setVd v { d with run := .halted, frozen := some (s.cycleOf v s.t), released := false, quiet := none, halting := false }
      (d.halting = true → Finishes (.haltEffect v) s u (.halt v) .ok) ∧ (d.halting = false → exec (.haltEffect v) s = .next u)) ∧
    (d.run ≠ .running → d.halting = true →
      Finishes (.haltEffect v) s (s.setVd v { d with halting := false }) (.halt v) (if d.run = .halted then .ok else .vdState)) ∧
    (d.run ≠ .running → d.halting = false → exec (.haltEffect v) s = .next s) ∧
    (d.run = .halted → d.closing = none → s.health.emerg = false → s.unitOut v = false →
      Finishes (.resumeEffect v) s ((s.setVd v { d with run := .running, base := (s.t : Int) - (d.frozen.getD 0 : Nat), frozen := none }).ringBells v) (.resume v) .ok) ∧
    (d.run ≠ .halted ∨ d.closing.isSome = true ∨ s.health.emerg = true ∨ s.unitOut v = true → Finishes (.resumeEffect v) s s (.resume v) .vdState) ∧
    (∀ inc,
      (d.world = none → Finishes (.switchBoundary v inc) s s (.replace v inc) .vdState) ∧
      (d.closing.isSome = true → Finishes (.switchBoundary v inc) s s (.replace v inc) .vdState) ∧
      (∀ w, d.world = some w → d.closing = none → d.run = .running →
        let u := s.setVd v { d with run := .saving, frozen := some (s.cycleOf v s.t), released := false, quiet := none }
        exec (.switchBoundary v inc) s = .next (u.post (s.t + (s.allotOfVd v).pad * s.roundLen) (.padEnd v inc))) ∧
      ((d.world = none ∨ d.run ≠ .saving) → Finishes (.padEnd v inc) s s (.replace v inc) .vdState) ∧
      (∀ w, d.world = some w → d.run = .saving → ((s.vd inc).created = false ∨ (s.vd inc).closing.isSome = true ∨ (s.vd inc).world.isSome = true) →
        Finishes (.padEnd v inc) s (s.leaveWorld v) (.replace v inc) .vdState) ∧
      (∀ w, d.world = some w → d.run = .saving → (s.vd inc).created = true → (s.vd inc).closing = none → (s.vd inc).world = none →
        let u := ((s.leaveWorld v).takeWorld inc w .starting).beginRounds inc
        Finishes (.padEnd v inc) s (u.setVd inc { u.vd inc with cpFrom := u.t + u.slotOfWorld w * u.rotaS }) (.replace v inc) .ok)) ∧
    ((d.created = false ∨ d.closing.isSome) → exec (.teardownBoundary v) s = .next s) ∧
    (d.created = true → d.closing = none → ∃ t, exec (.teardownBoundary v) s = .next t ∧ (t.vd v).closing = some s.t ∧
      (t.vd v).run = (if d.world.isSome then .halted else .off) ∧ (t.vd v).posted = [] ∧ (t.vd v).unexp = [] ∧ (t.vd v).inq = [] ∧ (t.vd v).kq = [] ∧
      (∀ r ∈ (t.vd v).rxs, r.live = false) ∧ (∀ x ∈ (t.vd v).txs, x.live = true → x.stat ≠ .pending) ∧ (s.t + 44800, Instr.teardownRelease v) ∈ t.agenda) ∧
    (∀ b, d.closing = some b →
      (s.t < b + 44800 → exec (.teardownRelease v) s = .next s) ∧
      (b + 44800 ≤ s.t → d.created = false →
        exec (.teardownRelease v) s = .next (if s.t % s.roundLen = 0 then s.setVd v { d with world := none, run := .off, closing := none } else s)) ∧
      (b + 44800 ≤ s.t → d.created = true → ∃ t, (d.frames ≠ [] → exec (.teardownRelease v) s = .next t) ∧ (d.frames = [] → Finishes (.teardownRelease v) s t (.teardown v) .ok) ∧
        (d.world = none → t.vd v = { wctr := d.wctr, zeroing := d.frames, ready := d.frames.isEmpty }) ∧
        (d.world ≠ none → t.vd v = { wctr := d.wctr, tenant := d.tenant, zeroing := d.frames, ready := d.frames.isEmpty, world := d.world, run := .halted, closing := some b } ∧
          (s.boundaryAfter s.t, Instr.teardownRelease v) ∈ t.agenda) ∧
        (∀ c ∈ t.cmds, v ∈ c.vds → c.answer = none → ∃ u, c.kind = some (.teardown u) ∨ (∃ i, c.kind = some (.region i) ∨ c.kind = some (.roll i) ∨ c.kind = some (.seal i))) ∧
        (∀ f ∈ t.fars, f.vd ≠ v) ∧ (∀ r ∈ t.bargeRs, r.vd ≠ v) ∧ ∀ e ∈ t.tlbs, e.2.vd ≠ v))) ∧
  (∀ (s : State) (key since : Nat) (k : KeyRec), s.keys.find? (fun x => x.id == key) = some k → k.st = .retiring since →
    (s.keyInFlight key = true → s.t < since + 44800 → exec (.keyErase key) s = .next s) ∧
    ((s.keyInFlight key = false ∨ since + 44800 ≤ s.t) → ∃ t, exec (.keyErase key) s = .next t ∧ t = { s with keys := t.keys, lineKeys := t.lineKeys, ciphers := t.ciphers, ctrs := t.ctrs } ∧
      (∀ p ∈ s.lineKeys, p.2 = key → (p.1, s.lineCipher p.1) ∈ t.ciphers) ∧
      (∀ x ∈ t.keys, x.id = key → x = { id := key }) ∧ (∀ x ∈ s.keys, x.id ≠ key → x ∈ t.keys) ∧ (∀ p ∈ t.lineKeys, p.2 = key → key = deadKey) ∧
      ∀ c ∈ t.ctrs, c.1 ≠ key))

/-- R225, R333, R334, R340, R341, R343, R355, R67: housekeeping's passes: freed frames are zeroed line by line on each channel that is free, a region line by
line with its MACs; a sweep makes
each line's MAC anew and the counter rises at its end; a snapshot copies line after line; a sealing pass builds one node; scrubbing counts and reports. One line per
free channel and one node per acceptance (log 15), a snapshot's order of completion and the lines that it skips (log 24), the row replaced in the next round's refresh
window (log 25) and errors as data of the row (log 19) are the model's choices. -/
def Obligations.HousekeepingEvents : Prop :=
  (∀ (s : State) (k : Nat), let u := (List.range 32).foldl (fun (s : State) i => s.zeroStep (k * 32 + i)) s
    exec (.zeroingPass k) s = .next ((List.range u.vds.length).foldl State.zeroOver u)) ∧
  (∀ (s : State) (c : Nat), ((s.houseOpen c = false ∨ s.zeroOn c = none) → s.zeroStep c = s) ∧
    ∀ v l, s.houseOpen c = true → s.zeroOn c = some (v, l) → v < s.vds.length → let t := s.zeroStep c
      (∀ i < 64, t.mem.get (l * 64 + i) = 0) ∧ (∀ a, (a < l * 64 ∨ (l + 1) * 64 ≤ a) → t.mem.get a = s.mem.get a) ∧
      (t.vd v).zeroedOn c = (s.vd v).zeroedOn c + 1 ∧ (t.vd v).zeroing = (s.vd v).zeroing ∧ t.lineHurt l = false ∧ t.outs = s.outs) ∧
  (∀ (s : State) (v : Nat), let d := s.vd v
    ((d.zeroing = [] ∨ d.zeroLeft = true) → s.zeroOver v = s) ∧
    (d.zeroing ≠ [] → d.zeroLeft = false → s.zeroOver v = (s.setVd v { d with zeroing := [], zeroed := [], ready := true }).finish (.teardown v) .ok)) ∧
  (∀ (s : State) (r : WRegion), s.regions.find? (fun q => q.idx == r.idx) = some r → r.usable = false →
    let pa := r.pfn * 4096 + r.zeroed * 64
    s.houseOpen (channelOf pa) = true →
    let r' := { r with zeroed := r.zeroed + 1, usable := decide (r.len * 64 ≤ r.zeroed + 1) }
    let u := (((s.countAccept (.hbm (channelOf pa))).copyFor (pa / 64)).zeroLineAt (pa / 64)).writeMac r (pa / 64) r.keyid 0
    let u := { u with regions := u.regions.map (fun (q : WRegion) => if q.idx == r.idx then r' else q) }
    (r'.usable = false → exec (.regionZeroing r.idx) s = .next u) ∧ (r'.usable = true → Finishes (.regionZeroing r.idx) s u (.region r.idx) .ok)) ∧
  (∀ (s : State) (r : WRegion), s.regions.find? (fun q => q.idx == r.idx) = some r →
    let put := fun (s : State) (x : WRegion) => { s with regions := s.regions.map (fun (q : WRegion) => if q.idx == r.idx then x else q) }
    (r.roll = none → s.t % s.roundLen = 0 → exec (.rollSweep r.idx) s = .next (put s { r with roll := some 0 })) ∧
    (∀ p, r.roll = some p → let line := r.pfn * 64 + p
      s.houseOpen (channelOf (line * 64)) = true → (s.countAccept (.hbm (channelOf (line * 64)))).macOk r line r.keyid = true → s.lineHurt line = false →
      let u := ((s.countAccept (.hbm (channelOf (line * 64)))).copyStep (r.macAt line)).writeMac r line r.keyid (r.counter + 1)
      (p + 1 < r.len * 64 → exec (.rollSweep r.idx) s = .next (put u { r with roll := some (p + 1) })) ∧
      (r.len * 64 ≤ p + 1 → Finishes (.rollSweep r.idx) s (put u { r with roll := none, counter := r.counter + 1 }) (.roll r.idx) .ok))) ∧
  (∀ (s : State) (v : Nat), let d := s.vd v
    (∀ a b rest, d.snapNext = (a, b) :: rest → s.snapOver v = true → s.t % s.roundLen = 0 → exec (.snapCopy v) s = .next
      (((s.setVd v { d with snap := some { area := a, bitmap := b }, snapNext := rest }).houseWrite b (List.replicate ((frameCount d.frames + 7) / 8) 0)).snapDone v)) ∧
    (∀ p l, (d.snapNext = [] ∨ s.snapOver v = false) → d.snap = some p → s.snapLine v = some l → s.houseOpen (channelOf (l * 64)) = true →
      let u := s.countAccept (.hbm (channelOf (l * 64)))
      let at' := p.area + p.ptr * 64
      let u := if p.since.contains (p.ptr / 64) = true ∨ p.steps.any (fun x => x.1 == p.ptr / 64) = true then u else u.copyLine v l at'
      exec (.snapCopy v) s = .next ((u.setVd v { u.vd v with snap := some { p with ptr := p.ptr + 1 } }).snapDone v)) ∧
    (∀ l pa, framesHold d.frames (pa / 4096) = false → s.copyLine v l pa = s) ∧
    (∀ l pa bs, framesHold d.frames (pa / 4096) = true → (s.houseRead l).1 = some bs → s.copyLine v l pa = (s.houseRead l).2.houseWrite pa bs) ∧
    (s.snapOver v = false → s.snapDone v = s) ∧
    (s.snapOver v = true → (s.finish (.snap v) .ok).vds = s.vds ∧ s.snapDone v = if d.snapNext = [] then s.finish (.snap v) .ok else
      (s.finish (.snap v) .ok).post (s.boundaryAfter s.t) (.snapCopy v))) ∧
  (∀ (s : State) (v : Nat) (q : Inval) (rest : List Inval), (s.vd v).invals = q :: rest →
    (s.drained v q = true → Finishes (.invalidateComplete v q.id) s (s.setVd v { s.vd v with invals := rest }) (.invalidate q.id) .ok) ∧
    (s.drained v q = false → exec (.invalidateComplete v q.id) s = .next s)) ∧
  (∀ (s : State) (r : SRegion), s.sealed.find? (fun q => q.num == r.num) = some r → s.sealOpen r = true →
    let u := (s.countAccept .cp).buildNode r.num 1 r.ptr
    let put := fun (s : State) (f : SRegion → SRegion) => { s with sealed := s.sealed.map (fun (q : SRegion) => if q.num == r.num then f q else q) }
    (r.ptr + 1 < r.nodes 1 → exec (.sealingPass r.num) s = .next (put u (fun q => { q with ptr := r.ptr + 1 }))) ∧
    (r.nodes 1 ≤ r.ptr + 1 → Finishes (.sealingPass r.num) s (put (u.buildUpper r.num) (fun q => { q with st := .sealed, ptr := 0 })).noteDamage (.seal r.num) .ok)) ∧
  (∀ (s : State) (found : List (Nat × Bool)), s.power = .on → s.inRefresh = true →
    exec (.refreshWindow found) s = .next (found.foldl State.scrubbed (s.rowsDue.foldl State.spareRow s))) ∧
  (∀ (s : State) (e : ErrSite), s.power = .on →
    exec (.sramPatrolScrub e false) s = .next { s with health := { s.health with ce := min 65535 (s.health.ce + 1) } } ∧
    ∃ t, exec (.sramPatrolScrub e true) s = .next t ∧ e ∈ t.badSram ∧ (∀ x ∈ t.badSram, x = e ∨ x ∈ s.badSram) ∧
      ({ site := e, world := s.siteWorld e, fatal := true } : ErrRec) ∈ t.errors ∧ t.health = s.health)

/-- R11, R12, R71, R266, R326, R347, R348, R352: an admin command of a frozen host completes FROZEN and one in recovery REFUSED, without an effect; otherwise a VD not in
the state its row needs completes VD_STATE, fields outside the rule REFUSED, and the rest have the effect of Table 25.2. An
answer is written once the effect is complete, and after those of the earlier commands that name a VDID of its own. The ring's registers and a completion's bytes are
log 14's choice; REFUSED in recovery and for KeyID 0, and what units out of service refuse, are log 25's; the completion points of HALT, RESUME, SCHEDULE and SNAP are
log 24's. -/
def Obligations.AdminCommands : Prop :=
  (∀ (s : State) (vs : List Nat) (st : AStat) (data : List Byte), Written s →
    ((∀ c ∈ s.cmds, ∀ v ∈ vs, v ∉ c.vds) → s.complete vs st data = { s with outs := s.outs ++ [.completion st.completion data] }) ∧
    ((∃ c ∈ s.cmds, ∃ v ∈ vs, v ∈ c.vds) → s.complete vs st data = { s with cmds := s.cmds ++ [{ vds := vs, answer := some (st, data) }] })) ∧
  (∀ (s : State) (k : CmdKind) (st : AStat) (c : Cmd) (before later : List Cmd), Written s → s.cmds = before ++ c :: later → c.kind = some k → c.answer = none →
    (∀ x ∈ before, x.kind = some k → x.answer.isSome = true) →
    ((∀ x ∈ before, ∀ v ∈ c.vds, v ∉ x.vds) → ∃ t more, s.finish k st = t ∧ t = { s with cmds := t.cmds, outs := t.outs } ∧
      t.outs = s.outs ++ .completion st.completion [] :: more ∧ (∃ rest, t.cmds = before ++ rest ∧ rest.Sublist later) ∧ Written t) ∧
    ((∃ x ∈ before, ∃ v ∈ c.vds, v ∈ x.vds) → s.finish k st = { s with cmds := before ++ { c with answer := some (st, []) } :: later })) ∧
  (∀ (s : State) (i : Instr), AdminRow i → (s.power ≠ .on → Completes i s s.fetchCmd .refused []) ∧ (s.power = .on → s.health.hfrz = true → Completes i s s.fetchCmd .frozen []) ∧
    (∃ c, Instr.adminCode i = some c) ∧ s.fetchCmd = { s with adminProd := s.fetchCmd.adminProd, adminCons := s.adminCons + 1 } ∧
    s.adminProd ≤ s.fetchCmd.adminProd ∧ s.fetchCmd.adminCons ≤ s.fetchCmd.adminProd) ∧
  (∀ z : State, z.power = .on → z.health.hfrz = false → let s := z.fetchCmd
    (∀ a : VdArgs, let d := s.vd a.vdid
      let taken := s.vds.flatMap (fun (x : Vd) => x.frames ++ x.uncovered) ++ Config.deviceReserve
      let fits := 1 ≤ a.vdid ∧ a.vdid < 128 ∧ isPow2 a.uqSize = true ∧ 65536 ≤ a.uqSize ∧ a.uqSize ≤ 2 ^ 26 ∧ a.stack < 8 ∧ (∀ r ∈ a.frames, r.1 + r.2 ≤ 2 ^ 27) ∧ rangesMeet a.frames taken = false ∧ s.bankOut a.frames = false
      let made : Vd := { created := true, tenant := a.tenant, uqSize := a.uqSize, root := a.root, stack := a.stack, ctxArea := a.ctxArea, ctxKey := a.ctxKey, frames := a.frames, ctxs := List.replicate 16 {}, am := Clock.zero, frozen := a.frozen }
      (d.created = true ∨ d.ready = false ∨ d.world ≠ none → Completes (.vdCreate a) z s .vdState []) ∧
      (d.created = false → d.ready = true → d.world = none → (fits → Completes (.vdCreate a) z (s.setVd a.vdid made) .ok []) ∧ (¬ fits → Completes (.vdCreate a) z s .refused []))) ∧
    (∀ v w : Nat, let d := s.vd v
      let due := d.created = true ∧ d.world = none ∧ d.closing = none ∧ s.awaits (.teardownBoundary v) = false ∧ s.incoming v = false
      let open' := (∃ a, s.allotOf w = some a ∧ a.stack = d.stack ∧ ∀ c ∈ Allot.cores a, HwUnit.core c ∉ s.outOf) ∧ s.vdOfWorld w = none ∧ s.commitKeeps w = true
      (¬ due → Completes (.schedule v w) z s .vdState []) ∧ (due → ¬ open' → Completes (.schedule v w) z s .refused []) ∧
      (due → open' → Takes (.schedule v w) z ((s.takeWorld v w .starting).post (s.boundaryAfter s.t) (.firstRound v)) (.schedule v))) ∧
    (∀ v : Nat, let d := s.vd v
      let runs := (d.run = .running ∨ d.run = .starting) ∧ d.halting = false
      let u := (s.setVd v { d with halting := true }).takeCmd [v] (.halt v)
      (¬ runs → Completes (.halt v) z s .vdState []) ∧
      (runs → exec (.halt v) z = .next (if u.awaits (.haltEffect v) then u else u.post (s.boundaryAfter s.t) (.haltEffect v)))) ∧
    (∀ v : Nat, let d := s.vd v
      let can := d.run = .halted ∧ d.closing = none ∧ s.health.emerg = false ∧ s.unitOut v = false ∧ s.awaits (.resumeEffect v) = false
      (can → Takes (.resume v) z (s.post (s.boundaryAfter s.t) (.resumeEffect v)) (.resume v)) ∧ (¬ can → Completes (.resume v) z s .vdState [])) ∧
    (∀ o n w : Nat, let can := (s.vd o).world = some w ∧ (s.vd o).run ≠ .saving ∧ (s.vd o).closing = none ∧ (s.vd n).created = true ∧ (s.vd n).world = none ∧
        (s.vd n).closing = none ∧ n ≠ o ∧ s.incoming n = false
      (can → (s.vd n).stack = (s.vd o).stack → Takes (.replace o n w) z (s.post (s.boundaryAfter s.t) (.switchBoundary o n)) (.replace o n)) ∧
      (can → (s.vd n).stack ≠ (s.vd o).stack → Completes (.replace o n w) z s .refused []) ∧ (¬ can → Completes (.replace o n w) z s .vdState [])) ∧
    (∀ v : Nat, let d := s.vd v
      let can := d.created = true ∧ d.closing = none ∧ d.run ≠ .saving ∧ s.awaits (.teardownBoundary v) = false
      (can → Takes (.teardown v) z (s.post (s.boundaryAfter s.t) (.teardownBoundary v)) (.teardown v)) ∧ (¬ can → Completes (.teardown v) z s .vdState [])) ∧
    (∀ (c : CtxRef) (a : CtxArgs), let d := s.vd c.vd
      let fits := c.ctx < 16 ∧ a.key ∈ d.grants ∧ a.eptr % 32 = 0 ∧ a.ring % 64 = 0 ∧ isPow2 a.size = true ∧ 16 ≤ a.size ∧ a.size ≤ 4096
      let made : Ctx := { st := .idle, eptr := a.eptr, cgen := (s.ctx c).cgen + 1, keyid := a.key, chain := List.replicate 64 0, ring := a.ring, size := a.size }
      (d.created = false → Completes (.ctxCreate c a) z s .vdState []) ∧ (d.created = true → ¬ fits → Completes (.ctxCreate c a) z s .refused []) ∧
      (d.created = true → fits → Completes (.ctxCreate c a) z ((s.dropContext c).setCtx c made) .ok [])) ∧
    (∀ (v m : Nat) (tb : List (Nat × Word)), let d := s.vd v
      let can := d.created = true ∧ (d.world = none ∨ d.run = .halted)
      (can → Completes (.ranks v m tb) z (s.setVd v { d with myRank := m, ranks := tb }) .ok []) ∧ (¬ can → Completes (.ranks v m tb) z s .vdState [])) ∧
    (∀ (v : Nat) (fid : Option Nat), let d := s.vd v
      let named := fun (f : Nat) => fid = none ∨ fid = some f
      ((s.vd v).created = false → Completes (.replay v fid) z s .vdState []) ∧
      (d.created = true → v < s.vds.length → ∃ t, Completes (.replay v fid) z t .ok [] ∧ t = { s with vds := t.vds, agenda := t.agenda } ∧
        (∀ r, r ∈ (t.vd v).faults ↔ r ∈ d.faults ∧ ¬ named r.fid) ∧ (∀ a ∈ s.agenda, a ∈ t.agenda) ∧
        ∀ j ∈ s.jobs, ∀ f, j.vd = v → j.stage = .held f → named f → (s.t, Instr.replayedAccess v j.id) ∈ t.agenda)) ∧
    (∀ (v : Nat) (sc : InvScope), let u := s.bump.forget v sc
      ((s.vd v).created = false → Completes (.invalidate v sc) z s .vdState []) ∧
      ((s.vd v).created = true → Takes (.invalidate v sc) s
        (u.setVd v { u.vd v with invals := (u.vd v).invals ++ [{ id := s.nextId, fars := s.usedEntries v sc, lands := s.usedLands v sc, lines := s.usedLines v sc }] }) (.invalidate s.nextId))) ∧
    (∀ v va len : Nat, ((s.vd v).created = false → Completes (.counters v va len) z s .vdState []) ∧
      ((s.vd v).created = true → ∃ rs : List Nat, Completes (.counters v va len) z { s with counts := s.counts.filter (fun c => !rs.contains c.1) } .ok (rs.flatMap s.counterBytes) ∧
        ∀ r, r ∈ rs ↔ ∃ i l, va / 65536 ≤ i ∧ i < (va + len + 65535) / 65536 ∧ s.walk v (i * 65536) = .leaf l ∧ l.host = false ∧ l.pkg = s.pkg ∧ r = l.addr (i * 65536) / 65536)) ∧
    (∀ v a b : Nat, let d := s.vd v
      let u := (s.setVd v { d with snapNext := d.snapNext ++ [(a, b)] }).takeCmd [v] (.snap v)
      let fits := framesHold d.frames (a / 4096) = true ∧ ∀ l ∈ spanLines b ((frameCount d.frames + 7) / 8), framesHold d.frames (l / 64) = true
      (d.created = false → Completes (.snap v a b) z s .vdState []) ∧ (d.created = true → ¬ fits → Completes (.snap v a b) z s .refused []) ∧
      (d.created = true → fits → exec (.snap v a b) z = .next (if s.snapOver v = true ∧ d.snapNext = [] then u.post (s.boundaryAfter s.t) (.snapCopy v) else u))) ∧
    (∀ v : Nat, let can := (s.vd v).run = .halted ∧ (s.vd v).closing = none
      (can → Completes (.save v) z (s.writeContext v) .ok []) ∧ (¬ can → Completes (.save v) z s .vdState [])) ∧
    (∀ r : RegionArgs, let x := RegionArgs.region r
      let macs := (x.macPfn, (x.len * 512 + 4095) / 4096)
      let rest := s.regions.filter (fun q => q.idx != x.idx)
      let can := RegionArgs.ok r = true ∧ 1 ≤ x.len ∧ 1 ≤ x.keyid ∧ s.keyInstalled x.keyid = true ∧
        (∀ q ∈ s.regions, q.idx = x.idx → q.usable = true ∧ q.roll = none ∧ q.keyid ≠ x.keyid ∧ s.awaits (.rollSweep q.idx) = false) ∧
        x.pfn + x.len ≤ 2 ^ 27 ∧ x.macPfn + (x.len * 512 + 4095) / 4096 ≤ 2 ^ 27 ∧
        rangesMeet [(x.pfn, x.len), macs] (rest.flatMap WRegion.spans ++ s.sealed.flatMap SRegion.spans) = false ∧ rangesMeet [(x.pfn, x.len)] [macs] = false
      (can → Takes (.region r) z { s with regions := rest ++ [x] } (.region x.idx)) ∧ (¬ can → Completes (.region r) z s .refused []) ∧
      (∀ y : WRegion, y.idx < 256 → y.pfn < 2 ^ 31 → y.macPfn < 2 ^ 31 → y.len < 2 ^ 32 → y.keyid < 1024 → y.counter < 2 ^ 32 →
        RegionArgs.ok { words := y.record } = true ∧
        RegionArgs.region { words := y.record } = { idx := y.idx, pfn := y.pfn, macPfn := y.macPfn, len := y.len, keyid := y.keyid })) ∧
    (∀ n : Nat, let can := (∃ r ∈ s.regions, r.idx = n ∧ r.usable = true ∧ r.roll = none ∧ r.counter < 0xFFFFFFFF) ∧ s.awaits (.rollSweep n) = false
      (can → Takes (.roll n) z (s.post (s.boundaryAfter s.t) (.rollSweep n)) (.roll n)) ∧ (¬ can → Completes (.roll n) z s .refused [])) ∧
    (∀ (v : Nat) (a : SealArgs),
      let x := fun (a : SealArgs) => ({ num := a.num, vd := v, pfn := a.pfn, len := a.len, keyid := a.keyid, tree := a.tree, gen := s.genOf a.num + 1 } : SRegion)
      let can := 1 ≤ a.len ∧ a.len ≤ 2 ^ 24 ∧ 1 ≤ a.keyid ∧ s.keyInstalled a.keyid = true ∧ (∀ r ∈ s.sealed, r.num ≠ a.num) ∧
        (∀ d ∈ s.vds, d.created = true → a.keyid ∈ d.grants → s.sealedFor d.grants < 64) ∧ a.pfn + a.len ≤ 2 ^ 27 ∧ a.tree + SRegion.treeFrames (x a) ≤ 2 ^ 27 ∧
        rangesMeet [(a.pfn, a.len)] (s.regions.flatMap WRegion.spans ++ s.sealed.flatMap SRegion.spans) = false
      ((s.vd v).created = false → Completes (.seal v a) z s .vdState []) ∧ ((s.vd v).created = true → ¬ can → Completes (.seal v a) z s .refused []) ∧
      ((s.vd v).created = true → can → Takes (.seal v a) z { s with sealed := s.sealed ++ [x a], gens := keyed a.num (s.genOf a.num + 1) s.gens } (.seal a.num))) ∧
    (∀ n : Nat, let can := ∃ r ∈ s.sealed, r.num = n ∧ (r.st = .sealed ∨ r.st = .damaged)
      (¬ can → Completes (.reseal n) z s .vdState []) ∧
      (can → let u := { s with sealed := s.sealed.map (fun (r : SRegion) => if r.num == n then { r with st := .resealing, gen := r.gen + 1, bad := [], ptr := 0 } else r), gens := keyed n (s.genOf n + 1) s.gens }.noteDamage
        Takes (.reseal n) z (u.dropRegion n) (.seal n) ∧ (u.health.dmg = true ↔ ∃ r ∈ u.sealed, r.st = .damaged) ∧ (u.dropRegion n).sealed = u.sealed ∧
        ∀ l, l ∈ (u.dropRegion n).icache ↔ l ∈ s.icache ∧ l.region ≠ n)) ∧
    (∀ b : BitVec 8, Completes (.adminUnlistedCode b) z s .refused []) ∧
    (s.frzMgmt = some s.t → Completes .unfreezeMgmt z s .ok []) ∧
    (s.frzMgmt ≠ some s.t → Completes .unfreezeMgmt z { s with health := { s.health with mfrz := false }, frzMgmt := none } .ok []))

/-- R324, R325: the DEBUG commands arm a VD, set its comparators and its stop-world bit, stop a crew, let a stopped one issue one packet or go on, and read and write
its record; a command that names no resident crew of the VD, or one that is not stopped, completes VD_STATE. -/
def Obligations.DebugCommands : Prop :=
  ∀ z : State, z.power = .on → z.health.hfrz = false → let s := z.fetchCmd
    (∀ v : Nat, let d := s.vd v
      (d.created = false → ∀ (b : Bool) (cs : List Comparator), Completes (.debugArm v b) z s .vdState [] ∧ Completes (.debugComparators v cs) z s .vdState [] ∧
        Completes (.debugStopWorld v b) z s .vdState []) ∧
      (d.created = true → ∀ (b : Bool) (cs : List Comparator),
        Completes (.debugArm v b) z (s.setVd v { d with dbg := { d.dbg with armed := b } }) .ok [] ∧
        (cs.length ≤ 4 → Completes (.debugComparators v cs) z (s.setVd v { d with dbg := { d.dbg with comps := cs } }) .ok []) ∧
        (4 < cs.length → Completes (.debugComparators v cs) z s .refused []) ∧
        Completes (.debugStopWorld v b) z (s.setVd v { d with dbg := { d.dbg with stopWorld := b } }) .ok [])) ∧
    (∀ v c : Nat, let k := s.crew c
      let here := k.live = true ∧ c < s.crews.length ∧ s.vdOf c = v
      let stopped := here ∧ k.halted.isSome = true
      (¬ (here ∧ (s.vd v).dbg.armed = true) → Completes (.debugStop v c) z s .vdState []) ∧
      (here → (s.vd v).dbg.armed = true → (s.vd v).dbg.stopWorld = false →
        Completes (.debugStop v c) z (s.setCrew c { k with halted := if k.step then some .host else some (k.halted.getD .host), step := false, stepEnd := false }) .ok []) ∧
      (here → (s.vd v).dbg.armed = true → (s.vd v).dbg.stopWorld = true → ∃ t, Completes (.debugStop v c) z t .ok [] ∧
        ∀ x < s.crews.length, t.crew x = if (s.crew x).live = true ∧ s.vdOf x = v then { s.crew x with halted := if (s.crew x).step then some .host else some ((s.crew x).halted.getD .host), step := false, stepEnd := false } else s.crew x) ∧
      (¬ stopped → Completes (.debugStep v c) z s .vdState [] ∧ Completes (.debugResume v c) z s .vdState [] ∧ Completes (.debugRecordRead v c) z s .vdState [] ∧
        ∀ ws, Completes (.debugRecordWrite v c ws) z s .vdState []) ∧
      (stopped → Completes (.debugStep v c) z (s.setCrew c { k with step := true }) .ok [] ∧
        Completes (.debugResume v c) z (s.setCrew c { k with halted := none, step := false, stepEnd := false }) .ok [] ∧
        Completes (.debugRecordRead v c) z s .ok (k.record true ++ s.crewRows k) ∧
        ∀ ws : List DWord, let u := s.setCrew c (k.fromRecord ws (s.barrierAt c))
          Completes (.debugRecordWrite v c ws) z (if (ws.getD 9 0).getLsbD 9 then u.spillFromRecord c ws else u) .ok []))

/-- R62, R63, R332, R350-R353, R357: a layout is written, committed and applied at the next round boundary; a restart decides as the commit record says; the ROM boots
an image whose signature and version pass, or stays in recovery; fuses are blown one a clock, A before B; power and cold reset leave what lasts; a unit goes out of
service at a boundary, once. What the manual leaves to the implementation is as log rows 11, 14 and 25 say; fuses blown one a clock are log 15's choice, and an image's
authenticity as data of its row is log 18's. -/
def Obligations.BootAndLayout : Prop :=
  (∀ s : State, s.power = .on → s.health.mfrz = false →
    (∀ l : Layout, let l' := { l with gen := s.layout.gen + 1 }
      (s.committing = true → Answers (.layoutWrite l) s s .mgmt .busy []) ∧
      (s.committing = false → s.layoutOk l = true → Answers (.layoutWrite l) s { s with shadow := some (l', layoutCrc l') } .mgmt .ok []) ∧
      (s.committing = false → s.layoutOk l = false → Answers (.layoutWrite l) s { s with shadow := none } .mgmt .refused [])) ∧
    (s.committing = true → Answers .layoutCommit s s .mgmt .busy []) ∧
    (s.committing = false → s.shadow = none → Answers .layoutCommit s s .mgmt .refused []) ∧
    (∀ l crc, s.committing = false → s.shadow = some (l, crc) →
      let stands := layoutCrc l = crc ∧ s.layoutOk { l with gen := s.layout.gen } = true
      (stands → exec .layoutCommit s = .next ({ s with commit := some (s.layout.gen + 1, crc) }.post (s.boundaryAfter s.t) .layoutApply)) ∧
      (¬ stands → Answers .layoutCommit s s .mgmt .refused []))) ∧
  (∀ s : State, (s.shadow = none ∨ s.committing = false → exec .layoutApply s = .next s) ∧
    ∀ l crc, s.shadow = some (l, crc) → s.committing = true → ∃ t, exec .layoutApply s = .next t ∧ t.layout = l ∧ t.shadow = none ∧ t.commit = s.commit ∧
      t.outs = s.outs ++ [.reply .mgmt .ok []] ∧ t.mem = s.mem ∧ (∀ m ∈ s.tenants, ∃ n ∈ t.tenants, n.tenant = m.tenant ∧ n.mask = m.mask ∧ ∀ p ∈ m.pkgs, p ∈ n.pkgs) ∧
      ∀ line ∈ t.icache, line ∈ s.icache ∧ ((∃ a ∈ l.allots, (line.core, line.part) ∈ a.parts) →
        Layout.holder s.layout (0, line.core, line.part) = Layout.holder l (0, line.core, line.part))) ∧
  (∀ (s : State) (ok : Bool), (s.power ≠ .on → exec (.mgmtRestart ok) s = .next s) ∧
    let u := { s with agenda := s.agenda.filter (fun a => a.2 != Instr.layoutApply) }
    (s.power = .on → s.committing = false → exec (.mgmtRestart ok) s = .next { u with shadow := none }) ∧
    (s.power = .on → s.committing = true → ok = true → s.shadow.isSome = true → exec (.mgmtRestart ok) s = .next (u.post (s.boundaryAfter s.t) .layoutApply)) ∧
    (s.power = .on → s.committing = true → (ok = false ∨ s.shadow = none) →
      exec (.mgmtRestart ok) s = .next { u with shadow := none, commit := none, health := { s.health with replace := true } })) ∧
  (∀ s : State, (s.power = .on → exec .boot s = .next s) ∧
    (s.power ≠ .on → let fs := completeFuses s.fuses
      (¬ (s.sigOk = true ∧ s.sigKey = s.fusedKey ∧ fuseCounter fs ≤ s.version) → exec .boot s = .next { s with fuses := fs, power := .recovery, bootFail := true }) ∧
      (s.sigOk = true → s.sigKey = s.fusedKey → fuseCounter fs ≤ s.version → ∃ t, exec .boot s = .next t ∧ t.power = .on ∧ t.fuses = fs ∧ t.bootFail = false ∧ t.boots = s.boots + 1 ∧
        t.vds = List.replicate 128 {} ∧ t.mem = s.mem ∧ t.keys.length = 1024 ∧ (∀ k ∈ t.keys, k.id = 0 ∨ k = { id := k.id }) ∧ t.lineKeys = s.lineKeys))) ∧
  (∀ (fs : List (Bool × Bool)), fuseCounter (completeFuses fs) = fuseCounter fs) ∧
  (∀ (s : State) (n : Nat) (sig : ImageSig), (s.power = .off → exec (.recoveryLoad n sig) s = .next s) ∧
    (s.power = .on → Answers (.recoveryLoad n sig) s s .mgmt (if s.health.mfrz = true then .frozen else .refused) []) ∧
    (s.power = .recovery → Answers (.recoveryLoad n sig) s ({ s with version := n, sigOk := sig.valid, sigKey := sig.key }.post s.t .boot) .mgmt .ok [])) ∧
  (∀ s : State, exec .powerLoss s = .next s.powerDown ∧ (s.power = .off → exec .coldReset s = .next s) ∧
    (s.power ≠ .off → ∃ t, exec .coldReset s = .next t ∧ t.health = { spare := s.health.spare } ∧ t.outOf = [] ∧ (s.t, Instr.boot) ∈ t.agenda) ∧
    let u := s.powerDown
    u.power = .off ∧ u.vds = State.reset.vds ∧ u.keys = State.reset.keys ∧ u.fuses = s.fuses ∧ u.layout = s.layout ∧ u.commit = s.commit ∧ u.shadow = s.shadow ∧
      u.version = s.version ∧ u.mem = s.mem ∧ (∀ p ∈ u.lineKeys, p.2 = deadKey) ∧ u.outOf = s.outOf ∧ u.fusedKey = s.fusedKey ∧ u.gens = s.gens ∧ u.health = { spare := s.health.spare, replace := s.health.replace, degr := s.health.degr, coff := s.health.coff }) ∧
  (∀ (s : State) (n : Nat) (ok : Bool), s.power = .on → s.health.mfrz = false →
    let can := s.mgmtSess = true ∧ n ≤ 64 ∧ n ≤ s.version
    (s.mgmtSess = true → ok = false → Answers (.fuseAdvance n ok) s (s.freeze .mgmt) .mgmt .refused []) ∧
    (¬ (s.mgmtSess = true ∧ ok = false) → ¬ can → Answers (.fuseAdvance n ok) s s .mgmt .refused []) ∧
    (ok = true → can → (blowNext n s.fuses = none → Answers (.fuseAdvance n ok) s s .mgmt .ok []) ∧
      ∀ fs, blowNext n s.fuses = some fs → exec (.fuseAdvance n ok) s = .next ({ s with fuses := fs }.post (s.t + 1) (.fuseAdvance n ok)))) ∧
  (∀ (n : Nat) (fs gs : List (Bool × Bool)), blowNext n fs = some gs → ∃ i < n, ∃ a b, fs[i]? = some (a, b) ∧ (a && b) = false ∧ gs = fs.set i (true, a || b) ∧
    ∀ j < i, fs[j]? = some (true, true)) ∧
  (∀ (s : State) (u : HwUnit), (s.power ≠ .on ∨ s.t % s.roundLen ≠ 0 ∨ u ∈ s.outOf → exec (.unitOutOfService u) s = .next s) ∧
    (s.power = .on → s.t % s.roundLen = 0 → u ∉ s.outOf → (∀ p f, u ≠ .peerFibre p f) →
      (∀ v < s.vds.length, (s.vd v).world.isSome = true → s.holdsUnit v u = false) → ∃ t, exec (.unitOutOfService u) s = .next t ∧
      t.health.degr = true ∧ t.health.replace = true ∧ t.outOf = s.outOf ++ [u] ∧ ({ site := .unit u, world := none, fatal := true } : ErrRec) ∈ t.errors ∧
      (∀ c, u = .core c → t.health.coff = min 255 (s.health.coff + 1)) ∧ ∀ f, u = .fibre f → f ∈ t.failed) ∧
    (∀ p f, u = .peerFibre p f → s.power = .on → s.t % s.roundLen = 0 → u ∉ s.outOf →
      let x : State := { s with peerFailed := s.peerFailed ++ [(p, f)] }
      ((p, f) ∈ s.peerFailed → exec (.unitOutOfService u) s = .next s) ∧
      ((p, f) ∉ s.peerFailed → s.reqs = [] → exec (.unitOutOfService u) s = .next x) ∧
      (∀ (w n g : Nat) (q : Packet), (p, f) ∉ s.peerFailed → s.sameReach p = false → q.dst = p → s.reqs = [⟨.fibre f, w, .send q, n⟩] → x.planeTo p = some g →
        exec (.unitOutOfService u) s = .next { x with reqs := [⟨.fibre (30 + g), w, .send { q with det := false }, n⟩] } ∧ 30 + g ≠ f)) ∧
    (∀ c v, u = .core c → s.power = .on → s.t % s.roundLen = 0 → u ∉ s.outOf → v < s.vds.length → (s.vd v).world.isSome = true → s.holdsUnit v u = true → (s.vd v).run = .running →
      ∃ t, exec (.unitOutOfService u) s = .next t ∧ (t.vd v).run = .halted ∧ t.health.coff = min 255 (s.health.coff + 1) ∧
        ({ site := .unit u, world := (s.vd v).world, fatal := true } : ErrRec) ∈ t.errors))

/-- R226, R248, R336-R338, R346, R347, R349, R354, R358: the two masters' requests. A frozen master is refused FROZEN, but for a new session; a session's failure
freezes the master; keys are installed and granted in a session; only the other master is unfrozen; an access outside a master's and a function's registers is refused and freezes the master. In recovery the port's version queries and
the PF's BOOT_FAIL are answered. What the manual leaves to the implementation is as log rows 11, 14, 18 and 25 say. -/
def Obligations.MastersAndKeys : Prop :=
  (∀ (s : State) (m : Master), s.power = .on → s.frozen m = true →
    (∀ q, Answers (.getMeasurements m q) s s m .frozen []) ∧ (∀ k ks, Answers (.install m k ks) s s m .frozen []) ∧ (∀ k v, Answers (.grant m k v) s s m .frozen []) ∧
    (∀ r x, Answers (.registerWrite m r x) s s m .frozen []) ∧
    (m = .mgmt → Answers .emergClear s s .mgmt .frozen [] ∧ (∀ l, Answers (.layoutWrite l) s s .mgmt .frozen []) ∧ Answers .layoutCommit s s .mgmt .frozen [] ∧
      ∀ n ok, Answers (.fuseAdvance n ok) s s .mgmt .frozen []) ∧
    (m = .host → ∀ w pa bs, Answers (.hostLinkAccess w pa bs) s s .host .frozen [])) ∧
  (∀ s : State, s.power = .on →
    Answers (.spdmSession .host (.session true)) s { s with hostSess := true } .host .ok [] ∧
    Answers (.spdmSession .mgmt (.session true)) s { s with mgmtSess := true } .mgmt .ok [] ∧
    ∀ m, Answers (.spdmSession m (.session false)) s (s.freeze m) m .refused [] ∧ (s.freeze m).frozen m = true ∧ Answers (.spdmSession m .version) s s m .ok spdmVersion) ∧
  (∀ s : State, s.power = .recovery → Answers (.spdmSession .mgmt .version) s s .mgmt .ok spdmVersion ∧
    ∀ x, Answers (.registerWrite .host { reg := .bootFail, read := true } x) s s .host .ok (s.portReads .bootFail)) ∧
  (∀ (s : State) (m o : Master), s.power = .on →
    let can := s.session m = true ∧ m ≠ o
    (can → Answers (.unfreeze m o) s (s.thaw o) m .ok []) ∧ (¬ can → Answers (.unfreeze m o) s s m (if s.frozen m = true then .frozen else .refused) [])) ∧
  (∀ (s : State) (o : Master), ((o = .host → s.frzHost ≠ some s.t) → (o = .mgmt → s.frzMgmt ≠ some s.t) → (s.thaw o).frozen o = false)) ∧
  (∀ (s : State) (m : Master), s.power = .on → s.frozen m = false →
    (∀ q : MeasReq, let bs := s.measured (MeasReq.indices q)
      let sig := Config.signature (sha512 (Config.measurementBlock q.nonce bs))
      (bs ≠ [] → Answers (.getMeasurements m q) s s m .ok (bs ++ sig.1 ++ sig.2)) ∧ (bs = [] → Answers (.getMeasurements m q) s s m .refused [])) ∧
    (∀ (k : Nat) (ks : Keys), let can := s.session m = true ∧ 1 ≤ k ∧ ks.reserved = 0 ∧ ∃ x ∈ s.keys, x.id = k ∧ x.st = .free
      (can → Answers (.install m k ks) s { s with keys := s.keys.map (fun (x : KeyRec) => if x.id == k then { x with st := .installed, keys := ks } else x), ctrs := s.ctrs.filter (fun c => c.1 != k) } m .ok []) ∧
      (¬ can → Answers (.install m k ks) s s m .refused [])) ∧
    (∀ k v : Nat, let d := s.vd v
      let can := s.session m = true ∧ 1 ≤ k ∧ s.keyInstalled k = true ∧ d.created = true ∧ d.closing = none ∧ (d.world = none ∨ d.run = .halted) ∧
        s.sealedFor (if k ∈ d.grants then d.grants else d.grants ++ [k]) ≤ 64
      (can → k ∉ d.grants → Answers (.grant m k v) s (s.setVd v { d with grants := d.grants ++ [k] }) m .ok []) ∧
      (can → k ∈ d.grants → Answers (.grant m k v) s (s.setVd v d) m .ok []) ∧ (¬ can → Answers (.grant m k v) s s m .refused []))) ∧
  (∀ (s : State) (v x : Nat), s.power = .on → s.health.hfrz = false →
    let d := s.vd v
    let asks := fun (q : RegReq) => q.read = false ∧ (q.vf = none ∨ (q.vf = some v ∧ 1 ≤ v))
    let w := fun (r : RegName) (ok : Prop) (d' : Vd) => ∀ q : RegReq, q.reg = r → asks q →
      (ok → v < s.vds.length → ∃ t, exec (.registerWrite .host q x) s = .next t ∧ t.vd v = d' ∧ t = { s with vds := t.vds, outs := t.outs, agenda := t.agenda } ∧
        (∀ y, y ≠ v → t.vd y = s.vd y) ∧ t.outs = s.outs ++ [.reply .host .ok []] ∧ ((d.recs = [] ∨ (r ≠ .fqSize v ∧ r ≠ .fqCons v)) → t.agenda = s.agenda) ∧
        (d.recs ≠ [] → (r = .fqSize v ∨ r = .fqCons v) → (s.t, Instr.faultRecordDeferred v) ∈ t.agenda)) ∧
      (¬ ok → v < s.vds.length → Answers (.registerWrite .host q x) s s .host .refused [])
    w (.fqBase v) (x % 32 = 0) { d with fqBase := x } ∧ w (.fqSize v) (isPow2 x = true ∧ 16 ≤ x ∧ x ≤ 65536) { d with fqSize := x } ∧
    w (.counterT v) (x < 65536) { d with thresh := x } ∧ w (.vecMask v) True { d with vmask := x % 2 == 1 } ∧ w (.fqCons v) True { d with fqCons := x } ∧
    (∀ c : CtxRef, c.vd = v → w (.context c) False d) ∧ w (.fqProd v) False d ∧
    Answers (.registerWrite .host { reg := .adminProd } x) s { s with adminProd := x } .host .ok [] ∧
    (∀ r, (r = .adminCons ∨ r = .health ∨ r = .bootFail) → Answers (.registerWrite .host { reg := r } x) s s .host .refused []) ∧
    (∀ q, RegName.function q.reg = some v → (s.vds.length ≤ v ∨ (∃ f, q.vf = some f ∧ (f ≠ v ∨ f = 0))) → Answers (.registerWrite .host q x) s (s.freeze .host) .host .refused []) ∧
    ∀ q : RegReq, RegName.function q.reg = none → (q.vf ≠ none ∨ q.reg ∉ [RegName.adminProd, .adminCons, .health, .bootFail]) →
      Answers (.registerWrite .host q x) s (s.freeze .host) .host .refused []) ∧
  (∀ (s : State) (m : Master) (q : RegReq) (x : Nat), s.power = .on → s.frozen m = false → s.inWindow m q = true → q.read = true →
    Answers (.registerWrite m q x) s s m .ok (s.portReads q.reg)) ∧
  (∀ (s : State) (x : Nat), s.power = .on → s.health.mfrz = false →
    Answers (.registerWrite .mgmt { reg := .powerLimit } x) s { s with powerLim := x } .mgmt .ok [] ∧
    Answers (.registerWrite .mgmt { reg := .tempLimit } x) s { s with tempLim := x } .mgmt .ok [] ∧
    (∀ r, (r = .health ∨ r = .errorRecords) → Answers (.registerWrite .mgmt { reg := r } x) s s .mgmt .refused []) ∧
    ∀ q : RegReq, (q.vf ≠ none ∨ q.reg ∉ [RegName.health, .errorRecords, .powerLimit, .tempLimit]) → Answers (.registerWrite .mgmt q x) s (s.freeze .mgmt) .mgmt .refused []) ∧
  (∀ s : State, s.power = .on → (∃ t, exec .emergencyHalt s = .next t ∧ t.health = { s.health with emerg := true } ∧ t.outs = s.outs ∧
      ({ site := .limits, world := none, fatal := true } : ErrRec) ∈ t.errors ∧
      ∀ v < s.vds.length, ((s.vd v).run = .running ∨ (s.vd v).run = .starting ∨ s.awaits (.resumeEffect v) = true) → ∃ b, (b, Instr.haltEffect v) ∈ t.agenda) ∧
    (s.health.mfrz = false → Answers .emergClear s { s with health := { s.health with emerg := false } } .mgmt .ok [])) ∧
  (∀ (s : State) (p L S : Nat) (ms : List Nat) (ts : List Tenancy), (s.power ≠ .on → exec (.domainFormation p ms L S ts) s = .next s) ∧
    (s.power = .on → let can := (∀ d ∈ s.vds, d.created = false) ∧ p < 1024 ∧ p ∈ ms ∧ 1 ≤ L ∧ L ≤ 16 ∧ S ∈ [16, 32, 64, 128, 256]
      (¬ can → Answers (.domainFormation p ms L S ts) s s .mgmt .refused []) ∧
      (can → ∃ t, exec (.domainFormation p ms L S ts) s = .next t ∧ t.t = 0 ∧ t.pkg = p ∧ t.members = ms ∧ t.rotaL = L ∧ t.rotaS = S ∧ t.tenants = ts ∧
        t.streams = [] ∧ t.fabricKey = Config.domainKey s.boots ∧ t.vds = s.vds ∧ t.mem = s.mem ∧ t.outs = s.outs ∧
        ∀ k < 16, ∃ m ∈ ms, t.tokens.getD k 0 = memberOf m ∧ reachOf m = reachOf p ∧ ∀ n ∈ ms, reachOf n = reachOf p → memberOf m ≤ memberOf n))) ∧
  (∀ (s : State) (w : Bool) (pa : Nat) (bs : List Byte), s.power = .on → s.health.hfrz = false → 2 ^ 39 < pa + bs.length →
    Answers (.hostLinkAccess w pa bs) s s .host .refused []) ∧
  (∀ (s : State) (pa : Nat) (bs : List Byte), s.power = .on → s.health.hfrz = false → pa + bs.length ≤ 2 ^ 39 →
    Answers (.hostLinkAccess true pa bs) s ((spanLines pa bs.length).foldl (fun (s : State) l => s.hostStore pa bs l) s) .host .ok [] ∧
    let r := (spanLines pa bs.length).foldl hostLoad (some [], s)
    (r.1 = none → Answers (.hostLinkAccess false pa bs) s r.2 .host .refused []) ∧
    ∀ got, r.1 = some got → Answers (.hostLinkAccess false pa bs) s r.2 .host .ok ((got.drop (pa % 64)).take bs.length))
end

