-- ==== Sys2Proof/Laws/Memory.lean ====
section
/-! SUPPORT. Memories: what a read gives after a write, and that every operation keeps the canonical form. -/
namespace Sys2Proof.Machine
open Sys2Proof

/-! ### Lists with rising addresses -/

theorem risingFrom_weaken {m : List Host.Cell} {lo hi : Nat} (h : risingFrom (some hi) m = true) (le : lo ≤ hi) :
    risingFrom (some lo) m = true := by
  cases m with
  | nil => rfl
  | cons c r =>
    simp only [risingFrom, Bool.and_eq_true, decide_eq_true_eq] at h ⊢
    exact ⟨by omega, h.2⟩

theorem risingFrom_none {m : List Host.Cell} {lo : Nat} (h : risingFrom (some lo) m = true) : risingFrom none m = true := by
  cases m with
  | nil => rfl
  | cons c r =>
    simp only [risingFrom, Bool.and_eq_true] at h ⊢
    exact ⟨trivial, h.2⟩

theorem risingFrom_filter (p : Host.Cell → Bool) {m : List Host.Cell} : ∀ {lo}, risingFrom lo m = true → risingFrom lo (m.filter p) = true := by
  induction m with
  | nil => intro lo h; exact h
  | cons c r ih =>
    intro lo h
    simp only [risingFrom, Bool.and_eq_true] at h
    by_cases hp : p c = true
    · simp only [List.filter_cons, hp, if_true, risingFrom, Bool.and_eq_true]
      exact ⟨h.1, ih h.2⟩
    · simp only [List.filter_cons, hp]
      cases lo with
      | none => exact risingFrom_none (ih h.2)
      | some l => exact risingFrom_weaken (ih h.2) (by have := h.1; simp at this; omega)

theorem risingFrom_cellDrop (a : Nat) {m : List Host.Cell} : ∀ {lo}, risingFrom lo m = true → risingFrom lo (cellDrop m a) = true := by
  induction m with
  | nil => intro lo h; exact h
  | cons c r ih =>
    intro lo h
    obtain ⟨k, v⟩ := c
    simp only [risingFrom, Bool.and_eq_true] at h
    unfold cellDrop
    split
    · cases lo with
      | none => exact risingFrom_none h.2
      | some l => exact risingFrom_weaken h.2 (by have := h.1; simp at this; omega)
    · simp only [risingFrom, Bool.and_eq_true]
      exact ⟨h.1, ih h.2⟩

/-- The bound lies below the address. -/
def below (lo : Option Nat) (a : Nat) : Prop := ∀ l, lo = some l → l < a

theorem risingFrom_cellPut (a : Nat) (b : Byte) {m : List Host.Cell} :
    ∀ {lo}, below lo a → risingFrom lo m = true → risingFrom lo (cellPut m a b) = true := by
  induction m with
  | nil =>
    intro lo hb _
    cases lo with
    | none => rfl
    | some l => simpa [cellPut, risingFrom] using hb l rfl
  | cons c r ih =>
    intro lo hb h
    obtain ⟨k, v⟩ := c
    simp only [risingFrom, Bool.and_eq_true] at h
    unfold cellPut
    split
    · rename_i hk
      simp only [risingFrom, Bool.and_eq_true, decide_eq_true_eq]
      refine ⟨?_, hk, h.2⟩
      cases lo with
      | none => rfl
      | some l => simpa using hb l rfl
    · split
      · rename_i hk
        subst hk
        simp only [risingFrom, Bool.and_eq_true]
        exact ⟨h.1, h.2⟩
      · simp only [risingFrom, Bool.and_eq_true]
        refine ⟨h.1, ih ?_ h.2⟩
        intro l hl
        simp only [Option.some.injEq] at hl
        omega

/-! ### Reading after a write -/

theorem cellAt_of_rising {m : List Host.Cell} {a : Nat} : ∀ {lo}, risingFrom (some lo) m = true → a ≤ lo → cellAt m a = none := by
  induction m with
  | nil => intro lo _ _; rfl
  | cons c r ih =>
    intro lo h le
    obtain ⟨k, v⟩ := c
    simp only [risingFrom, Bool.and_eq_true, decide_eq_true_eq] at h
    unfold cellAt
    rw [if_neg (by omega)]
    exact ih h.2 (by omega)

theorem cellAt_cellPut (m : List Host.Cell) (a x : Nat) (b : Byte) :
    cellAt (cellPut m a b) x = if x = a then some b else cellAt m x := by
  induction m with
  | nil => simp only [cellPut, cellAt, eq_comm]
  | cons c r ih =>
    obtain ⟨k, v⟩ := c
    simp only [cellPut]
    by_cases hx : x = a
    · subst hx
      split
      · simp [cellAt]
      · split
        · simp [cellAt]
        · rename_i hk; simp [cellAt, hk, ih]
    · have hx' : a ≠ x := fun e => hx e.symm
      split
      · simp [cellAt, hx']
      · split
        · rename_i hk; subst hk; simp [cellAt, hx']
        · simp [cellAt, hx, ih]

theorem cellAt_cellDrop {m : List Host.Cell} (a x : Nat) :
    ∀ {lo}, risingFrom lo m = true → cellAt (cellDrop m a) x = if x = a then none else cellAt m x := by
  induction m with
  | nil => intro lo _; simp [cellDrop, cellAt]
  | cons c r ih =>
    intro lo h
    obtain ⟨k, v⟩ := c
    simp only [risingFrom, Bool.and_eq_true] at h
    simp only [cellDrop]
    split
    · rename_i hk
      subst hk
      by_cases hx : x = k
      · subst hx; simp [cellAt_of_rising h.2]
      · simp [cellAt, hx, Ne.symm hx]
    · simp only [cellAt, ih h.2]
      split <;> split <;> simp_all

theorem cellAt_filter (p : Host.Cell → Bool) {m : List Host.Cell} (x : Nat) (hp : ∀ v, p (x, v) = true) :
    cellAt (m.filter p) x = cellAt m x := by
  induction m with
  | nil => rfl
  | cons c r ih =>
    obtain ⟨k, v⟩ := c
    by_cases hk : k = x
    · subst hk; simp [hp, cellAt]
    · by_cases hc : p (k, v) = true <;> simp [hc, cellAt, hk, ih]

/-! ### Memories whose unlisted addresses read 0 -/

theorem Memory.wf_rising {m : Memory} (h : m.wf = true) : risingFrom none m = true := by
  simp only [Memory.wf, Bool.and_eq_true] at h; exact h.1

theorem Memory.wf_nil : Memory.wf [] = true := rfl

theorem all_cellDrop {q : Host.Cell → Bool} {m : List Host.Cell} (a : Nat) (h : m.all q = true) : (cellDrop m a).all q = true := by
  induction m with
  | nil => rfl
  | cons c r ih =>
    obtain ⟨k, v⟩ := c
    simp only [List.all_cons, Bool.and_eq_true] at h
    simp only [cellDrop]
    split
    · exact h.2
    · simp only [List.all_cons, Bool.and_eq_true]; exact ⟨h.1, ih h.2⟩

theorem all_cellPut {q : Host.Cell → Bool} {m : List Host.Cell} (a : Nat) (b : Byte) (hb : q (a, b) = true) (h : m.all q = true) :
    (cellPut m a b).all q = true := by
  induction m with
  | nil => simp [cellPut, hb]
  | cons c r ih =>
    obtain ⟨k, v⟩ := c
    simp only [List.all_cons, Bool.and_eq_true] at h
    simp only [cellPut]
    split
    · simp_all
    · split
      · simp_all
      · simp only [List.all_cons, Bool.and_eq_true]; exact ⟨h.1, ih h.2⟩

theorem Memory.wf_set {m : Memory} (a : Nat) (b : Byte) (h : m.wf = true) : (m.set a b).wf = true := by
  simp only [Memory.wf, Bool.and_eq_true] at h ⊢
  unfold Memory.set
  split
  · exact ⟨risingFrom_cellDrop a h.1, all_cellDrop a h.2⟩
  · rename_i hb
    exact ⟨risingFrom_cellPut a b (by intro l hl; cases hl) h.1, all_cellPut a b (by simp [hb]) h.2⟩

theorem Memory.wf_write {m : Memory} (a : Nat) (bs : List Byte) (h : m.wf = true) : (m.write a bs).wf = true := by
  induction bs generalizing m a with
  | nil => exact h
  | cons b r ih => exact ih (a + 1) (Memory.wf_set a b h)

theorem Memory.wf_writeMasked {m : Memory} (a k : Nat) (bs : List Byte) (h : m.wf = true) : (m.writeMasked a k bs).wf = true := by
  induction bs generalizing m a k with
  | nil => exact h
  | cons b r ih =>
    unfold Memory.writeMasked
    refine ih (a + 1) (k / 2) ?_
    split
    · exact Memory.wf_set a b h
    · exact h

theorem Memory.wf_filter {m : Memory} (p : Host.Cell → Bool) (h : m.wf = true) : Memory.wf (m.filter p) = true := by
  simp only [Memory.wf, Bool.and_eq_true] at h ⊢
  refine ⟨risingFrom_filter p h.1, ?_⟩
  simp only [List.all_eq_true, List.mem_filter] at h ⊢
  exact fun c hc => h.2 c hc.1

theorem Memory.wf_clear {m : Memory} (lo n : Nat) (h : m.wf = true) : (m.clear lo n).wf = true := Memory.wf_filter _ h

theorem Memory.get_set {m : Memory} (h : m.wf = true) (a x : Nat) (b : Byte) : (m.set a b).get x = if x = a then b else m.get x := by
  unfold Memory.set Memory.get
  split
  · rename_i hb
    rw [cellAt_cellDrop a x (Memory.wf_rising h)]
    split <;> simp_all
  · rw [cellAt_cellPut]
    split <;> simp

/-- Read after write: byte x after bytes are written at a. -/
theorem Memory.get_write {m : Memory} (h : m.wf = true) (a x : Nat) (bs : List Byte) :
    (m.write a bs).get x = if a ≤ x ∧ x < a + bs.length then bs.getD (x - a) 0 else m.get x := by
  induction bs generalizing m a with
  | nil => simp [Memory.write]
  | cons b r ih =>
    unfold Memory.write
    rw [ih (Memory.wf_set a b h), Memory.get_set h]
    simp only [List.length_cons]
    by_cases hx : x = a
    · subst hx; simp
    · by_cases h1 : a + 1 ≤ x ∧ x < a + 1 + r.length
      · rw [if_pos h1, if_pos (by omega)]
        obtain ⟨n, hn⟩ : ∃ n, x - a = n + 1 := ⟨x - a - 1, by omega⟩
        rw [hn, show x - (a + 1) = n by omega]
        simp
      · rw [if_neg h1, if_neg hx, if_neg (by omega)]

/-- A write leaves every other byte alone. -/
theorem Memory.get_write_outside {m : Memory} (h : m.wf = true) {a x : Nat} {bs : List Byte} (hx : x < a ∨ a + bs.length ≤ x) :
    (m.write a bs).get x = m.get x := by
  rw [Memory.get_write h, if_neg (by omega)]

theorem Memory.read_length (m : Memory) (a n : Nat) : (m.read a n).length = n := by simp [Memory.read]

theorem Memory.get_clear {m : Memory} {lo n x : Nat} (hx : x < lo ∨ lo + n ≤ x) : (m.clear lo n).get x = m.get x := by
  unfold Memory.clear Memory.get
  rw [cellAt_filter]
  intro v
  simp; omega

/-! ### Stores whose unlisted addresses are undefined -/

theorem Cells.wf_write {m : Cells} (a : Nat) (bs : List Byte) (h : Cells.wf m = true) : Cells.wf (Cells.write m a bs) = true := by
  induction bs generalizing m a with
  | nil => exact h
  | cons b r ih => exact ih (a + 1) (risingFrom_cellPut a b (by intro l hl; cases hl) h)

theorem Cells.wf_forget {m : Cells} (lo n : Nat) (h : Cells.wf m = true) : Cells.wf (Cells.forget m lo n) = true := risingFrom_filter _ h

theorem risingFrom_append {l r : List Host.Cell} : ∀ {lo}, risingFrom lo l = true → risingFrom lo r = true →
    (∀ c ∈ l, risingFrom (some c.1) r = true) → risingFrom lo (l ++ r) = true := by
  induction l with
  | nil => intro lo _ h _; exact h
  | cons c l ih =>
    intro lo h _ hc
    simp only [risingFrom, List.cons_append, Bool.and_eq_true] at h ⊢
    exact ⟨h.1, ih h.2 (hc c (by simp)) (fun d hd => hc d (by simp [hd]))⟩

theorem risingFrom_of_all {m : List Host.Cell} {lo : Nat} (h : risingFrom none m = true) (hm : ∀ c ∈ m, lo < c.1) : risingFrom (some lo) m = true := by
  cases m with
  | nil => rfl
  | cons c r =>
    simp only [risingFrom, Bool.and_eq_true, decide_eq_true_eq] at h ⊢
    exact ⟨hm c (by simp), h.2⟩

theorem risingFrom_range (n : Nat) : ∀ a lo, below lo a → risingFrom lo ((List.range n).map (fun i => (a + i, (0 : Byte)))) = true := by
  induction n with
  | zero => intro a lo _; rfl
  | succ n ih =>
    intro a lo hb
    have := ih (a + 1) (some a) (by intro l hl; simp only [Option.some.injEq] at hl; omega)
    rw [List.range_succ_eq_map, List.map_cons, List.map_map]
    simp only [risingFrom, Bool.and_eq_true]
    refine ⟨?_, ?_⟩
    · cases lo with
      | none => rfl
      | some l => simpa using hb l rfl
    · simpa [Function.comp_def, Nat.add_assoc, Nat.add_comm, Nat.add_left_comm] using this

theorem Cells.wf_zero {m : Cells} (lo n : Nat) (h : Cells.wf m = true) : Cells.wf (Cells.zero m lo n) = true := by
  have hC : risingFrom none (m.filter (fun c => decide (lo + n ≤ c.1))) = true := risingFrom_filter _ h
  have hB : risingFrom none ((List.range n).map (fun i => (lo + i, (0 : Byte)))) = true := risingFrom_range n lo none (by intro l hl; cases hl)
  have hBC : ∀ k, below k lo → risingFrom k (m.filter (fun c => decide (lo + n ≤ c.1))) = true →
      risingFrom k ((List.range n).map (fun i => (lo + i, (0 : Byte))) ++ m.filter (fun c => decide (lo + n ≤ c.1))) = true := by
    intro k hk hc
    refine risingFrom_append (risingFrom_range n lo k hk) hc ?_
    simp only [List.mem_map, List.mem_range]
    rintro c ⟨i, hi, rfl⟩
    refine risingFrom_of_all hC ?_
    simp only [List.mem_filter, decide_eq_true_eq]
    intro d hd; have := hd.2; show lo + i < d.1; omega
  unfold Cells.wf Cells.zero
  rw [List.append_assoc]
  refine risingFrom_append (risingFrom_filter _ h) (hBC none (by intro l hl; cases hl) hC) ?_
  simp only [List.mem_filter, decide_eq_true_eq]
  intro c hc
  refine hBC _ (by intro l hl; simp only [Option.some.injEq] at hl; omega) (risingFrom_of_all hC ?_)
  simp only [List.mem_filter, decide_eq_true_eq]
  intro d hd; have := hd.2; have := hc.2; omega

theorem cellAt_cellsWrite (m : Cells) (a x : Nat) (bs : List Byte) :
    cellAt (Cells.write m a bs) x = if a ≤ x ∧ x < a + bs.length then bs[x - a]? else cellAt m x := by
  induction bs generalizing m a with
  | nil => simp [Cells.write]
  | cons b r ih =>
    unfold Cells.write
    rw [ih, cellAt_cellPut]
    simp only [List.length_cons]
    by_cases hx : x = a
    · subst hx; simp
    · by_cases h1 : a + 1 ≤ x ∧ x < a + 1 + r.length
      · rw [if_pos h1, if_pos (by omega)]
        obtain ⟨n, hn⟩ : ∃ n, x - a = n + 1 := ⟨x - a - 1, by omega⟩
        rw [hn, show x - (a + 1) = n by omega]
        simp
      · rw [if_neg h1, if_neg hx, if_neg (by omega)]

/-! ### Little-endian bytes (R4) -/

theorem toBytes_length (n v : Nat) : (toBytes n v).length = n := by
  induction n generalizing v with
  | zero => rfl
  | succ n ih => simp [toBytes, ih]

theorem ofBytes_toBytes (n v : Nat) : ofBytes (toBytes n v) = v % 256 ^ n := by
  induction n generalizing v with
  | zero => simp [toBytes, ofBytes, Nat.mod_one]
  | succ n ih =>
    simp only [toBytes, ofBytes, ih]
    have h := Nat.mod_mul (a := 256) (b := 256 ^ n) (x := v)
    rw [BitVec.toNat_ofNat, show 256 ^ (n + 1) = 256 * 256 ^ n by ring, h]

end Sys2Proof.Machine
end

