-- ==== Sys2Proof/Laws/State.lean ====
section
/-! SUPPORT. The fields of a state after each primitive update: one lemma per field per update, true by unfolding. -/
namespace Sys2Proof.Machine
open Sys2Proof

/-! ### setCrew -/

@[simp] theorem State.power_setCrew (s : State) (c : Nat) (k : Crew) : (s.setCrew c k).power = s.power := rfl
@[simp] theorem State.t_setCrew (s : State) (c : Nat) (k : Crew) : (s.setCrew c k).t = s.t := rfl
@[simp] theorem State.pkg_setCrew (s : State) (c : Nat) (k : Crew) : (s.setCrew c k).pkg = s.pkg := rfl
@[simp] theorem State.members_setCrew (s : State) (c : Nat) (k : Crew) : (s.setCrew c k).members = s.members := rfl
@[simp] theorem State.rotaL_setCrew (s : State) (c : Nat) (k : Crew) : (s.setCrew c k).rotaL = s.rotaL := rfl
@[simp] theorem State.rotaS_setCrew (s : State) (c : Nat) (k : Crew) : (s.setCrew c k).rotaS = s.rotaS := rfl
@[simp] theorem State.tenants_setCrew (s : State) (c : Nat) (k : Crew) : (s.setCrew c k).tenants = s.tenants := rfl
@[simp] theorem State.accepts_setCrew (s : State) (c : Nat) (k : Crew) : (s.setCrew c k).accepts = s.accepts := rfl
@[simp] theorem State.reqs_setCrew (s : State) (c : Nat) (k : Crew) : (s.setCrew c k).reqs = s.reqs := rfl
@[simp] theorem State.cpFree_setCrew (s : State) (c : Nat) (k : Crew) : (s.setCrew c k).cpFree = s.cpFree := rfl
@[simp] theorem State.layout_setCrew (s : State) (c : Nat) (k : Crew) : (s.setCrew c k).layout = s.layout := rfl
@[simp] theorem State.shadow_setCrew (s : State) (c : Nat) (k : Crew) : (s.setCrew c k).shadow = s.shadow := rfl
@[simp] theorem State.commit_setCrew (s : State) (c : Nat) (k : Crew) : (s.setCrew c k).commit = s.commit := rfl
@[simp] theorem State.version_setCrew (s : State) (c : Nat) (k : Crew) : (s.setCrew c k).version = s.version := rfl
@[simp] theorem State.sigOk_setCrew (s : State) (c : Nat) (k : Crew) : (s.setCrew c k).sigOk = s.sigOk := rfl
@[simp] theorem State.sigKey_setCrew (s : State) (c : Nat) (k : Crew) : (s.setCrew c k).sigKey = s.sigKey := rfl
@[simp] theorem State.fusedKey_setCrew (s : State) (c : Nat) (k : Crew) : (s.setCrew c k).fusedKey = s.fusedKey := rfl
@[simp] theorem State.bootFail_setCrew (s : State) (c : Nat) (k : Crew) : (s.setCrew c k).bootFail = s.bootFail := rfl
@[simp] theorem State.boots_setCrew (s : State) (c : Nat) (k : Crew) : (s.setCrew c k).boots = s.boots := rfl
@[simp] theorem State.fuses_setCrew (s : State) (c : Nat) (k : Crew) : (s.setCrew c k).fuses = s.fuses := rfl
@[simp] theorem State.powerLim_setCrew (s : State) (c : Nat) (k : Crew) : (s.setCrew c k).powerLim = s.powerLim := rfl
@[simp] theorem State.tempLim_setCrew (s : State) (c : Nat) (k : Crew) : (s.setCrew c k).tempLim = s.tempLim := rfl
@[simp] theorem State.health_setCrew (s : State) (c : Nat) (k : Crew) : (s.setCrew c k).health = s.health := rfl
@[simp] theorem State.errors_setCrew (s : State) (c : Nat) (k : Crew) : (s.setCrew c k).errors = s.errors := rfl
@[simp] theorem State.hostSess_setCrew (s : State) (c : Nat) (k : Crew) : (s.setCrew c k).hostSess = s.hostSess := rfl
@[simp] theorem State.mgmtSess_setCrew (s : State) (c : Nat) (k : Crew) : (s.setCrew c k).mgmtSess = s.mgmtSess := rfl
@[simp] theorem State.frzHost_setCrew (s : State) (c : Nat) (k : Crew) : (s.setCrew c k).frzHost = s.frzHost := rfl
@[simp] theorem State.frzMgmt_setCrew (s : State) (c : Nat) (k : Crew) : (s.setCrew c k).frzMgmt = s.frzMgmt := rfl
@[simp] theorem State.badSram_setCrew (s : State) (c : Nat) (k : Crew) : (s.setCrew c k).badSram = s.badSram := rfl
@[simp] theorem State.badHalves_setCrew (s : State) (c : Nat) (k : Crew) : (s.setCrew c k).badHalves = s.badHalves := rfl
@[simp] theorem State.spareRows_setCrew (s : State) (c : Nat) (k : Crew) : (s.setCrew c k).spareRows = s.spareRows := rfl
@[simp] theorem State.outOf_setCrew (s : State) (c : Nat) (k : Crew) : (s.setCrew c k).outOf = s.outOf := rfl
@[simp] theorem State.fabricKey_setCrew (s : State) (c : Nat) (k : Crew) : (s.setCrew c k).fabricKey = s.fabricKey := rfl
@[simp] theorem State.keys_setCrew (s : State) (c : Nat) (k : Crew) : (s.setCrew c k).keys = s.keys := rfl
@[simp] theorem State.ctrs_setCrew (s : State) (c : Nat) (k : Crew) : (s.setCrew c k).ctrs = s.ctrs := rfl
@[simp] theorem State.regions_setCrew (s : State) (c : Nat) (k : Crew) : (s.setCrew c k).regions = s.regions := rfl
@[simp] theorem State.sealed_setCrew (s : State) (c : Nat) (k : Crew) : (s.setCrew c k).sealed = s.sealed := rfl
@[simp] theorem State.gens_setCrew (s : State) (c : Nat) (k : Crew) : (s.setCrew c k).gens = s.gens := rfl
@[simp] theorem State.digests_setCrew (s : State) (c : Nat) (k : Crew) : (s.setCrew c k).digests = s.digests := rfl
@[simp] theorem State.vds_setCrew (s : State) (c : Nat) (k : Crew) : (s.setCrew c k).vds = s.vds := rfl
@[simp] theorem State.grids_setCrew (s : State) (c : Nat) (k : Crew) : (s.setCrew c k).grids = s.grids := rfl
@[simp] theorem State.wgs_setCrew (s : State) (c : Nat) (k : Crew) : (s.setCrew c k).wgs = s.wgs := rfl
@[simp] theorem State.crews_setCrew (s : State) (c : Nat) (k : Crew) : (s.setCrew c k).crews = s.crews.set c k := rfl
@[simp] theorem State.icache_setCrew (s : State) (c : Nat) (k : Crew) : (s.setCrew c k).icache = s.icache := rfl
@[simp] theorem State.fills_setCrew (s : State) (c : Nat) (k : Crew) : (s.setCrew c k).fills = s.fills := rfl
@[simp] theorem State.mem_setCrew (s : State) (c : Nat) (k : Crew) : (s.setCrew c k).mem = s.mem := rfl
@[simp] theorem State.lineKeys_setCrew (s : State) (c : Nat) (k : Crew) : (s.setCrew c k).lineKeys = s.lineKeys := rfl
@[simp] theorem State.ciphers_setCrew (s : State) (c : Nat) (k : Crew) : (s.setCrew c k).ciphers = s.ciphers := rfl
@[simp] theorem State.basins_setCrew (s : State) (c : Nat) (k : Crew) : (s.setCrew c k).basins = s.basins := rfl
@[simp] theorem State.near_setCrew (s : State) (c : Nat) (k : Crew) : (s.setCrew c k).near = s.near := rfl
@[simp] theorem State.spill_setCrew (s : State) (c : Nat) (k : Crew) : (s.setCrew c k).spill = s.spill := rfl
@[simp] theorem State.basinOps_setCrew (s : State) (c : Nat) (k : Crew) : (s.setCrew c k).basinOps = s.basinOps := rfl
@[simp] theorem State.tlbs_setCrew (s : State) (c : Nat) (k : Crew) : (s.setCrew c k).tlbs = s.tlbs := rfl
@[simp] theorem State.l2s_setCrew (s : State) (c : Nat) (k : Crew) : (s.setCrew c k).l2s = s.l2s := rfl
@[simp] theorem State.jobs_setCrew (s : State) (c : Nat) (k : Crew) : (s.setCrew c k).jobs = s.jobs := rfl
@[simp] theorem State.bargeRs_setCrew (s : State) (c : Nat) (k : Crew) : (s.setCrew c k).bargeRs = s.bargeRs := rfl
@[simp] theorem State.fars_setCrew (s : State) (c : Nat) (k : Crew) : (s.setCrew c k).fars = s.fars := rfl
@[simp] theorem State.mats_setCrew (s : State) (c : Nat) (k : Crew) : (s.setCrew c k).mats = s.mats := rfl
@[simp] theorem State.counts_setCrew (s : State) (c : Nat) (k : Crew) : (s.setCrew c k).counts = s.counts := rfl
@[simp] theorem State.streams_setCrew (s : State) (c : Nat) (k : Crew) : (s.setCrew c k).streams = s.streams := rfl
@[simp] theorem State.failed_setCrew (s : State) (c : Nat) (k : Crew) : (s.setCrew c k).failed = s.failed := rfl
@[simp] theorem State.peerFailed_setCrew (s : State) (c : Nat) (k : Crew) : (s.setCrew c k).peerFailed = s.peerFailed := rfl
@[simp] theorem State.replays_setCrew (s : State) (c : Nat) (k : Crew) : (s.setCrew c k).replays = s.replays := rfl
@[simp] theorem State.flits_setCrew (s : State) (c : Nat) (k : Crew) : (s.setCrew c k).flits = s.flits := rfl
@[simp] theorem State.transit_setCrew (s : State) (c : Nat) (k : Crew) : (s.setCrew c k).transit = s.transit := rfl
@[simp] theorem State.closed_setCrew (s : State) (c : Nat) (k : Crew) : (s.setCrew c k).closed = s.closed := rfl
@[simp] theorem State.tokens_setCrew (s : State) (c : Nat) (k : Crew) : (s.setCrew c k).tokens = s.tokens := rfl
@[simp] theorem State.spareStar_setCrew (s : State) (c : Nat) (k : Crew) : (s.setCrew c k).spareStar = s.spareStar := rfl
@[simp] theorem State.starDown_setCrew (s : State) (c : Nat) (k : Crew) : (s.setCrew c k).starDown = s.starDown := rfl
@[simp] theorem State.agenda_setCrew (s : State) (c : Nat) (k : Crew) : (s.setCrew c k).agenda = s.agenda := rfl
@[simp] theorem State.turns_setCrew (s : State) (c : Nat) (k : Crew) : (s.setCrew c k).turns = s.turns := rfl
@[simp] theorem State.issue_setCrew (s : State) (c : Nat) (k : Crew) : (s.setCrew c k).issue = s.issue := rfl
@[simp] theorem State.probed_setCrew (s : State) (c : Nat) (k : Crew) : (s.setCrew c k).probed = s.probed := rfl
@[simp] theorem State.adminProd_setCrew (s : State) (c : Nat) (k : Crew) : (s.setCrew c k).adminProd = s.adminProd := rfl
@[simp] theorem State.adminCons_setCrew (s : State) (c : Nat) (k : Crew) : (s.setCrew c k).adminCons = s.adminCons := rfl
@[simp] theorem State.cmds_setCrew (s : State) (c : Nat) (k : Crew) : (s.setCrew c k).cmds = s.cmds := rfl
@[simp] theorem State.outs_setCrew (s : State) (c : Nat) (k : Crew) : (s.setCrew c k).outs = s.outs := rfl
@[simp] theorem State.nextId_setCrew (s : State) (c : Nat) (k : Crew) : (s.setCrew c k).nextId = s.nextId := rfl

/-! ### setWg -/

@[simp] theorem State.power_setWg (s : State) (w : Nat) (x : Wg) : (s.setWg w x).power = s.power := rfl
@[simp] theorem State.t_setWg (s : State) (w : Nat) (x : Wg) : (s.setWg w x).t = s.t := rfl
@[simp] theorem State.pkg_setWg (s : State) (w : Nat) (x : Wg) : (s.setWg w x).pkg = s.pkg := rfl
@[simp] theorem State.members_setWg (s : State) (w : Nat) (x : Wg) : (s.setWg w x).members = s.members := rfl
@[simp] theorem State.rotaL_setWg (s : State) (w : Nat) (x : Wg) : (s.setWg w x).rotaL = s.rotaL := rfl
@[simp] theorem State.rotaS_setWg (s : State) (w : Nat) (x : Wg) : (s.setWg w x).rotaS = s.rotaS := rfl
@[simp] theorem State.tenants_setWg (s : State) (w : Nat) (x : Wg) : (s.setWg w x).tenants = s.tenants := rfl
@[simp] theorem State.accepts_setWg (s : State) (w : Nat) (x : Wg) : (s.setWg w x).accepts = s.accepts := rfl
@[simp] theorem State.reqs_setWg (s : State) (w : Nat) (x : Wg) : (s.setWg w x).reqs = s.reqs := rfl
@[simp] theorem State.cpFree_setWg (s : State) (w : Nat) (x : Wg) : (s.setWg w x).cpFree = s.cpFree := rfl
@[simp] theorem State.layout_setWg (s : State) (w : Nat) (x : Wg) : (s.setWg w x).layout = s.layout := rfl
@[simp] theorem State.shadow_setWg (s : State) (w : Nat) (x : Wg) : (s.setWg w x).shadow = s.shadow := rfl
@[simp] theorem State.commit_setWg (s : State) (w : Nat) (x : Wg) : (s.setWg w x).commit = s.commit := rfl
@[simp] theorem State.version_setWg (s : State) (w : Nat) (x : Wg) : (s.setWg w x).version = s.version := rfl
@[simp] theorem State.sigOk_setWg (s : State) (w : Nat) (x : Wg) : (s.setWg w x).sigOk = s.sigOk := rfl
@[simp] theorem State.sigKey_setWg (s : State) (w : Nat) (x : Wg) : (s.setWg w x).sigKey = s.sigKey := rfl
@[simp] theorem State.fusedKey_setWg (s : State) (w : Nat) (x : Wg) : (s.setWg w x).fusedKey = s.fusedKey := rfl
@[simp] theorem State.bootFail_setWg (s : State) (w : Nat) (x : Wg) : (s.setWg w x).bootFail = s.bootFail := rfl
@[simp] theorem State.boots_setWg (s : State) (w : Nat) (x : Wg) : (s.setWg w x).boots = s.boots := rfl
@[simp] theorem State.fuses_setWg (s : State) (w : Nat) (x : Wg) : (s.setWg w x).fuses = s.fuses := rfl
@[simp] theorem State.powerLim_setWg (s : State) (w : Nat) (x : Wg) : (s.setWg w x).powerLim = s.powerLim := rfl
@[simp] theorem State.tempLim_setWg (s : State) (w : Nat) (x : Wg) : (s.setWg w x).tempLim = s.tempLim := rfl
@[simp] theorem State.health_setWg (s : State) (w : Nat) (x : Wg) : (s.setWg w x).health = s.health := rfl
@[simp] theorem State.errors_setWg (s : State) (w : Nat) (x : Wg) : (s.setWg w x).errors = s.errors := rfl
@[simp] theorem State.hostSess_setWg (s : State) (w : Nat) (x : Wg) : (s.setWg w x).hostSess = s.hostSess := rfl
@[simp] theorem State.mgmtSess_setWg (s : State) (w : Nat) (x : Wg) : (s.setWg w x).mgmtSess = s.mgmtSess := rfl
@[simp] theorem State.frzHost_setWg (s : State) (w : Nat) (x : Wg) : (s.setWg w x).frzHost = s.frzHost := rfl
@[simp] theorem State.frzMgmt_setWg (s : State) (w : Nat) (x : Wg) : (s.setWg w x).frzMgmt = s.frzMgmt := rfl
@[simp] theorem State.badSram_setWg (s : State) (w : Nat) (x : Wg) : (s.setWg w x).badSram = s.badSram := rfl
@[simp] theorem State.badHalves_setWg (s : State) (w : Nat) (x : Wg) : (s.setWg w x).badHalves = s.badHalves := rfl
@[simp] theorem State.spareRows_setWg (s : State) (w : Nat) (x : Wg) : (s.setWg w x).spareRows = s.spareRows := rfl
@[simp] theorem State.outOf_setWg (s : State) (w : Nat) (x : Wg) : (s.setWg w x).outOf = s.outOf := rfl
@[simp] theorem State.fabricKey_setWg (s : State) (w : Nat) (x : Wg) : (s.setWg w x).fabricKey = s.fabricKey := rfl
@[simp] theorem State.keys_setWg (s : State) (w : Nat) (x : Wg) : (s.setWg w x).keys = s.keys := rfl
@[simp] theorem State.ctrs_setWg (s : State) (w : Nat) (x : Wg) : (s.setWg w x).ctrs = s.ctrs := rfl
@[simp] theorem State.regions_setWg (s : State) (w : Nat) (x : Wg) : (s.setWg w x).regions = s.regions := rfl
@[simp] theorem State.sealed_setWg (s : State) (w : Nat) (x : Wg) : (s.setWg w x).sealed = s.sealed := rfl
@[simp] theorem State.gens_setWg (s : State) (w : Nat) (x : Wg) : (s.setWg w x).gens = s.gens := rfl
@[simp] theorem State.digests_setWg (s : State) (w : Nat) (x : Wg) : (s.setWg w x).digests = s.digests := rfl
@[simp] theorem State.vds_setWg (s : State) (w : Nat) (x : Wg) : (s.setWg w x).vds = s.vds := rfl
@[simp] theorem State.grids_setWg (s : State) (w : Nat) (x : Wg) : (s.setWg w x).grids = s.grids := rfl
@[simp] theorem State.wgs_setWg (s : State) (w : Nat) (x : Wg) : (s.setWg w x).wgs = s.wgs.set w x := rfl
@[simp] theorem State.crews_setWg (s : State) (w : Nat) (x : Wg) : (s.setWg w x).crews = s.crews := rfl
@[simp] theorem State.icache_setWg (s : State) (w : Nat) (x : Wg) : (s.setWg w x).icache = s.icache := rfl
@[simp] theorem State.fills_setWg (s : State) (w : Nat) (x : Wg) : (s.setWg w x).fills = s.fills := rfl
@[simp] theorem State.mem_setWg (s : State) (w : Nat) (x : Wg) : (s.setWg w x).mem = s.mem := rfl
@[simp] theorem State.lineKeys_setWg (s : State) (w : Nat) (x : Wg) : (s.setWg w x).lineKeys = s.lineKeys := rfl
@[simp] theorem State.ciphers_setWg (s : State) (w : Nat) (x : Wg) : (s.setWg w x).ciphers = s.ciphers := rfl
@[simp] theorem State.basins_setWg (s : State) (w : Nat) (x : Wg) : (s.setWg w x).basins = s.basins := rfl
@[simp] theorem State.near_setWg (s : State) (w : Nat) (x : Wg) : (s.setWg w x).near = s.near := rfl
@[simp] theorem State.spill_setWg (s : State) (w : Nat) (x : Wg) : (s.setWg w x).spill = s.spill := rfl
@[simp] theorem State.basinOps_setWg (s : State) (w : Nat) (x : Wg) : (s.setWg w x).basinOps = s.basinOps := rfl
@[simp] theorem State.tlbs_setWg (s : State) (w : Nat) (x : Wg) : (s.setWg w x).tlbs = s.tlbs := rfl
@[simp] theorem State.l2s_setWg (s : State) (w : Nat) (x : Wg) : (s.setWg w x).l2s = s.l2s := rfl
@[simp] theorem State.jobs_setWg (s : State) (w : Nat) (x : Wg) : (s.setWg w x).jobs = s.jobs := rfl
@[simp] theorem State.bargeRs_setWg (s : State) (w : Nat) (x : Wg) : (s.setWg w x).bargeRs = s.bargeRs := rfl
@[simp] theorem State.fars_setWg (s : State) (w : Nat) (x : Wg) : (s.setWg w x).fars = s.fars := rfl
@[simp] theorem State.mats_setWg (s : State) (w : Nat) (x : Wg) : (s.setWg w x).mats = s.mats := rfl
@[simp] theorem State.counts_setWg (s : State) (w : Nat) (x : Wg) : (s.setWg w x).counts = s.counts := rfl
@[simp] theorem State.streams_setWg (s : State) (w : Nat) (x : Wg) : (s.setWg w x).streams = s.streams := rfl
@[simp] theorem State.failed_setWg (s : State) (w : Nat) (x : Wg) : (s.setWg w x).failed = s.failed := rfl
@[simp] theorem State.peerFailed_setWg (s : State) (w : Nat) (x : Wg) : (s.setWg w x).peerFailed = s.peerFailed := rfl
@[simp] theorem State.replays_setWg (s : State) (w : Nat) (x : Wg) : (s.setWg w x).replays = s.replays := rfl
@[simp] theorem State.flits_setWg (s : State) (w : Nat) (x : Wg) : (s.setWg w x).flits = s.flits := rfl
@[simp] theorem State.transit_setWg (s : State) (w : Nat) (x : Wg) : (s.setWg w x).transit = s.transit := rfl
@[simp] theorem State.closed_setWg (s : State) (w : Nat) (x : Wg) : (s.setWg w x).closed = s.closed := rfl
@[simp] theorem State.tokens_setWg (s : State) (w : Nat) (x : Wg) : (s.setWg w x).tokens = s.tokens := rfl
@[simp] theorem State.spareStar_setWg (s : State) (w : Nat) (x : Wg) : (s.setWg w x).spareStar = s.spareStar := rfl
@[simp] theorem State.starDown_setWg (s : State) (w : Nat) (x : Wg) : (s.setWg w x).starDown = s.starDown := rfl
@[simp] theorem State.agenda_setWg (s : State) (w : Nat) (x : Wg) : (s.setWg w x).agenda = s.agenda := rfl
@[simp] theorem State.turns_setWg (s : State) (w : Nat) (x : Wg) : (s.setWg w x).turns = s.turns := rfl
@[simp] theorem State.issue_setWg (s : State) (w : Nat) (x : Wg) : (s.setWg w x).issue = s.issue := rfl
@[simp] theorem State.probed_setWg (s : State) (w : Nat) (x : Wg) : (s.setWg w x).probed = s.probed := rfl
@[simp] theorem State.adminProd_setWg (s : State) (w : Nat) (x : Wg) : (s.setWg w x).adminProd = s.adminProd := rfl
@[simp] theorem State.adminCons_setWg (s : State) (w : Nat) (x : Wg) : (s.setWg w x).adminCons = s.adminCons := rfl
@[simp] theorem State.cmds_setWg (s : State) (w : Nat) (x : Wg) : (s.setWg w x).cmds = s.cmds := rfl
@[simp] theorem State.outs_setWg (s : State) (w : Nat) (x : Wg) : (s.setWg w x).outs = s.outs := rfl
@[simp] theorem State.nextId_setWg (s : State) (w : Nat) (x : Wg) : (s.setWg w x).nextId = s.nextId := rfl

/-! ### setGrid -/

@[simp] theorem State.power_setGrid (s : State) (g : Nat) (x : Grid) : (s.setGrid g x).power = s.power := rfl
@[simp] theorem State.t_setGrid (s : State) (g : Nat) (x : Grid) : (s.setGrid g x).t = s.t := rfl
@[simp] theorem State.pkg_setGrid (s : State) (g : Nat) (x : Grid) : (s.setGrid g x).pkg = s.pkg := rfl
@[simp] theorem State.members_setGrid (s : State) (g : Nat) (x : Grid) : (s.setGrid g x).members = s.members := rfl
@[simp] theorem State.rotaL_setGrid (s : State) (g : Nat) (x : Grid) : (s.setGrid g x).rotaL = s.rotaL := rfl
@[simp] theorem State.rotaS_setGrid (s : State) (g : Nat) (x : Grid) : (s.setGrid g x).rotaS = s.rotaS := rfl
@[simp] theorem State.tenants_setGrid (s : State) (g : Nat) (x : Grid) : (s.setGrid g x).tenants = s.tenants := rfl
@[simp] theorem State.accepts_setGrid (s : State) (g : Nat) (x : Grid) : (s.setGrid g x).accepts = s.accepts := rfl
@[simp] theorem State.reqs_setGrid (s : State) (g : Nat) (x : Grid) : (s.setGrid g x).reqs = s.reqs := rfl
@[simp] theorem State.cpFree_setGrid (s : State) (g : Nat) (x : Grid) : (s.setGrid g x).cpFree = s.cpFree := rfl
@[simp] theorem State.layout_setGrid (s : State) (g : Nat) (x : Grid) : (s.setGrid g x).layout = s.layout := rfl
@[simp] theorem State.shadow_setGrid (s : State) (g : Nat) (x : Grid) : (s.setGrid g x).shadow = s.shadow := rfl
@[simp] theorem State.commit_setGrid (s : State) (g : Nat) (x : Grid) : (s.setGrid g x).commit = s.commit := rfl
@[simp] theorem State.version_setGrid (s : State) (g : Nat) (x : Grid) : (s.setGrid g x).version = s.version := rfl
@[simp] theorem State.sigOk_setGrid (s : State) (g : Nat) (x : Grid) : (s.setGrid g x).sigOk = s.sigOk := rfl
@[simp] theorem State.sigKey_setGrid (s : State) (g : Nat) (x : Grid) : (s.setGrid g x).sigKey = s.sigKey := rfl
@[simp] theorem State.fusedKey_setGrid (s : State) (g : Nat) (x : Grid) : (s.setGrid g x).fusedKey = s.fusedKey := rfl
@[simp] theorem State.bootFail_setGrid (s : State) (g : Nat) (x : Grid) : (s.setGrid g x).bootFail = s.bootFail := rfl
@[simp] theorem State.boots_setGrid (s : State) (g : Nat) (x : Grid) : (s.setGrid g x).boots = s.boots := rfl
@[simp] theorem State.fuses_setGrid (s : State) (g : Nat) (x : Grid) : (s.setGrid g x).fuses = s.fuses := rfl
@[simp] theorem State.powerLim_setGrid (s : State) (g : Nat) (x : Grid) : (s.setGrid g x).powerLim = s.powerLim := rfl
@[simp] theorem State.tempLim_setGrid (s : State) (g : Nat) (x : Grid) : (s.setGrid g x).tempLim = s.tempLim := rfl
@[simp] theorem State.health_setGrid (s : State) (g : Nat) (x : Grid) : (s.setGrid g x).health = s.health := rfl
@[simp] theorem State.errors_setGrid (s : State) (g : Nat) (x : Grid) : (s.setGrid g x).errors = s.errors := rfl
@[simp] theorem State.hostSess_setGrid (s : State) (g : Nat) (x : Grid) : (s.setGrid g x).hostSess = s.hostSess := rfl
@[simp] theorem State.mgmtSess_setGrid (s : State) (g : Nat) (x : Grid) : (s.setGrid g x).mgmtSess = s.mgmtSess := rfl
@[simp] theorem State.frzHost_setGrid (s : State) (g : Nat) (x : Grid) : (s.setGrid g x).frzHost = s.frzHost := rfl
@[simp] theorem State.frzMgmt_setGrid (s : State) (g : Nat) (x : Grid) : (s.setGrid g x).frzMgmt = s.frzMgmt := rfl
@[simp] theorem State.badSram_setGrid (s : State) (g : Nat) (x : Grid) : (s.setGrid g x).badSram = s.badSram := rfl
@[simp] theorem State.badHalves_setGrid (s : State) (g : Nat) (x : Grid) : (s.setGrid g x).badHalves = s.badHalves := rfl
@[simp] theorem State.spareRows_setGrid (s : State) (g : Nat) (x : Grid) : (s.setGrid g x).spareRows = s.spareRows := rfl
@[simp] theorem State.outOf_setGrid (s : State) (g : Nat) (x : Grid) : (s.setGrid g x).outOf = s.outOf := rfl
@[simp] theorem State.fabricKey_setGrid (s : State) (g : Nat) (x : Grid) : (s.setGrid g x).fabricKey = s.fabricKey := rfl
@[simp] theorem State.keys_setGrid (s : State) (g : Nat) (x : Grid) : (s.setGrid g x).keys = s.keys := rfl
@[simp] theorem State.ctrs_setGrid (s : State) (g : Nat) (x : Grid) : (s.setGrid g x).ctrs = s.ctrs := rfl
@[simp] theorem State.regions_setGrid (s : State) (g : Nat) (x : Grid) : (s.setGrid g x).regions = s.regions := rfl
@[simp] theorem State.sealed_setGrid (s : State) (g : Nat) (x : Grid) : (s.setGrid g x).sealed = s.sealed := rfl
@[simp] theorem State.gens_setGrid (s : State) (g : Nat) (x : Grid) : (s.setGrid g x).gens = s.gens := rfl
@[simp] theorem State.digests_setGrid (s : State) (g : Nat) (x : Grid) : (s.setGrid g x).digests = s.digests := rfl
@[simp] theorem State.vds_setGrid (s : State) (g : Nat) (x : Grid) : (s.setGrid g x).vds = s.vds := rfl
@[simp] theorem State.grids_setGrid (s : State) (g : Nat) (x : Grid) : (s.setGrid g x).grids = s.grids.set g x := rfl
@[simp] theorem State.wgs_setGrid (s : State) (g : Nat) (x : Grid) : (s.setGrid g x).wgs = s.wgs := rfl
@[simp] theorem State.crews_setGrid (s : State) (g : Nat) (x : Grid) : (s.setGrid g x).crews = s.crews := rfl
@[simp] theorem State.icache_setGrid (s : State) (g : Nat) (x : Grid) : (s.setGrid g x).icache = s.icache := rfl
@[simp] theorem State.fills_setGrid (s : State) (g : Nat) (x : Grid) : (s.setGrid g x).fills = s.fills := rfl
@[simp] theorem State.mem_setGrid (s : State) (g : Nat) (x : Grid) : (s.setGrid g x).mem = s.mem := rfl
@[simp] theorem State.lineKeys_setGrid (s : State) (g : Nat) (x : Grid) : (s.setGrid g x).lineKeys = s.lineKeys := rfl
@[simp] theorem State.ciphers_setGrid (s : State) (g : Nat) (x : Grid) : (s.setGrid g x).ciphers = s.ciphers := rfl
@[simp] theorem State.basins_setGrid (s : State) (g : Nat) (x : Grid) : (s.setGrid g x).basins = s.basins := rfl
@[simp] theorem State.near_setGrid (s : State) (g : Nat) (x : Grid) : (s.setGrid g x).near = s.near := rfl
@[simp] theorem State.spill_setGrid (s : State) (g : Nat) (x : Grid) : (s.setGrid g x).spill = s.spill := rfl
@[simp] theorem State.basinOps_setGrid (s : State) (g : Nat) (x : Grid) : (s.setGrid g x).basinOps = s.basinOps := rfl
@[simp] theorem State.tlbs_setGrid (s : State) (g : Nat) (x : Grid) : (s.setGrid g x).tlbs = s.tlbs := rfl
@[simp] theorem State.l2s_setGrid (s : State) (g : Nat) (x : Grid) : (s.setGrid g x).l2s = s.l2s := rfl
@[simp] theorem State.jobs_setGrid (s : State) (g : Nat) (x : Grid) : (s.setGrid g x).jobs = s.jobs := rfl
@[simp] theorem State.bargeRs_setGrid (s : State) (g : Nat) (x : Grid) : (s.setGrid g x).bargeRs = s.bargeRs := rfl
@[simp] theorem State.fars_setGrid (s : State) (g : Nat) (x : Grid) : (s.setGrid g x).fars = s.fars := rfl
@[simp] theorem State.mats_setGrid (s : State) (g : Nat) (x : Grid) : (s.setGrid g x).mats = s.mats := rfl
@[simp] theorem State.counts_setGrid (s : State) (g : Nat) (x : Grid) : (s.setGrid g x).counts = s.counts := rfl
@[simp] theorem State.streams_setGrid (s : State) (g : Nat) (x : Grid) : (s.setGrid g x).streams = s.streams := rfl
@[simp] theorem State.failed_setGrid (s : State) (g : Nat) (x : Grid) : (s.setGrid g x).failed = s.failed := rfl
@[simp] theorem State.peerFailed_setGrid (s : State) (g : Nat) (x : Grid) : (s.setGrid g x).peerFailed = s.peerFailed := rfl
@[simp] theorem State.replays_setGrid (s : State) (g : Nat) (x : Grid) : (s.setGrid g x).replays = s.replays := rfl
@[simp] theorem State.flits_setGrid (s : State) (g : Nat) (x : Grid) : (s.setGrid g x).flits = s.flits := rfl
@[simp] theorem State.transit_setGrid (s : State) (g : Nat) (x : Grid) : (s.setGrid g x).transit = s.transit := rfl
@[simp] theorem State.closed_setGrid (s : State) (g : Nat) (x : Grid) : (s.setGrid g x).closed = s.closed := rfl
@[simp] theorem State.tokens_setGrid (s : State) (g : Nat) (x : Grid) : (s.setGrid g x).tokens = s.tokens := rfl
@[simp] theorem State.spareStar_setGrid (s : State) (g : Nat) (x : Grid) : (s.setGrid g x).spareStar = s.spareStar := rfl
@[simp] theorem State.starDown_setGrid (s : State) (g : Nat) (x : Grid) : (s.setGrid g x).starDown = s.starDown := rfl
@[simp] theorem State.agenda_setGrid (s : State) (g : Nat) (x : Grid) : (s.setGrid g x).agenda = s.agenda := rfl
@[simp] theorem State.turns_setGrid (s : State) (g : Nat) (x : Grid) : (s.setGrid g x).turns = s.turns := rfl
@[simp] theorem State.issue_setGrid (s : State) (g : Nat) (x : Grid) : (s.setGrid g x).issue = s.issue := rfl
@[simp] theorem State.probed_setGrid (s : State) (g : Nat) (x : Grid) : (s.setGrid g x).probed = s.probed := rfl
@[simp] theorem State.adminProd_setGrid (s : State) (g : Nat) (x : Grid) : (s.setGrid g x).adminProd = s.adminProd := rfl
@[simp] theorem State.adminCons_setGrid (s : State) (g : Nat) (x : Grid) : (s.setGrid g x).adminCons = s.adminCons := rfl
@[simp] theorem State.cmds_setGrid (s : State) (g : Nat) (x : Grid) : (s.setGrid g x).cmds = s.cmds := rfl
@[simp] theorem State.outs_setGrid (s : State) (g : Nat) (x : Grid) : (s.setGrid g x).outs = s.outs := rfl
@[simp] theorem State.nextId_setGrid (s : State) (g : Nat) (x : Grid) : (s.setGrid g x).nextId = s.nextId := rfl

/-! ### setVd -/

@[simp] theorem State.power_setVd (s : State) (v : Nat) (x : Vd) : (s.setVd v x).power = s.power := rfl
@[simp] theorem State.t_setVd (s : State) (v : Nat) (x : Vd) : (s.setVd v x).t = s.t := rfl
@[simp] theorem State.pkg_setVd (s : State) (v : Nat) (x : Vd) : (s.setVd v x).pkg = s.pkg := rfl
@[simp] theorem State.members_setVd (s : State) (v : Nat) (x : Vd) : (s.setVd v x).members = s.members := rfl
@[simp] theorem State.rotaL_setVd (s : State) (v : Nat) (x : Vd) : (s.setVd v x).rotaL = s.rotaL := rfl
@[simp] theorem State.rotaS_setVd (s : State) (v : Nat) (x : Vd) : (s.setVd v x).rotaS = s.rotaS := rfl
@[simp] theorem State.tenants_setVd (s : State) (v : Nat) (x : Vd) : (s.setVd v x).tenants = s.tenants := rfl
@[simp] theorem State.accepts_setVd (s : State) (v : Nat) (x : Vd) : (s.setVd v x).accepts = s.accepts := rfl
@[simp] theorem State.reqs_setVd (s : State) (v : Nat) (x : Vd) : (s.setVd v x).reqs = s.reqs := rfl
@[simp] theorem State.cpFree_setVd (s : State) (v : Nat) (x : Vd) : (s.setVd v x).cpFree = s.cpFree := rfl
@[simp] theorem State.layout_setVd (s : State) (v : Nat) (x : Vd) : (s.setVd v x).layout = s.layout := rfl
@[simp] theorem State.shadow_setVd (s : State) (v : Nat) (x : Vd) : (s.setVd v x).shadow = s.shadow := rfl
@[simp] theorem State.commit_setVd (s : State) (v : Nat) (x : Vd) : (s.setVd v x).commit = s.commit := rfl
@[simp] theorem State.version_setVd (s : State) (v : Nat) (x : Vd) : (s.setVd v x).version = s.version := rfl
@[simp] theorem State.sigOk_setVd (s : State) (v : Nat) (x : Vd) : (s.setVd v x).sigOk = s.sigOk := rfl
@[simp] theorem State.sigKey_setVd (s : State) (v : Nat) (x : Vd) : (s.setVd v x).sigKey = s.sigKey := rfl
@[simp] theorem State.fusedKey_setVd (s : State) (v : Nat) (x : Vd) : (s.setVd v x).fusedKey = s.fusedKey := rfl
@[simp] theorem State.bootFail_setVd (s : State) (v : Nat) (x : Vd) : (s.setVd v x).bootFail = s.bootFail := rfl
@[simp] theorem State.boots_setVd (s : State) (v : Nat) (x : Vd) : (s.setVd v x).boots = s.boots := rfl
@[simp] theorem State.fuses_setVd (s : State) (v : Nat) (x : Vd) : (s.setVd v x).fuses = s.fuses := rfl
@[simp] theorem State.powerLim_setVd (s : State) (v : Nat) (x : Vd) : (s.setVd v x).powerLim = s.powerLim := rfl
@[simp] theorem State.tempLim_setVd (s : State) (v : Nat) (x : Vd) : (s.setVd v x).tempLim = s.tempLim := rfl
@[simp] theorem State.health_setVd (s : State) (v : Nat) (x : Vd) : (s.setVd v x).health = s.health := rfl
@[simp] theorem State.errors_setVd (s : State) (v : Nat) (x : Vd) : (s.setVd v x).errors = s.errors := rfl
@[simp] theorem State.hostSess_setVd (s : State) (v : Nat) (x : Vd) : (s.setVd v x).hostSess = s.hostSess := rfl
@[simp] theorem State.mgmtSess_setVd (s : State) (v : Nat) (x : Vd) : (s.setVd v x).mgmtSess = s.mgmtSess := rfl
@[simp] theorem State.frzHost_setVd (s : State) (v : Nat) (x : Vd) : (s.setVd v x).frzHost = s.frzHost := rfl
@[simp] theorem State.frzMgmt_setVd (s : State) (v : Nat) (x : Vd) : (s.setVd v x).frzMgmt = s.frzMgmt := rfl
@[simp] theorem State.badSram_setVd (s : State) (v : Nat) (x : Vd) : (s.setVd v x).badSram = s.badSram := rfl
@[simp] theorem State.badHalves_setVd (s : State) (v : Nat) (x : Vd) : (s.setVd v x).badHalves = s.badHalves := rfl
@[simp] theorem State.spareRows_setVd (s : State) (v : Nat) (x : Vd) : (s.setVd v x).spareRows = s.spareRows := rfl
@[simp] theorem State.outOf_setVd (s : State) (v : Nat) (x : Vd) : (s.setVd v x).outOf = s.outOf := rfl
@[simp] theorem State.fabricKey_setVd (s : State) (v : Nat) (x : Vd) : (s.setVd v x).fabricKey = s.fabricKey := rfl
@[simp] theorem State.keys_setVd (s : State) (v : Nat) (x : Vd) : (s.setVd v x).keys = s.keys := rfl
@[simp] theorem State.ctrs_setVd (s : State) (v : Nat) (x : Vd) : (s.setVd v x).ctrs = s.ctrs := rfl
@[simp] theorem State.regions_setVd (s : State) (v : Nat) (x : Vd) : (s.setVd v x).regions = s.regions := rfl
@[simp] theorem State.sealed_setVd (s : State) (v : Nat) (x : Vd) : (s.setVd v x).sealed = s.sealed := rfl
@[simp] theorem State.gens_setVd (s : State) (v : Nat) (x : Vd) : (s.setVd v x).gens = s.gens := rfl
@[simp] theorem State.digests_setVd (s : State) (v : Nat) (x : Vd) : (s.setVd v x).digests = s.digests := rfl
@[simp] theorem State.vds_setVd (s : State) (v : Nat) (x : Vd) : (s.setVd v x).vds = s.vds.set v x := rfl
@[simp] theorem State.grids_setVd (s : State) (v : Nat) (x : Vd) : (s.setVd v x).grids = s.grids := rfl
@[simp] theorem State.wgs_setVd (s : State) (v : Nat) (x : Vd) : (s.setVd v x).wgs = s.wgs := rfl
@[simp] theorem State.crews_setVd (s : State) (v : Nat) (x : Vd) : (s.setVd v x).crews = s.crews := rfl
@[simp] theorem State.icache_setVd (s : State) (v : Nat) (x : Vd) : (s.setVd v x).icache = s.icache := rfl
@[simp] theorem State.fills_setVd (s : State) (v : Nat) (x : Vd) : (s.setVd v x).fills = s.fills := rfl
@[simp] theorem State.mem_setVd (s : State) (v : Nat) (x : Vd) : (s.setVd v x).mem = s.mem := rfl
@[simp] theorem State.lineKeys_setVd (s : State) (v : Nat) (x : Vd) : (s.setVd v x).lineKeys = s.lineKeys := rfl
@[simp] theorem State.ciphers_setVd (s : State) (v : Nat) (x : Vd) : (s.setVd v x).ciphers = s.ciphers := rfl
@[simp] theorem State.basins_setVd (s : State) (v : Nat) (x : Vd) : (s.setVd v x).basins = s.basins := rfl
@[simp] theorem State.near_setVd (s : State) (v : Nat) (x : Vd) : (s.setVd v x).near = s.near := rfl
@[simp] theorem State.spill_setVd (s : State) (v : Nat) (x : Vd) : (s.setVd v x).spill = s.spill := rfl
@[simp] theorem State.basinOps_setVd (s : State) (v : Nat) (x : Vd) : (s.setVd v x).basinOps = s.basinOps := rfl
@[simp] theorem State.tlbs_setVd (s : State) (v : Nat) (x : Vd) : (s.setVd v x).tlbs = s.tlbs := rfl
@[simp] theorem State.l2s_setVd (s : State) (v : Nat) (x : Vd) : (s.setVd v x).l2s = s.l2s := rfl
@[simp] theorem State.jobs_setVd (s : State) (v : Nat) (x : Vd) : (s.setVd v x).jobs = s.jobs := rfl
@[simp] theorem State.bargeRs_setVd (s : State) (v : Nat) (x : Vd) : (s.setVd v x).bargeRs = s.bargeRs := rfl
@[simp] theorem State.fars_setVd (s : State) (v : Nat) (x : Vd) : (s.setVd v x).fars = s.fars := rfl
@[simp] theorem State.mats_setVd (s : State) (v : Nat) (x : Vd) : (s.setVd v x).mats = s.mats := rfl
@[simp] theorem State.counts_setVd (s : State) (v : Nat) (x : Vd) : (s.setVd v x).counts = s.counts := rfl
@[simp] theorem State.streams_setVd (s : State) (v : Nat) (x : Vd) : (s.setVd v x).streams = s.streams := rfl
@[simp] theorem State.failed_setVd (s : State) (v : Nat) (x : Vd) : (s.setVd v x).failed = s.failed := rfl
@[simp] theorem State.peerFailed_setVd (s : State) (v : Nat) (x : Vd) : (s.setVd v x).peerFailed = s.peerFailed := rfl
@[simp] theorem State.replays_setVd (s : State) (v : Nat) (x : Vd) : (s.setVd v x).replays = s.replays := rfl
@[simp] theorem State.flits_setVd (s : State) (v : Nat) (x : Vd) : (s.setVd v x).flits = s.flits := rfl
@[simp] theorem State.transit_setVd (s : State) (v : Nat) (x : Vd) : (s.setVd v x).transit = s.transit := rfl
@[simp] theorem State.closed_setVd (s : State) (v : Nat) (x : Vd) : (s.setVd v x).closed = s.closed := rfl
@[simp] theorem State.tokens_setVd (s : State) (v : Nat) (x : Vd) : (s.setVd v x).tokens = s.tokens := rfl
@[simp] theorem State.spareStar_setVd (s : State) (v : Nat) (x : Vd) : (s.setVd v x).spareStar = s.spareStar := rfl
@[simp] theorem State.starDown_setVd (s : State) (v : Nat) (x : Vd) : (s.setVd v x).starDown = s.starDown := rfl
@[simp] theorem State.agenda_setVd (s : State) (v : Nat) (x : Vd) : (s.setVd v x).agenda = s.agenda := rfl
@[simp] theorem State.turns_setVd (s : State) (v : Nat) (x : Vd) : (s.setVd v x).turns = s.turns := rfl
@[simp] theorem State.issue_setVd (s : State) (v : Nat) (x : Vd) : (s.setVd v x).issue = s.issue := rfl
@[simp] theorem State.probed_setVd (s : State) (v : Nat) (x : Vd) : (s.setVd v x).probed = s.probed := rfl
@[simp] theorem State.adminProd_setVd (s : State) (v : Nat) (x : Vd) : (s.setVd v x).adminProd = s.adminProd := rfl
@[simp] theorem State.adminCons_setVd (s : State) (v : Nat) (x : Vd) : (s.setVd v x).adminCons = s.adminCons := rfl
@[simp] theorem State.cmds_setVd (s : State) (v : Nat) (x : Vd) : (s.setVd v x).cmds = s.cmds := rfl
@[simp] theorem State.outs_setVd (s : State) (v : Nat) (x : Vd) : (s.setVd v x).outs = s.outs := rfl
@[simp] theorem State.nextId_setVd (s : State) (v : Nat) (x : Vd) : (s.setVd v x).nextId = s.nextId := rfl

/-! ### setNear -/

@[simp] theorem State.power_setNear (s : State) (c : Nat) (m : Cells) : (s.setNear c m).power = s.power := rfl
@[simp] theorem State.t_setNear (s : State) (c : Nat) (m : Cells) : (s.setNear c m).t = s.t := rfl
@[simp] theorem State.pkg_setNear (s : State) (c : Nat) (m : Cells) : (s.setNear c m).pkg = s.pkg := rfl
@[simp] theorem State.members_setNear (s : State) (c : Nat) (m : Cells) : (s.setNear c m).members = s.members := rfl
@[simp] theorem State.rotaL_setNear (s : State) (c : Nat) (m : Cells) : (s.setNear c m).rotaL = s.rotaL := rfl
@[simp] theorem State.rotaS_setNear (s : State) (c : Nat) (m : Cells) : (s.setNear c m).rotaS = s.rotaS := rfl
@[simp] theorem State.tenants_setNear (s : State) (c : Nat) (m : Cells) : (s.setNear c m).tenants = s.tenants := rfl
@[simp] theorem State.accepts_setNear (s : State) (c : Nat) (m : Cells) : (s.setNear c m).accepts = s.accepts := rfl
@[simp] theorem State.reqs_setNear (s : State) (c : Nat) (m : Cells) : (s.setNear c m).reqs = s.reqs := rfl
@[simp] theorem State.cpFree_setNear (s : State) (c : Nat) (m : Cells) : (s.setNear c m).cpFree = s.cpFree := rfl
@[simp] theorem State.layout_setNear (s : State) (c : Nat) (m : Cells) : (s.setNear c m).layout = s.layout := rfl
@[simp] theorem State.shadow_setNear (s : State) (c : Nat) (m : Cells) : (s.setNear c m).shadow = s.shadow := rfl
@[simp] theorem State.commit_setNear (s : State) (c : Nat) (m : Cells) : (s.setNear c m).commit = s.commit := rfl
@[simp] theorem State.version_setNear (s : State) (c : Nat) (m : Cells) : (s.setNear c m).version = s.version := rfl
@[simp] theorem State.sigOk_setNear (s : State) (c : Nat) (m : Cells) : (s.setNear c m).sigOk = s.sigOk := rfl
@[simp] theorem State.sigKey_setNear (s : State) (c : Nat) (m : Cells) : (s.setNear c m).sigKey = s.sigKey := rfl
@[simp] theorem State.fusedKey_setNear (s : State) (c : Nat) (m : Cells) : (s.setNear c m).fusedKey = s.fusedKey := rfl
@[simp] theorem State.bootFail_setNear (s : State) (c : Nat) (m : Cells) : (s.setNear c m).bootFail = s.bootFail := rfl
@[simp] theorem State.boots_setNear (s : State) (c : Nat) (m : Cells) : (s.setNear c m).boots = s.boots := rfl
@[simp] theorem State.fuses_setNear (s : State) (c : Nat) (m : Cells) : (s.setNear c m).fuses = s.fuses := rfl
@[simp] theorem State.powerLim_setNear (s : State) (c : Nat) (m : Cells) : (s.setNear c m).powerLim = s.powerLim := rfl
@[simp] theorem State.tempLim_setNear (s : State) (c : Nat) (m : Cells) : (s.setNear c m).tempLim = s.tempLim := rfl
@[simp] theorem State.health_setNear (s : State) (c : Nat) (m : Cells) : (s.setNear c m).health = s.health := rfl
@[simp] theorem State.errors_setNear (s : State) (c : Nat) (m : Cells) : (s.setNear c m).errors = s.errors := rfl
@[simp] theorem State.hostSess_setNear (s : State) (c : Nat) (m : Cells) : (s.setNear c m).hostSess = s.hostSess := rfl
@[simp] theorem State.mgmtSess_setNear (s : State) (c : Nat) (m : Cells) : (s.setNear c m).mgmtSess = s.mgmtSess := rfl
@[simp] theorem State.frzHost_setNear (s : State) (c : Nat) (m : Cells) : (s.setNear c m).frzHost = s.frzHost := rfl
@[simp] theorem State.frzMgmt_setNear (s : State) (c : Nat) (m : Cells) : (s.setNear c m).frzMgmt = s.frzMgmt := rfl
@[simp] theorem State.badSram_setNear (s : State) (c : Nat) (m : Cells) : (s.setNear c m).badSram = s.badSram := rfl
@[simp] theorem State.badHalves_setNear (s : State) (c : Nat) (m : Cells) : (s.setNear c m).badHalves = s.badHalves := rfl
@[simp] theorem State.spareRows_setNear (s : State) (c : Nat) (m : Cells) : (s.setNear c m).spareRows = s.spareRows := rfl
@[simp] theorem State.outOf_setNear (s : State) (c : Nat) (m : Cells) : (s.setNear c m).outOf = s.outOf := rfl
@[simp] theorem State.fabricKey_setNear (s : State) (c : Nat) (m : Cells) : (s.setNear c m).fabricKey = s.fabricKey := rfl
@[simp] theorem State.keys_setNear (s : State) (c : Nat) (m : Cells) : (s.setNear c m).keys = s.keys := rfl
@[simp] theorem State.ctrs_setNear (s : State) (c : Nat) (m : Cells) : (s.setNear c m).ctrs = s.ctrs := rfl
@[simp] theorem State.regions_setNear (s : State) (c : Nat) (m : Cells) : (s.setNear c m).regions = s.regions := rfl
@[simp] theorem State.sealed_setNear (s : State) (c : Nat) (m : Cells) : (s.setNear c m).sealed = s.sealed := rfl
@[simp] theorem State.gens_setNear (s : State) (c : Nat) (m : Cells) : (s.setNear c m).gens = s.gens := rfl
@[simp] theorem State.digests_setNear (s : State) (c : Nat) (m : Cells) : (s.setNear c m).digests = s.digests := rfl
@[simp] theorem State.vds_setNear (s : State) (c : Nat) (m : Cells) : (s.setNear c m).vds = s.vds := rfl
@[simp] theorem State.grids_setNear (s : State) (c : Nat) (m : Cells) : (s.setNear c m).grids = s.grids := rfl
@[simp] theorem State.wgs_setNear (s : State) (c : Nat) (m : Cells) : (s.setNear c m).wgs = s.wgs := rfl
@[simp] theorem State.crews_setNear (s : State) (c : Nat) (m : Cells) : (s.setNear c m).crews = s.crews := rfl
@[simp] theorem State.icache_setNear (s : State) (c : Nat) (m : Cells) : (s.setNear c m).icache = s.icache := rfl
@[simp] theorem State.fills_setNear (s : State) (c : Nat) (m : Cells) : (s.setNear c m).fills = s.fills := rfl
@[simp] theorem State.mem_setNear (s : State) (c : Nat) (m : Cells) : (s.setNear c m).mem = s.mem := rfl
@[simp] theorem State.lineKeys_setNear (s : State) (c : Nat) (m : Cells) : (s.setNear c m).lineKeys = s.lineKeys := rfl
@[simp] theorem State.ciphers_setNear (s : State) (c : Nat) (m : Cells) : (s.setNear c m).ciphers = s.ciphers := rfl
@[simp] theorem State.basins_setNear (s : State) (c : Nat) (m : Cells) : (s.setNear c m).basins = s.basins := rfl
@[simp] theorem State.near_setNear (s : State) (c : Nat) (m : Cells) : (s.setNear c m).near = keyed c m s.near := rfl
@[simp] theorem State.spill_setNear (s : State) (c : Nat) (m : Cells) : (s.setNear c m).spill = s.spill := rfl
@[simp] theorem State.basinOps_setNear (s : State) (c : Nat) (m : Cells) : (s.setNear c m).basinOps = s.basinOps := rfl
@[simp] theorem State.tlbs_setNear (s : State) (c : Nat) (m : Cells) : (s.setNear c m).tlbs = s.tlbs := rfl
@[simp] theorem State.l2s_setNear (s : State) (c : Nat) (m : Cells) : (s.setNear c m).l2s = s.l2s := rfl
@[simp] theorem State.jobs_setNear (s : State) (c : Nat) (m : Cells) : (s.setNear c m).jobs = s.jobs := rfl
@[simp] theorem State.bargeRs_setNear (s : State) (c : Nat) (m : Cells) : (s.setNear c m).bargeRs = s.bargeRs := rfl
@[simp] theorem State.fars_setNear (s : State) (c : Nat) (m : Cells) : (s.setNear c m).fars = s.fars := rfl
@[simp] theorem State.mats_setNear (s : State) (c : Nat) (m : Cells) : (s.setNear c m).mats = s.mats := rfl
@[simp] theorem State.counts_setNear (s : State) (c : Nat) (m : Cells) : (s.setNear c m).counts = s.counts := rfl
@[simp] theorem State.streams_setNear (s : State) (c : Nat) (m : Cells) : (s.setNear c m).streams = s.streams := rfl
@[simp] theorem State.failed_setNear (s : State) (c : Nat) (m : Cells) : (s.setNear c m).failed = s.failed := rfl
@[simp] theorem State.peerFailed_setNear (s : State) (c : Nat) (m : Cells) : (s.setNear c m).peerFailed = s.peerFailed := rfl
@[simp] theorem State.replays_setNear (s : State) (c : Nat) (m : Cells) : (s.setNear c m).replays = s.replays := rfl
@[simp] theorem State.flits_setNear (s : State) (c : Nat) (m : Cells) : (s.setNear c m).flits = s.flits := rfl
@[simp] theorem State.transit_setNear (s : State) (c : Nat) (m : Cells) : (s.setNear c m).transit = s.transit := rfl
@[simp] theorem State.closed_setNear (s : State) (c : Nat) (m : Cells) : (s.setNear c m).closed = s.closed := rfl
@[simp] theorem State.tokens_setNear (s : State) (c : Nat) (m : Cells) : (s.setNear c m).tokens = s.tokens := rfl
@[simp] theorem State.spareStar_setNear (s : State) (c : Nat) (m : Cells) : (s.setNear c m).spareStar = s.spareStar := rfl
@[simp] theorem State.starDown_setNear (s : State) (c : Nat) (m : Cells) : (s.setNear c m).starDown = s.starDown := rfl
@[simp] theorem State.agenda_setNear (s : State) (c : Nat) (m : Cells) : (s.setNear c m).agenda = s.agenda := rfl
@[simp] theorem State.turns_setNear (s : State) (c : Nat) (m : Cells) : (s.setNear c m).turns = s.turns := rfl
@[simp] theorem State.issue_setNear (s : State) (c : Nat) (m : Cells) : (s.setNear c m).issue = s.issue := rfl
@[simp] theorem State.probed_setNear (s : State) (c : Nat) (m : Cells) : (s.setNear c m).probed = s.probed := rfl
@[simp] theorem State.adminProd_setNear (s : State) (c : Nat) (m : Cells) : (s.setNear c m).adminProd = s.adminProd := rfl
@[simp] theorem State.adminCons_setNear (s : State) (c : Nat) (m : Cells) : (s.setNear c m).adminCons = s.adminCons := rfl
@[simp] theorem State.cmds_setNear (s : State) (c : Nat) (m : Cells) : (s.setNear c m).cmds = s.cmds := rfl
@[simp] theorem State.outs_setNear (s : State) (c : Nat) (m : Cells) : (s.setNear c m).outs = s.outs := rfl
@[simp] theorem State.nextId_setNear (s : State) (c : Nat) (m : Cells) : (s.setNear c m).nextId = s.nextId := rfl

/-! ### setSpill -/

@[simp] theorem State.power_setSpill (s : State) (c p : Nat) (m : Cells) : (s.setSpill c p m).power = s.power := rfl
@[simp] theorem State.t_setSpill (s : State) (c p : Nat) (m : Cells) : (s.setSpill c p m).t = s.t := rfl
@[simp] theorem State.pkg_setSpill (s : State) (c p : Nat) (m : Cells) : (s.setSpill c p m).pkg = s.pkg := rfl
@[simp] theorem State.members_setSpill (s : State) (c p : Nat) (m : Cells) : (s.setSpill c p m).members = s.members := rfl
@[simp] theorem State.rotaL_setSpill (s : State) (c p : Nat) (m : Cells) : (s.setSpill c p m).rotaL = s.rotaL := rfl
@[simp] theorem State.rotaS_setSpill (s : State) (c p : Nat) (m : Cells) : (s.setSpill c p m).rotaS = s.rotaS := rfl
@[simp] theorem State.tenants_setSpill (s : State) (c p : Nat) (m : Cells) : (s.setSpill c p m).tenants = s.tenants := rfl
@[simp] theorem State.accepts_setSpill (s : State) (c p : Nat) (m : Cells) : (s.setSpill c p m).accepts = s.accepts := rfl
@[simp] theorem State.reqs_setSpill (s : State) (c p : Nat) (m : Cells) : (s.setSpill c p m).reqs = s.reqs := rfl
@[simp] theorem State.cpFree_setSpill (s : State) (c p : Nat) (m : Cells) : (s.setSpill c p m).cpFree = s.cpFree := rfl
@[simp] theorem State.layout_setSpill (s : State) (c p : Nat) (m : Cells) : (s.setSpill c p m).layout = s.layout := rfl
@[simp] theorem State.shadow_setSpill (s : State) (c p : Nat) (m : Cells) : (s.setSpill c p m).shadow = s.shadow := rfl
@[simp] theorem State.commit_setSpill (s : State) (c p : Nat) (m : Cells) : (s.setSpill c p m).commit = s.commit := rfl
@[simp] theorem State.version_setSpill (s : State) (c p : Nat) (m : Cells) : (s.setSpill c p m).version = s.version := rfl
@[simp] theorem State.sigOk_setSpill (s : State) (c p : Nat) (m : Cells) : (s.setSpill c p m).sigOk = s.sigOk := rfl
@[simp] theorem State.sigKey_setSpill (s : State) (c p : Nat) (m : Cells) : (s.setSpill c p m).sigKey = s.sigKey := rfl
@[simp] theorem State.fusedKey_setSpill (s : State) (c p : Nat) (m : Cells) : (s.setSpill c p m).fusedKey = s.fusedKey := rfl
@[simp] theorem State.bootFail_setSpill (s : State) (c p : Nat) (m : Cells) : (s.setSpill c p m).bootFail = s.bootFail := rfl
@[simp] theorem State.boots_setSpill (s : State) (c p : Nat) (m : Cells) : (s.setSpill c p m).boots = s.boots := rfl
@[simp] theorem State.fuses_setSpill (s : State) (c p : Nat) (m : Cells) : (s.setSpill c p m).fuses = s.fuses := rfl
@[simp] theorem State.powerLim_setSpill (s : State) (c p : Nat) (m : Cells) : (s.setSpill c p m).powerLim = s.powerLim := rfl
@[simp] theorem State.tempLim_setSpill (s : State) (c p : Nat) (m : Cells) : (s.setSpill c p m).tempLim = s.tempLim := rfl
@[simp] theorem State.health_setSpill (s : State) (c p : Nat) (m : Cells) : (s.setSpill c p m).health = s.health := rfl
@[simp] theorem State.errors_setSpill (s : State) (c p : Nat) (m : Cells) : (s.setSpill c p m).errors = s.errors := rfl
@[simp] theorem State.hostSess_setSpill (s : State) (c p : Nat) (m : Cells) : (s.setSpill c p m).hostSess = s.hostSess := rfl
@[simp] theorem State.mgmtSess_setSpill (s : State) (c p : Nat) (m : Cells) : (s.setSpill c p m).mgmtSess = s.mgmtSess := rfl
@[simp] theorem State.frzHost_setSpill (s : State) (c p : Nat) (m : Cells) : (s.setSpill c p m).frzHost = s.frzHost := rfl
@[simp] theorem State.frzMgmt_setSpill (s : State) (c p : Nat) (m : Cells) : (s.setSpill c p m).frzMgmt = s.frzMgmt := rfl
@[simp] theorem State.badSram_setSpill (s : State) (c p : Nat) (m : Cells) : (s.setSpill c p m).badSram = s.badSram := rfl
@[simp] theorem State.badHalves_setSpill (s : State) (c p : Nat) (m : Cells) : (s.setSpill c p m).badHalves = s.badHalves := rfl
@[simp] theorem State.spareRows_setSpill (s : State) (c p : Nat) (m : Cells) : (s.setSpill c p m).spareRows = s.spareRows := rfl
@[simp] theorem State.outOf_setSpill (s : State) (c p : Nat) (m : Cells) : (s.setSpill c p m).outOf = s.outOf := rfl
@[simp] theorem State.fabricKey_setSpill (s : State) (c p : Nat) (m : Cells) : (s.setSpill c p m).fabricKey = s.fabricKey := rfl
@[simp] theorem State.keys_setSpill (s : State) (c p : Nat) (m : Cells) : (s.setSpill c p m).keys = s.keys := rfl
@[simp] theorem State.ctrs_setSpill (s : State) (c p : Nat) (m : Cells) : (s.setSpill c p m).ctrs = s.ctrs := rfl
@[simp] theorem State.regions_setSpill (s : State) (c p : Nat) (m : Cells) : (s.setSpill c p m).regions = s.regions := rfl
@[simp] theorem State.sealed_setSpill (s : State) (c p : Nat) (m : Cells) : (s.setSpill c p m).sealed = s.sealed := rfl
@[simp] theorem State.gens_setSpill (s : State) (c p : Nat) (m : Cells) : (s.setSpill c p m).gens = s.gens := rfl
@[simp] theorem State.digests_setSpill (s : State) (c p : Nat) (m : Cells) : (s.setSpill c p m).digests = s.digests := rfl
@[simp] theorem State.vds_setSpill (s : State) (c p : Nat) (m : Cells) : (s.setSpill c p m).vds = s.vds := rfl
@[simp] theorem State.grids_setSpill (s : State) (c p : Nat) (m : Cells) : (s.setSpill c p m).grids = s.grids := rfl
@[simp] theorem State.wgs_setSpill (s : State) (c p : Nat) (m : Cells) : (s.setSpill c p m).wgs = s.wgs := rfl
@[simp] theorem State.crews_setSpill (s : State) (c p : Nat) (m : Cells) : (s.setSpill c p m).crews = s.crews := rfl
@[simp] theorem State.icache_setSpill (s : State) (c p : Nat) (m : Cells) : (s.setSpill c p m).icache = s.icache := rfl
@[simp] theorem State.fills_setSpill (s : State) (c p : Nat) (m : Cells) : (s.setSpill c p m).fills = s.fills := rfl
@[simp] theorem State.mem_setSpill (s : State) (c p : Nat) (m : Cells) : (s.setSpill c p m).mem = s.mem := rfl
@[simp] theorem State.lineKeys_setSpill (s : State) (c p : Nat) (m : Cells) : (s.setSpill c p m).lineKeys = s.lineKeys := rfl
@[simp] theorem State.ciphers_setSpill (s : State) (c p : Nat) (m : Cells) : (s.setSpill c p m).ciphers = s.ciphers := rfl
@[simp] theorem State.basins_setSpill (s : State) (c p : Nat) (m : Cells) : (s.setSpill c p m).basins = s.basins := rfl
@[simp] theorem State.near_setSpill (s : State) (c p : Nat) (m : Cells) : (s.setSpill c p m).near = s.near := rfl
@[simp] theorem State.spill_setSpill (s : State) (c p : Nat) (m : Cells) : (s.setSpill c p m).spill = keyed (c * 8 + p) m s.spill := rfl
@[simp] theorem State.basinOps_setSpill (s : State) (c p : Nat) (m : Cells) : (s.setSpill c p m).basinOps = s.basinOps := rfl
@[simp] theorem State.tlbs_setSpill (s : State) (c p : Nat) (m : Cells) : (s.setSpill c p m).tlbs = s.tlbs := rfl
@[simp] theorem State.l2s_setSpill (s : State) (c p : Nat) (m : Cells) : (s.setSpill c p m).l2s = s.l2s := rfl
@[simp] theorem State.jobs_setSpill (s : State) (c p : Nat) (m : Cells) : (s.setSpill c p m).jobs = s.jobs := rfl
@[simp] theorem State.bargeRs_setSpill (s : State) (c p : Nat) (m : Cells) : (s.setSpill c p m).bargeRs = s.bargeRs := rfl
@[simp] theorem State.fars_setSpill (s : State) (c p : Nat) (m : Cells) : (s.setSpill c p m).fars = s.fars := rfl
@[simp] theorem State.mats_setSpill (s : State) (c p : Nat) (m : Cells) : (s.setSpill c p m).mats = s.mats := rfl
@[simp] theorem State.counts_setSpill (s : State) (c p : Nat) (m : Cells) : (s.setSpill c p m).counts = s.counts := rfl
@[simp] theorem State.streams_setSpill (s : State) (c p : Nat) (m : Cells) : (s.setSpill c p m).streams = s.streams := rfl
@[simp] theorem State.failed_setSpill (s : State) (c p : Nat) (m : Cells) : (s.setSpill c p m).failed = s.failed := rfl
@[simp] theorem State.peerFailed_setSpill (s : State) (c p : Nat) (m : Cells) : (s.setSpill c p m).peerFailed = s.peerFailed := rfl
@[simp] theorem State.replays_setSpill (s : State) (c p : Nat) (m : Cells) : (s.setSpill c p m).replays = s.replays := rfl
@[simp] theorem State.flits_setSpill (s : State) (c p : Nat) (m : Cells) : (s.setSpill c p m).flits = s.flits := rfl
@[simp] theorem State.transit_setSpill (s : State) (c p : Nat) (m : Cells) : (s.setSpill c p m).transit = s.transit := rfl
@[simp] theorem State.closed_setSpill (s : State) (c p : Nat) (m : Cells) : (s.setSpill c p m).closed = s.closed := rfl
@[simp] theorem State.tokens_setSpill (s : State) (c p : Nat) (m : Cells) : (s.setSpill c p m).tokens = s.tokens := rfl
@[simp] theorem State.spareStar_setSpill (s : State) (c p : Nat) (m : Cells) : (s.setSpill c p m).spareStar = s.spareStar := rfl
@[simp] theorem State.starDown_setSpill (s : State) (c p : Nat) (m : Cells) : (s.setSpill c p m).starDown = s.starDown := rfl
@[simp] theorem State.agenda_setSpill (s : State) (c p : Nat) (m : Cells) : (s.setSpill c p m).agenda = s.agenda := rfl
@[simp] theorem State.turns_setSpill (s : State) (c p : Nat) (m : Cells) : (s.setSpill c p m).turns = s.turns := rfl
@[simp] theorem State.issue_setSpill (s : State) (c p : Nat) (m : Cells) : (s.setSpill c p m).issue = s.issue := rfl
@[simp] theorem State.probed_setSpill (s : State) (c p : Nat) (m : Cells) : (s.setSpill c p m).probed = s.probed := rfl
@[simp] theorem State.adminProd_setSpill (s : State) (c p : Nat) (m : Cells) : (s.setSpill c p m).adminProd = s.adminProd := rfl
@[simp] theorem State.adminCons_setSpill (s : State) (c p : Nat) (m : Cells) : (s.setSpill c p m).adminCons = s.adminCons := rfl
@[simp] theorem State.cmds_setSpill (s : State) (c p : Nat) (m : Cells) : (s.setSpill c p m).cmds = s.cmds := rfl
@[simp] theorem State.outs_setSpill (s : State) (c p : Nat) (m : Cells) : (s.setSpill c p m).outs = s.outs := rfl
@[simp] theorem State.nextId_setSpill (s : State) (c p : Nat) (m : Cells) : (s.setSpill c p m).nextId = s.nextId := rfl

/-! ### setBasin -/

@[simp] theorem State.power_setBasin (s : State) (d : Nat) (m : Memory) : (s.setBasin d m).power = s.power := rfl
@[simp] theorem State.t_setBasin (s : State) (d : Nat) (m : Memory) : (s.setBasin d m).t = s.t := rfl
@[simp] theorem State.pkg_setBasin (s : State) (d : Nat) (m : Memory) : (s.setBasin d m).pkg = s.pkg := rfl
@[simp] theorem State.members_setBasin (s : State) (d : Nat) (m : Memory) : (s.setBasin d m).members = s.members := rfl
@[simp] theorem State.rotaL_setBasin (s : State) (d : Nat) (m : Memory) : (s.setBasin d m).rotaL = s.rotaL := rfl
@[simp] theorem State.rotaS_setBasin (s : State) (d : Nat) (m : Memory) : (s.setBasin d m).rotaS = s.rotaS := rfl
@[simp] theorem State.tenants_setBasin (s : State) (d : Nat) (m : Memory) : (s.setBasin d m).tenants = s.tenants := rfl
@[simp] theorem State.accepts_setBasin (s : State) (d : Nat) (m : Memory) : (s.setBasin d m).accepts = s.accepts := rfl
@[simp] theorem State.reqs_setBasin (s : State) (d : Nat) (m : Memory) : (s.setBasin d m).reqs = s.reqs := rfl
@[simp] theorem State.cpFree_setBasin (s : State) (d : Nat) (m : Memory) : (s.setBasin d m).cpFree = s.cpFree := rfl
@[simp] theorem State.layout_setBasin (s : State) (d : Nat) (m : Memory) : (s.setBasin d m).layout = s.layout := rfl
@[simp] theorem State.shadow_setBasin (s : State) (d : Nat) (m : Memory) : (s.setBasin d m).shadow = s.shadow := rfl
@[simp] theorem State.commit_setBasin (s : State) (d : Nat) (m : Memory) : (s.setBasin d m).commit = s.commit := rfl
@[simp] theorem State.version_setBasin (s : State) (d : Nat) (m : Memory) : (s.setBasin d m).version = s.version := rfl
@[simp] theorem State.sigOk_setBasin (s : State) (d : Nat) (m : Memory) : (s.setBasin d m).sigOk = s.sigOk := rfl
@[simp] theorem State.sigKey_setBasin (s : State) (d : Nat) (m : Memory) : (s.setBasin d m).sigKey = s.sigKey := rfl
@[simp] theorem State.fusedKey_setBasin (s : State) (d : Nat) (m : Memory) : (s.setBasin d m).fusedKey = s.fusedKey := rfl
@[simp] theorem State.bootFail_setBasin (s : State) (d : Nat) (m : Memory) : (s.setBasin d m).bootFail = s.bootFail := rfl
@[simp] theorem State.boots_setBasin (s : State) (d : Nat) (m : Memory) : (s.setBasin d m).boots = s.boots := rfl
@[simp] theorem State.fuses_setBasin (s : State) (d : Nat) (m : Memory) : (s.setBasin d m).fuses = s.fuses := rfl
@[simp] theorem State.powerLim_setBasin (s : State) (d : Nat) (m : Memory) : (s.setBasin d m).powerLim = s.powerLim := rfl
@[simp] theorem State.tempLim_setBasin (s : State) (d : Nat) (m : Memory) : (s.setBasin d m).tempLim = s.tempLim := rfl
@[simp] theorem State.health_setBasin (s : State) (d : Nat) (m : Memory) : (s.setBasin d m).health = s.health := rfl
@[simp] theorem State.errors_setBasin (s : State) (d : Nat) (m : Memory) : (s.setBasin d m).errors = s.errors := rfl
@[simp] theorem State.hostSess_setBasin (s : State) (d : Nat) (m : Memory) : (s.setBasin d m).hostSess = s.hostSess := rfl
@[simp] theorem State.mgmtSess_setBasin (s : State) (d : Nat) (m : Memory) : (s.setBasin d m).mgmtSess = s.mgmtSess := rfl
@[simp] theorem State.frzHost_setBasin (s : State) (d : Nat) (m : Memory) : (s.setBasin d m).frzHost = s.frzHost := rfl
@[simp] theorem State.frzMgmt_setBasin (s : State) (d : Nat) (m : Memory) : (s.setBasin d m).frzMgmt = s.frzMgmt := rfl
@[simp] theorem State.badSram_setBasin (s : State) (d : Nat) (m : Memory) : (s.setBasin d m).badSram = s.badSram := rfl
@[simp] theorem State.badHalves_setBasin (s : State) (d : Nat) (m : Memory) : (s.setBasin d m).badHalves = s.badHalves := rfl
@[simp] theorem State.spareRows_setBasin (s : State) (d : Nat) (m : Memory) : (s.setBasin d m).spareRows = s.spareRows := rfl
@[simp] theorem State.outOf_setBasin (s : State) (d : Nat) (m : Memory) : (s.setBasin d m).outOf = s.outOf := rfl
@[simp] theorem State.fabricKey_setBasin (s : State) (d : Nat) (m : Memory) : (s.setBasin d m).fabricKey = s.fabricKey := rfl
@[simp] theorem State.keys_setBasin (s : State) (d : Nat) (m : Memory) : (s.setBasin d m).keys = s.keys := rfl
@[simp] theorem State.ctrs_setBasin (s : State) (d : Nat) (m : Memory) : (s.setBasin d m).ctrs = s.ctrs := rfl
@[simp] theorem State.regions_setBasin (s : State) (d : Nat) (m : Memory) : (s.setBasin d m).regions = s.regions := rfl
@[simp] theorem State.sealed_setBasin (s : State) (d : Nat) (m : Memory) : (s.setBasin d m).sealed = s.sealed := rfl
@[simp] theorem State.gens_setBasin (s : State) (d : Nat) (m : Memory) : (s.setBasin d m).gens = s.gens := rfl
@[simp] theorem State.digests_setBasin (s : State) (d : Nat) (m : Memory) : (s.setBasin d m).digests = s.digests := rfl
@[simp] theorem State.vds_setBasin (s : State) (d : Nat) (m : Memory) : (s.setBasin d m).vds = s.vds := rfl
@[simp] theorem State.grids_setBasin (s : State) (d : Nat) (m : Memory) : (s.setBasin d m).grids = s.grids := rfl
@[simp] theorem State.wgs_setBasin (s : State) (d : Nat) (m : Memory) : (s.setBasin d m).wgs = s.wgs := rfl
@[simp] theorem State.crews_setBasin (s : State) (d : Nat) (m : Memory) : (s.setBasin d m).crews = s.crews := rfl
@[simp] theorem State.icache_setBasin (s : State) (d : Nat) (m : Memory) : (s.setBasin d m).icache = s.icache := rfl
@[simp] theorem State.fills_setBasin (s : State) (d : Nat) (m : Memory) : (s.setBasin d m).fills = s.fills := rfl
@[simp] theorem State.mem_setBasin (s : State) (d : Nat) (m : Memory) : (s.setBasin d m).mem = s.mem := rfl
@[simp] theorem State.lineKeys_setBasin (s : State) (d : Nat) (m : Memory) : (s.setBasin d m).lineKeys = s.lineKeys := rfl
@[simp] theorem State.ciphers_setBasin (s : State) (d : Nat) (m : Memory) : (s.setBasin d m).ciphers = s.ciphers := rfl
@[simp] theorem State.basins_setBasin (s : State) (d : Nat) (m : Memory) : (s.setBasin d m).basins = s.basins.set d m := rfl
@[simp] theorem State.near_setBasin (s : State) (d : Nat) (m : Memory) : (s.setBasin d m).near = s.near := rfl
@[simp] theorem State.spill_setBasin (s : State) (d : Nat) (m : Memory) : (s.setBasin d m).spill = s.spill := rfl
@[simp] theorem State.basinOps_setBasin (s : State) (d : Nat) (m : Memory) : (s.setBasin d m).basinOps = s.basinOps := rfl
@[simp] theorem State.tlbs_setBasin (s : State) (d : Nat) (m : Memory) : (s.setBasin d m).tlbs = s.tlbs := rfl
@[simp] theorem State.l2s_setBasin (s : State) (d : Nat) (m : Memory) : (s.setBasin d m).l2s = s.l2s := rfl
@[simp] theorem State.jobs_setBasin (s : State) (d : Nat) (m : Memory) : (s.setBasin d m).jobs = s.jobs := rfl
@[simp] theorem State.bargeRs_setBasin (s : State) (d : Nat) (m : Memory) : (s.setBasin d m).bargeRs = s.bargeRs := rfl
@[simp] theorem State.fars_setBasin (s : State) (d : Nat) (m : Memory) : (s.setBasin d m).fars = s.fars := rfl
@[simp] theorem State.mats_setBasin (s : State) (d : Nat) (m : Memory) : (s.setBasin d m).mats = s.mats := rfl
@[simp] theorem State.counts_setBasin (s : State) (d : Nat) (m : Memory) : (s.setBasin d m).counts = s.counts := rfl
@[simp] theorem State.streams_setBasin (s : State) (d : Nat) (m : Memory) : (s.setBasin d m).streams = s.streams := rfl
@[simp] theorem State.failed_setBasin (s : State) (d : Nat) (m : Memory) : (s.setBasin d m).failed = s.failed := rfl
@[simp] theorem State.peerFailed_setBasin (s : State) (d : Nat) (m : Memory) : (s.setBasin d m).peerFailed = s.peerFailed := rfl
@[simp] theorem State.replays_setBasin (s : State) (d : Nat) (m : Memory) : (s.setBasin d m).replays = s.replays := rfl
@[simp] theorem State.flits_setBasin (s : State) (d : Nat) (m : Memory) : (s.setBasin d m).flits = s.flits := rfl
@[simp] theorem State.transit_setBasin (s : State) (d : Nat) (m : Memory) : (s.setBasin d m).transit = s.transit := rfl
@[simp] theorem State.closed_setBasin (s : State) (d : Nat) (m : Memory) : (s.setBasin d m).closed = s.closed := rfl
@[simp] theorem State.tokens_setBasin (s : State) (d : Nat) (m : Memory) : (s.setBasin d m).tokens = s.tokens := rfl
@[simp] theorem State.spareStar_setBasin (s : State) (d : Nat) (m : Memory) : (s.setBasin d m).spareStar = s.spareStar := rfl
@[simp] theorem State.starDown_setBasin (s : State) (d : Nat) (m : Memory) : (s.setBasin d m).starDown = s.starDown := rfl
@[simp] theorem State.agenda_setBasin (s : State) (d : Nat) (m : Memory) : (s.setBasin d m).agenda = s.agenda := rfl
@[simp] theorem State.turns_setBasin (s : State) (d : Nat) (m : Memory) : (s.setBasin d m).turns = s.turns := rfl
@[simp] theorem State.issue_setBasin (s : State) (d : Nat) (m : Memory) : (s.setBasin d m).issue = s.issue := rfl
@[simp] theorem State.probed_setBasin (s : State) (d : Nat) (m : Memory) : (s.setBasin d m).probed = s.probed := rfl
@[simp] theorem State.adminProd_setBasin (s : State) (d : Nat) (m : Memory) : (s.setBasin d m).adminProd = s.adminProd := rfl
@[simp] theorem State.adminCons_setBasin (s : State) (d : Nat) (m : Memory) : (s.setBasin d m).adminCons = s.adminCons := rfl
@[simp] theorem State.cmds_setBasin (s : State) (d : Nat) (m : Memory) : (s.setBasin d m).cmds = s.cmds := rfl
@[simp] theorem State.outs_setBasin (s : State) (d : Nat) (m : Memory) : (s.setBasin d m).outs = s.outs := rfl
@[simp] theorem State.nextId_setBasin (s : State) (d : Nat) (m : Memory) : (s.setBasin d m).nextId = s.nextId := rfl

/-! ### post -/

@[simp] theorem State.power_post (s : State) (u : Nat) (i : Instr) : (s.post u i).power = s.power := rfl
@[simp] theorem State.t_post (s : State) (u : Nat) (i : Instr) : (s.post u i).t = s.t := rfl
@[simp] theorem State.pkg_post (s : State) (u : Nat) (i : Instr) : (s.post u i).pkg = s.pkg := rfl
@[simp] theorem State.members_post (s : State) (u : Nat) (i : Instr) : (s.post u i).members = s.members := rfl
@[simp] theorem State.rotaL_post (s : State) (u : Nat) (i : Instr) : (s.post u i).rotaL = s.rotaL := rfl
@[simp] theorem State.rotaS_post (s : State) (u : Nat) (i : Instr) : (s.post u i).rotaS = s.rotaS := rfl
@[simp] theorem State.tenants_post (s : State) (u : Nat) (i : Instr) : (s.post u i).tenants = s.tenants := rfl
@[simp] theorem State.accepts_post (s : State) (u : Nat) (i : Instr) : (s.post u i).accepts = s.accepts := rfl
@[simp] theorem State.reqs_post (s : State) (u : Nat) (i : Instr) : (s.post u i).reqs = s.reqs := rfl
@[simp] theorem State.cpFree_post (s : State) (u : Nat) (i : Instr) : (s.post u i).cpFree = s.cpFree := rfl
@[simp] theorem State.layout_post (s : State) (u : Nat) (i : Instr) : (s.post u i).layout = s.layout := rfl
@[simp] theorem State.shadow_post (s : State) (u : Nat) (i : Instr) : (s.post u i).shadow = s.shadow := rfl
@[simp] theorem State.commit_post (s : State) (u : Nat) (i : Instr) : (s.post u i).commit = s.commit := rfl
@[simp] theorem State.version_post (s : State) (u : Nat) (i : Instr) : (s.post u i).version = s.version := rfl
@[simp] theorem State.sigOk_post (s : State) (u : Nat) (i : Instr) : (s.post u i).sigOk = s.sigOk := rfl
@[simp] theorem State.sigKey_post (s : State) (u : Nat) (i : Instr) : (s.post u i).sigKey = s.sigKey := rfl
@[simp] theorem State.fusedKey_post (s : State) (u : Nat) (i : Instr) : (s.post u i).fusedKey = s.fusedKey := rfl
@[simp] theorem State.bootFail_post (s : State) (u : Nat) (i : Instr) : (s.post u i).bootFail = s.bootFail := rfl
@[simp] theorem State.boots_post (s : State) (u : Nat) (i : Instr) : (s.post u i).boots = s.boots := rfl
@[simp] theorem State.fuses_post (s : State) (u : Nat) (i : Instr) : (s.post u i).fuses = s.fuses := rfl
@[simp] theorem State.powerLim_post (s : State) (u : Nat) (i : Instr) : (s.post u i).powerLim = s.powerLim := rfl
@[simp] theorem State.tempLim_post (s : State) (u : Nat) (i : Instr) : (s.post u i).tempLim = s.tempLim := rfl
@[simp] theorem State.health_post (s : State) (u : Nat) (i : Instr) : (s.post u i).health = s.health := rfl
@[simp] theorem State.errors_post (s : State) (u : Nat) (i : Instr) : (s.post u i).errors = s.errors := rfl
@[simp] theorem State.hostSess_post (s : State) (u : Nat) (i : Instr) : (s.post u i).hostSess = s.hostSess := rfl
@[simp] theorem State.mgmtSess_post (s : State) (u : Nat) (i : Instr) : (s.post u i).mgmtSess = s.mgmtSess := rfl
@[simp] theorem State.frzHost_post (s : State) (u : Nat) (i : Instr) : (s.post u i).frzHost = s.frzHost := rfl
@[simp] theorem State.frzMgmt_post (s : State) (u : Nat) (i : Instr) : (s.post u i).frzMgmt = s.frzMgmt := rfl
@[simp] theorem State.badSram_post (s : State) (u : Nat) (i : Instr) : (s.post u i).badSram = s.badSram := rfl
@[simp] theorem State.badHalves_post (s : State) (u : Nat) (i : Instr) : (s.post u i).badHalves = s.badHalves := rfl
@[simp] theorem State.spareRows_post (s : State) (u : Nat) (i : Instr) : (s.post u i).spareRows = s.spareRows := rfl
@[simp] theorem State.outOf_post (s : State) (u : Nat) (i : Instr) : (s.post u i).outOf = s.outOf := rfl
@[simp] theorem State.fabricKey_post (s : State) (u : Nat) (i : Instr) : (s.post u i).fabricKey = s.fabricKey := rfl
@[simp] theorem State.keys_post (s : State) (u : Nat) (i : Instr) : (s.post u i).keys = s.keys := rfl
@[simp] theorem State.ctrs_post (s : State) (u : Nat) (i : Instr) : (s.post u i).ctrs = s.ctrs := rfl
@[simp] theorem State.regions_post (s : State) (u : Nat) (i : Instr) : (s.post u i).regions = s.regions := rfl
@[simp] theorem State.sealed_post (s : State) (u : Nat) (i : Instr) : (s.post u i).sealed = s.sealed := rfl
@[simp] theorem State.gens_post (s : State) (u : Nat) (i : Instr) : (s.post u i).gens = s.gens := rfl
@[simp] theorem State.digests_post (s : State) (u : Nat) (i : Instr) : (s.post u i).digests = s.digests := rfl
@[simp] theorem State.vds_post (s : State) (u : Nat) (i : Instr) : (s.post u i).vds = s.vds := rfl
@[simp] theorem State.grids_post (s : State) (u : Nat) (i : Instr) : (s.post u i).grids = s.grids := rfl
@[simp] theorem State.wgs_post (s : State) (u : Nat) (i : Instr) : (s.post u i).wgs = s.wgs := rfl
@[simp] theorem State.crews_post (s : State) (u : Nat) (i : Instr) : (s.post u i).crews = s.crews := rfl
@[simp] theorem State.icache_post (s : State) (u : Nat) (i : Instr) : (s.post u i).icache = s.icache := rfl
@[simp] theorem State.fills_post (s : State) (u : Nat) (i : Instr) : (s.post u i).fills = s.fills := rfl
@[simp] theorem State.mem_post (s : State) (u : Nat) (i : Instr) : (s.post u i).mem = s.mem := rfl
@[simp] theorem State.lineKeys_post (s : State) (u : Nat) (i : Instr) : (s.post u i).lineKeys = s.lineKeys := rfl
@[simp] theorem State.ciphers_post (s : State) (u : Nat) (i : Instr) : (s.post u i).ciphers = s.ciphers := rfl
@[simp] theorem State.basins_post (s : State) (u : Nat) (i : Instr) : (s.post u i).basins = s.basins := rfl
@[simp] theorem State.near_post (s : State) (u : Nat) (i : Instr) : (s.post u i).near = s.near := rfl
@[simp] theorem State.spill_post (s : State) (u : Nat) (i : Instr) : (s.post u i).spill = s.spill := rfl
@[simp] theorem State.basinOps_post (s : State) (u : Nat) (i : Instr) : (s.post u i).basinOps = s.basinOps := rfl
@[simp] theorem State.tlbs_post (s : State) (u : Nat) (i : Instr) : (s.post u i).tlbs = s.tlbs := rfl
@[simp] theorem State.l2s_post (s : State) (u : Nat) (i : Instr) : (s.post u i).l2s = s.l2s := rfl
@[simp] theorem State.jobs_post (s : State) (u : Nat) (i : Instr) : (s.post u i).jobs = s.jobs := rfl
@[simp] theorem State.bargeRs_post (s : State) (u : Nat) (i : Instr) : (s.post u i).bargeRs = s.bargeRs := rfl
@[simp] theorem State.fars_post (s : State) (u : Nat) (i : Instr) : (s.post u i).fars = s.fars := rfl
@[simp] theorem State.mats_post (s : State) (u : Nat) (i : Instr) : (s.post u i).mats = s.mats := rfl
@[simp] theorem State.counts_post (s : State) (u : Nat) (i : Instr) : (s.post u i).counts = s.counts := rfl
@[simp] theorem State.streams_post (s : State) (u : Nat) (i : Instr) : (s.post u i).streams = s.streams := rfl
@[simp] theorem State.failed_post (s : State) (u : Nat) (i : Instr) : (s.post u i).failed = s.failed := rfl
@[simp] theorem State.peerFailed_post (s : State) (u : Nat) (i : Instr) : (s.post u i).peerFailed = s.peerFailed := rfl
@[simp] theorem State.replays_post (s : State) (u : Nat) (i : Instr) : (s.post u i).replays = s.replays := rfl
@[simp] theorem State.flits_post (s : State) (u : Nat) (i : Instr) : (s.post u i).flits = s.flits := rfl
@[simp] theorem State.transit_post (s : State) (u : Nat) (i : Instr) : (s.post u i).transit = s.transit := rfl
@[simp] theorem State.closed_post (s : State) (u : Nat) (i : Instr) : (s.post u i).closed = s.closed := rfl
@[simp] theorem State.tokens_post (s : State) (u : Nat) (i : Instr) : (s.post u i).tokens = s.tokens := rfl
@[simp] theorem State.spareStar_post (s : State) (u : Nat) (i : Instr) : (s.post u i).spareStar = s.spareStar := rfl
@[simp] theorem State.starDown_post (s : State) (u : Nat) (i : Instr) : (s.post u i).starDown = s.starDown := rfl
@[simp] theorem State.agenda_post (s : State) (u : Nat) (i : Instr) : (s.post u i).agenda = agendaInsert u i s.agenda := rfl
@[simp] theorem State.turns_post (s : State) (u : Nat) (i : Instr) : (s.post u i).turns = s.turns := rfl
@[simp] theorem State.issue_post (s : State) (u : Nat) (i : Instr) : (s.post u i).issue = s.issue := rfl
@[simp] theorem State.probed_post (s : State) (u : Nat) (i : Instr) : (s.post u i).probed = s.probed := rfl
@[simp] theorem State.adminProd_post (s : State) (u : Nat) (i : Instr) : (s.post u i).adminProd = s.adminProd := rfl
@[simp] theorem State.adminCons_post (s : State) (u : Nat) (i : Instr) : (s.post u i).adminCons = s.adminCons := rfl
@[simp] theorem State.cmds_post (s : State) (u : Nat) (i : Instr) : (s.post u i).cmds = s.cmds := rfl
@[simp] theorem State.outs_post (s : State) (u : Nat) (i : Instr) : (s.post u i).outs = s.outs := rfl
@[simp] theorem State.nextId_post (s : State) (u : Nat) (i : Instr) : (s.post u i).nextId = s.nextId := rfl

/-! ### emit -/

@[simp] theorem State.power_emit (s : State) (o : Output) : (s.emit o).power = s.power := rfl
@[simp] theorem State.t_emit (s : State) (o : Output) : (s.emit o).t = s.t := rfl
@[simp] theorem State.pkg_emit (s : State) (o : Output) : (s.emit o).pkg = s.pkg := rfl
@[simp] theorem State.members_emit (s : State) (o : Output) : (s.emit o).members = s.members := rfl
@[simp] theorem State.rotaL_emit (s : State) (o : Output) : (s.emit o).rotaL = s.rotaL := rfl
@[simp] theorem State.rotaS_emit (s : State) (o : Output) : (s.emit o).rotaS = s.rotaS := rfl
@[simp] theorem State.tenants_emit (s : State) (o : Output) : (s.emit o).tenants = s.tenants := rfl
@[simp] theorem State.accepts_emit (s : State) (o : Output) : (s.emit o).accepts = s.accepts := rfl
@[simp] theorem State.reqs_emit (s : State) (o : Output) : (s.emit o).reqs = s.reqs := rfl
@[simp] theorem State.cpFree_emit (s : State) (o : Output) : (s.emit o).cpFree = s.cpFree := rfl
@[simp] theorem State.layout_emit (s : State) (o : Output) : (s.emit o).layout = s.layout := rfl
@[simp] theorem State.shadow_emit (s : State) (o : Output) : (s.emit o).shadow = s.shadow := rfl
@[simp] theorem State.commit_emit (s : State) (o : Output) : (s.emit o).commit = s.commit := rfl
@[simp] theorem State.version_emit (s : State) (o : Output) : (s.emit o).version = s.version := rfl
@[simp] theorem State.sigOk_emit (s : State) (o : Output) : (s.emit o).sigOk = s.sigOk := rfl
@[simp] theorem State.sigKey_emit (s : State) (o : Output) : (s.emit o).sigKey = s.sigKey := rfl
@[simp] theorem State.fusedKey_emit (s : State) (o : Output) : (s.emit o).fusedKey = s.fusedKey := rfl
@[simp] theorem State.bootFail_emit (s : State) (o : Output) : (s.emit o).bootFail = s.bootFail := rfl
@[simp] theorem State.boots_emit (s : State) (o : Output) : (s.emit o).boots = s.boots := rfl
@[simp] theorem State.fuses_emit (s : State) (o : Output) : (s.emit o).fuses = s.fuses := rfl
@[simp] theorem State.powerLim_emit (s : State) (o : Output) : (s.emit o).powerLim = s.powerLim := rfl
@[simp] theorem State.tempLim_emit (s : State) (o : Output) : (s.emit o).tempLim = s.tempLim := rfl
@[simp] theorem State.health_emit (s : State) (o : Output) : (s.emit o).health = s.health := rfl
@[simp] theorem State.errors_emit (s : State) (o : Output) : (s.emit o).errors = s.errors := rfl
@[simp] theorem State.hostSess_emit (s : State) (o : Output) : (s.emit o).hostSess = s.hostSess := rfl
@[simp] theorem State.mgmtSess_emit (s : State) (o : Output) : (s.emit o).mgmtSess = s.mgmtSess := rfl
@[simp] theorem State.frzHost_emit (s : State) (o : Output) : (s.emit o).frzHost = s.frzHost := rfl
@[simp] theorem State.frzMgmt_emit (s : State) (o : Output) : (s.emit o).frzMgmt = s.frzMgmt := rfl
@[simp] theorem State.badSram_emit (s : State) (o : Output) : (s.emit o).badSram = s.badSram := rfl
@[simp] theorem State.badHalves_emit (s : State) (o : Output) : (s.emit o).badHalves = s.badHalves := rfl
@[simp] theorem State.spareRows_emit (s : State) (o : Output) : (s.emit o).spareRows = s.spareRows := rfl
@[simp] theorem State.outOf_emit (s : State) (o : Output) : (s.emit o).outOf = s.outOf := rfl
@[simp] theorem State.fabricKey_emit (s : State) (o : Output) : (s.emit o).fabricKey = s.fabricKey := rfl
@[simp] theorem State.keys_emit (s : State) (o : Output) : (s.emit o).keys = s.keys := rfl
@[simp] theorem State.ctrs_emit (s : State) (o : Output) : (s.emit o).ctrs = s.ctrs := rfl
@[simp] theorem State.regions_emit (s : State) (o : Output) : (s.emit o).regions = s.regions := rfl
@[simp] theorem State.sealed_emit (s : State) (o : Output) : (s.emit o).sealed = s.sealed := rfl
@[simp] theorem State.gens_emit (s : State) (o : Output) : (s.emit o).gens = s.gens := rfl
@[simp] theorem State.digests_emit (s : State) (o : Output) : (s.emit o).digests = s.digests := rfl
@[simp] theorem State.vds_emit (s : State) (o : Output) : (s.emit o).vds = s.vds := rfl
@[simp] theorem State.grids_emit (s : State) (o : Output) : (s.emit o).grids = s.grids := rfl
@[simp] theorem State.wgs_emit (s : State) (o : Output) : (s.emit o).wgs = s.wgs := rfl
@[simp] theorem State.crews_emit (s : State) (o : Output) : (s.emit o).crews = s.crews := rfl
@[simp] theorem State.icache_emit (s : State) (o : Output) : (s.emit o).icache = s.icache := rfl
@[simp] theorem State.fills_emit (s : State) (o : Output) : (s.emit o).fills = s.fills := rfl
@[simp] theorem State.mem_emit (s : State) (o : Output) : (s.emit o).mem = s.mem := rfl
@[simp] theorem State.lineKeys_emit (s : State) (o : Output) : (s.emit o).lineKeys = s.lineKeys := rfl
@[simp] theorem State.ciphers_emit (s : State) (o : Output) : (s.emit o).ciphers = s.ciphers := rfl
@[simp] theorem State.basins_emit (s : State) (o : Output) : (s.emit o).basins = s.basins := rfl
@[simp] theorem State.near_emit (s : State) (o : Output) : (s.emit o).near = s.near := rfl
@[simp] theorem State.spill_emit (s : State) (o : Output) : (s.emit o).spill = s.spill := rfl
@[simp] theorem State.basinOps_emit (s : State) (o : Output) : (s.emit o).basinOps = s.basinOps := rfl
@[simp] theorem State.tlbs_emit (s : State) (o : Output) : (s.emit o).tlbs = s.tlbs := rfl
@[simp] theorem State.l2s_emit (s : State) (o : Output) : (s.emit o).l2s = s.l2s := rfl
@[simp] theorem State.jobs_emit (s : State) (o : Output) : (s.emit o).jobs = s.jobs := rfl
@[simp] theorem State.bargeRs_emit (s : State) (o : Output) : (s.emit o).bargeRs = s.bargeRs := rfl
@[simp] theorem State.fars_emit (s : State) (o : Output) : (s.emit o).fars = s.fars := rfl
@[simp] theorem State.mats_emit (s : State) (o : Output) : (s.emit o).mats = s.mats := rfl
@[simp] theorem State.counts_emit (s : State) (o : Output) : (s.emit o).counts = s.counts := rfl
@[simp] theorem State.streams_emit (s : State) (o : Output) : (s.emit o).streams = s.streams := rfl
@[simp] theorem State.failed_emit (s : State) (o : Output) : (s.emit o).failed = s.failed := rfl
@[simp] theorem State.peerFailed_emit (s : State) (o : Output) : (s.emit o).peerFailed = s.peerFailed := rfl
@[simp] theorem State.replays_emit (s : State) (o : Output) : (s.emit o).replays = s.replays := rfl
@[simp] theorem State.flits_emit (s : State) (o : Output) : (s.emit o).flits = s.flits := rfl
@[simp] theorem State.transit_emit (s : State) (o : Output) : (s.emit o).transit = s.transit := rfl
@[simp] theorem State.closed_emit (s : State) (o : Output) : (s.emit o).closed = s.closed := rfl
@[simp] theorem State.tokens_emit (s : State) (o : Output) : (s.emit o).tokens = s.tokens := rfl
@[simp] theorem State.spareStar_emit (s : State) (o : Output) : (s.emit o).spareStar = s.spareStar := rfl
@[simp] theorem State.starDown_emit (s : State) (o : Output) : (s.emit o).starDown = s.starDown := rfl
@[simp] theorem State.agenda_emit (s : State) (o : Output) : (s.emit o).agenda = s.agenda := rfl
@[simp] theorem State.turns_emit (s : State) (o : Output) : (s.emit o).turns = s.turns := rfl
@[simp] theorem State.issue_emit (s : State) (o : Output) : (s.emit o).issue = s.issue := rfl
@[simp] theorem State.probed_emit (s : State) (o : Output) : (s.emit o).probed = s.probed := rfl
@[simp] theorem State.adminProd_emit (s : State) (o : Output) : (s.emit o).adminProd = s.adminProd := rfl
@[simp] theorem State.adminCons_emit (s : State) (o : Output) : (s.emit o).adminCons = s.adminCons := rfl
@[simp] theorem State.cmds_emit (s : State) (o : Output) : (s.emit o).cmds = s.cmds := rfl
@[simp] theorem State.outs_emit (s : State) (o : Output) : (s.emit o).outs = s.outs ++ [o] := rfl
@[simp] theorem State.nextId_emit (s : State) (o : Output) : (s.emit o).nextId = s.nextId := rfl

/-! ### bump -/

@[simp] theorem State.power_bump (s : State)  : (s.bump).power = s.power := rfl
@[simp] theorem State.t_bump (s : State)  : (s.bump).t = s.t := rfl
@[simp] theorem State.pkg_bump (s : State)  : (s.bump).pkg = s.pkg := rfl
@[simp] theorem State.members_bump (s : State)  : (s.bump).members = s.members := rfl
@[simp] theorem State.rotaL_bump (s : State)  : (s.bump).rotaL = s.rotaL := rfl
@[simp] theorem State.rotaS_bump (s : State)  : (s.bump).rotaS = s.rotaS := rfl
@[simp] theorem State.tenants_bump (s : State)  : (s.bump).tenants = s.tenants := rfl
@[simp] theorem State.accepts_bump (s : State)  : (s.bump).accepts = s.accepts := rfl
@[simp] theorem State.reqs_bump (s : State)  : (s.bump).reqs = s.reqs := rfl
@[simp] theorem State.cpFree_bump (s : State)  : (s.bump).cpFree = s.cpFree := rfl
@[simp] theorem State.layout_bump (s : State)  : (s.bump).layout = s.layout := rfl
@[simp] theorem State.shadow_bump (s : State)  : (s.bump).shadow = s.shadow := rfl
@[simp] theorem State.commit_bump (s : State)  : (s.bump).commit = s.commit := rfl
@[simp] theorem State.version_bump (s : State)  : (s.bump).version = s.version := rfl
@[simp] theorem State.sigOk_bump (s : State)  : (s.bump).sigOk = s.sigOk := rfl
@[simp] theorem State.sigKey_bump (s : State)  : (s.bump).sigKey = s.sigKey := rfl
@[simp] theorem State.fusedKey_bump (s : State)  : (s.bump).fusedKey = s.fusedKey := rfl
@[simp] theorem State.bootFail_bump (s : State)  : (s.bump).bootFail = s.bootFail := rfl
@[simp] theorem State.boots_bump (s : State)  : (s.bump).boots = s.boots := rfl
@[simp] theorem State.fuses_bump (s : State)  : (s.bump).fuses = s.fuses := rfl
@[simp] theorem State.powerLim_bump (s : State)  : (s.bump).powerLim = s.powerLim := rfl
@[simp] theorem State.tempLim_bump (s : State)  : (s.bump).tempLim = s.tempLim := rfl
@[simp] theorem State.health_bump (s : State)  : (s.bump).health = s.health := rfl
@[simp] theorem State.errors_bump (s : State)  : (s.bump).errors = s.errors := rfl
@[simp] theorem State.hostSess_bump (s : State)  : (s.bump).hostSess = s.hostSess := rfl
@[simp] theorem State.mgmtSess_bump (s : State)  : (s.bump).mgmtSess = s.mgmtSess := rfl
@[simp] theorem State.frzHost_bump (s : State)  : (s.bump).frzHost = s.frzHost := rfl
@[simp] theorem State.frzMgmt_bump (s : State)  : (s.bump).frzMgmt = s.frzMgmt := rfl
@[simp] theorem State.badSram_bump (s : State)  : (s.bump).badSram = s.badSram := rfl
@[simp] theorem State.badHalves_bump (s : State)  : (s.bump).badHalves = s.badHalves := rfl
@[simp] theorem State.spareRows_bump (s : State)  : (s.bump).spareRows = s.spareRows := rfl
@[simp] theorem State.outOf_bump (s : State)  : (s.bump).outOf = s.outOf := rfl
@[simp] theorem State.fabricKey_bump (s : State)  : (s.bump).fabricKey = s.fabricKey := rfl
@[simp] theorem State.keys_bump (s : State)  : (s.bump).keys = s.keys := rfl
@[simp] theorem State.ctrs_bump (s : State)  : (s.bump).ctrs = s.ctrs := rfl
@[simp] theorem State.regions_bump (s : State)  : (s.bump).regions = s.regions := rfl
@[simp] theorem State.sealed_bump (s : State)  : (s.bump).sealed = s.sealed := rfl
@[simp] theorem State.gens_bump (s : State)  : (s.bump).gens = s.gens := rfl
@[simp] theorem State.digests_bump (s : State)  : (s.bump).digests = s.digests := rfl
@[simp] theorem State.vds_bump (s : State)  : (s.bump).vds = s.vds := rfl
@[simp] theorem State.grids_bump (s : State)  : (s.bump).grids = s.grids := rfl
@[simp] theorem State.wgs_bump (s : State)  : (s.bump).wgs = s.wgs := rfl
@[simp] theorem State.crews_bump (s : State)  : (s.bump).crews = s.crews := rfl
@[simp] theorem State.icache_bump (s : State)  : (s.bump).icache = s.icache := rfl
@[simp] theorem State.fills_bump (s : State)  : (s.bump).fills = s.fills := rfl
@[simp] theorem State.mem_bump (s : State)  : (s.bump).mem = s.mem := rfl
@[simp] theorem State.lineKeys_bump (s : State)  : (s.bump).lineKeys = s.lineKeys := rfl
@[simp] theorem State.ciphers_bump (s : State)  : (s.bump).ciphers = s.ciphers := rfl
@[simp] theorem State.basins_bump (s : State)  : (s.bump).basins = s.basins := rfl
@[simp] theorem State.near_bump (s : State)  : (s.bump).near = s.near := rfl
@[simp] theorem State.spill_bump (s : State)  : (s.bump).spill = s.spill := rfl
@[simp] theorem State.basinOps_bump (s : State)  : (s.bump).basinOps = s.basinOps := rfl
@[simp] theorem State.tlbs_bump (s : State)  : (s.bump).tlbs = s.tlbs := rfl
@[simp] theorem State.l2s_bump (s : State)  : (s.bump).l2s = s.l2s := rfl
@[simp] theorem State.jobs_bump (s : State)  : (s.bump).jobs = s.jobs := rfl
@[simp] theorem State.bargeRs_bump (s : State)  : (s.bump).bargeRs = s.bargeRs := rfl
@[simp] theorem State.fars_bump (s : State)  : (s.bump).fars = s.fars := rfl
@[simp] theorem State.mats_bump (s : State)  : (s.bump).mats = s.mats := rfl
@[simp] theorem State.counts_bump (s : State)  : (s.bump).counts = s.counts := rfl
@[simp] theorem State.streams_bump (s : State)  : (s.bump).streams = s.streams := rfl
@[simp] theorem State.failed_bump (s : State)  : (s.bump).failed = s.failed := rfl
@[simp] theorem State.peerFailed_bump (s : State)  : (s.bump).peerFailed = s.peerFailed := rfl
@[simp] theorem State.replays_bump (s : State)  : (s.bump).replays = s.replays := rfl
@[simp] theorem State.flits_bump (s : State)  : (s.bump).flits = s.flits := rfl
@[simp] theorem State.transit_bump (s : State)  : (s.bump).transit = s.transit := rfl
@[simp] theorem State.closed_bump (s : State)  : (s.bump).closed = s.closed := rfl
@[simp] theorem State.tokens_bump (s : State)  : (s.bump).tokens = s.tokens := rfl
@[simp] theorem State.spareStar_bump (s : State)  : (s.bump).spareStar = s.spareStar := rfl
@[simp] theorem State.starDown_bump (s : State)  : (s.bump).starDown = s.starDown := rfl
@[simp] theorem State.agenda_bump (s : State)  : (s.bump).agenda = s.agenda := rfl
@[simp] theorem State.turns_bump (s : State)  : (s.bump).turns = s.turns := rfl
@[simp] theorem State.issue_bump (s : State)  : (s.bump).issue = s.issue := rfl
@[simp] theorem State.probed_bump (s : State)  : (s.bump).probed = s.probed := rfl
@[simp] theorem State.adminProd_bump (s : State)  : (s.bump).adminProd = s.adminProd := rfl
@[simp] theorem State.adminCons_bump (s : State)  : (s.bump).adminCons = s.adminCons := rfl
@[simp] theorem State.cmds_bump (s : State)  : (s.bump).cmds = s.cmds := rfl
@[simp] theorem State.outs_bump (s : State)  : (s.bump).outs = s.outs := rfl
@[simp] theorem State.nextId_bump (s : State) : (s.bump).nextId = s.nextId + 1 := rfl

/-! ### enqueueAt -/

@[simp] theorem State.power_enqueueAt (s : State) (st : Struct) (w : Nat) (q : ReqItem) (u : Nat) : (s.enqueueAt st w q u).power = s.power := rfl
@[simp] theorem State.t_enqueueAt (s : State) (st : Struct) (w : Nat) (q : ReqItem) (u : Nat) : (s.enqueueAt st w q u).t = s.t := rfl
@[simp] theorem State.pkg_enqueueAt (s : State) (st : Struct) (w : Nat) (q : ReqItem) (u : Nat) : (s.enqueueAt st w q u).pkg = s.pkg := rfl
@[simp] theorem State.members_enqueueAt (s : State) (st : Struct) (w : Nat) (q : ReqItem) (u : Nat) : (s.enqueueAt st w q u).members = s.members := rfl
@[simp] theorem State.rotaL_enqueueAt (s : State) (st : Struct) (w : Nat) (q : ReqItem) (u : Nat) : (s.enqueueAt st w q u).rotaL = s.rotaL := rfl
@[simp] theorem State.rotaS_enqueueAt (s : State) (st : Struct) (w : Nat) (q : ReqItem) (u : Nat) : (s.enqueueAt st w q u).rotaS = s.rotaS := rfl
@[simp] theorem State.tenants_enqueueAt (s : State) (st : Struct) (w : Nat) (q : ReqItem) (u : Nat) : (s.enqueueAt st w q u).tenants = s.tenants := rfl
@[simp] theorem State.accepts_enqueueAt (s : State) (st : Struct) (w : Nat) (q : ReqItem) (u : Nat) : (s.enqueueAt st w q u).accepts = s.accepts := rfl
@[simp] theorem State.reqs_enqueueAt (s : State) (st : Struct) (w : Nat) (q : ReqItem) (u : Nat) : (s.enqueueAt st w q u).reqs = reqInsert ⟨st, w, q, u⟩ s.reqs := rfl
@[simp] theorem State.cpFree_enqueueAt (s : State) (st : Struct) (w : Nat) (q : ReqItem) (u : Nat) : (s.enqueueAt st w q u).cpFree = s.cpFree := rfl
@[simp] theorem State.layout_enqueueAt (s : State) (st : Struct) (w : Nat) (q : ReqItem) (u : Nat) : (s.enqueueAt st w q u).layout = s.layout := rfl
@[simp] theorem State.shadow_enqueueAt (s : State) (st : Struct) (w : Nat) (q : ReqItem) (u : Nat) : (s.enqueueAt st w q u).shadow = s.shadow := rfl
@[simp] theorem State.commit_enqueueAt (s : State) (st : Struct) (w : Nat) (q : ReqItem) (u : Nat) : (s.enqueueAt st w q u).commit = s.commit := rfl
@[simp] theorem State.version_enqueueAt (s : State) (st : Struct) (w : Nat) (q : ReqItem) (u : Nat) : (s.enqueueAt st w q u).version = s.version := rfl
@[simp] theorem State.sigOk_enqueueAt (s : State) (st : Struct) (w : Nat) (q : ReqItem) (u : Nat) : (s.enqueueAt st w q u).sigOk = s.sigOk := rfl
@[simp] theorem State.sigKey_enqueueAt (s : State) (st : Struct) (w : Nat) (q : ReqItem) (u : Nat) : (s.enqueueAt st w q u).sigKey = s.sigKey := rfl
@[simp] theorem State.fusedKey_enqueueAt (s : State) (st : Struct) (w : Nat) (q : ReqItem) (u : Nat) : (s.enqueueAt st w q u).fusedKey = s.fusedKey := rfl
@[simp] theorem State.bootFail_enqueueAt (s : State) (st : Struct) (w : Nat) (q : ReqItem) (u : Nat) : (s.enqueueAt st w q u).bootFail = s.bootFail := rfl
@[simp] theorem State.boots_enqueueAt (s : State) (st : Struct) (w : Nat) (q : ReqItem) (u : Nat) : (s.enqueueAt st w q u).boots = s.boots := rfl
@[simp] theorem State.fuses_enqueueAt (s : State) (st : Struct) (w : Nat) (q : ReqItem) (u : Nat) : (s.enqueueAt st w q u).fuses = s.fuses := rfl
@[simp] theorem State.powerLim_enqueueAt (s : State) (st : Struct) (w : Nat) (q : ReqItem) (u : Nat) : (s.enqueueAt st w q u).powerLim = s.powerLim := rfl
@[simp] theorem State.tempLim_enqueueAt (s : State) (st : Struct) (w : Nat) (q : ReqItem) (u : Nat) : (s.enqueueAt st w q u).tempLim = s.tempLim := rfl
@[simp] theorem State.health_enqueueAt (s : State) (st : Struct) (w : Nat) (q : ReqItem) (u : Nat) : (s.enqueueAt st w q u).health = s.health := rfl
@[simp] theorem State.errors_enqueueAt (s : State) (st : Struct) (w : Nat) (q : ReqItem) (u : Nat) : (s.enqueueAt st w q u).errors = s.errors := rfl
@[simp] theorem State.hostSess_enqueueAt (s : State) (st : Struct) (w : Nat) (q : ReqItem) (u : Nat) : (s.enqueueAt st w q u).hostSess = s.hostSess := rfl
@[simp] theorem State.mgmtSess_enqueueAt (s : State) (st : Struct) (w : Nat) (q : ReqItem) (u : Nat) : (s.enqueueAt st w q u).mgmtSess = s.mgmtSess := rfl
@[simp] theorem State.frzHost_enqueueAt (s : State) (st : Struct) (w : Nat) (q : ReqItem) (u : Nat) : (s.enqueueAt st w q u).frzHost = s.frzHost := rfl
@[simp] theorem State.frzMgmt_enqueueAt (s : State) (st : Struct) (w : Nat) (q : ReqItem) (u : Nat) : (s.enqueueAt st w q u).frzMgmt = s.frzMgmt := rfl
@[simp] theorem State.badSram_enqueueAt (s : State) (st : Struct) (w : Nat) (q : ReqItem) (u : Nat) : (s.enqueueAt st w q u).badSram = s.badSram := rfl
@[simp] theorem State.badHalves_enqueueAt (s : State) (st : Struct) (w : Nat) (q : ReqItem) (u : Nat) : (s.enqueueAt st w q u).badHalves = s.badHalves := rfl
@[simp] theorem State.spareRows_enqueueAt (s : State) (st : Struct) (w : Nat) (q : ReqItem) (u : Nat) : (s.enqueueAt st w q u).spareRows = s.spareRows := rfl
@[simp] theorem State.outOf_enqueueAt (s : State) (st : Struct) (w : Nat) (q : ReqItem) (u : Nat) : (s.enqueueAt st w q u).outOf = s.outOf := rfl
@[simp] theorem State.fabricKey_enqueueAt (s : State) (st : Struct) (w : Nat) (q : ReqItem) (u : Nat) : (s.enqueueAt st w q u).fabricKey = s.fabricKey := rfl
@[simp] theorem State.keys_enqueueAt (s : State) (st : Struct) (w : Nat) (q : ReqItem) (u : Nat) : (s.enqueueAt st w q u).keys = s.keys := rfl
@[simp] theorem State.ctrs_enqueueAt (s : State) (st : Struct) (w : Nat) (q : ReqItem) (u : Nat) : (s.enqueueAt st w q u).ctrs = s.ctrs := rfl
@[simp] theorem State.regions_enqueueAt (s : State) (st : Struct) (w : Nat) (q : ReqItem) (u : Nat) : (s.enqueueAt st w q u).regions = s.regions := rfl
@[simp] theorem State.sealed_enqueueAt (s : State) (st : Struct) (w : Nat) (q : ReqItem) (u : Nat) : (s.enqueueAt st w q u).sealed = s.sealed := rfl
@[simp] theorem State.gens_enqueueAt (s : State) (st : Struct) (w : Nat) (q : ReqItem) (u : Nat) : (s.enqueueAt st w q u).gens = s.gens := rfl
@[simp] theorem State.digests_enqueueAt (s : State) (st : Struct) (w : Nat) (q : ReqItem) (u : Nat) : (s.enqueueAt st w q u).digests = s.digests := rfl
@[simp] theorem State.vds_enqueueAt (s : State) (st : Struct) (w : Nat) (q : ReqItem) (u : Nat) : (s.enqueueAt st w q u).vds = s.vds := rfl
@[simp] theorem State.grids_enqueueAt (s : State) (st : Struct) (w : Nat) (q : ReqItem) (u : Nat) : (s.enqueueAt st w q u).grids = s.grids := rfl
@[simp] theorem State.wgs_enqueueAt (s : State) (st : Struct) (w : Nat) (q : ReqItem) (u : Nat) : (s.enqueueAt st w q u).wgs = s.wgs := rfl
@[simp] theorem State.crews_enqueueAt (s : State) (st : Struct) (w : Nat) (q : ReqItem) (u : Nat) : (s.enqueueAt st w q u).crews = s.crews := rfl
@[simp] theorem State.icache_enqueueAt (s : State) (st : Struct) (w : Nat) (q : ReqItem) (u : Nat) : (s.enqueueAt st w q u).icache = s.icache := rfl
@[simp] theorem State.fills_enqueueAt (s : State) (st : Struct) (w : Nat) (q : ReqItem) (u : Nat) : (s.enqueueAt st w q u).fills = s.fills := rfl
@[simp] theorem State.mem_enqueueAt (s : State) (st : Struct) (w : Nat) (q : ReqItem) (u : Nat) : (s.enqueueAt st w q u).mem = s.mem := rfl
@[simp] theorem State.lineKeys_enqueueAt (s : State) (st : Struct) (w : Nat) (q : ReqItem) (u : Nat) : (s.enqueueAt st w q u).lineKeys = s.lineKeys := rfl
@[simp] theorem State.ciphers_enqueueAt (s : State) (st : Struct) (w : Nat) (q : ReqItem) (u : Nat) : (s.enqueueAt st w q u).ciphers = s.ciphers := rfl
@[simp] theorem State.basins_enqueueAt (s : State) (st : Struct) (w : Nat) (q : ReqItem) (u : Nat) : (s.enqueueAt st w q u).basins = s.basins := rfl
@[simp] theorem State.near_enqueueAt (s : State) (st : Struct) (w : Nat) (q : ReqItem) (u : Nat) : (s.enqueueAt st w q u).near = s.near := rfl
@[simp] theorem State.spill_enqueueAt (s : State) (st : Struct) (w : Nat) (q : ReqItem) (u : Nat) : (s.enqueueAt st w q u).spill = s.spill := rfl
@[simp] theorem State.basinOps_enqueueAt (s : State) (st : Struct) (w : Nat) (q : ReqItem) (u : Nat) : (s.enqueueAt st w q u).basinOps = s.basinOps := rfl
@[simp] theorem State.tlbs_enqueueAt (s : State) (st : Struct) (w : Nat) (q : ReqItem) (u : Nat) : (s.enqueueAt st w q u).tlbs = s.tlbs := rfl
@[simp] theorem State.l2s_enqueueAt (s : State) (st : Struct) (w : Nat) (q : ReqItem) (u : Nat) : (s.enqueueAt st w q u).l2s = s.l2s := rfl
@[simp] theorem State.jobs_enqueueAt (s : State) (st : Struct) (w : Nat) (q : ReqItem) (u : Nat) : (s.enqueueAt st w q u).jobs = s.jobs := rfl
@[simp] theorem State.bargeRs_enqueueAt (s : State) (st : Struct) (w : Nat) (q : ReqItem) (u : Nat) : (s.enqueueAt st w q u).bargeRs = s.bargeRs := rfl
@[simp] theorem State.fars_enqueueAt (s : State) (st : Struct) (w : Nat) (q : ReqItem) (u : Nat) : (s.enqueueAt st w q u).fars = s.fars := rfl
@[simp] theorem State.mats_enqueueAt (s : State) (st : Struct) (w : Nat) (q : ReqItem) (u : Nat) : (s.enqueueAt st w q u).mats = s.mats := rfl
@[simp] theorem State.counts_enqueueAt (s : State) (st : Struct) (w : Nat) (q : ReqItem) (u : Nat) : (s.enqueueAt st w q u).counts = s.counts := rfl
@[simp] theorem State.streams_enqueueAt (s : State) (st : Struct) (w : Nat) (q : ReqItem) (u : Nat) : (s.enqueueAt st w q u).streams = s.streams := rfl
@[simp] theorem State.failed_enqueueAt (s : State) (st : Struct) (w : Nat) (q : ReqItem) (u : Nat) : (s.enqueueAt st w q u).failed = s.failed := rfl
@[simp] theorem State.peerFailed_enqueueAt (s : State) (st : Struct) (w : Nat) (q : ReqItem) (u : Nat) : (s.enqueueAt st w q u).peerFailed = s.peerFailed := rfl
@[simp] theorem State.replays_enqueueAt (s : State) (st : Struct) (w : Nat) (q : ReqItem) (u : Nat) : (s.enqueueAt st w q u).replays = s.replays := rfl
@[simp] theorem State.flits_enqueueAt (s : State) (st : Struct) (w : Nat) (q : ReqItem) (u : Nat) : (s.enqueueAt st w q u).flits = s.flits := rfl
@[simp] theorem State.transit_enqueueAt (s : State) (st : Struct) (w : Nat) (q : ReqItem) (u : Nat) : (s.enqueueAt st w q u).transit = s.transit := rfl
@[simp] theorem State.closed_enqueueAt (s : State) (st : Struct) (w : Nat) (q : ReqItem) (u : Nat) : (s.enqueueAt st w q u).closed = s.closed := rfl
@[simp] theorem State.tokens_enqueueAt (s : State) (st : Struct) (w : Nat) (q : ReqItem) (u : Nat) : (s.enqueueAt st w q u).tokens = s.tokens := rfl
@[simp] theorem State.spareStar_enqueueAt (s : State) (st : Struct) (w : Nat) (q : ReqItem) (u : Nat) : (s.enqueueAt st w q u).spareStar = s.spareStar := rfl
@[simp] theorem State.starDown_enqueueAt (s : State) (st : Struct) (w : Nat) (q : ReqItem) (u : Nat) : (s.enqueueAt st w q u).starDown = s.starDown := rfl
@[simp] theorem State.agenda_enqueueAt (s : State) (st : Struct) (w : Nat) (q : ReqItem) (u : Nat) : (s.enqueueAt st w q u).agenda = s.agenda := rfl
@[simp] theorem State.turns_enqueueAt (s : State) (st : Struct) (w : Nat) (q : ReqItem) (u : Nat) : (s.enqueueAt st w q u).turns = s.turns := rfl
@[simp] theorem State.issue_enqueueAt (s : State) (st : Struct) (w : Nat) (q : ReqItem) (u : Nat) : (s.enqueueAt st w q u).issue = s.issue := rfl
@[simp] theorem State.probed_enqueueAt (s : State) (st : Struct) (w : Nat) (q : ReqItem) (u : Nat) : (s.enqueueAt st w q u).probed = s.probed := rfl
@[simp] theorem State.adminProd_enqueueAt (s : State) (st : Struct) (w : Nat) (q : ReqItem) (u : Nat) : (s.enqueueAt st w q u).adminProd = s.adminProd := rfl
@[simp] theorem State.adminCons_enqueueAt (s : State) (st : Struct) (w : Nat) (q : ReqItem) (u : Nat) : (s.enqueueAt st w q u).adminCons = s.adminCons := rfl
@[simp] theorem State.cmds_enqueueAt (s : State) (st : Struct) (w : Nat) (q : ReqItem) (u : Nat) : (s.enqueueAt st w q u).cmds = s.cmds := rfl
@[simp] theorem State.outs_enqueueAt (s : State) (st : Struct) (w : Nat) (q : ReqItem) (u : Nat) : (s.enqueueAt st w q u).outs = s.outs := rfl
@[simp] theorem State.nextId_enqueueAt (s : State) (st : Struct) (w : Nat) (q : ReqItem) (u : Nat) : (s.enqueueAt st w q u).nextId = s.nextId := rfl

/-! ### setJob -/

@[simp] theorem State.power_setJob (s : State) (j : TJob) : (s.setJob j).power = s.power := rfl
@[simp] theorem State.t_setJob (s : State) (j : TJob) : (s.setJob j).t = s.t := rfl
@[simp] theorem State.pkg_setJob (s : State) (j : TJob) : (s.setJob j).pkg = s.pkg := rfl
@[simp] theorem State.members_setJob (s : State) (j : TJob) : (s.setJob j).members = s.members := rfl
@[simp] theorem State.rotaL_setJob (s : State) (j : TJob) : (s.setJob j).rotaL = s.rotaL := rfl
@[simp] theorem State.rotaS_setJob (s : State) (j : TJob) : (s.setJob j).rotaS = s.rotaS := rfl
@[simp] theorem State.tenants_setJob (s : State) (j : TJob) : (s.setJob j).tenants = s.tenants := rfl
@[simp] theorem State.accepts_setJob (s : State) (j : TJob) : (s.setJob j).accepts = s.accepts := rfl
@[simp] theorem State.reqs_setJob (s : State) (j : TJob) : (s.setJob j).reqs = s.reqs := rfl
@[simp] theorem State.cpFree_setJob (s : State) (j : TJob) : (s.setJob j).cpFree = s.cpFree := rfl
@[simp] theorem State.layout_setJob (s : State) (j : TJob) : (s.setJob j).layout = s.layout := rfl
@[simp] theorem State.shadow_setJob (s : State) (j : TJob) : (s.setJob j).shadow = s.shadow := rfl
@[simp] theorem State.commit_setJob (s : State) (j : TJob) : (s.setJob j).commit = s.commit := rfl
@[simp] theorem State.version_setJob (s : State) (j : TJob) : (s.setJob j).version = s.version := rfl
@[simp] theorem State.sigOk_setJob (s : State) (j : TJob) : (s.setJob j).sigOk = s.sigOk := rfl
@[simp] theorem State.sigKey_setJob (s : State) (j : TJob) : (s.setJob j).sigKey = s.sigKey := rfl
@[simp] theorem State.fusedKey_setJob (s : State) (j : TJob) : (s.setJob j).fusedKey = s.fusedKey := rfl
@[simp] theorem State.bootFail_setJob (s : State) (j : TJob) : (s.setJob j).bootFail = s.bootFail := rfl
@[simp] theorem State.boots_setJob (s : State) (j : TJob) : (s.setJob j).boots = s.boots := rfl
@[simp] theorem State.fuses_setJob (s : State) (j : TJob) : (s.setJob j).fuses = s.fuses := rfl
@[simp] theorem State.powerLim_setJob (s : State) (j : TJob) : (s.setJob j).powerLim = s.powerLim := rfl
@[simp] theorem State.tempLim_setJob (s : State) (j : TJob) : (s.setJob j).tempLim = s.tempLim := rfl
@[simp] theorem State.health_setJob (s : State) (j : TJob) : (s.setJob j).health = s.health := rfl
@[simp] theorem State.errors_setJob (s : State) (j : TJob) : (s.setJob j).errors = s.errors := rfl
@[simp] theorem State.hostSess_setJob (s : State) (j : TJob) : (s.setJob j).hostSess = s.hostSess := rfl
@[simp] theorem State.mgmtSess_setJob (s : State) (j : TJob) : (s.setJob j).mgmtSess = s.mgmtSess := rfl
@[simp] theorem State.frzHost_setJob (s : State) (j : TJob) : (s.setJob j).frzHost = s.frzHost := rfl
@[simp] theorem State.frzMgmt_setJob (s : State) (j : TJob) : (s.setJob j).frzMgmt = s.frzMgmt := rfl
@[simp] theorem State.badSram_setJob (s : State) (j : TJob) : (s.setJob j).badSram = s.badSram := rfl
@[simp] theorem State.badHalves_setJob (s : State) (j : TJob) : (s.setJob j).badHalves = s.badHalves := rfl
@[simp] theorem State.spareRows_setJob (s : State) (j : TJob) : (s.setJob j).spareRows = s.spareRows := rfl
@[simp] theorem State.outOf_setJob (s : State) (j : TJob) : (s.setJob j).outOf = s.outOf := rfl
@[simp] theorem State.fabricKey_setJob (s : State) (j : TJob) : (s.setJob j).fabricKey = s.fabricKey := rfl
@[simp] theorem State.keys_setJob (s : State) (j : TJob) : (s.setJob j).keys = s.keys := rfl
@[simp] theorem State.ctrs_setJob (s : State) (j : TJob) : (s.setJob j).ctrs = s.ctrs := rfl
@[simp] theorem State.regions_setJob (s : State) (j : TJob) : (s.setJob j).regions = s.regions := rfl
@[simp] theorem State.sealed_setJob (s : State) (j : TJob) : (s.setJob j).sealed = s.sealed := rfl
@[simp] theorem State.gens_setJob (s : State) (j : TJob) : (s.setJob j).gens = s.gens := rfl
@[simp] theorem State.digests_setJob (s : State) (j : TJob) : (s.setJob j).digests = s.digests := rfl
@[simp] theorem State.vds_setJob (s : State) (j : TJob) : (s.setJob j).vds = s.vds := rfl
@[simp] theorem State.grids_setJob (s : State) (j : TJob) : (s.setJob j).grids = s.grids := rfl
@[simp] theorem State.wgs_setJob (s : State) (j : TJob) : (s.setJob j).wgs = s.wgs := rfl
@[simp] theorem State.crews_setJob (s : State) (j : TJob) : (s.setJob j).crews = s.crews := rfl
@[simp] theorem State.icache_setJob (s : State) (j : TJob) : (s.setJob j).icache = s.icache := rfl
@[simp] theorem State.fills_setJob (s : State) (j : TJob) : (s.setJob j).fills = s.fills := rfl
@[simp] theorem State.mem_setJob (s : State) (j : TJob) : (s.setJob j).mem = s.mem := rfl
@[simp] theorem State.lineKeys_setJob (s : State) (j : TJob) : (s.setJob j).lineKeys = s.lineKeys := rfl
@[simp] theorem State.ciphers_setJob (s : State) (j : TJob) : (s.setJob j).ciphers = s.ciphers := rfl
@[simp] theorem State.basins_setJob (s : State) (j : TJob) : (s.setJob j).basins = s.basins := rfl
@[simp] theorem State.near_setJob (s : State) (j : TJob) : (s.setJob j).near = s.near := rfl
@[simp] theorem State.spill_setJob (s : State) (j : TJob) : (s.setJob j).spill = s.spill := rfl
@[simp] theorem State.basinOps_setJob (s : State) (j : TJob) : (s.setJob j).basinOps = s.basinOps := rfl
@[simp] theorem State.tlbs_setJob (s : State) (j : TJob) : (s.setJob j).tlbs = s.tlbs := rfl
@[simp] theorem State.l2s_setJob (s : State) (j : TJob) : (s.setJob j).l2s = s.l2s := rfl
@[simp] theorem State.jobs_setJob (s : State) (j : TJob) : (s.setJob j).jobs = s.jobs.map (fun q => if q.id == j.id then j else q) := rfl
@[simp] theorem State.bargeRs_setJob (s : State) (j : TJob) : (s.setJob j).bargeRs = s.bargeRs := rfl
@[simp] theorem State.fars_setJob (s : State) (j : TJob) : (s.setJob j).fars = s.fars := rfl
@[simp] theorem State.mats_setJob (s : State) (j : TJob) : (s.setJob j).mats = s.mats := rfl
@[simp] theorem State.counts_setJob (s : State) (j : TJob) : (s.setJob j).counts = s.counts := rfl
@[simp] theorem State.streams_setJob (s : State) (j : TJob) : (s.setJob j).streams = s.streams := rfl
@[simp] theorem State.failed_setJob (s : State) (j : TJob) : (s.setJob j).failed = s.failed := rfl
@[simp] theorem State.peerFailed_setJob (s : State) (j : TJob) : (s.setJob j).peerFailed = s.peerFailed := rfl
@[simp] theorem State.replays_setJob (s : State) (j : TJob) : (s.setJob j).replays = s.replays := rfl
@[simp] theorem State.flits_setJob (s : State) (j : TJob) : (s.setJob j).flits = s.flits := rfl
@[simp] theorem State.transit_setJob (s : State) (j : TJob) : (s.setJob j).transit = s.transit := rfl
@[simp] theorem State.closed_setJob (s : State) (j : TJob) : (s.setJob j).closed = s.closed := rfl
@[simp] theorem State.tokens_setJob (s : State) (j : TJob) : (s.setJob j).tokens = s.tokens := rfl
@[simp] theorem State.spareStar_setJob (s : State) (j : TJob) : (s.setJob j).spareStar = s.spareStar := rfl
@[simp] theorem State.starDown_setJob (s : State) (j : TJob) : (s.setJob j).starDown = s.starDown := rfl
@[simp] theorem State.agenda_setJob (s : State) (j : TJob) : (s.setJob j).agenda = s.agenda := rfl
@[simp] theorem State.turns_setJob (s : State) (j : TJob) : (s.setJob j).turns = s.turns := rfl
@[simp] theorem State.issue_setJob (s : State) (j : TJob) : (s.setJob j).issue = s.issue := rfl
@[simp] theorem State.probed_setJob (s : State) (j : TJob) : (s.setJob j).probed = s.probed := rfl
@[simp] theorem State.adminProd_setJob (s : State) (j : TJob) : (s.setJob j).adminProd = s.adminProd := rfl
@[simp] theorem State.adminCons_setJob (s : State) (j : TJob) : (s.setJob j).adminCons = s.adminCons := rfl
@[simp] theorem State.cmds_setJob (s : State) (j : TJob) : (s.setJob j).cmds = s.cmds := rfl
@[simp] theorem State.outs_setJob (s : State) (j : TJob) : (s.setJob j).outs = s.outs := rfl
@[simp] theorem State.nextId_setJob (s : State) (j : TJob) : (s.setJob j).nextId = s.nextId := rfl

/-! ### setFar -/

@[simp] theorem State.power_setFar (s : State) (f : Far) : (s.setFar f).power = s.power := rfl
@[simp] theorem State.t_setFar (s : State) (f : Far) : (s.setFar f).t = s.t := rfl
@[simp] theorem State.pkg_setFar (s : State) (f : Far) : (s.setFar f).pkg = s.pkg := rfl
@[simp] theorem State.members_setFar (s : State) (f : Far) : (s.setFar f).members = s.members := rfl
@[simp] theorem State.rotaL_setFar (s : State) (f : Far) : (s.setFar f).rotaL = s.rotaL := rfl
@[simp] theorem State.rotaS_setFar (s : State) (f : Far) : (s.setFar f).rotaS = s.rotaS := rfl
@[simp] theorem State.tenants_setFar (s : State) (f : Far) : (s.setFar f).tenants = s.tenants := rfl
@[simp] theorem State.accepts_setFar (s : State) (f : Far) : (s.setFar f).accepts = s.accepts := rfl
@[simp] theorem State.reqs_setFar (s : State) (f : Far) : (s.setFar f).reqs = s.reqs := rfl
@[simp] theorem State.cpFree_setFar (s : State) (f : Far) : (s.setFar f).cpFree = s.cpFree := rfl
@[simp] theorem State.layout_setFar (s : State) (f : Far) : (s.setFar f).layout = s.layout := rfl
@[simp] theorem State.shadow_setFar (s : State) (f : Far) : (s.setFar f).shadow = s.shadow := rfl
@[simp] theorem State.commit_setFar (s : State) (f : Far) : (s.setFar f).commit = s.commit := rfl
@[simp] theorem State.version_setFar (s : State) (f : Far) : (s.setFar f).version = s.version := rfl
@[simp] theorem State.sigOk_setFar (s : State) (f : Far) : (s.setFar f).sigOk = s.sigOk := rfl
@[simp] theorem State.sigKey_setFar (s : State) (f : Far) : (s.setFar f).sigKey = s.sigKey := rfl
@[simp] theorem State.fusedKey_setFar (s : State) (f : Far) : (s.setFar f).fusedKey = s.fusedKey := rfl
@[simp] theorem State.bootFail_setFar (s : State) (f : Far) : (s.setFar f).bootFail = s.bootFail := rfl
@[simp] theorem State.boots_setFar (s : State) (f : Far) : (s.setFar f).boots = s.boots := rfl
@[simp] theorem State.fuses_setFar (s : State) (f : Far) : (s.setFar f).fuses = s.fuses := rfl
@[simp] theorem State.powerLim_setFar (s : State) (f : Far) : (s.setFar f).powerLim = s.powerLim := rfl
@[simp] theorem State.tempLim_setFar (s : State) (f : Far) : (s.setFar f).tempLim = s.tempLim := rfl
@[simp] theorem State.health_setFar (s : State) (f : Far) : (s.setFar f).health = s.health := rfl
@[simp] theorem State.errors_setFar (s : State) (f : Far) : (s.setFar f).errors = s.errors := rfl
@[simp] theorem State.hostSess_setFar (s : State) (f : Far) : (s.setFar f).hostSess = s.hostSess := rfl
@[simp] theorem State.mgmtSess_setFar (s : State) (f : Far) : (s.setFar f).mgmtSess = s.mgmtSess := rfl
@[simp] theorem State.frzHost_setFar (s : State) (f : Far) : (s.setFar f).frzHost = s.frzHost := rfl
@[simp] theorem State.frzMgmt_setFar (s : State) (f : Far) : (s.setFar f).frzMgmt = s.frzMgmt := rfl
@[simp] theorem State.badSram_setFar (s : State) (f : Far) : (s.setFar f).badSram = s.badSram := rfl
@[simp] theorem State.badHalves_setFar (s : State) (f : Far) : (s.setFar f).badHalves = s.badHalves := rfl
@[simp] theorem State.spareRows_setFar (s : State) (f : Far) : (s.setFar f).spareRows = s.spareRows := rfl
@[simp] theorem State.outOf_setFar (s : State) (f : Far) : (s.setFar f).outOf = s.outOf := rfl
@[simp] theorem State.fabricKey_setFar (s : State) (f : Far) : (s.setFar f).fabricKey = s.fabricKey := rfl
@[simp] theorem State.keys_setFar (s : State) (f : Far) : (s.setFar f).keys = s.keys := rfl
@[simp] theorem State.ctrs_setFar (s : State) (f : Far) : (s.setFar f).ctrs = s.ctrs := rfl
@[simp] theorem State.regions_setFar (s : State) (f : Far) : (s.setFar f).regions = s.regions := rfl
@[simp] theorem State.sealed_setFar (s : State) (f : Far) : (s.setFar f).sealed = s.sealed := rfl
@[simp] theorem State.gens_setFar (s : State) (f : Far) : (s.setFar f).gens = s.gens := rfl
@[simp] theorem State.digests_setFar (s : State) (f : Far) : (s.setFar f).digests = s.digests := rfl
@[simp] theorem State.vds_setFar (s : State) (f : Far) : (s.setFar f).vds = s.vds := rfl
@[simp] theorem State.grids_setFar (s : State) (f : Far) : (s.setFar f).grids = s.grids := rfl
@[simp] theorem State.wgs_setFar (s : State) (f : Far) : (s.setFar f).wgs = s.wgs := rfl
@[simp] theorem State.crews_setFar (s : State) (f : Far) : (s.setFar f).crews = s.crews := rfl
@[simp] theorem State.icache_setFar (s : State) (f : Far) : (s.setFar f).icache = s.icache := rfl
@[simp] theorem State.fills_setFar (s : State) (f : Far) : (s.setFar f).fills = s.fills := rfl
@[simp] theorem State.mem_setFar (s : State) (f : Far) : (s.setFar f).mem = s.mem := rfl
@[simp] theorem State.lineKeys_setFar (s : State) (f : Far) : (s.setFar f).lineKeys = s.lineKeys := rfl
@[simp] theorem State.ciphers_setFar (s : State) (f : Far) : (s.setFar f).ciphers = s.ciphers := rfl
@[simp] theorem State.basins_setFar (s : State) (f : Far) : (s.setFar f).basins = s.basins := rfl
@[simp] theorem State.near_setFar (s : State) (f : Far) : (s.setFar f).near = s.near := rfl
@[simp] theorem State.spill_setFar (s : State) (f : Far) : (s.setFar f).spill = s.spill := rfl
@[simp] theorem State.basinOps_setFar (s : State) (f : Far) : (s.setFar f).basinOps = s.basinOps := rfl
@[simp] theorem State.tlbs_setFar (s : State) (f : Far) : (s.setFar f).tlbs = s.tlbs := rfl
@[simp] theorem State.l2s_setFar (s : State) (f : Far) : (s.setFar f).l2s = s.l2s := rfl
@[simp] theorem State.jobs_setFar (s : State) (f : Far) : (s.setFar f).jobs = s.jobs := rfl
@[simp] theorem State.bargeRs_setFar (s : State) (f : Far) : (s.setFar f).bargeRs = s.bargeRs := rfl
@[simp] theorem State.fars_setFar (s : State) (f : Far) : (s.setFar f).fars = s.fars.map (fun (q : Far) => if q.id == f.id then f else q) := rfl
@[simp] theorem State.mats_setFar (s : State) (f : Far) : (s.setFar f).mats = s.mats := rfl
@[simp] theorem State.counts_setFar (s : State) (f : Far) : (s.setFar f).counts = s.counts := rfl
@[simp] theorem State.streams_setFar (s : State) (f : Far) : (s.setFar f).streams = s.streams := rfl
@[simp] theorem State.failed_setFar (s : State) (f : Far) : (s.setFar f).failed = s.failed := rfl
@[simp] theorem State.peerFailed_setFar (s : State) (f : Far) : (s.setFar f).peerFailed = s.peerFailed := rfl
@[simp] theorem State.replays_setFar (s : State) (f : Far) : (s.setFar f).replays = s.replays := rfl
@[simp] theorem State.flits_setFar (s : State) (f : Far) : (s.setFar f).flits = s.flits := rfl
@[simp] theorem State.transit_setFar (s : State) (f : Far) : (s.setFar f).transit = s.transit := rfl
@[simp] theorem State.closed_setFar (s : State) (f : Far) : (s.setFar f).closed = s.closed := rfl
@[simp] theorem State.tokens_setFar (s : State) (f : Far) : (s.setFar f).tokens = s.tokens := rfl
@[simp] theorem State.spareStar_setFar (s : State) (f : Far) : (s.setFar f).spareStar = s.spareStar := rfl
@[simp] theorem State.starDown_setFar (s : State) (f : Far) : (s.setFar f).starDown = s.starDown := rfl
@[simp] theorem State.agenda_setFar (s : State) (f : Far) : (s.setFar f).agenda = s.agenda := rfl
@[simp] theorem State.turns_setFar (s : State) (f : Far) : (s.setFar f).turns = s.turns := rfl
@[simp] theorem State.issue_setFar (s : State) (f : Far) : (s.setFar f).issue = s.issue := rfl
@[simp] theorem State.probed_setFar (s : State) (f : Far) : (s.setFar f).probed = s.probed := rfl
@[simp] theorem State.adminProd_setFar (s : State) (f : Far) : (s.setFar f).adminProd = s.adminProd := rfl
@[simp] theorem State.adminCons_setFar (s : State) (f : Far) : (s.setFar f).adminCons = s.adminCons := rfl
@[simp] theorem State.cmds_setFar (s : State) (f : Far) : (s.setFar f).cmds = s.cmds := rfl
@[simp] theorem State.outs_setFar (s : State) (f : Far) : (s.setFar f).outs = s.outs := rfl
@[simp] theorem State.nextId_setFar (s : State) (f : Far) : (s.setFar f).nextId = s.nextId := rfl

/-! ### setBarge -/

@[simp] theorem State.power_setBarge (s : State) (r : BReq) : (s.setBarge r).power = s.power := rfl
@[simp] theorem State.t_setBarge (s : State) (r : BReq) : (s.setBarge r).t = s.t := rfl
@[simp] theorem State.pkg_setBarge (s : State) (r : BReq) : (s.setBarge r).pkg = s.pkg := rfl
@[simp] theorem State.members_setBarge (s : State) (r : BReq) : (s.setBarge r).members = s.members := rfl
@[simp] theorem State.rotaL_setBarge (s : State) (r : BReq) : (s.setBarge r).rotaL = s.rotaL := rfl
@[simp] theorem State.rotaS_setBarge (s : State) (r : BReq) : (s.setBarge r).rotaS = s.rotaS := rfl
@[simp] theorem State.tenants_setBarge (s : State) (r : BReq) : (s.setBarge r).tenants = s.tenants := rfl
@[simp] theorem State.accepts_setBarge (s : State) (r : BReq) : (s.setBarge r).accepts = s.accepts := rfl
@[simp] theorem State.reqs_setBarge (s : State) (r : BReq) : (s.setBarge r).reqs = s.reqs := rfl
@[simp] theorem State.cpFree_setBarge (s : State) (r : BReq) : (s.setBarge r).cpFree = s.cpFree := rfl
@[simp] theorem State.layout_setBarge (s : State) (r : BReq) : (s.setBarge r).layout = s.layout := rfl
@[simp] theorem State.shadow_setBarge (s : State) (r : BReq) : (s.setBarge r).shadow = s.shadow := rfl
@[simp] theorem State.commit_setBarge (s : State) (r : BReq) : (s.setBarge r).commit = s.commit := rfl
@[simp] theorem State.version_setBarge (s : State) (r : BReq) : (s.setBarge r).version = s.version := rfl
@[simp] theorem State.sigOk_setBarge (s : State) (r : BReq) : (s.setBarge r).sigOk = s.sigOk := rfl
@[simp] theorem State.sigKey_setBarge (s : State) (r : BReq) : (s.setBarge r).sigKey = s.sigKey := rfl
@[simp] theorem State.fusedKey_setBarge (s : State) (r : BReq) : (s.setBarge r).fusedKey = s.fusedKey := rfl
@[simp] theorem State.bootFail_setBarge (s : State) (r : BReq) : (s.setBarge r).bootFail = s.bootFail := rfl
@[simp] theorem State.boots_setBarge (s : State) (r : BReq) : (s.setBarge r).boots = s.boots := rfl
@[simp] theorem State.fuses_setBarge (s : State) (r : BReq) : (s.setBarge r).fuses = s.fuses := rfl
@[simp] theorem State.powerLim_setBarge (s : State) (r : BReq) : (s.setBarge r).powerLim = s.powerLim := rfl
@[simp] theorem State.tempLim_setBarge (s : State) (r : BReq) : (s.setBarge r).tempLim = s.tempLim := rfl
@[simp] theorem State.health_setBarge (s : State) (r : BReq) : (s.setBarge r).health = s.health := rfl
@[simp] theorem State.errors_setBarge (s : State) (r : BReq) : (s.setBarge r).errors = s.errors := rfl
@[simp] theorem State.hostSess_setBarge (s : State) (r : BReq) : (s.setBarge r).hostSess = s.hostSess := rfl
@[simp] theorem State.mgmtSess_setBarge (s : State) (r : BReq) : (s.setBarge r).mgmtSess = s.mgmtSess := rfl
@[simp] theorem State.frzHost_setBarge (s : State) (r : BReq) : (s.setBarge r).frzHost = s.frzHost := rfl
@[simp] theorem State.frzMgmt_setBarge (s : State) (r : BReq) : (s.setBarge r).frzMgmt = s.frzMgmt := rfl
@[simp] theorem State.badSram_setBarge (s : State) (r : BReq) : (s.setBarge r).badSram = s.badSram := rfl
@[simp] theorem State.badHalves_setBarge (s : State) (r : BReq) : (s.setBarge r).badHalves = s.badHalves := rfl
@[simp] theorem State.spareRows_setBarge (s : State) (r : BReq) : (s.setBarge r).spareRows = s.spareRows := rfl
@[simp] theorem State.outOf_setBarge (s : State) (r : BReq) : (s.setBarge r).outOf = s.outOf := rfl
@[simp] theorem State.fabricKey_setBarge (s : State) (r : BReq) : (s.setBarge r).fabricKey = s.fabricKey := rfl
@[simp] theorem State.keys_setBarge (s : State) (r : BReq) : (s.setBarge r).keys = s.keys := rfl
@[simp] theorem State.ctrs_setBarge (s : State) (r : BReq) : (s.setBarge r).ctrs = s.ctrs := rfl
@[simp] theorem State.regions_setBarge (s : State) (r : BReq) : (s.setBarge r).regions = s.regions := rfl
@[simp] theorem State.sealed_setBarge (s : State) (r : BReq) : (s.setBarge r).sealed = s.sealed := rfl
@[simp] theorem State.gens_setBarge (s : State) (r : BReq) : (s.setBarge r).gens = s.gens := rfl
@[simp] theorem State.digests_setBarge (s : State) (r : BReq) : (s.setBarge r).digests = s.digests := rfl
@[simp] theorem State.vds_setBarge (s : State) (r : BReq) : (s.setBarge r).vds = s.vds := rfl
@[simp] theorem State.grids_setBarge (s : State) (r : BReq) : (s.setBarge r).grids = s.grids := rfl
@[simp] theorem State.wgs_setBarge (s : State) (r : BReq) : (s.setBarge r).wgs = s.wgs := rfl
@[simp] theorem State.crews_setBarge (s : State) (r : BReq) : (s.setBarge r).crews = s.crews := rfl
@[simp] theorem State.icache_setBarge (s : State) (r : BReq) : (s.setBarge r).icache = s.icache := rfl
@[simp] theorem State.fills_setBarge (s : State) (r : BReq) : (s.setBarge r).fills = s.fills := rfl
@[simp] theorem State.mem_setBarge (s : State) (r : BReq) : (s.setBarge r).mem = s.mem := rfl
@[simp] theorem State.lineKeys_setBarge (s : State) (r : BReq) : (s.setBarge r).lineKeys = s.lineKeys := rfl
@[simp] theorem State.ciphers_setBarge (s : State) (r : BReq) : (s.setBarge r).ciphers = s.ciphers := rfl
@[simp] theorem State.basins_setBarge (s : State) (r : BReq) : (s.setBarge r).basins = s.basins := rfl
@[simp] theorem State.near_setBarge (s : State) (r : BReq) : (s.setBarge r).near = s.near := rfl
@[simp] theorem State.spill_setBarge (s : State) (r : BReq) : (s.setBarge r).spill = s.spill := rfl
@[simp] theorem State.basinOps_setBarge (s : State) (r : BReq) : (s.setBarge r).basinOps = s.basinOps := rfl
@[simp] theorem State.tlbs_setBarge (s : State) (r : BReq) : (s.setBarge r).tlbs = s.tlbs := rfl
@[simp] theorem State.l2s_setBarge (s : State) (r : BReq) : (s.setBarge r).l2s = s.l2s := rfl
@[simp] theorem State.jobs_setBarge (s : State) (r : BReq) : (s.setBarge r).jobs = s.jobs := rfl
@[simp] theorem State.bargeRs_setBarge (s : State) (r : BReq) : (s.setBarge r).bargeRs = s.bargeRs.map (fun q => if q.id == r.id then r else q) := rfl
@[simp] theorem State.fars_setBarge (s : State) (r : BReq) : (s.setBarge r).fars = s.fars := rfl
@[simp] theorem State.mats_setBarge (s : State) (r : BReq) : (s.setBarge r).mats = s.mats := rfl
@[simp] theorem State.counts_setBarge (s : State) (r : BReq) : (s.setBarge r).counts = s.counts := rfl
@[simp] theorem State.streams_setBarge (s : State) (r : BReq) : (s.setBarge r).streams = s.streams := rfl
@[simp] theorem State.failed_setBarge (s : State) (r : BReq) : (s.setBarge r).failed = s.failed := rfl
@[simp] theorem State.peerFailed_setBarge (s : State) (r : BReq) : (s.setBarge r).peerFailed = s.peerFailed := rfl
@[simp] theorem State.replays_setBarge (s : State) (r : BReq) : (s.setBarge r).replays = s.replays := rfl
@[simp] theorem State.flits_setBarge (s : State) (r : BReq) : (s.setBarge r).flits = s.flits := rfl
@[simp] theorem State.transit_setBarge (s : State) (r : BReq) : (s.setBarge r).transit = s.transit := rfl
@[simp] theorem State.closed_setBarge (s : State) (r : BReq) : (s.setBarge r).closed = s.closed := rfl
@[simp] theorem State.tokens_setBarge (s : State) (r : BReq) : (s.setBarge r).tokens = s.tokens := rfl
@[simp] theorem State.spareStar_setBarge (s : State) (r : BReq) : (s.setBarge r).spareStar = s.spareStar := rfl
@[simp] theorem State.starDown_setBarge (s : State) (r : BReq) : (s.setBarge r).starDown = s.starDown := rfl
@[simp] theorem State.agenda_setBarge (s : State) (r : BReq) : (s.setBarge r).agenda = s.agenda := rfl
@[simp] theorem State.turns_setBarge (s : State) (r : BReq) : (s.setBarge r).turns = s.turns := rfl
@[simp] theorem State.issue_setBarge (s : State) (r : BReq) : (s.setBarge r).issue = s.issue := rfl
@[simp] theorem State.probed_setBarge (s : State) (r : BReq) : (s.setBarge r).probed = s.probed := rfl
@[simp] theorem State.adminProd_setBarge (s : State) (r : BReq) : (s.setBarge r).adminProd = s.adminProd := rfl
@[simp] theorem State.adminCons_setBarge (s : State) (r : BReq) : (s.setBarge r).adminCons = s.adminCons := rfl
@[simp] theorem State.cmds_setBarge (s : State) (r : BReq) : (s.setBarge r).cmds = s.cmds := rfl
@[simp] theorem State.outs_setBarge (s : State) (r : BReq) : (s.setBarge r).outs = s.outs := rfl
@[simp] theorem State.nextId_setBarge (s : State) (r : BReq) : (s.setBarge r).nextId = s.nextId := rfl

/-! ### setUnit -/

@[simp] theorem State.power_setUnit (s : State) (u : MUnit) : (s.setUnit u).power = s.power := by unfold State.setUnit; split <;> rfl
@[simp] theorem State.t_setUnit (s : State) (u : MUnit) : (s.setUnit u).t = s.t := by unfold State.setUnit; split <;> rfl
@[simp] theorem State.pkg_setUnit (s : State) (u : MUnit) : (s.setUnit u).pkg = s.pkg := by unfold State.setUnit; split <;> rfl
@[simp] theorem State.members_setUnit (s : State) (u : MUnit) : (s.setUnit u).members = s.members := by unfold State.setUnit; split <;> rfl
@[simp] theorem State.rotaL_setUnit (s : State) (u : MUnit) : (s.setUnit u).rotaL = s.rotaL := by unfold State.setUnit; split <;> rfl
@[simp] theorem State.rotaS_setUnit (s : State) (u : MUnit) : (s.setUnit u).rotaS = s.rotaS := by unfold State.setUnit; split <;> rfl
@[simp] theorem State.tenants_setUnit (s : State) (u : MUnit) : (s.setUnit u).tenants = s.tenants := by unfold State.setUnit; split <;> rfl
@[simp] theorem State.accepts_setUnit (s : State) (u : MUnit) : (s.setUnit u).accepts = s.accepts := by unfold State.setUnit; split <;> rfl
@[simp] theorem State.reqs_setUnit (s : State) (u : MUnit) : (s.setUnit u).reqs = s.reqs := by unfold State.setUnit; split <;> rfl
@[simp] theorem State.cpFree_setUnit (s : State) (u : MUnit) : (s.setUnit u).cpFree = s.cpFree := by unfold State.setUnit; split <;> rfl
@[simp] theorem State.layout_setUnit (s : State) (u : MUnit) : (s.setUnit u).layout = s.layout := by unfold State.setUnit; split <;> rfl
@[simp] theorem State.shadow_setUnit (s : State) (u : MUnit) : (s.setUnit u).shadow = s.shadow := by unfold State.setUnit; split <;> rfl
@[simp] theorem State.commit_setUnit (s : State) (u : MUnit) : (s.setUnit u).commit = s.commit := by unfold State.setUnit; split <;> rfl
@[simp] theorem State.version_setUnit (s : State) (u : MUnit) : (s.setUnit u).version = s.version := by unfold State.setUnit; split <;> rfl
@[simp] theorem State.sigOk_setUnit (s : State) (u : MUnit) : (s.setUnit u).sigOk = s.sigOk := by unfold State.setUnit; split <;> rfl
@[simp] theorem State.sigKey_setUnit (s : State) (u : MUnit) : (s.setUnit u).sigKey = s.sigKey := by unfold State.setUnit; split <;> rfl
@[simp] theorem State.fusedKey_setUnit (s : State) (u : MUnit) : (s.setUnit u).fusedKey = s.fusedKey := by unfold State.setUnit; split <;> rfl
@[simp] theorem State.bootFail_setUnit (s : State) (u : MUnit) : (s.setUnit u).bootFail = s.bootFail := by unfold State.setUnit; split <;> rfl
@[simp] theorem State.boots_setUnit (s : State) (u : MUnit) : (s.setUnit u).boots = s.boots := by unfold State.setUnit; split <;> rfl
@[simp] theorem State.fuses_setUnit (s : State) (u : MUnit) : (s.setUnit u).fuses = s.fuses := by unfold State.setUnit; split <;> rfl
@[simp] theorem State.powerLim_setUnit (s : State) (u : MUnit) : (s.setUnit u).powerLim = s.powerLim := by unfold State.setUnit; split <;> rfl
@[simp] theorem State.tempLim_setUnit (s : State) (u : MUnit) : (s.setUnit u).tempLim = s.tempLim := by unfold State.setUnit; split <;> rfl
@[simp] theorem State.health_setUnit (s : State) (u : MUnit) : (s.setUnit u).health = s.health := by unfold State.setUnit; split <;> rfl
@[simp] theorem State.errors_setUnit (s : State) (u : MUnit) : (s.setUnit u).errors = s.errors := by unfold State.setUnit; split <;> rfl
@[simp] theorem State.hostSess_setUnit (s : State) (u : MUnit) : (s.setUnit u).hostSess = s.hostSess := by unfold State.setUnit; split <;> rfl
@[simp] theorem State.mgmtSess_setUnit (s : State) (u : MUnit) : (s.setUnit u).mgmtSess = s.mgmtSess := by unfold State.setUnit; split <;> rfl
@[simp] theorem State.frzHost_setUnit (s : State) (u : MUnit) : (s.setUnit u).frzHost = s.frzHost := by unfold State.setUnit; split <;> rfl
@[simp] theorem State.frzMgmt_setUnit (s : State) (u : MUnit) : (s.setUnit u).frzMgmt = s.frzMgmt := by unfold State.setUnit; split <;> rfl
@[simp] theorem State.badSram_setUnit (s : State) (u : MUnit) : (s.setUnit u).badSram = s.badSram := by unfold State.setUnit; split <;> rfl
@[simp] theorem State.badHalves_setUnit (s : State) (u : MUnit) : (s.setUnit u).badHalves = s.badHalves := by unfold State.setUnit; split <;> rfl
@[simp] theorem State.spareRows_setUnit (s : State) (u : MUnit) : (s.setUnit u).spareRows = s.spareRows := by unfold State.setUnit; split <;> rfl
@[simp] theorem State.outOf_setUnit (s : State) (u : MUnit) : (s.setUnit u).outOf = s.outOf := by unfold State.setUnit; split <;> rfl
@[simp] theorem State.fabricKey_setUnit (s : State) (u : MUnit) : (s.setUnit u).fabricKey = s.fabricKey := by unfold State.setUnit; split <;> rfl
@[simp] theorem State.keys_setUnit (s : State) (u : MUnit) : (s.setUnit u).keys = s.keys := by unfold State.setUnit; split <;> rfl
@[simp] theorem State.ctrs_setUnit (s : State) (u : MUnit) : (s.setUnit u).ctrs = s.ctrs := by unfold State.setUnit; split <;> rfl
@[simp] theorem State.regions_setUnit (s : State) (u : MUnit) : (s.setUnit u).regions = s.regions := by unfold State.setUnit; split <;> rfl
@[simp] theorem State.sealed_setUnit (s : State) (u : MUnit) : (s.setUnit u).sealed = s.sealed := by unfold State.setUnit; split <;> rfl
@[simp] theorem State.gens_setUnit (s : State) (u : MUnit) : (s.setUnit u).gens = s.gens := by unfold State.setUnit; split <;> rfl
@[simp] theorem State.digests_setUnit (s : State) (u : MUnit) : (s.setUnit u).digests = s.digests := by unfold State.setUnit; split <;> rfl
@[simp] theorem State.vds_setUnit (s : State) (u : MUnit) : (s.setUnit u).vds = s.vds := by unfold State.setUnit; split <;> rfl
@[simp] theorem State.grids_setUnit (s : State) (u : MUnit) : (s.setUnit u).grids = s.grids := by unfold State.setUnit; split <;> rfl
@[simp] theorem State.wgs_setUnit (s : State) (u : MUnit) : (s.setUnit u).wgs = s.wgs := by unfold State.setUnit; split <;> rfl
@[simp] theorem State.crews_setUnit (s : State) (u : MUnit) : (s.setUnit u).crews = s.crews := by unfold State.setUnit; split <;> rfl
@[simp] theorem State.icache_setUnit (s : State) (u : MUnit) : (s.setUnit u).icache = s.icache := by unfold State.setUnit; split <;> rfl
@[simp] theorem State.fills_setUnit (s : State) (u : MUnit) : (s.setUnit u).fills = s.fills := by unfold State.setUnit; split <;> rfl
@[simp] theorem State.mem_setUnit (s : State) (u : MUnit) : (s.setUnit u).mem = s.mem := by unfold State.setUnit; split <;> rfl
@[simp] theorem State.lineKeys_setUnit (s : State) (u : MUnit) : (s.setUnit u).lineKeys = s.lineKeys := by unfold State.setUnit; split <;> rfl
@[simp] theorem State.ciphers_setUnit (s : State) (u : MUnit) : (s.setUnit u).ciphers = s.ciphers := by unfold State.setUnit; split <;> rfl
@[simp] theorem State.basins_setUnit (s : State) (u : MUnit) : (s.setUnit u).basins = s.basins := by unfold State.setUnit; split <;> rfl
@[simp] theorem State.near_setUnit (s : State) (u : MUnit) : (s.setUnit u).near = s.near := by unfold State.setUnit; split <;> rfl
@[simp] theorem State.spill_setUnit (s : State) (u : MUnit) : (s.setUnit u).spill = s.spill := by unfold State.setUnit; split <;> rfl
@[simp] theorem State.basinOps_setUnit (s : State) (u : MUnit) : (s.setUnit u).basinOps = s.basinOps := by unfold State.setUnit; split <;> rfl
@[simp] theorem State.tlbs_setUnit (s : State) (u : MUnit) : (s.setUnit u).tlbs = s.tlbs := by unfold State.setUnit; split <;> rfl
@[simp] theorem State.l2s_setUnit (s : State) (u : MUnit) : (s.setUnit u).l2s = s.l2s := by unfold State.setUnit; split <;> rfl
@[simp] theorem State.jobs_setUnit (s : State) (u : MUnit) : (s.setUnit u).jobs = s.jobs := by unfold State.setUnit; split <;> rfl
@[simp] theorem State.bargeRs_setUnit (s : State) (u : MUnit) : (s.setUnit u).bargeRs = s.bargeRs := by unfold State.setUnit; split <;> rfl
@[simp] theorem State.fars_setUnit (s : State) (u : MUnit) : (s.setUnit u).fars = s.fars := by unfold State.setUnit; split <;> rfl
@[simp] theorem State.counts_setUnit (s : State) (u : MUnit) : (s.setUnit u).counts = s.counts := by unfold State.setUnit; split <;> rfl
@[simp] theorem State.streams_setUnit (s : State) (u : MUnit) : (s.setUnit u).streams = s.streams := by unfold State.setUnit; split <;> rfl
@[simp] theorem State.failed_setUnit (s : State) (u : MUnit) : (s.setUnit u).failed = s.failed := by unfold State.setUnit; split <;> rfl
@[simp] theorem State.peerFailed_setUnit (s : State) (u : MUnit) : (s.setUnit u).peerFailed = s.peerFailed := by unfold State.setUnit; split <;> rfl
@[simp] theorem State.replays_setUnit (s : State) (u : MUnit) : (s.setUnit u).replays = s.replays := by unfold State.setUnit; split <;> rfl
@[simp] theorem State.flits_setUnit (s : State) (u : MUnit) : (s.setUnit u).flits = s.flits := by unfold State.setUnit; split <;> rfl
@[simp] theorem State.transit_setUnit (s : State) (u : MUnit) : (s.setUnit u).transit = s.transit := by unfold State.setUnit; split <;> rfl
@[simp] theorem State.closed_setUnit (s : State) (u : MUnit) : (s.setUnit u).closed = s.closed := by unfold State.setUnit; split <;> rfl
@[simp] theorem State.tokens_setUnit (s : State) (u : MUnit) : (s.setUnit u).tokens = s.tokens := by unfold State.setUnit; split <;> rfl
@[simp] theorem State.spareStar_setUnit (s : State) (u : MUnit) : (s.setUnit u).spareStar = s.spareStar := by unfold State.setUnit; split <;> rfl
@[simp] theorem State.starDown_setUnit (s : State) (u : MUnit) : (s.setUnit u).starDown = s.starDown := by unfold State.setUnit; split <;> rfl
@[simp] theorem State.agenda_setUnit (s : State) (u : MUnit) : (s.setUnit u).agenda = s.agenda := by unfold State.setUnit; split <;> rfl
@[simp] theorem State.turns_setUnit (s : State) (u : MUnit) : (s.setUnit u).turns = s.turns := by unfold State.setUnit; split <;> rfl
@[simp] theorem State.issue_setUnit (s : State) (u : MUnit) : (s.setUnit u).issue = s.issue := by unfold State.setUnit; split <;> rfl
@[simp] theorem State.probed_setUnit (s : State) (u : MUnit) : (s.setUnit u).probed = s.probed := by unfold State.setUnit; split <;> rfl
@[simp] theorem State.adminProd_setUnit (s : State) (u : MUnit) : (s.setUnit u).adminProd = s.adminProd := by unfold State.setUnit; split <;> rfl
@[simp] theorem State.adminCons_setUnit (s : State) (u : MUnit) : (s.setUnit u).adminCons = s.adminCons := by unfold State.setUnit; split <;> rfl
@[simp] theorem State.cmds_setUnit (s : State) (u : MUnit) : (s.setUnit u).cmds = s.cmds := by unfold State.setUnit; split <;> rfl
@[simp] theorem State.outs_setUnit (s : State) (u : MUnit) : (s.setUnit u).outs = s.outs := by unfold State.setUnit; split <;> rfl
@[simp] theorem State.nextId_setUnit (s : State) (u : MUnit) : (s.setUnit u).nextId = s.nextId := by unfold State.setUnit; split <;> rfl

end Sys2Proof.Machine
end

