-- ==== Sys2Proof/Laws/Words.lean ====
section
/-! SUPPORT. What the shared word operations do, once each: `word`, and the forms whose result is a register, a pair or a predicate of each
active lane. -/
namespace Sys2Proof.Machine
open Sys2Proof

/-! ### Lanes of a mask -/

theorem lanesOf_nodup (m : BitVec 8) : (lanesOf m).Nodup := List.Nodup.filter _ List.nodup_range

theorem mem_lanesOf {m : BitVec 8} {l : Nat} : l ∈ lanesOf m ↔ l < 8 ∧ m.getLsbD l = true := by simp [lanesOf]

theorem activeLanes_nodup (h : Hdr) (k : Crew) (p : BitVec 8) : (activeLanes h k p).Nodup := List.Nodup.filter _ (lanesOf_nodup p)

theorem activeLanes_sub {h : Hdr} {k : Crew} {p : BitVec 8} {l : Nat} (m : l ∈ activeLanes h k p) : l ∈ lanesOf p := (List.mem_filter.mp m).1

/-! ### Crews and lanes after an update -/

theorem State.crew_setCrew (s : State) (c d : Nat) (k : Crew) :
    (s.setCrew c k).crew d = if d = c ∧ c < s.crews.length then k else s.crew d := by
  unfold State.setCrew State.crew
  by_cases hd : d = c
  · subst hd
    by_cases hl : d < s.crews.length
    · simp [hl]
    · simp [hl, List.getD_eq_getElem?_getD]
  · simp [hd, List.getD_eq_getElem?_getD, Ne.symm hd]

theorem State.crew_setCrew_self {s : State} {c : Nat} (k : Crew) (h : c < s.crews.length) : (s.setCrew c k).crew c = k := by
  simp [State.crew_setCrew, h]

theorem State.crew_setCrew_ne {s : State} {c d : Nat} (k : Crew) (h : d ≠ c) : (s.setCrew c k).crew d = s.crew d := by
  simp [State.crew_setCrew, h]

@[simp] theorem Crew.setLane_lanes_length (k : Crew) (l : Nat) (x : Lane) : (k.setLane l x).lanes.length = k.lanes.length := by
  simp [Crew.setLane]

theorem Crew.lane_setLane (k : Crew) (l m : Nat) (x : Lane) :
    (k.setLane l x).lane m = if m = l ∧ l < k.lanes.length then x else k.lane m := by
  unfold Crew.setLane Crew.lane
  by_cases hd : m = l
  · subst hd
    by_cases hl : m < k.lanes.length
    · simp [hl]
    · simp [hl, List.getD_eq_getElem?_getD]
  · simp [hd, List.getD_eq_getElem?_getD, Ne.symm hd]

/-- Only the lanes of a crew change. -/
theorem Crew.setLane_frame (k : Crew) (l : Nat) (x : Lane) : k.setLane l x = { k with lanes := (k.setLane l x).lanes } := rfl

/-- A change of each lane of a list: the crew's other fields stay. -/
theorem Crew.foldl_setLane_frame (f : Crew → Nat → Lane) (ls : List Nat) (k : Crew) :
    ls.foldl (fun k l => k.setLane l (f k l)) k = { k with lanes := (ls.foldl (fun k l => k.setLane l (f k l)) k).lanes } := by
  induction ls generalizing k with
  | nil => rfl
  | cons l r ih =>
    simp only [List.foldl_cons]
    rw [ih]
    rfl

theorem Crew.onLanes_frame (k : Crew) (act : List Nat) (f : Nat → Lane → Lane) : k.onLanes act f = { k with lanes := (k.onLanes act f).lanes } :=
  Crew.foldl_setLane_frame (fun k l => f l (k.lane l)) act k

theorem Crew.onLanes_length (k : Crew) (act : List Nat) (f : Nat → Lane → Lane) : (k.onLanes act f).lanes.length = k.lanes.length := by
  unfold Crew.onLanes
  induction act generalizing k with
  | nil => rfl
  | cons l r ih => simp only [List.foldl_cons]; rw [ih]; simp

/-- Each lane of the list has changed once, and no other lane has. -/
theorem Crew.lane_onLanes (f : Nat → Lane → Lane) {act : List Nat} (hn : act.Nodup) :
    ∀ k : Crew, (∀ l ∈ act, l < k.lanes.length) → ∀ m, (k.onLanes act f).lane m = if m ∈ act then f m (k.lane m) else k.lane m := by
  induction act with
  | nil => intro k _ m; simp [Crew.onLanes]
  | cons l r ih =>
    intro k hk m
    have hl : l ∉ r := (List.nodup_cons.mp hn).1
    have step : k.onLanes (l :: r) f = (k.setLane l (f l (k.lane l))).onLanes r f := rfl
    rw [step, ih (List.nodup_cons.mp hn).2 _ (by intro j hj; simpa using hk j (by simp [hj])), Crew.lane_setLane]
    have hlk : l < k.lanes.length := hk l (by simp)
    by_cases hm : m = l
    · subst hm; simp [hl, hlk]
    · simp [hm]

theorem Crew.lanes_frame {x y k : Crew} (hx : ∃ ls, x = { y with lanes := ls }) (hy : ∃ ls, y = { k with lanes := ls }) :
    x = { k with lanes := x.lanes } := by
  obtain ⟨ls, rfl⟩ := hx
  obtain ⟨ms, rfl⟩ := hy
  rfl

/-! ### Issuing -/

theorem Crew.lane_issuePath {k : Crew} (hk : k.lanes.length = 8) (p : BitVec 8) (m : Nat) :
    (k.issuePath p).lane m = if m ∈ lanesOf p then (k.lane m).issueOne else k.lane m := by
  have := Crew.lane_onLanes (fun _ x => x.issueOne) (lanesOf_nodup p) k (by intro l hl; rw [hk]; exact (mem_lanesOf.mp hl).1) m
  exact this

theorem Crew.issuePath_frame (k : Crew) (p : BitVec 8) : k.issuePath p = { k with lanes := (k.issuePath p).lanes } :=
  Crew.onLanes_frame k (lanesOf p) (fun _ x => x.issueOne)

theorem Crew.onLanes_issuePath_frame (k : Crew) (p : BitVec 8) (act : List Nat) (f : Nat → Lane → Lane) :
    (k.issuePath p).onLanes act f = { k with lanes := ((k.issuePath p).onLanes act f).lanes } :=
  Crew.lanes_frame (y := k.issuePath p) ⟨_, Crew.onLanes_frame (k.issuePath p) act f⟩ ⟨_, Crew.issuePath_frame k p⟩

theorem Crew.issuePath_length (k : Crew) (p : BitVec 8) : (k.issuePath p).lanes.length = k.lanes.length :=
  Crew.onLanes_length k (lanesOf p) (fun _ x => x.issueOne)

@[simp] theorem State.issueWord_cur (s : State) (is : Issue) : (s.issueWord is).cur = is.crew := rfl
theorem State.issueWord_crews (s : State) (is : Issue) : (s.issueWord is).crews = s.crews.set is.crew ((s.crew is.crew).issuePath is.path) := rfl

/-- The state in which a word's own effect begins, without its effect on the lanes: what it reads and what it keeps. -/
theorem State.issueWord_frame (s : State) (is : Issue) : s.issueWord is = { s with
    crews := (s.issueWord is).crews, issue := some { is with issued := is.issued ||| is.path, spent := true } } := rfl

theorem State.issueWord_crew {s : State} {is : Issue} (hc : is.crew < s.crews.length) :
    (s.issueWord is).crew is.crew = (s.crew is.crew).issuePath is.path := State.crew_setCrew_self (s := s) _ hc

theorem State.issueWord_crew_ne {s : State} {is : Issue} {c : Nat} (hc : c ≠ is.crew) : (s.issueWord is).crew c = s.crew c :=
  State.crew_setCrew_ne (s := s) _ hc

theorem operand_eq (s : State) (is : Issue) (f l : Nat) (r : BitVec 8) : rd (s.issueWord is) (s.crew is.crew) f l r = s.operand is f l r := rfl
theorem operand64_eq (s : State) (is : Issue) (f l : Nat) (r : BitVec 8) : rd64 (s.issueWord is) (s.crew is.crew) f l r = s.operand64 is f l r := rfl

/-! ### `word` -/

/-- No lane's guard is in error. -/
theorem Ready.guarded {s : State} {is : Issue} {h : Hdr} {n : Needs} (r : Ready s is h n) :
    (lanesOf is.path).find? (fun l => s.predBad is.crew l [h.g]) = none := by
  rw [List.find?_eq_none]; intro l hl; simp [r.guard l hl]

/-- A word whose effect comes about. -/
theorem word_ok {s s' : State} {is : Issue} {h : Hdr} {n : Needs} {body : State → Crew → List Nat → Eff} (r : Ready s is h n)
    (ha : s.acting is h ≠ []) (hb : body (s.issueWord is) (s.crew is.crew) (s.acting is h) = .ok s') :
    word h n body s = .next (s'.mend is.crew (s.acting is h) n) := by
  have hf : (activeLanes h (s.crew is.crew) is.path).find? (fun l => s.readBad is.crew l n) = none := by
    rw [List.find?_eq_none]; intro l hl; simp [r.sound l hl]
  have ha' : (activeLanes h (s.crew is.crew) is.path).isEmpty = false := by
    cases hx : activeLanes h (s.crew is.crew) is.path with
    | nil => exact absurd hx ha
    | cons a b => rfl
  simp only [State.acting] at hb
  simp only [word, r.turn, r.passes, r.guarded, ha', hb, hf, State.acting, Bool.false_eq_true, if_false]

/-- A word that traps. -/
theorem word_trap {s : State} {is : Issue} {h : Hdr} {n : Needs} {body : State → Crew → List Nat → Eff} {c : BitVec 8} {info : DWord}
    (r : Ready s is h n) (ha : s.acting is h ≠ []) (hb : body (s.issueWord is) (s.crew is.crew) (s.acting is h) = .trap c info) :
    word h n body s = .next (s.trapPath is c info) := by
  have ha' : (activeLanes h (s.crew is.crew) is.path).isEmpty = false := by
    cases hx : activeLanes h (s.crew is.crew) is.path with
    | nil => exact absurd hx ha
    | cons a b => rfl
  simp only [State.acting] at hb
  simp only [word, r.turn, r.passes, r.guarded, ha', hb, Bool.false_eq_true, if_false]

/-- A word that waits. -/
theorem word_wait {s : State} {is : Issue} {h : Hdr} {n : Needs} {body : State → Crew → List Nat → Eff} {st : LaneSt}
    (r : Ready s is h n) (ha : s.acting is h ≠ []) (hb : body (s.issueWord is) (s.crew is.crew) (s.acting is h) = .wait st) :
    word h n body s = .next (s.holdPath is st) := by
  have ha' : (activeLanes h (s.crew is.crew) is.path).isEmpty = false := by
    cases hx : activeLanes h (s.crew is.crew) is.path with
    | nil => exact absurd hx ha
    | cons a b => rfl
  simp only [State.acting] at hb
  simp only [word, r.turn, r.passes, r.guarded, ha', hb, Bool.false_eq_true, if_false]

/-- A word without an active lane only advances (R120). -/
theorem word_idle {s : State} {is : Issue} {h : Hdr} {n : Needs} (body : State → Crew → List Nat → Eff) (ht : s.issue = some is)
    (hp : n.check (s.crew is.crew) (s.gridOf is.crew).regs = none) (hg : ∀ l ∈ lanesOf is.path, s.predBad is.crew l [h.g] = false) (ha : s.acting is h = []) :
    word h n body s = .next (s.issueWord is) := by
  have hf : (lanesOf is.path).find? (fun l => s.predBad is.crew l [h.g]) = none := by
    rw [List.find?_eq_none]; intro l hl; simp [hg l hl]
  simp only [State.acting] at ha
  simp only [word, ht, hp, hf, ha, List.isEmpty_nil, if_true]

/-- A word whose encoding class does not pass (R95). -/
theorem word_illegal {s : State} {is : Issue} {h : Hdr} {n : Needs} (body : State → Crew → List Nat → Eff) {c : BitVec 8} (ht : s.issue = some is)
    (hp : n.check (s.crew is.crew) (s.gridOf is.crew).regs = some c) : word h n body s = .next (s.trapPath is c 0) := by
  simp only [word, ht, hp]

theorem State.badSram_filter_self (s : State) (p : ErrSite → Bool) (h : ∀ e, p e = true) : { s with badSram := s.badSram.filter p } = s := by
  rw [List.filter_eq_self.mpr (fun e _ => h e)]

/-! ### Mending -/

theorem State.mendRegs_frame (s : State) (c : Nat) (act : List Nat) (rs : List (BitVec 8 × Nat)) :
    s.mendRegs c act rs = { s with badSram := (s.mendRegs c act rs).badSram } := by
  unfold State.mendRegs
  split <;> rfl

theorem State.mendPreds_frame (s : State) (c : Nat) (hit : Nat → BitVec 4 → Bool) :
    s.mendPreds c hit = { s with badSram := (s.mendPreds c hit).badSram } := by
  unfold State.mendPreds
  split <;> rfl

theorem State.mendRegs_sub {s : State} {c : Nat} {act : List Nat} {rs : List (BitVec 8 × Nat)} {e : ErrSite}
    (h : e ∈ (s.mendRegs c act rs).badSram) : e ∈ s.badSram := by
  unfold State.mendRegs at h
  split at h
  · exact h
  · exact (List.mem_filter.mp h).1

theorem State.mendPreds_sub {s : State} {c : Nat} {hit : Nat → BitVec 4 → Bool} {e : ErrSite} (h : e ∈ (s.mendPreds c hit).badSram) : e ∈ s.badSram := by
  unfold State.mendPreds at h
  split at h
  · exact h
  · exact (List.mem_filter.mp h).1

/-- An error that a register's mending takes away lay in a register of a lane of the list. -/
theorem State.mendRegs_mended {s : State} {c : Nat} {act : List Nat} {rs : List (BitVec 8 × Nat)} {e : ErrSite} (he : e ∈ s.badSram) :
    e ∈ (s.mendRegs c act rs).badSram ∨ ∃ l ∈ act, ∃ r, e = .reg c l r := by
  by_cases hk : ∃ l ∈ act, ∃ r, e = .reg c l r
  · exact .inr hk
  refine .inl ?_
  unfold State.mendRegs
  split
  · exact he
  refine List.mem_filter.mpr ⟨he, ?_⟩
  split
  · next c' l r =>
    by_cases hc : c' = c
    · by_cases hl : l ∈ act
      · exact absurd ⟨l, hl, r, by rw [hc]⟩ hk
      · simp [hl]
    · simp [hc]
  · rfl

/-- An error that a predicate's mending takes away lay in a predicate that the mending hits. -/
theorem State.mendPreds_mended {s : State} {c : Nat} {hit : Nat → BitVec 4 → Bool} {e : ErrSite} (he : e ∈ s.badSram) :
    e ∈ (s.mendPreds c hit).badSram ∨ ∃ l p, e = .pred c l p ∧ hit l (BitVec.ofNat 4 p) = true := by
  by_cases hk : ∃ l p, e = .pred c l p ∧ hit l (BitVec.ofNat 4 p) = true
  · exact .inr hk
  refine .inl ?_
  unfold State.mendPreds
  split
  · exact he
  refine List.mem_filter.mpr ⟨he, ?_⟩
  split
  · next c' l p =>
    by_cases hc : c' = c
    · by_cases hl : hit l (BitVec.ofNat 4 p) = true
      · exact absurd ⟨l, p, by rw [hc], hl⟩ hk
      · simp [hl]
    · simp [hc]
  · rfl

/-- Mending leaves everything but the errors. -/
theorem State.mend_frame (s : State) (c : Nat) (act : List Nat) (n : Needs) : s.mend c act n = { s with badSram := (s.mend c act n).badSram } := by
  unfold State.mend
  rw [State.mendPreds_frame, State.mendRegs_frame]

/-- No error comes by it. -/
theorem State.mend_sub {s : State} {c : Nat} {act : List Nat} {n : Needs} {e : ErrSite} (h : e ∈ (s.mend c act n).badSram) : e ∈ s.badSram :=
  State.mendRegs_sub (State.mendPreds_sub h)

/-- An error that is gone lay in a register or a predicate of a lane of the list. -/
theorem State.mend_mended {s : State} {c : Nat} {act : List Nat} {n : Needs} {e : ErrSite} (he : e ∈ s.badSram) :
    e ∈ (s.mend c act n).badSram ∨ ∃ l ∈ act, (∃ r, e = .reg c l r) ∨ ∃ p, e = .pred c l p := by
  rcases State.mendRegs_mended (c := c) (act := act) (rs := n.dst) he with h | ⟨l, hl, r, h⟩
  · rcases State.mendPreds_mended (c := c) (hit := fun l p => act.contains l && n.pdst.contains p) h with h | ⟨l, p, rfl, hp⟩
    · exact .inl h
    · simp only [Bool.and_eq_true, List.contains_iff_mem] at hp
      exact .inr ⟨l, hp.1, .inr ⟨p, rfl⟩⟩
  · exact .inr ⟨l, hl, .inl ⟨r, h⟩⟩

/-- With no active lane there is nothing to mend. -/
theorem State.mend_nil (s : State) (c : Nat) (n : Needs) : s.mend c [] n = s := by
  by_cases hb : s.badSram.isEmpty = true
  · simp [State.mend, State.mendPreds, State.mendRegs, hb]
  · have h : s.mendRegs c [] n.dst = s := by
      simp only [State.mendRegs, hb, Bool.false_eq_true, if_false]
      exact State.badSram_filter_self s _ (by intro e; cases e <;> simp)
    simp only [State.mend, h, State.mendPreds, hb, Bool.false_eq_true, if_false]
    exact State.badSram_filter_self s _ (by intro e; cases e <;> simp)

theorem State.updCur_frame (s : State) (f : Crew → Crew) : s.updCur f = { s with crews := (s.updCur f).crews } := rfl

theorem State.mend_rest {s u w : State} {i : Option Issue} (hu : ∃ cs, u = { w with crews := cs }) (hw : ∃ cs, w = { s with crews := cs, issue := i }) (c : Nat)
    (act : List Nat) (n : Needs) : u.mend c act n = { s with crews := (u.mend c act n).crews, badSram := (u.mend c act n).badSram, issue := i } := by
  obtain ⟨b, hb⟩ : ∃ b, u.mend c act n = { u with badSram := b } := ⟨_, State.mend_frame u c act n⟩
  rw [hb]
  clear hb
  obtain ⟨cs, rfl⟩ := hw
  obtain ⟨ds, rfl⟩ := hu
  rfl

/-- The rest of the package after a word that changes its active lanes. -/
theorem State.updCur_rest (s : State) (is : Issue) (f : Crew → Crew) (act : List Nat) (n : Needs) :
    ((s.issueWord is).updCur f).mend is.crew act n = { s with
      crews := (((s.issueWord is).updCur f).mend is.crew act n).crews
      badSram := (((s.issueWord is).updCur f).mend is.crew act n).badSram
      issue := some { is with issued := is.issued ||| is.path, spent := true } } :=
  State.mend_rest ⟨_, State.updCur_frame _ f⟩ ⟨_, State.issueWord_frame s is⟩ is.crew act n

/-- What `LanesOnly` asks, for a word that changes its active lanes by f. -/
theorem LanesOnly.of_onLanes {s : State} {is : Issue} {h : Hdr} {n : Needs} (r : Ready s is h n) (f : Nat → Lane → Lane)
    (R : Nat → Lane → Lane → Prop) (hR : ∀ l ∈ s.acting is h, R l ((s.crew is.crew).lane l).issueOne (f l ((s.crew is.crew).lane l).issueOne)) :
    LanesOnly s (((s.issueWord is).updCur (fun k => k.onLanes (s.acting is h) f)).mend is.crew (s.acting is h) n) is (s.acting is h) R := by
  have hk : (s.crew is.crew).lanes.length = 8 := r.shaped.lanes
  have hlen : ((s.crew is.crew).issuePath is.path).lanes.length = 8 := by rw [Crew.issuePath_length, hk]
  have hsub : ∀ l ∈ s.acting is h, l ∈ lanesOf is.path := fun l hl => activeLanes_sub hl
  have hlt : ∀ l ∈ s.acting is h, l < ((s.crew is.crew).issuePath is.path).lanes.length := by
    intro l hl; rw [hlen]; exact (mem_lanesOf.mp (hsub l hl)).1
  have hcrews : ∀ c, ((((s.issueWord is).updCur (fun k => k.onLanes (s.acting is h) f)).mend is.crew (s.acting is h) n)).crew c =
      ((s.issueWord is).updCur (fun k => k.onLanes (s.acting is h) f)).crew c := by
    intro c; rw [State.mend_frame]; rfl
  have hme : ((s.issueWord is).updCur (fun k => k.onLanes (s.acting is h) f)).crew is.crew =
      ((s.crew is.crew).issuePath is.path).onLanes (s.acting is h) f := by
    simp only [State.updCur, State.issueWord_cur]
    rw [State.crew_setCrew_self]
    · rw [State.issueWord_crew r.resident]
    · simpa [State.issueWord_crews] using r.resident
  have hlane : ∀ m, (((s.crew is.crew).issuePath is.path).onLanes (s.acting is h) f).lane m =
      if m ∈ s.acting is h then f m (((s.crew is.crew).issuePath is.path).lane m) else ((s.crew is.crew).issuePath is.path).lane m :=
    Crew.lane_onLanes f (activeLanes_nodup h _ _) _ hlt
  refine ⟨?_, ⟨?_, ?_, ?_, ?_⟩, ⟨?_, ?_⟩, ?_⟩
  · intro l hl
    rw [hcrews, hme, hlane, if_pos hl, Crew.lane_issuePath hk, if_pos (hsub l hl)]
    exact hR l hl
  · intro l hl hn hp
    rw [hcrews, hme, hlane, if_neg hn, Crew.lane_issuePath hk, if_pos (mem_lanesOf.mpr ⟨hl, hp⟩)]
  · intro l hp
    have hnp : l ∉ lanesOf is.path := by intro hm; rw [mem_lanesOf, hp] at hm; exact absurd hm.2 (by simp)
    rw [hcrews, hme, hlane, if_neg (fun hm => hnp (hsub l hm)), Crew.lane_issuePath hk, if_neg hnp]
  · rw [hcrews, hme]; exact Crew.onLanes_issuePath_frame _ _ _ _
  · intro c hc
    rw [hcrews]
    simp only [State.updCur, State.issueWord_cur]
    rw [State.crew_setCrew_ne _ hc, State.issueWord_crew_ne hc]
  · intro e he
    have hu := State.mend_sub he
    exact hu
  · intro e he
    have hu : e ∈ ((s.issueWord is).updCur (fun k => k.onLanes (s.acting is h) f)).badSram := he
    exact State.mend_mended hu
  · exact State.updCur_rest s is _ _ _

/-- What the active lanes do may be said more weakly. -/
theorem LanesOnly.mono {s t : State} {is : Issue} {act : List Nat} {R Q : Nat → Lane → Lane → Prop} (k : LanesOnly s t is act R)
    (h : ∀ l ∈ act, ∀ x y, R l x y → Q l x y) : LanesOnly s t is act Q := ⟨fun l hl => h l hl _ _ (k.active l hl), k.frame, k.errors, k.rest⟩

/-- A result is as good as one equal to it. -/
theorem GivesReg.of_eq {i : Instr} {s : State} {is : Issue} {h : Hdr} {d : BitVec 8} {v w : Nat → Word} (k : GivesReg i s is h d v)
    (e : ∀ l ∈ s.acting is h, v l = w l) : GivesReg i s is h d w := by
  obtain ⟨t, ht, hl⟩ := k
  exact ⟨t, ht, hl.mono (fun l hl x y q => e l hl ▸ q)⟩

theorem GivesPair.of_eq {i : Instr} {s : State} {is : Issue} {h : Hdr} {d : BitVec 8} {v w : Nat → DWord} (k : GivesPair i s is h d v)
    (e : ∀ l ∈ s.acting is h, v l = w l) : GivesPair i s is h d w := by
  obtain ⟨t, ht, hl⟩ := k
  exact ⟨t, ht, hl.mono (fun l hl x y q => e l hl ▸ q)⟩

theorem GivesPred.of_eq {i : Instr} {s : State} {is : Issue} {h : Hdr} {p : BitVec 4} {v w : Nat → Bool} (k : GivesPred i s is h p v)
    (e : ∀ l ∈ s.acting is h, v l = w l) : GivesPred i s is h p w := by
  obtain ⟨t, ht, hl⟩ := k
  exact ⟨t, ht, hl.mono (fun l hl x y q => e l hl ▸ q)⟩

/-- A word that changes its active lanes by f, active lanes or none. -/
theorem word_lanes {s : State} {is : Issue} {h : Hdr} {n : Needs} {body : State → Crew → List Nat → Eff} (r : Ready s is h n)
    (f : Nat → Lane → Lane) (R : Nat → Lane → Lane → Prop)
    (hb : body (s.issueWord is) (s.crew is.crew) (s.acting is h) = .ok ((s.issueWord is).updCur (fun k => k.onLanes (s.acting is h) f)))
    (hR : ∀ l ∈ s.acting is h, R l ((s.crew is.crew).lane l).issueOne (f l ((s.crew is.crew).lane l).issueOne)) :
    ∃ t, word h n body s = .next t ∧ LanesOnly s t is (s.acting is h) R := by
  by_cases ha : s.acting is h = []
  · refine ⟨s.issueWord is, word_idle body r.turn r.passes r.guard ha, ?_⟩
    have hz := LanesOnly.of_onLanes r f R hR
    rw [ha] at hz ⊢
    have e1 : (s.issueWord is).updCur (fun k => k.onLanes [] f) = s.issueWord is := by
      simp only [State.updCur, Crew.onLanes, List.foldl_nil, State.issueWord_cur, State.setCrew]
      rw [State.issueWord_crew r.resident, State.issueWord_crews]
      simp [State.issueWord, State.setCrew]
    have e2 : (s.issueWord is).mend is.crew [] n = s.issueWord is := State.mend_nil _ _ _
    rw [e1, e2] at hz
    exact hz
  · exact ⟨_, word_ok r ha hb, LanesOnly.of_onLanes r f R hR⟩

/-! ### Writes of one lane -/

theorem regWrite_writes {x : Lane} {d : Nat} (hd : d < x.regs.length) (v : Word) : WritesReg d v x (regWrite x d v) := by
  constructor
  · simp [regWrite, hd]
  · intro r hr; simp [regWrite, List.getD_eq_getElem?_getD, Ne.symm hr]
  · simp [regWrite]
  · rfl
  · rfl

theorem pairWrite_writes {x : Lane} {d : Nat} (hd : d + 1 < x.regs.length) (v : DWord) : WritesPair d v x (pairWrite x d v) := by
  constructor
  · simp [pairWrite, regWrite, List.getD_eq_getElem?_getD, show d < x.regs.length by omega]
  · simp [pairWrite, regWrite, List.getD_eq_getElem?_getD, hd]
  · intro r h1 h2
    simp [pairWrite, regWrite, List.getD_eq_getElem?_getD, Ne.symm h1, Ne.symm h2]
  · simp [pairWrite, regWrite]
  · simp only [pairWrite, regWrite, List.map_map, Function.comp_def, List.filter_filter]
    refine List.map_congr_left (fun p _ => ?_)
    congr 1
    refine List.filter_congr (fun r _ => ?_)
    rw [Bool.and_comm]
  · rfl

theorem predWrite_writes {x : Lane} {p : BitVec 4} (hp : p.toNat < 12) (v : Bool) : WritesPred p.toNat v x (predWrite x p v) := by
  constructor
  · cases v <;> simp [predWrite, hp]
  · intro q hq
    by_cases h12 : q < 12
    · have : ¬ (p.toNat ≤ q ∧ q - p.toNat = 0) := by omega
      cases v <;> simp [predWrite, h12] <;> omega
    · simp [BitVec.getLsbD_of_ge, show 12 ≤ q by omega]
  · rfl

/-- A register that passes R82 lies in every lane of a crew of the right shape. -/
theorem Ready.inRange {s : State} {is : Issue} {h : Hdr} {n : Needs} (r : Ready s is h n) {d : BitVec 8} {c : Nat} (hd : (d, c) ∈ n.dst ++ n.src ++ n.group)
    {l : Nat} (hl : l < 8) : d.toNat + c ≤ ((s.crew is.crew).lane l).regs.length := by
  have hc := r.passes
  unfold Needs.check at hc
  split at hc
  · cases hc
  · rename_i hok
    have hok' : n.regsOk (s.gridOf is.crew).regs = true := by simpa using hok
    simp only [Needs.regsOk, List.all_eq_true] at hok'
    have := hok' _ hd
    simp only [decide_eq_true_eq] at this
    have hlane : ((s.crew is.crew).lane l) ∈ (s.crew is.crew).lanes := by
      have hl' : l < (s.crew is.crew).lanes.length := by rw [r.shaped.lanes]; exact hl
      simp only [Crew.lane, List.getD_eq_getElem?_getD, List.getElem?_eq_getElem hl', Option.getD_some]
      exact List.getElem_mem hl'
    rw [r.shaped.regs _ hlane]
    exact this

@[simp] theorem Lane.issueOne_regs (x : Lane) : x.issueOne.regs = x.regs := rfl

theorem Ready.acting_lt {s : State} {is : Issue} {h : Hdr} {n : Needs} (_ : Ready s is h n) {l : Nat} (hl : l ∈ s.acting is h) : l < 8 :=
  (mem_lanesOf.mp (activeLanes_sub hl)).1

/-! ### The operand forms -/

theorem regWord_gives {s : State} {is : Issue} {h : Hdr} {d : BitVec 8} {src : List (BitVec 8)}
    (f : (Nat → BitVec 8 → Word) → Crew → Nat → Word) {ps : List (BitVec 4)} (r : Ready s is h { dst := [(d, 1)], src := src.map (·, 1), preds := ps }) :
    ∃ t, regWord h d src f s ps = .next t ∧ LanesOnly s t is (s.acting is h)
      (fun l => WritesReg d.toNat (f (fun i a => s.operand is i l a) (s.crew is.crew) l)) := by
  refine word_lanes r (fun l x => regWrite x d.toNat (f (fun i a => s.operand is i l a) (s.crew is.crew) l)) _ rfl ?_
  intro l hl
  refine regWrite_writes ?_ _
  have := r.inRange (d := d) (c := 1) (by simp) (r.acting_lt hl)
  simpa using this

theorem unary_gives {s : State} {is : Issue} {h : Hdr} {d a : BitVec 8} (f : Word → Word) (r : Ready s is h { dst := [(d, 1)], src := [(a, 1)] }) :
    ∃ t, unary h d a f s = .next t ∧ LanesOnly s t is (s.acting is h) (fun l => WritesReg d.toNat (f (s.operand is 0 l a))) :=
  regWord_gives (src := [a]) (fun r _ _ => f (r 0 a)) r

theorem binary_gives {s : State} {is : Issue} {h : Hdr} {d a b : BitVec 8} (f : Word → Word → Word)
    (r : Ready s is h { dst := [(d, 1)], src := [(a, 1), (b, 1)] }) :
    ∃ t, binary h d a b f s = .next t ∧
      LanesOnly s t is (s.acting is h) (fun l => WritesReg d.toNat (f (s.operand is 0 l a) (s.operand is 1 l b))) :=
  regWord_gives (src := [a, b]) (fun r _ _ => f (r 0 a) (r 1 b)) r

theorem ternary_gives {s : State} {is : Issue} {h : Hdr} {d a b c : BitVec 8} (f : Word → Word → Word → Word)
    (r : Ready s is h { dst := [(d, 1)], src := [(a, 1), (b, 1), (c, 1)] }) :
    ∃ t, ternary h d a b c f s = .next t ∧
      LanesOnly s t is (s.acting is h) (fun l => WritesReg d.toNat (f (s.operand is 0 l a) (s.operand is 1 l b) (s.operand is 2 l c))) :=
  regWord_gives (src := [a, b, c]) (fun r _ _ => f (r 0 a) (r 1 b) (r 2 c)) r

theorem pairWord_gives {s : State} {is : Issue} {h : Hdr} {d : BitVec 8} {src : List (BitVec 8 × Nat)} (f : State → Crew → Nat → DWord)
    (r : Ready s is h { dst := [(d, 2)], src := src }) :
    ∃ t, pairWord h d src f s = .next t ∧
      LanesOnly s t is (s.acting is h) (fun l => WritesPair d.toNat (f (s.issueWord is) (s.crew is.crew) l)) := by
  refine word_lanes r (fun l x => pairWrite x d.toNat (f (s.issueWord is) (s.crew is.crew) l)) _ rfl ?_
  intro l hl
  refine pairWrite_writes ?_ _
  have := r.inRange (d := d) (c := 2) (by simp) (r.acting_lt hl)
  simp only [Lane.issueOne_regs]
  omega

theorem predWord_gives {s : State} {is : Issue} {h : Hdr} {p : BitVec 4} {n : Needs} (hp : p.toNat < 12) (f : State → Crew → Nat → Bool)
    (r : Ready s is h n) :
    ∃ t, predWord h p n f s = .next t ∧
      LanesOnly s t is (s.acting is h) (fun l => WritesPred p.toNat (f (s.issueWord is) (s.crew is.crew) l)) := by
  have r' : Ready s is h { n with pdst := [p] } := ⟨r.turn, r.resident, r.shaped, r.passes, r.guard, r.sound⟩
  refine word_lanes r' (fun l x => predWrite x p (f (s.issueWord is) (s.crew is.crew) l)) _ rfl ?_
  intro l _
  exact predWrite_writes hp _

/-- A word whose result may be a NUMERIC trap (R174): where no active lane has one, each takes its result. -/
theorem numWord_gives {s : State} {is : Issue} {h : Hdr} {d : BitVec 8} {src : List (BitVec 8)} {f : (Nat → BitVec 8 → Word) → Option Word}
    {v : Nat → Word} (r : Ready s is h { dst := [(d, 1)], src := src.map (·, 1) })
    (hv : ∀ l ∈ s.acting is h, f (fun i a => s.operand is i l a) = some (v l)) :
    ∃ t, numWord h d src f s = .next t ∧ LanesOnly s t is (s.acting is h) (fun l => WritesReg d.toNat (v l)) := by
  refine word_lanes r (fun l x => regWrite x d.toNat ((f (fun i a => s.operand is i l a)).getD 0)) _ ?_ ?_
  · have hn : (s.acting is h).find? (fun l => (f (fun i a => s.operand is i l a)).isNone) = none := by
      rw [List.find?_eq_none]; intro l hl; simp [hv l hl]
    simp only [operand_eq, hn]
  · intro l hl
    simp only [hv l hl, Option.getD_some]
    refine regWrite_writes ?_ _
    have := r.inRange (d := d) (c := 1) (by simp) (r.acting_lt hl)
    simpa using this

/-- Where an active lane has a NUMERIC trap, the word traps and %trapinfo is the lowest such lane. -/
theorem numWord_traps {s : State} {is : Issue} {h : Hdr} {d : BitVec 8} {src : List (BitVec 8)} {f : (Nat → BitVec 8 → Word) → Option Word} {l : Nat}
    (r : Ready s is h { dst := [(d, 1)], src := src.map (·, 1) })
    (hv : (s.acting is h).find? (fun l => (f (fun i a => s.operand is i l a)).isNone) = some l) :
    numWord h d src f s = .next (s.trapPath is tcNumeric (BitVec.ofNat 64 l)) := by
  refine word_trap r (by intro ha; rw [ha] at hv; cases hv) ?_
  simp only [operand_eq, hv]

end Sys2Proof.Machine
end

