-- ==== Sys2Proof/Tests/Slice0.lean ====
section
/-! SUPPORT. Tests of the model: words written out from the manual's encodings, terms that WellFormed refuses, single steps with results worked out from the
manual, and for every statement a state and operands that meet its hypotheses. -/
namespace Sys2Proof.Tests
open Sys2Proof Sys2Proof.Machine

-- The tests evaluate in the kernel; one after another, they need no thread each.
set_option Elab.async false

/-! ### Decoding: words of the manual's encoding tables -/

/-- The guard of a word that names none (R79). -/
def pt : Hdr := ⟨12, false⟩

-- chapter 6: control flow; chapter 21: trap words
theorem test_decode_bra : decodeWord 0x000C000000018000 = .ok (.bra pt 3) := rfl
theorem test_decode_ret : decodeWord 0x040C000F00000000 = .ok (.ret pt 30) := rfl
theorem test_decode_itake : decodeWord 0x0A0C020000000000 = .ok (.itake pt 4) := rfl
theorem test_decode_trap : decodeWord 0x0C0C000000000007 = .ok (.trap pt 7) := rfl
theorem test_decode_tret : decodeWord 0x0D0C000000000080 = .ok (.tret pt true) := rfl
theorem test_decode_brk : decodeWord 0x0E0C000000000003 = .ok (.brk pt 3) := rfl
-- chapters 5 and 7: whole numbers
theorem test_decode_iadd : decodeWord 0x100C018404800000 = .ok (.iadd pt 3 8 9 false false) := rfl
theorem test_decode_iaddc : decodeWord 0x110C020304008200 = .ok (.iaddc pt 4 6 8 1 2) := rfl
theorem test_decode_icmp : decodeWord 0x240C008203860500 = .ok (.icmp pt .ge false 1 4 7 12) := rfl
-- chapter 9: floating point and conversion
theorem test_decode_ffma : decodeWord 0x330C000204872800 = .ok (.ffma pt .f32 ⟨.rz, .inf, false⟩ 0 4 9 14) := rfl
theorem test_decode_fcmp : decodeWord 0x360C018283060048 = .ok (.fcmp pt .ltu .f32 false 3 5 6 12) := rfl
theorem test_decode_cvt : decodeWord 0x3A0C038180002004 = .ok (.cvt pt .i8 (.flt .f32) ⟨.rz, .sat, false⟩ 7 3) := rfl
theorem test_decode_pkfma : decodeWord 0x390C008101820812 = .ok (.pkfma pt true ⟨.rne, .inf, false⟩ 1 2 3 4) := rfl
theorem test_decode_nqFs : decodeWord 0x3B0C05058000020B = .ok (.nqFs pt 2 10 11) := rfl
-- chapter 10 and 17: fences and barriers
theorem test_decode_fence : decodeWord 0x480C000000004000 = .ok (.fence pt .reach) := rfl
theorem test_decode_bar : decodeWord 0x470C000000010000 = .ok (.bar pt (.imm 2)) := rfl
theorem test_decode_barw : decodeWord 0x470C00030004A010 = .ok (.barw pt (.reg 9) 6) := rfl
-- chapter 12: the Barge
theorem test_decode_cpy : decodeWord 0x5001000400010100 = .ok (.cpy ⟨1, false⟩ (.imm 2 false) 1 8) := rfl
theorem test_decode_cpb : decodeWord 0x520C000406028080 = .ok (.cpbOut pt (.imm 5 false) 0 8 12) := rfl
-- chapter 13: the matrix unit
theorem test_decode_xmac : decodeWord 0x5B0C010404801B00 = .ok (.xmac pt true 2 (.reg 8 9) 3) := rfl
theorem test_decode_xfill : decodeWord 0x5A0C000282052200 = .ok (.xfill pt (.imm 5) (.reg 10) 4 2) := rfl
theorem test_decode_xrd : decodeWord 0x5F3C060680008000 = .ok (.xrd pt 3 12 1 13) := rfl
-- chapter 15: far memory
theorem test_decode_ldf : decodeWord 0x642C040200004010 = .ok (.ldf pt 2 .b64 8 4 16) := rfl
theorem test_decode_stf : decodeWord 0x650C00020303B800 = .ok (.stf pt .b32 4 6 (some 7) 0) := rfl
theorem test_decode_atomf : decodeWord 0x661C050206000BF8 = .ok (.atomf pt 1 .add .f32 10 4 12 (-8)) := rfl
theorem test_decode_redf : decodeWord 0x680C000203000600 = .ok (.redf pt .add .n32 true 4 6 0) := rfl
theorem test_decode_fflag : decodeWord 0x6A0C000203003040 = .ok (.fflag pt .b32 4 6 64) := rfl
-- chapter 16: the Wharf and the Kiteline
theorem test_decode_msend : decodeWord 0x6C0C0A0203010000 = .ok (.msend pt false 20 4 6 (.tile (.imm 2 false))) := rfl
theorem test_decode_mpost : decodeWord 0x6D0C0A840501C004 = .ok (.mpost pt true false 21 8 10 (.tile (.imm 3 true))) := rfl
theorem test_decode_mprobe : decodeWord 0x6F1C060405000000 = .ok (.mprobe pt 1 12 8 10) := rfl
theorem test_decode_kfaa : decodeWord 0x731C048283000808 = .ok (.kfaa pt 1 true 9 5 6 8) := rfl
theorem test_decode_kwait : decodeWord 0x750C00028303DC00 = .ok (.kwait pt .ge true true 5 6 7 0) := rfl
-- chapter 5: the pair word
theorem test_decode_pair : decodeWord 0x800102E0121013C0 = .ok (.pairIadd 7 1 2 ⟨.fmul, 8, 9, 7, 0⟩) := rfl
/-- R83: a reserved bit that is set. -/
theorem test_decode_reserved_bit : decodeWord 0x090C000000000001 = .error .illegalEncoding := rfl
/-- Table 5.11: an opcode that no instruction has. -/
theorem test_decode_reserved_opcode : decodeWord 0x7F0C000000000000 = .error .illegalOpcode := rfl
/-- The host's numbering of a word's bits. -/
theorem test_decodeTableWord : decodeTableWord 64 0x090C000000000000 = some (.nop pt) := by decide +kernel
/-- A word that decodes is encoded as it stood. -/
theorem test_encode_kwait : encodeWord (.kwait pt .ge true true 5 6 7 0) = some 0x750C00028303DC00#64 := rfl

/-! ### Ill-formed terms, one for each check of WellFormed -/

theorem test_wellFormed : WellFormed (.iaddc pt 4 6 8 1 2) = true := by decide +kernel
/-- R79: guard 13 does not exist. -/
theorem test_illFormed_guard : WellFormed (.nop ⟨13, false⟩) = false := by decide +kernel
/-- R133: a carry-out predicate is one of p0 to p11. -/
theorem test_illFormed_operand : WellFormed (.iaddc pt 4 6 8 1 12) = false := by decide +kernel
/-- R82: a pair starts at an even register. -/
theorem test_illFormed_odd_pair : WellFormed (.wadd pt 3 4 6) = false := by decide +kernel
/-- Table 5.8: the X field of mov is 0. -/
theorem test_illFormed_half : WellFormed (.pairIadd 7 1 2 ⟨.mov, 8, 9, 7, 1⟩) = false := by decide +kernel

/-! ### A small state: one crew of sixteen registers in a running launch, its turn open, all eight lanes on path A at word 0 -/

def crew0 : Crew := { placedCrew 0 0 with lanes := List.replicate 8 { regs := List.replicate 16 0, clock := Clock.zero } }
def T : State := { State.reset.placedAt 0 with grids := [{ placedGrid 0 with regs := 16 }], crews := [crew0] }
def J : Issue := { crew := 0, lanes := 255 }

/-- T with its crew changed, and with registers of every lane set. -/
def wCrew (s : State) (f : Crew → Crew) : State := { s with crews := [f (s.crew 0)] }
def wRegs (s : State) (rs : List (Nat × Word)) : State := wCrew s (fun k => { k with lanes := k.lanes.map (fun x => { x with regs := rs.foldl (fun m r => m.set r.1 r.2) x.regs }) })
def wLane (s : State) (l : Nat) (f : Lane → Lane) : State := wCrew s (fun k => k.setLane l (f (k.lane l)))
def wGrid (s : State) (f : Grid → Grid) : State := { s with grids := [f (s.grid 0)] }
def wWg (s : State) (f : Wg → Wg) : State := { s with wgs := [f (s.wg 0)] }
def wVd (s : State) (f : Vd → Vd) : State := s.setVd 1 (f (s.vd 1))

def readyB (s : State) (n : Needs) : Bool :=
  s.issue == some J && decide (0 < s.crews.length) && (s.crew 0).lanes.length == 8 && (s.crew 0).joins.length == 4 &&
  (s.crew 0).lanes.all (fun x => x.regs.length == (s.gridOf 0).regs) && (n.check (s.crew 0) (s.gridOf 0).regs).isNone && s.badSram.isEmpty

theorem ready {s : State} {n : Needs} (h : Hdr) (hb : readyB s n = true) : Ready s J h n := by
  simp only [readyB, Bool.and_eq_true, beq_iff_eq, decide_eq_true_eq, List.all_eq_true, Option.isNone_iff_eq_none, List.isEmpty_iff] at hb
  obtain ⟨⟨⟨⟨⟨⟨h1, h2⟩, h3⟩, h4⟩, h5⟩, h6⟩, h7⟩ := hb
  exact ⟨h1, h2, ⟨h3, h4, h5⟩, h6, fun l _ => by simp [State.predBad, h7], fun l _ => by simp [State.readBad, State.predBad, State.regBad, h7]⟩

/-- The needs that most words have. -/
def nD : Needs := { dst := [(4, 1)], src := [] }
def nDA : Needs := { dst := [(4, 1)], src := [(5, 1)] }
def nDAB : Needs := { dst := [(4, 1)], src := [(5, 1), (6, 1)] }
def nDABC : Needs := { dst := [(4, 1)], src := [(5, 1), (6, 1), (7, 1)] }
def nA : Needs := { src := [(5, 1)] }
def nAB : Needs := { src := [(5, 1), (6, 1)] }

theorem wit_Ready : Ready T J pt {} ∧ Ready T J pt nD ∧ Ready T J pt nDA ∧ Ready T J pt nDAB ∧ Ready T J pt nDABC ∧ Ready T J pt nA ∧ Ready T J pt nAB ∧
    T.acting J pt = [0, 1, 2, 3, 4, 5, 6, 7] :=
  ⟨ready _ rfl, ready _ rfl, ready _ rfl, ready _ rfl, ready _ rfl, ready _ rfl, ready _ rfl, by decide +kernel⟩

/-! ### Witnesses: steps and memories -/

theorem wit_StepRunsWhatIsDue :
    (let s := State.reset.withFetchWord 64 0x100C018404800000
     s.power = .on ∧ s.issue = some J ∧ J.spent = false ∧ s.fetch 0 0 = .word 0x100C018404800000 ∧ decodeWord 0x100C018404800000 = .ok (.iadd pt 3 8 9 false false)) ∧
    (let s := State.reset.withFetchWord 64 0x7F0C000000000000
     s.power = .on ∧ s.issue = some J ∧ s.fetch 0 0 = .word 0x7F0C000000000000 ∧ decodeWord 0x7F0C000000000000 = .error .illegalOpcode) ∧
    (let s := State.reset.withFetchWord 64 0x090C000000000001
     s.power = .on ∧ s.issue = some J ∧ s.fetch 0 0 = .word 0x090C000000000001 ∧ decodeWord 0x090C000000000001 = .error .illegalEncoding) :=
  ⟨⟨rfl, rfl, rfl, rfl, rfl⟩, ⟨rfl, rfl, rfl, rfl⟩, ⟨rfl, rfl, rfl, rfl⟩⟩
theorem wit_StepRunsWhatIsDue_agenda :
    (State.reset.issue = none ∧ State.reset.agenda = [(0, .boot)] ∧ 0 ≤ State.reset.t ∧ State.reset.power ≠ .on ∧ Instr.wakes State.reset.power .boot = true) ∧
    (let s := { State.reset with agenda := [(0, .emergClear)] }
     s.issue = none ∧ s.agenda = [(0, .emergClear)] ∧ s.power ≠ .on ∧ Instr.wakes s.power .emergClear = false) ∧
    (let s := { State.reset with power := .on }
     s.issue = none ∧ s.agenda = [(0, .boot)] ∧ s.power = .on ∧ Instr.rank .boot < 2) ∧
    (let s := { State.reset with power := .on, probed := true, agenda := [(0, .landingBeat 0 0)] }
     s.issue = none ∧ s.power = .on ∧ s.probed = true ∧ s.turns = [] ∧ s.xstDue = none ∧ ¬ Instr.rank (.landingBeat 0 0) < 2) := by decide +kernel
theorem wit_EncodingAndDecodingAgree : WellFormed (.iaddc pt 4 6 8 1 2) = true ∧ encodeWord (.iaddc pt 4 6 8 1 2) = some 0x110C020304008200#64 ∧
    decodeWord 0x110C020304008200 = .ok (.iaddc pt 4 6 8 1 2) := ⟨by decide +kernel, rfl, rfl⟩
theorem wit_StepKeepsMemoriesCanonical : State.reset.memoryOk = true ∧ ∃ t, step State.reset = .next t := ⟨by decide +kernel, _, rfl⟩

/-! ### Witnesses: words on registers -/

theorem wit_ArithmeticWords : Ready T J pt nDA ∧ Ready T J pt nDAB ∧ Ready T J pt nDABC := ⟨ready _ rfl, ready _ rfl, ready _ rfl⟩
theorem wit_CarryWordsChain : (2#4).toNat < 12 ∧ Ready T J pt nDAB := ⟨by decide, ready _ rfl⟩
theorem wit_DivisionsOpenAWindow : Ready T J pt nDAB := ready _ rfl
theorem wit_LogicMoveAndShiftWords : Ready T J pt nD ∧ Ready T J pt nDA ∧ Ready T J pt nDAB ∧
    Ready T J pt { dst := [(4, 1)], src := ((5 : BitVec 8) :: shiftSrc5 (.reg 6)).map (·, 1) } ∧
    Ready T J pt { dst := [(4, 1)], src := ((5 : BitVec 8) :: shiftSrc5 (.imm 31)).map (·, 1) } :=
  ⟨ready _ rfl, ready _ rfl, ready _ rfl, ready _ rfl, ready _ rfl⟩
theorem wit_BitWords : Ready T J pt nDA ∧ Ready T J pt nDAB ∧ Ready T J pt nDABC := ⟨ready _ rfl, ready _ rfl, ready _ rfl⟩
theorem wit_ComparisonAndWideWords : (11#4).toNat < 12 ∧ Ready T J pt nAB ∧ Ready T J pt { src := [(4, 2), (6, 2)] } ∧
    Ready T J pt { dst := [(2, 2)], src := [(4, 2), (6, 2)] } ∧ Ready T J pt { dst := [(2, 2)], src := [(4, 2), (7, 1)] } ∧
    Ready T J pt { dst := [(2, 2)], src := [(4, 2)] } ∧ Ready T J pt { dst := [(2, 2)], src := [(5, 1), (7, 1), (14, 2)] } :=
  ⟨by decide, ready _ rfl, ready _ rfl, ready _ rfl, ready _ rfl, ready _ rfl, ready _ rfl⟩
theorem wit_PredicateWords : (11#4).toNat < 12 ∧ Ready T J pt {} ∧ Ready T J pt nD ∧ Ready T J pt nAB := ⟨by decide, ready _ rfl, ready _ rfl, ready _ rfl⟩
/-- Registers v6 of the lanes hold 7 (a lane), 9 (none), and different numbers. -/
theorem wit_LaneWords : Ready (wRegs T [(6, 7)]) J pt nDAB ∧ Ready (wRegs T [(6, 9)]) J pt nDAB ∧ Ready T J pt nDA ∧ Ready T J pt { dst := [(4, 1)], src := [(6, 2)] } ∧
    uniform (((wRegs T [(6, 7)]).acting J pt).map (fun l => ((wRegs T [(6, 7)]).operand J 1 l 6).toNat)) = some 7 ∧ 7 ∈ (wRegs T [(6, 7)]).acting J pt ∧
    uniform (((wRegs T [(6, 9)]).acting J pt).map (fun l => ((wRegs T [(6, 9)]).operand J 1 l 6).toNat)) = some 9 ∧ 9 ∉ (wRegs T [(6, 9)]).acting J pt ∧
    (let s : State := wLane T 3 (fun x => { x with regs := x.regs.set 6 1 })
     readyB s nDAB = true ∧ s.acting J pt ≠ [] ∧ uniform ((s.acting J pt).map (fun l => (s.operand J 1 l 6).toNat)) = none) ∧
    (T.acting J pt).head? = some 0 ∧ (7#3).toNat ∈ T.acting J pt ∧
    (let s : State := wLane T 7 (fun x => { x with preds := 1 })
     s.acting J ⟨0, false⟩ = [7] ∧ (3#3).toNat ∉ s.acting J ⟨0, false⟩) :=
  ⟨ready _ rfl, ready _ rfl, ready _ rfl, ready _ rfl, by decide +kernel, by decide +kernel, by decide +kernel, by decide +kernel, by decide +kernel, by decide +kernel,
    by decide +kernel, by decide +kernel⟩
theorem wit_SpecialRegisters : Ready T J pt { dst := [(4, 2)] } ∧ 0x1A#8 ∈ [0x06#8, 0x07, 0x08, 0x11, 0x1A] ∧ 0x10#8 ∉ [0x06#8, 0x07, 0x08, 0x11, 0x1A] ∧ Ready T J pt { dst := [(4, 1)] } ∧
    Ready T J pt nA ∧ uniform ((T.acting J pt).map (fun l => (T.operand J 0 l 5).toNat % 256)) = some 0 ∧
    (let s : State := wLane T 3 (fun x => { x with regs := x.regs.set 5 1 })
     readyB s nA = true ∧ uniform ((s.acting J pt).map (fun l => (s.operand J 0 l 5).toNat % 256)) = none) ∧ 0 < (T.gridOf 0).gx ∧ 0 < (T.gridOf 0).gy ∧
    ((T.vd (T.gridOf 0).vd).frozen = none ∧ (T.vd (T.gridOf 0).vd).base = ((0 : Nat) : Int) ∧ 0 ≤ T.t ∧ T.rotaL ≤ 32 ∧ (T.allotOf (T.worldNum (T.gridOf 0).vd)).isSome = true ∧
      ((wVd T (fun d => { d with frozen := some 5 })).vd 1).frozen = some 5) :=
  ⟨ready _ rfl, by decide, by decide, ready _ rfl, ready _ rfl, by decide +kernel, by decide +kernel, by decide +kernel, by decide +kernel, by decide +kernel⟩

/-! ### Single steps, with results from the manual -/

/-- The word runs on s, and the state after it is as f says. -/
def runs (w : DWord) (s : State) (f : State → Bool) : Bool :=
  match decodeWord w with
  | .ok i => match exec i s with | .next t => f t | _ => false
  | .error _ => false
/-- Register r of lane L is f L. -/
def fills (s : State) (r : Nat) (f : Nat → Word) : State := wCrew s (fun k => { k with lanes := k.lanes.mapIdx (fun l x => { x with regs := x.regs.set r (f l) }) })
/-- Register r of the eight lanes. -/
def row (s : State) (r : Nat) : List Nat := (s.crew 0).lanes.map (fun x => (x.regs.getD r 0).toNat)
/-- Kernel sift of the manual's chapter 7 after its first four words: v4 is the lane's item, v6 12, v7 3 and v0:v1 ARGS. -/
def sift : State := fills (wRegs T [(0, 0x1000), (1, 0x40), (5, 1), (6, 12), (7, 3)]) 4 (BitVec.ofNat 32)
def sift1 : State := wCrew sift (fun k => { k with lanes := k.lanes.mapIdx (fun l x => { x with preds := if 3 ≤ l then 2 else 0 }) })

/-- Worked example of chapter 7, pc 4. -/
theorem test_wmad : runs 0x270C040203000000 sift (fun t => row t 8 == [0x1000, 0x100C, 0x1018, 0x1024, 0x1030, 0x103C, 0x1048, 0x1054] && row t 9 == List.replicate 8 0x40) = true := by
  decide +kernel
/-- pc 5: p1 is set in lanes 3 to 7. -/
theorem test_icmp : runs 0x240C008203860500 sift (fun t => (t.crew 0).lanes.map (fun x => x.preds.toNat) == [0, 0, 0, 2, 2, 2, 2, 2]) = true := by decide +kernel
/-- pc 6. -/
theorem test_ballot : runs 0x2A0C050080000008 sift1 (fun t => row t 10 == List.replicate 8 0xF8) = true := by decide +kernel
/-- pc 7: lanes 0 to 2 do not take part. -/
theorem test_cred_scan : runs 0x2D01058200000800 sift1 (fun t => row t 11 == [0, 0, 0, 3, 7, 12, 18, 25]) = true := by decide +kernel
/-- pc 8: lane 7 has no source. -/
theorem test_lperm_fwd : runs 0x2B0C060202800900 sift1 (fun t => row t 12 == [1, 2, 3, 4, 5, 6, 7, 7] &&
    (t.crew 0).lanes.map (fun x => x.preds.getLsbD 2) == [true, true, true, true, true, true, true, false]) = true := by decide +kernel
/-- R131: sums wrap. -/
theorem test_iadd_wraps : runs 0x100C040204800000 (wRegs T [(4, 0xFFFFFFFF), (9, 10)]) (fun t => row t 8 == List.replicate 8 9) = true := by decide +kernel

/-- Worked example of chapter 10, kernel relay: v8 is 10 + L, v10 is 512; after pc 17 the word at 512 holds 108, and each lane's result is the sum below it. -/
def relay : State := fills (wRegs T [(10, 512)]) 8 (fun l => BitVec.ofNat 32 (10 + l))
theorem test_atom_add : runs 0x420C058504000000 (relay.localWrite (relay.crew 0) .near 0 512 [0, 0, 0, 0]) (fun t => ofBytes (t.localRead (t.crew 0) .near 0 512 4) == 108 &&
    row t 11 == [0, 10, 21, 33, 46, 60, 75, 91]) = true := by
  decide +kernel
/-- pc 7: a store of each lane's word at 4L. -/
theorem test_st : runs 0x410C000384000C00 (fills relay 7 (fun l => BitVec.ofNat 32 (4 * l))) (fun t =>
    (List.range 8).map (fun l => ofBytes (t.localRead (t.crew 0) .near 0 (4 * l) 4)) == [10, 11, 12, 13, 14, 15, 16, 17]) = true := by decide +kernel
/-- pc 9: entry 0 is READY with LEN 1 and BITMAP 1. -/
theorem test_tset_ready : runs 0x440C000185000080 relay (fun t => let x := (t.wg 0).tile 0
    x.st == .ready && x.len == 1 && x.bitmap == 1 && x.base == 0 && !x.phase) = true := by decide +kernel
/-- pc 19 and 20: the entry is freed and its phase toggles; tstat then gives 0x404. -/
theorem test_tfree : runs 0x440C000000000010 (wWg T (fun w => w.setTile 0 { st := .draining, len := 1 })) (fun t => let x := (t.wg 0).tile 0
    x.st == .empty && x.phase && x.len == 1 && x.bitmap == 0) = true := by decide +kernel
theorem test_tstat : runs 0x440C060000000018 (wWg T (fun w => w.setTile 0 { phase := true, len := 1 })) (fun t => row t 12 == List.replicate 8 0x404) = true := by decide +kernel

/-- Worked example of chapter 8: the scale of a block whose greatest magnitude is 5.0, and its codes. -/
theorem test_bscale : bscaleWord false 0x40A00000 = 0xFFFFFFFB := by decide +kernel
theorem test_nq : [0x40400000#32, 0xBDCCCCCD, 0x3C23D70A, 0x40A00000, 0x3C800000].map (nqWord .sat false 0xFFFB) =
    [some 0x1B, some 0x28, some 0x00, some 0x1E, some 0x00] := by decide +kernel
/-- Worked example of chapter 8: the midpoint and the vanished term. -/
theorem test_windowSum : windowSum .inf false ([0x3F800000, 0x33800000, 0xA1800000].map (fun w => readF .f32 false (BitVec.ofNat 32 w))) = 0x3F800001 ∧
    windowSum .inf false ([0x3F800000, 0x33800000, 0x21800000].map (fun w => readF .f32 false (BitVec.ofNat 32 w))) = 0x3F800001 := by decide +kernel

/-- Worked example of chapter 1: crew 0 in five sets, in four, and a crew that does not exist. -/
theorem test_muster : musterOk [0x3F, 0x03, 0x0C, 0x05, 0x31, 0x11] 6 = false ∧ musterOk [0x3F, 0x03, 0x0C, 0x05, 0x31] 6 = true ∧ musterOk [0x43] 6 = false := by decide +kernel
/-- Worked example of chapter 3: the SKIPIF entry. -/
theorem test_entry_skipif : entryRow ⟨1, 0⟩ [0x10002, 0x5000, 0, 0xFFFFFFFF] =
    some (.skipif ⟨1, 0⟩ { cnt := 1, cmp := 0, w64 := false, irq := false, addr := 0x5000, value := 0, mask := 0xFFFFFFFF }) := by decide +kernel
/-- Worked example of chapter 24: a tree over 64 GiB has nine levels. -/
theorem test_tree_height : SRegion.height { num := 40, vd := 1, pfn := 0, len := 2 ^ 24, keyid := 1, tree := 0 } = 9 := by decide +kernel
/-- R30, Table 2.2: ferry's launch words give the fields of the worked example of chapter 2. -/
theorem test_launch_words : (fieldOf 0x1040420200000000 37 32, fieldOf 0x1040420200000000 43 38, fieldOf 0x1040420200000000 52 44, fieldOf 0x1040420200000000 59 53,
    fieldOf 0x1040420200000000 63 60) = (2, 8, 4, 2, 1) ∧ rolesOf 0x12 0 3 = some [2, 0, 1] := by decide +kernel

/-- R312, Table 21.1: a software trap enters the handler, which holds the trap's code, place and operand. -/
theorem test_trap : runs 0x0C0C000000000007 (wGrid T (fun g => { g with handler := some 3 })) (fun t => match exec (.handlerModeEntry 0) t with
    | .next u => let k := u.crew 0
      k.hm && k.tcode == tcSoftware && k.tinfo == 7 && k.tpc == 0 && k.lanes.all (fun x => x.pc == 3)
    | _ => false) = true := by decide +kernel
/-- R315: without an active lane it has no effect. -/
theorem test_trap_empty : runs 0x0C00000000000007 T (fun t => !(t.crew 0).hm && (t.grid 0).aborted.isNone) = true := by decide +kernel

/-! ### Witnesses: floating point -/

def noTrap : FMod := ⟨.rne, .inf, false⟩
def trapping : FMod := ⟨.rne, .trap, false⟩

theorem wit_NumericWordsGiveOrTrap :
    (numericForms T J pt .f32 noTrap false .i8 (.flt .f32) 4 5 6 7).all (fun f => readyB T { dst := [(4, 1)], src := f.2.1.map (·, 1) } &&
      (T.acting J pt).all (fun l => f.2.2 l == some 0)) = true ∧
    (let s := wRegs T [(5, 0x7F7FFFFF), (6, 0x7F7FFFFF)]
     readyB s nDAB = true ∧ (s.acting J pt).all (fun l => (fAdd .f32 trapping (s.operand J 0 l 5).toNat (s.operand J 1 l 6).toNat).isNone) = true) := by decide +kernel
theorem wit_FloatCorners : noTrap.ov ≠ .trap ∧ isNaN .f32 0x7FC00001 = true ∧ decodeF .f32 false 0x3F800000 = .fin ⟨false, 8388608, -23⟩ := by decide +kernel
theorem wit_FloatWordsThatNeverTrap : (3#4).toNat < 12 ∧ Ready T J pt nDAB ∧ Ready T J pt nDA ∧ Ready T J pt nAB := ⟨by decide, ready _ rfl, ready _ rfl, ready _ rfl⟩
/-- Slot 1 has FMT lg6 and SFMT 0; slot 0 has not. -/
theorem wit_SlotConversionWords :
    let s := wGrid T (fun g => { g with fss := g.fss.set 1 { fmt := 3 } })
    readyB s nDA = true ∧ s.acting J pt ≠ [] ∧ ((s.gridOf 0).fs 0).fmt ≠ 3 ∧ ((s.gridOf 0).fs 1).fmt = 3 ∧ ((s.gridOf 0).fs 1).sfmt = 0 ∧
    (s.acting J pt).all (fun l => nqWord ((s.gridOf 0).fs 1).ov ((s.gridOf 0).fs 1).ftz ((s.gridOf 0).fs 1).xscale (s.operand J 0 l 5) == some 0 &&
      nxWord .f32 ⟨((s.gridOf 0).fs 1).rm, ((s.gridOf 0).fs 1).ov, ((s.gridOf 0).fs 1).ftz⟩ ((s.gridOf 0).fs 1).xscale (s.operand J 0 l 5) == some 0) = true := by decide +kernel
theorem wit_SpecialFunctions : Ready T J pt nDA ∧ (.fsqrt pt 0 .trap false 4 5, SFn.sqrt) ∈ specialForms pt 0 .trap false 4 5 ∧
    (T.acting J pt).all (fun l => specialWord .sqrt .trap false (T.operand J 0 l 5) == some 0) = true ∧
    (T.acting J pt).all (fun l => (specialWord .rcp .trap false (T.operand J 0 l 5)).isNone) = true :=
  ⟨ready _ rfl, by simp [specialForms], by decide +kernel, by decide +kernel⟩

/-! ### Witnesses: control flow and traps -/

theorem wit_BranchesAndReturns :
    (0 ≤ (J.at.toNat : Int) + (3#32).toInt ∧ (J.at.toNat : Int) + (3#32).toInt < (T.gridOf 0).words ∧ (J.at.toNat : Int) + (-1#32).toInt < 0 ∧ T.issue = some J) ∧
    Ready T J pt {} ∧ Ready T J pt nD ∧ Ready T J pt nA ∧ Ready T J pt nDA ∧ (∀ l ∈ T.acting J pt, (T.operand J 0 l 5).toNat < (T.gridOf 0).words) ∧
    (let s := wRegs T [(5, 8)]
     readyB s nDA = true ∧ readyB s nA = true ∧ 0 ∈ s.acting J pt ∧ (s.gridOf 0).words ≤ (s.operand J 0 0 5).toNat ∧ ∀ k ∈ s.acting J pt, ¬ k < 0) :=
  ⟨by decide +kernel, ready _ rfl, ready _ rfl, ready _ rfl, ready _ rfl, by decide +kernel, by decide +kernel⟩
/-- Lanes 4 to 7 on the path; join register 1 records all lanes, and lanes 0 to 3 wait there. -/
theorem wit_JoinWords : (Ready T J pt {} ∧ T.acting J pt ≠ [] ∧ ((T.crew 0).joinReg 1).wait = 0) ∧
    (let s := wCrew T (fun k => { k with joins := k.joins.set 1 ⟨255, 15⟩ })
     readyB s {} = true ∧ ((s.crew 0).joinReg 1).wait ≠ 0 ∧ ((s.crew 0).joinReg 1).mask ≠ 0) := ⟨⟨ready _ rfl, by decide +kernel, rfl⟩, by decide +kernel⟩
theorem wit_ExitWord : Ready T J pt {} ∧ T.acting J pt ≠ [] ∧ (∀ j < 4, ((T.crew 0).joinReg j).wait = 0) ∧ (∀ l < 8, l ∉ T.acting J pt → ((T.crew 0).lane l).st = .exited) ∧
    (let s := wLane T 7 (fun x => { x with preds := 1 })
     readyB s {} = true ∧ s.acting J ⟨0, false⟩ = [7] ∧ ∃ l < 8, l ∉ s.acting J ⟨0, false⟩ ∧ ((s.crew 0).lane l).st ≠ .exited) :=
  ⟨ready _ rfl, by decide +kernel, by decide +kernel, by decide +kernel, by decide +kernel⟩
theorem wit_NopYieldAndItake : Ready T J pt {} ∧ Ready T J pt nD ∧ T.acting J pt ≠ [] ∧ (T.gridOf 0).lastItem ≤ (T.gridOf 0).nextItem ∧
    (let s := wGrid T (fun g => { g with icount := 100, lastItem := 100 })
     readyB s nD = true ∧ ((s.gridOf 0).queue (s.crew 0).core).items.length < (s.acting J pt).length ∧ (s.gridOf 0).nextItem < (s.gridOf 0).lastItem) ∧
    (let s := wGrid T (fun g => { g with icount := 100, lastItem := 100, nextItem := 10, queues := [{ core := 0, items := List.range 10 }] })
     readyB s nD = true ∧ (s.acting J pt).length ≤ ((s.gridOf 0).queue (s.crew 0).core).items.length) :=
  ⟨ready _ rfl, ready _ rfl, by decide +kernel, by decide +kernel, by decide +kernel, by decide +kernel⟩
theorem wit_TrapBrkAndTret : (Ready T J ⟨0, false⟩ {} ∧ T.acting J ⟨0, false⟩ = []) ∧ (Ready T J pt {} ∧ T.acting J pt ≠ [] ∧ (T.vd (T.vdOf 0)).dbg.armed = false ∧ (T.crew 0).hm = false) ∧
    (let s := wVd T (fun d => { d with dbg := { d.dbg with armed := true } })
     readyB s {} = true ∧ (s.vd (s.vdOf 0)).dbg.armed = true ∧ (s.crew 0).live = true ∧ (s.vd (s.vdOf 0)).dbg.stopWorld = false) ∧
    (let s := wCrew T (fun k => { k with hm := true, hl := 255 })
     readyB s {} = true ∧ s.acting J pt ≠ [] ∧ (s.crew 0).hm = true ∧ laneMask (s.acting J pt) = (s.crew 0).hl ∧ (s.crew 0).pend = none) :=
  ⟨⟨ready _ rfl, by decide +kernel⟩, ⟨ready _ rfl, by decide +kernel, by decide +kernel, rfl⟩, by decide +kernel, by decide +kernel⟩
theorem wit_TakingATrap :
    (let s := wGrid T (fun g => { g with handler := some 4 })
     0 < s.crews.length ∧ (s.crew 0).lanes.length = 8 ∧ (s.crew 0).hm = false ∧ (s.gridOf 0).handler ≠ none ∧ ∀ l < 8, ((s.crew 0).lane l).pend = []) ∧
    (0 < T.crews.length ∧ (T.wgOf 0).grid < T.grids.length ∧ (T.gridOf 0).handler = none ∧ (T.gridOf 0).aborted = none ∧ (T.gridOf 0).st = .active ∧
      (T.wg 0).live = true ∧ (T.wg 0).grid = 0 ∧ 0 ∈ (T.wg 0).crews ∧ (T.crew 0).live = true) := by decide +kernel
theorem wit_HandlerEntryDeferredTrapsAndStops :
    (let s := wCrew T (fun k => { k with entry := some ⟨tcSoftware, 7, 0⟩, hl := 255 })
     0 < s.crews.length ∧ (s.crew 0).lanes.length = 8 ∧ (s.crew 0).entry = some ⟨tcSoftware, 7, 0⟩ ∧ (s.crew 0).step = false ∧ ∀ l < 8, ((s.crew 0).lane l).pend = []) ∧
    (let s := wCrew T (fun k => { k with pend := some ⟨tcSoftware, 7, 0⟩ })
     (s.crew 0).pend = some ⟨tcSoftware, 7, 0⟩ ∧ (s.crew 0).hm = false ∧ (s.crew 0).entry = none ∧ s.issue = some J ∧ J.spent = false) ∧
    (let s := wVd T (fun d => { d with dbg := { d.dbg with armed := true, comps := [{ on := true }] } })
     (s.crew 0).live = true ∧ (s.crew 0).voteA = some 0 ∧ s.comparatorHit 0 0 = some 0) := by decide +kernel
theorem wit_ChecksBeforeTheEffect :
    (let n : Needs := { dst := [(4, 1)], src := [(5, 1), (6, 1), (7, 1)] }
     let off : Needs := { dst := [(16, 1)], src := [(5, 1), (6, 1), (7, 1)] }
     let one : Needs := { dst := [(4, 1)], src := [(5, 1), (9, 1), (13, 1)], banks := [5, 9, 13] }
     let count := (T.gridOf 0).regs
     T.issue = some J ∧ (∀ r ∈ n.dst ++ n.src ++ n.group, r.1.toNat + r.2 ≤ count) ∧ (¬ ∀ r ∈ off.dst ++ off.src ++ off.group, r.1.toNat + r.2 ≤ count) ∧
     (∀ r ∈ one.dst ++ one.src ++ one.group, r.1.toNat + r.2 ≤ count) ∧ (¬ ∀ b < 4, (one.banks.filter (fun r => r.toNat % 4 == b)).length ≤ 2) ∧
     n.check (T.crew 0) count = none ∧ branchTarget 0 1 (T.gridOf 0).words ≠ none ∧ (T.crew 0).role ≠ 2) ∧
    (let n : Needs := { dst := [(4, 1)], src := [(5, 1), (6, 1), (7, 1)] }
     let s := { T with badSram := [.reg 0 3 6] }
     s.issue = some J ∧ 3 ∈ s.acting J pt ∧ s.readBad 0 3 n = true ∧ (∀ m ∈ s.acting J pt, m < 3 → s.readBad 0 m n = false) ∧ ∀ l ∈ lanesOf J.path, s.predBad 0 l [pt.g] = false) ∧
    (let s := { T with badSram := [.pred 0 2 1] }
     2 ∈ lanesOf J.path ∧ s.predBad 0 2 [1] = true ∧ ∀ m ∈ lanesOf J.path, m < 2 → s.predBad 0 m [1] = false) := by decide +kernel
theorem wit_ChecksBeforeTheEffect_needs (d a b c : BitVec 8) : ∃ n, wordNeeds (.imad pt d a b c false false) = some (pt, n) ∧ plainNeeds (.imad pt d a b c false false) = some (pt, n) :=
  ⟨_, rfl, rfl⟩
theorem wit_ChecksBeforeTheEffect_words : (∃ n, wordNeeds (.cpreWarm pt 2 5) = some (pt, n) ∧ n.role = some 2 ∧ n.banks = [5]) ∧ ∃ n, wordNeeds (.call pt 30 1) = some (pt, n) :=
  ⟨⟨_, rfl, rfl, rfl⟩, _, rfl⟩

/-! ### Witnesses: near, spill and Basin memory, tiles, barriers -/

theorem wit_MemoryWordsCheckEveryLane :
    (memoryForms pt 0 .near .b32 .b32 .add .i32 4 5 6 7 0 0).all (fun f => readyB T f.2.1) = true ∧
    (let s := wRegs T [(5, 4096)]
     readyB s nDA = true ∧ 0 ∈ s.acting J pt ∧ (s.spaceBound (s.crew 0) .near).1 < addr32 (s.operand J 0 0 5) 0 + 4) ∧
    (let s := wRegs T [(5, 4094)]
     readyB s nDA = true ∧ (∀ l ∈ s.acting J pt, addr32 (s.operand J 0 l 5) 0 + 2 ≤ (s.spaceBound (s.crew 0) .near).1) ∧ addr32 (s.operand J 0 0 5) 1 % 2 ≠ 0) := by
  decide +kernel
theorem wit_LocalLoads : Space.spill ≠ .basin ∧ readyB T { dst := [(4, Width.count .b64)], src := [(5, 1)] } = true ∧
    (∀ l ∈ T.acting J pt, addr32 (T.operand J 0 l 5) 0 % 8 = 0 ∧ addr32 (T.operand J 0 l 5) 0 + 8 ≤ (T.spaceBound (T.crew 0) .spill).1) ∧ T.badSram = [] := by decide +kernel
theorem wit_LocalStores : readyB T { src := [(5, 1), (6, Width.count .b64)] } = true ∧
    (∀ l ∈ T.acting J pt, addr32 (T.operand J 0 l 5) 0 % 8 = 0 ∧ addr32 (T.operand J 0 l 5) 0 + 8 ≤ (T.spaceBound (T.crew 0) .near).1 ∧
      addr32 (T.operand J 0 l 5) 0 + 8 ≤ (T.spaceBound (T.crew 0) .spill).1) ∧ (T.spaceBound (T.crew 0) .spill).1 ≤ 8192 ∧ (T.crew 0).part < 8 ∧
    (∀ x ∈ (T.wg 0).tiles, x.fillLen ≠ 0 → Tile.filling x 0 = false) ∧ (∀ u ∈ T.mats, ∀ q ∈ u.arrQ, MOp.drains q 0 0 = false) := by decide +kernel
theorem wit_LocalAtomics : Space.near ≠ .basin ∧ readyB T nDAB = true ∧ readyB T { dst := [(4, 2)], src := [(5, 1), (6, 2), (8, 2)] } = true ∧
    (∀ l ∈ T.acting J pt, addr32 (T.operand J 0 l 5) 0 % 8 = 0 ∧ addr32 (T.operand J 0 l 5) 0 + 8 ≤ (T.spaceBound (T.crew 0) .near).1) ∧ T.badSram = [] := by decide +kernel
theorem wit_BasinAccesses : (memoryForms pt 0 .basin .b32 .b32 .add .i32 4 5 6 7 0 0).all (fun f => readyB T f.2.1) = true ∧ T.acting J pt ≠ [] ∧
    (∀ l ∈ T.acting J pt, addr32 (T.operand J 0 l 5) 0 % 4 = 0 ∧ addr32 (T.operand J 0 l 5) 0 + 4 ≤ (T.spaceBound (T.crew 0) .basin).1) ∧
    (T.queueOf (.basin 0) 0).length + (((T.acting J pt).map (fun l => addr32 (T.operand J 0 l 5) 0 / 64)).eraseDups).length ≤ 64 ∧
    (let s := { T with reqs := (List.range 64).map (fun i => ⟨.basin 0, 0, .basin i 0, 0⟩) }
     readyB s nDA = true ∧ 64 < (s.queueOf (.basin 0) (s.worldNum (s.vdOf 0))).length + 1) := by decide +kernel
theorem wit_ResultsArrive :
    (let s := wLane T 2 (fun x => { x with pend := [{ id := 9, kind := .alu, base := 4, regs := [4], value := [5] }], st := .held })
     0 < s.crews.length ∧ 2 < (s.crew 0).lanes.length ∧ (((s.crew 0).lane 2).pend.find? (fun q => q.id == 9)).isSome = true ∧ (s.crew 0).entry = none ∧
     ((s.crew 0).lane 2).st = .held ∧ (4 : Nat) - 4 < 1 ∧ 4 < ((s.crew 0).lane 2).regs.length) ∧
    (wWg T (fun w => { w with saved := true })).wg (T.crew 0).wg = { T.wg 0 with saved := true } ∧
    (let o : BasinOp := { id := 3, vd := 1, crew := 0, core := 0, kind := 0, wd := .b32 }
     let s := { T with basinOps := [o] }
     s.basinOps.find? (fun q => q.id == o.id) = some o ∧ o.kind ≠ 1 ∧ o.dead = []) := by decide +kernel
/-- Tile 2 EMPTY, READY, DRAINING and FILLING in turn. -/
theorem wit_TileWords :
    let th : TileH := .imm 2 false
    let with' := fun x : Tile => wRegs (wWg T (fun w => w.setTile 2 x)) [(5, 512), (6, 1024), (8, 3)]
    let e := with' {}
    let r := with' { len := 2, base := 512, st := .ready, bitmap := 3 }
    let d := with' { len := 2, base := 512, st := .draining, bitmap := 3 }
    let f := with' { len := 2, base := 512, st := .filling, bitmap := 1 }
    (readyB e { src := [(5, 1), (6, 1)] ++ TileH.src th } = true ∧ e.tileOf J pt th = some (2, false) ∧ 2 < (e.wg 0).tiles.length ∧ e.sameOn J pt 0 5 = some 512 ∧
      e.sameOn J pt 1 6 = some 1024 ∧ 1024 % 512 = 0 ∧ 512 + 1024 ≤ (e.gridOf 0).near * 512 ∧ ((e.wg 0).tile 2).st = .empty ∧ ((e.wg 0).tile 2).phase = false ∧
      ((e.wg 0).tile 2).len = 0 ∧ ((r.wg 0).tile 2).st ≠ .empty) ∧
    (readyB r { src := TileH.src th } = true ∧ r.tileOf J pt th = some (2, false) ∧ r.acting J pt ≠ [] ∧ ((r.wg 0).tile 2).len ≠ 0 ∧ ((r.wg 0).tile 2).st = .ready ∧
      ((r.wg 0).tile 2).phase = false ∧ readyB r { dst := [(4, 1)], src := TileH.src th } = true ∧ readyB r { dst := [(4, 2)], src := TileH.src th } = true) ∧
    (readyB d { src := TileH.src th } = true ∧ ((d.wg 0).tile 2).st = .draining ∧ d.tileBusy 0 2 = false ∧ d.tileOf J pt th = some (2, false)) ∧
    (readyB f { src := (8, 2) :: TileH.src th } = true ∧ (∀ l ∈ f.acting J pt, f.operand64 J 0 l 8 = 3) ∧ (3#64).getLsbD 1 = true ∧ 1 < ((f.wg 0).tile 2).len ∧
      ((f.wg 0).tile 2).st = .filling ∧ 3#64 &&& ~~~((f.wg 0).tile 2).bitmap ≠ 0) ∧
    ((∀ l ∈ f.acting J pt, f.operand64 J 0 l 10 = 0) ∧ (∀ l ∈ r.acting J pt, r.operand64 J 0 l 8 = 3) ∧ 3#64 &&& ~~~((r.wg 0).tile 2).bitmap = 0) ∧
    (∀ l ∈ f.acting J pt, f.operand64 J 0 l 6 = 1024) ∧ (1024#64).getLsbD 10 = true ∧ ((f.wg 0).tile 2).len ≤ 10 := by decide +kernel
theorem wit_DrainAndFenceWords : Ready T J pt {} := ready _ rfl
/-- Set 0 has this crew alone, or this crew and crew 1; its phase is 0. -/
theorem wit_BarrierWords :
    let m : MusterH := .imm 0
    let two := wWg T (fun w => { w with musters := [{ member := 3 }] })
    let out := wLane T 7 (fun x => { x with preds := 1 })
    (readyB T { src := MusterH.src m } = true ∧ readyB T { dst := [(4, 1)], src := MusterH.src m } = true ∧ T.setOf J pt m = some 0 ∧ T.acting J pt ≠ [] ∧
      laneMask (T.acting J pt) = (T.crew 0).aliveMask ∧ 0 < (T.wg 0).musters.length ∧ ((T.wg 0).muster 0).member.getLsbD (T.crew 0).num = true ∧
      T.arriveWait (T.crew 0) (T.acting J pt) 0 = none ∧ ((T.wg 0).muster 0).arrival ||| (1#64 <<< (T.crew 0).num) = ((T.wg 0).muster 0).member ∧ 0 ∈ (T.wg 0).crews) ∧
    (readyB two { src := MusterH.src m } = true ∧ ((two.wg 0).muster 0).arrival ||| (1#64 <<< (two.crew 0).num) ≠ ((two.wg 0).muster 0).member ∧
      two.arriveWait (two.crew 0) (two.acting J pt) 0 = none) ∧
    (readyB T { src := (5, 1) :: MusterH.src m } = true ∧ (∀ l ∈ T.acting J pt, (T.operand J 0 l 5).toNat % 2 = 0) ∧ ((T.wg 0).muster 0).phase.toNat = 0 ∧
      (∀ l ∈ (wRegs T [(5, 1)]).acting J pt, ((wRegs T [(5, 1)]).operand J 0 l 5).toNat % 2 = 1) ∧ T.setOf J pt (.imm 3) = some 3 ∧ ¬ 3 < (T.wg 0).musters.length) ∧
    (readyB out { src := MusterH.src m } = true ∧ out.acting J ⟨0, false⟩ ≠ [] ∧ laneMask (out.acting J ⟨0, false⟩) ≠ (out.crew 0).aliveMask) := by decide +kernel

/-! ### Witnesses: pair, Barge and matrix words -/

def half1 : Half := ⟨.fmul, 8, 9, 7, 0⟩
theorem wit_PairWords : T.issue = some J ∧ J.crew < T.crews.length ∧ readyB T {} = true ∧
    (pairForms 7 1 2 3 33 half1).all (fun f => ((pairNeeds f.2 half1).check (T.crew 0) (T.gridOf 0).regs).isNone) = true ∧ T.badSram = [] ∧ (31#6).toNat < 32 := by
  decide +kernel

def p0 : Hdr := ⟨0, false⟩
def th : TileH := .imm 2 false
/-- A CPY crew with lane 7 alone active under p0, and tile 2 as given; manifest 0 is of one row of one element. -/
def C (x : Tile) : State := wLane (wCrew (wWg T (fun w => w.setTile 2 x)) (fun k => { k with role := 2 })) 7 (fun x => { x with preds := 1 })
theorem wit_BargeWords :
    let e := C { len := 1 }
    let r := C { len := 1, st := .ready }
    let wide := wGrid e (fun g => { g with mans := [{ rank := 2, box := [128, 2, 1, 1, 1], dims := [128, 2, 1, 1, 1] }] })
    (bargeForms p0 th 0 5 6).all (fun f => readyB e (bargeNeeds th 5 f.2.2)) = true ∧ e.acting J pt ≠ [] ∧ (e.acting J pt).length ≠ 1 ∧ e.acting J p0 = [7] ∧
    e.tileOf J p0 th = some (2, false) ∧ 2 < (e.wg 0).tiles.length ∧ ((e.wg 0).tile 2).len ≠ 0 ∧
    (((e.wg 0).tile 2).st = .empty ∧ ((r.wg 0).tile 2).st = .ready ∧ ((e.wg 0).tile 2).phase = false ∧ (e.bargeList 0 1).length < 16) ∧
    (let m := (e.gridOf 0).mans.getD 0 {}
     (m.packed + 511) / 512 ≤ 1 ∧ m.swz = 0 ∧ m.fmt ≠ 3 ∧ (e.operand J 1 7 6).toNat % 64 = 0 ∧ (e.operand J 1 7 6).toNat + m.packed ≤ (e.basinRange 0 0).2) ∧
    ¬ (((wide.gridOf 0).mans.getD 0 {}).packed + 511) / 512 ≤ 1 ∧ (wide.gridOf 0).mans.length ≤ 1 := by decide +kernel
/-- cpre, with room and with a list of 16. -/
theorem wit_BargeWords_cpre :
    let e := C {}
    let r : BReq := { id := 0, kind := .mig, vd := 1, wg := 0, crew := 0, lane := 0, core := 0 }
    let full := { e with bargeRs := List.replicate 16 r }
    readyB e { src := [(5, 5)], role := some 2 } = true ∧ e.acting J pt ≠ [] ∧ 0 < (e.gridOf 0).mans.length ∧
    (e.bargeList 0 1).length + (e.acting J pt).length ≤ 16 ∧ 16 < (full.bargeList 0 1).length + (full.acting J pt).length ∧
    (∀ l ∈ e.acting J pt, ((e.gridOf 0).mans.getD 0 {}).fmt ≠ 3) ∧ (wGrid e (fun g => { g with mans := [] })).gridOf 0 = { e.gridOf 0 with mans := [] } := by decide +kernel

/-- An MTX crew, its pool with four slots and two accumulators; lane 7 alone is active under p0. -/
def M : State :=
  let s := State.reset.withFetchWord 64 0x5B0C010404801B00
  wLane { s with grids := [{ s.grid 0 with regs := 16, fss := [{ fmt := 4 }, { fmt := 0 }, {}] }], crews := [{ crew0 with role := 1 }] } 7 (fun x => { x with preds := 1 })
/-- M with slot i of its pool as given. -/
def mSlot (s : State) (i : Nat) (f : OSlot → OSlot) : State := s.setSlot 0 0 i (f (((s.wg 0).pool 0).slot i))
theorem wit_MatrixSlotWords :
    let o : SlotH := .imm 1
    let own := mSlot M 1 (fun x => { x with owner := some 0 })
    let his := mSlot M 1 (fun x => { x with owner := some 5 })
    let rdy := wRegs (wWg own (fun w => w.setTile 2 { len := 4, st := .ready })) []
    (matrixForms pt 0 o (.imm 1 1) th 0 0 false none 4 5).all (fun f => readyB M { dst := f.2.1, src := f.2.2, role := some 1 }) = true ∧
    (M.acting J p0).length ≠ 8 ∧ M.acting J p0 ≠ [] ∧ (M.acting J pt).length = 8 ∧ M.slotOf J pt 0 o = some 1 ∧ M.slotOf J pt 0 (.imm 9) = some 9 ∧
    ((M.wg 0).pool 0).slots.length ≤ 9 ∧ 1 < ((M.wg 0).pool 0).slots.length ∧ (((M.wg 0).pool 0).slot 1).owner = none ∧ (((own.wg 0).pool 0).slot 1).owner = some 0 ∧
    (((his.wg 0).pool 0).slot 1).owner = some 5 ∧ (own.crewOps 0).any (fun q => q.op.names 1) = false ∧
    readyB rdy { src := SlotH.src o ++ (5, 1) :: TileH.src th, role := some 1 } = true ∧ rdy.sameOn J pt 1 5 = some 0 ∧ rdy.tileOf J pt th = some (2, false) ∧
    ((rdy.gridOf 0).fs 0).isOperand = true ∧ ((rdy.gridOf 0).fs 0).pitchFor ((rdy.gridOf 0).fs 0).operandRow 8 = some 64 ∧ 2 < (rdy.wg 0).tiles.length ∧
    ((rdy.wg 0).tile 2).st = .ready ∧ ((rdy.wg 0).tile 2).phase = false ∧ rdy.matRoom 0 0 .fill = true ∧ 0 + 31 * 64 + ((rdy.gridOf 0).fs 0).operandRow ≤ ((rdy.wg 0).tile 2).len * 512 := by
  decide +kernel
/-- A pending operation of the crew in the array's queue. -/
def mBusy (s : State) (n : Nat) : State := s.setUnit { s.matUnit 0 0 with arrQ := List.replicate n { id := 7, crew := 0, wg := 0, op := .mac 1 1 0 {} false false false 0 0 } }
theorem wit_MatrixSlotWords_busy : (mSlot (mBusy M 1) 1 (fun x => { x with owner := some 0 })).crewOps 0 ≠ [] ∧
    ((mSlot (mBusy M 1) 1 (fun x => { x with owner := some 0 })).crewOps 0).any (fun q => q.op.names 1) = true := by decide +kernel
theorem wit_MatrixArrayWords :
    let own := mSlot M 1 (fun x => { x with owner := some 0, fmt := some 4 })
    let h0 := M.setUnit { M.matUnit 0 0 with hists := (M.matUnit 0 0).hists.set 2 (some { base := 0, bins := List.replicate 32 0, spec := 0 }) }
    (M.acting J pt).length = 8 ∧ readyB M { role := some 1 } = true ∧ M.crewOps 0 = [] ∧ (mBusy M 1).crewOps 0 ≠ [] ∧ M.matRoom 0 0 .array = true ∧
    (mBusy M 64).matRoom 0 0 .array = false ∧ (1#3).toNat < ((M.wg 0).pool 0).accs.length ∧ ((M.wg 0).pool 0).accs.length ≤ (7#3).toNat ∧
    (readyB own { src := SlotPair.src (.imm 1 1), role := some 1 } = true ∧ own.pairOf J pt (.imm 1 1) = some (1, 1) ∧ 1 < ((own.wg 0).pool 0).slots.length ∧
      (((own.wg 0).pool 0).slot 1).owner = some 0 ∧ (((own.wg 0).pool 0).slot 1).fmt = some ((own.gridOf 0).fs 0).fmt ∧ ((own.gridOf 0).fs 0).fmt ≠ 15 ∧
      ((own.gridOf 0).fs 0).rm = .rne ∧ ((own.gridOf 0).fs 0).fmt = 4) ∧
    (readyB M { src := [(5, 1)], role := some 1 } = true ∧ M.sameOn J pt 0 5 = some 0 ∧ ((M.gridOf 0).fs 1).fmt = 0 ∧ ((M.gridOf 0).fs 1).sfmt ≠ 1 ∧ ((M.gridOf 0).fs 1).ov ≠ .trap ∧
      ((M.gridOf 0).fs 1).pitchFor (32 * 4) 4 = some 128 ∧ ((M.gridOf 0).fs 1).esz = 4 ∧ 0 + 31 * 128 + 32 * 4 ≤ (M.gridOf 0).near * 512) ∧
    (readyB M { dst := [(8, 4)], src := [(5, 1)], role := some 1 } = true ∧ (wRegs M [(5, 32)]).sameOn J pt 0 5 = some 32 ∧ M.arrayOps 0 = [] ∧ (mBusy M 1).arrayOps 0 ≠ [] ∧
      (∀ m < 32, M.accBad 0 0 1 (32 * 31 + m) = false)) ∧
    (readyB M { dst := [(8, 1)], src := [(5, 1)], role := some 1 } = true ∧ (wRegs M [(5, 5)]).sameOn J pt 0 5 = some 5 ∧ ((h0.matUnit 0 0).hists.getD 2 none).isSome = true ∧
      h0.arrayOps 0 = []) := by decide +kernel
/-- A slot of FMT f32 is no operand of xmac.sat. -/
theorem wit_MatrixArrayWords_format : ¬ (((M.gridOf 0).fs 1).fmt ≠ 15 ∧ ((M.gridOf 0).fs 1).rm = .rne ∧ (true = true → ((M.gridOf 0).fs 1).fmt = 4)) := by decide +kernel

/-! ### Witnesses: far, Kiteline and Wharf words -/

/-- A lookup of page 0 by the crew's word, which has come to a leaf in the package itself. -/
def lookup (acc : Nat) : TJob := { id := 5, vd := 1, core := 0, va := 0, acc := acc, keyid := 1, cont := .word 0, stage := .spent, res := some (.leaf { w := true, r := true, keyid := 1 }) }
theorem wit_FarWords :
    let fs := farForms T J pt 0 .b32 .b32 .add .i32 false 8 4 6 7 none 0 0
    let far := wRegs T [(5, 0x02000000)]
    let odd := wRegs T [(4, 2)]
    let done := { T with jobs := [lookup 1] }
    let full := { T with reqs := List.replicate 60 ⟨.ctlb 0, 0, .tlb 9, 0⟩ }
    fs.all (fun f => readyB T f.needs) = true ∧ T.acting J pt ≠ [] ∧
    ((∀ l ∈ T.acting J pt, (T.operand64 J 0 l 4).toNat % 4 = 0 ∧ (T.operand64 J 0 l 4).toNat < 2 ^ 57) ∧ (odd.operand64 J 0 0 4).toNat % 4 ≠ 0 ∧ (∀ m ∈ odd.acting J pt, ¬ m < 0) ∧
      2 ^ 57 ≤ (far.operand64 J 0 0 4).toNat ∧ (∀ l ∈ far.acting J pt, (far.operand64 J 0 l 4).toNat % 4 = 0)) ∧
    ((asksByLine (T.acting J pt) (fun _ => 0) (fun _ => ([], 15))).length = 1 ∧ T.wordJob 0 0 1 = none ∧ (T.queueOf (.ctlb 0) 0).length + 8 ≤ 64 ∧ 64 < (full.queueOf (.ctlb 0) 0).length + 8) ∧
    ((done.issueWord J).pageResult 0 { op := .write, wd := .b32, acc := 1, src := 1 } 0 = some (.leaf { w := true, r := true, keyid := 1 }) ∧ (done.issueWord J).reserved 1 0 + 8 ≤ 256 ∧
      (done.issueWord J).farMustWait 0 0 0 4 false (some 0) = false ∧ (∀ l ∈ done.acting J pt, (done.issueWord J).laneSideLog 0 l = []) ∧
      (∀ l ∈ done.acting J pt, ((done.crew 0).lane l).flags.length < 4) ∧ (done.queueOf (.hbm 0) 0).length + 8 ≤ 64 ∧
      (done.issueWord J).farTarget 1 1 .write { w := true, r := true, keyid := 1 } 0 8 = some (.hbm 0, 0)) := by decide +kernel
theorem wit_KiteWords :
    let far := wRegs T [(5, 65534)]
    let full := wVd T (fun d => { d with kq := List.replicate 60 { b := {} } })
    let mine := wVd T (fun d => { d with kq := [{ b := {}, crew := 0, lane := 3 }] })
    readyB T { src := [(5, 1), (6, Width2.count .b32)] } = true ∧ readyB T { dst := [(8, 1)], src := [(5, 1), (6, 1)] } = true ∧
    readyB T { dst := [(8, Width2.count .b64)], src := [(5, 1)] } = true ∧ readyB T { src := [(5, 1), (6, 1), (7, 1)] } = true ∧ T.acting J pt ≠ [] ∧
    (∀ l ∈ T.acting J pt, addr32 (T.operand J 0 l 5) 0 + 8 ≤ 65536 ∧ addr32 (T.operand J 0 l 5) 0 % 8 = 0) ∧ 65536 < addr32 (far.operand J 0 0 5) 0 + 4 ∧
    64 < (full.vd 1).kq.length + (full.acting J pt).length ∧ (T.vd 1).kq.length + (T.acting J pt).length ≤ 64 ∧ T.starLost = false ∧ 1 < T.vds.length ∧ T.vdOf 0 = 1 ∧
    mine.kiteBehind 1 0 3 0 4 = true ∧ (∀ l ∈ T.acting J pt, T.kiteBehind 1 0 l 0 4 = false) ∧
    (∀ l ∈ T.acting J pt, ival true (BitVec.ofNat 32 (ofBytes ((T.vd 1).cells.read 0 4)) &&& T.operand J 2 l 7) = ival true (T.operand J 1 l 6)) := by decide +kernel
theorem wit_KiteWords_condition : condOf .eq (ival true 0) (ival true 0) ∧ ¬ condOf .ne (ival true 0) (ival true 0) := ⟨rfl, fun h => h rfl⟩
/-- Rank 0 is VD 1 of this package. -/
def W (x : Tile) : State := wVd (C x) (fun d => { d with ranks := [(0, 0x80000400)] })
theorem wit_WharfPostingWords :
    let r := W { len := 2, st := .ready }
    let e := W { len := 2 }
    let off := wVd r (fun d => { d with ranks := [] })
    (readyB r { dst := [(4, 1)], src := (5, 1) :: (6, 2) :: WEnd.src (.tile th) } = true ∧ readyB e { dst := [(4, 1)], src := (6, 2) :: (8, 2) :: WEnd.src (.tile th) } = true ∧
      r.acting J p0 = [7] ∧ (r.acting J pt).length ≠ 1 ∧ r.acting J pt ≠ []) ∧
    ((off.vd 1).rankEntry 0).msb = false ∧ ((r.vd 1).rankEntry 0).msb = true ∧ (r.vd 1).freeTx = some 0 ∧ (e.vd 1).freeRx = some 0 ∧
    r.endReady (r.crew 0) (some (2, false)) .ready = true ∧ e.endReady (e.crew 0) (some (2, false)) .ready = false ∧ e.endReady (e.crew 0) (some (2, false)) .empty = true ∧
    (r.operand64 J 1 7 6 >>> 32).toNat ≤ 1024 ∧ (WPlace.tile 0 2).coordBad = none ∧ r.tileHurt 0 2 0 = false ∧ (e.queueOf .wharf 0).length < 64 ∧
    ((e.operand64 J 0 7 6) >>> 32).toNat + 8 ≤ (e.gridOf 0).near * 512 ∧ ((e.operand64 J 0 7 6) >>> 32).toNat % 8 = 0 := by decide +kernel
theorem wit_WharfPostingWords_end : (W { len := 2 }).endOf J p0 (.tile th) 7 = .ok (.tile 0 2, 1024, some (2, false)) := rfl
theorem wit_WharfQueryWords :
    let full := { T with reqs := List.replicate 60 ⟨.wharf, 0, .mstep, 0⟩ }
    let run := wRegs (wVd T (fun d => { d with rxs := [{ gen := 1, live := true, st := .posted }] })) [(5, handleWord false 1 0)]
    readyB T { src := [(5, 1)] } = true ∧ readyB T { dst := [(8, 2)], src := [(5, 1), (6, 2)] } = true ∧ readyB T { dst := [(8, 2)], src := [(5, 1)] } = true ∧ T.acting J pt ≠ [] ∧
    64 < (full.queueOf .wharf (full.worldNum (full.vdOf 0))).length + (full.acting J pt).length ∧ ¬ 64 < (T.queueOf .wharf (T.worldNum (T.vdOf 0))).length + (T.acting J pt).length ∧
    1 < T.vds.length ∧ ((run.vd 1).handleStat (run.operand J 0 0 5)).final = false ∧ (∀ l ∈ T.acting J pt, ((T.vd 1).handleStat (T.operand J 0 l 5)).final = true) := by
  decide +kernel

/-! ### Witnesses: command processor, dispatcher, rota -/

/-- T with a page table: 1 GiB from address 0 is mapped to frame 0, readable and writable under KeyID 1. -/
def P : State :=
  let s := wVd T (fun d => { d with root := 0x1000 })
  ((s.houseWrite 0x1000 (toBytes 8 0x2001)).houseWrite 0x2000 (toBytes 8 0x3001)).houseWrite 0x3000 (toBytes 8 (0x17 + 2 ^ 44))
def c0 : CtxRef := ⟨1, 0⟩
/-- Context 0 of VD 1 of s, changed. -/
def wCtx (s : State) (f : Ctx → Ctx) : State := s.setCtx c0 (f (s.ctx c0))
def running (x : Ctx) : Ctx := { x with st := .running }
/-- An entry with COUNT 2 that asks for a word other than 7 at address 0x5000, where nothing has been written. -/
def ent : Entry := { cnt := 2, cmp := 1, w64 := false, irq := true, addr := 0x5000, value := 7, mask := 0xFFFFFFFF }
def okTrue (c : Cp α) (f : α → Bool) : Bool := match c with | .ok a => f a | .error _ => false

theorem wit_CommandEntries :
    let r := wCtx P running
    let busy := { r with grids := [{ r.grid 0 with st := .active }] }
    let idle := { r with grids := [] }
    let w := wCtx r (fun x => { x with st := .waiting, held := some (.waitvReread c0 ent) })
    ((P.ctx c0).st = .idle ∧ (P.vd 1).released = false ∧ (P.vd 1).run = .running ∧ ((wVd P (fun d => { d with run := .halted })).ctx c0).st = .idle) ∧
    ((r.ctx c0).active = true ∧ (r.ctx c0).stack = [] ∧ ent.addr.toNat % 32 = 0 ∧ { ent with addr := 4 }.addr.toNat % 32 ≠ 0 ∧ Entry.aligned ent = true ∧
      Entry.aligned { ent with addr := 2 } = false ∧ ent.cmp ≠ 7 ∧ ent.cnt ≠ 0 ∧ ((wCtx r (fun x => { x with stack := List.replicate 8 0 })).ctx c0).stack.length = 8) ∧
    busy.earlierDone c0 = false ∧ idle.earlierDone c0 = true ∧
    okTrue (idle.condition c0 ent) (compareHolds ent) = true ∧ okTrue (r.condition c0 { ent with cmp := 0 }) (fun x => !compareHolds { ent with cmp := 0 } x) = true ∧
    ((w.ctx c0).active = true ∧ (w.ctx c0).st = .waiting ∧ (w.ctx c0).held = some (.waitvReread c0 ent) ∧ okTrue (w.condition c0 ent) (compareHolds ent) = true) ∧
    okTrue (idle.cpMayWrite 1 (idle.ctx c0).keyid ent.addr.toNat (Entry.bytes ent)) (fun _ => true) = true ∧
    okTrue (idle.cpRead 1 (idle.ctx c0).keyid ent.addr.toNat ent.value.toNat) (fun bs => bs.length == 7) = true ∧
    okTrue (idle.cpMayWrite 1 (idle.ctx c0).keyid ent.addr.toNat 400) (fun _ => true) = true ∧
    ((r.ctx c0).made = none ∧ ent.addr.toNat % 256 = 0 ∧ 0x5010 % 256 ≠ 0 ∧ r.liveGrids 1 < 64 ∧
      64 ≤ State.liveGrids { r with grids := List.replicate 64 (r.grid 0) } 1) ∧
    ((r.grid 0).cbmp = 0 ∧ (r.grid 0).prod = none ∧ (r.grid 0).meas = false) := by decide +kernel
/-- A frozen host, a receipt on its way, and a launch record of zeros. -/
theorem wit_CommandEntries_stops :
    let r := wCtx P running
    let idle := { r with grids := [] }
    let posted : State := { idle with fars := [{ id := 9, vd := 1, src := .cp 0 .receipt, op := .write, keyid := 1 }] }
    P.health.hfrz = false ∧ { P with health := { P.health with hfrz := true } }.health.hfrz = true ∧ idle.putPending 1 0 .receipt = false ∧
    posted.earlierDone c0 = true ∧ posted.putPending 1 0 .receipt = true ∧
    (match idle.makeLaunch c0 0x5000 1 with | .error .invalid => true | _ => false) = true := by decide +kernel

/-- Words laid out from an address on. -/
def putWords (m : Memory) (a : Nat) (ws : List Nat) : Memory := m.write a (ws.flatMap (toBytes 8))
/-- A region of one page at 0x10000, its tree's one node as `top`. -/
def codePage (top : List Byte) : SRegion := { num := 0, vd := 1, pfn := 16, len := 1, keyid := 1, tree := 32, gen := 1, st := .sealed, top := top }
/-- P with a code header at 0x10000, a launch record at 0x6000, and a muster of one crew at 0x7000. -/
def L0 : State :=
  let r := wCtx P running
  { r with
    digests := [({ region := 0, gen := 1, pages := [0x10000], len := 192 }, List.replicate 64 0)],
    mem := putWords (putWords (putWords r.mem 0x10000 [0x14E595352, 0x800000080, 192, 0xFFFFFFFF00000000, 0x8000000000, 0x100000000]) 0x6000
      ([0x10000, 0, 0x8000000000, 0x100000000, 0x7000, 0, 0x7100, 0, 0, 0, 0, 0, 0, 0, 0, 1] ++ (List.replicate 8 [15, 0]).flatten)) 0x7000 [1] }
/-- The node that the page calls for, and the state in which the page is sealed by it. -/
def sealBy (s : State) (top : List Byte) : State := { s with sealed := [codePage top] }
def launches (s : State) : State := s.setCtx c0 { s.ctx c0 with st := .running, held := none }
def codeTop : List Byte := (launches L0).blockMac (codePage []) 0
def L : State := sealBy (launches L0) codeTop

/-! A launch whose code lies in a sealed page: the page's node is left as the page calls for it, so that no cipher is computed here. -/

theorem sealed_ok (s : State) (r : SRegion) (line b : Nat) (w : List Nat) (h1 : s.badHalves = [])
    (h3 : r.st = .sealed) (h4 : r.blockOf line = b) (h5 : r.path b = []) (h6 : (s.blockMac r b != s.treeEntry r 1 b w) = false) : s.sealCheck r line w = (true, r) := by
  have hurt : s.lineHurt = fun _ => false := by funext l; unfold State.lineHurt; rw [h1]; rfl
  unfold State.sealCheck
  rw [h3, h4]
  dsimp only
  rw [h5, h6, hurt]
  simp
theorem sealed_reads (s : State) (r : SRegion) (line key : Nat) (w : List Nat) (h1 : s.badHalves = []) (h2 : s.sealedOf line = some r)
    (h3 : r.st = .sealed) (h4 : r.blockOf line = 0) (h5 : r.path 0 = []) (h6 : (s.blockMac r 0 != s.treeEntry r 1 0 w) = false) :
    (s.lineRead line key w).1 = some (s.linePlain line key w) := by
  have hc : (s.checkLine line key w).1 = true := by
    unfold State.checkLine
    rw [h2]
    dsimp only
    unfold State.checkSealed
    rw [sealed_ok _ r line 0 w h1 h3 h4 h5 h6]
  unfold State.lineRead
  dsimp only
  rw [hc, if_pos rfl]
theorem blockMac_kept (s : State) (top : List Byte) : State.blockMac (sealBy s top) (codePage top) 0 = s.blockMac (codePage []) 0 := by
  simp only [State.blockMac, State.treeMac, State.lineCipher, State.lineKey, State.keyOf, sealBy, codePage]
theorem blockMac_take (s : State) (r : SRegion) (b : Nat) : (s.blockMac r b).take 8 = s.blockMac r b := by
  unfold State.blockMac State.treeMac
  rw [List.take_take, Nat.min_self]
theorem treeEntry_top (s : State) (r : SRegion) (w : List Nat) (h : r.height ≤ 1) : s.treeEntry r 1 0 w = r.top.take 8 := by
  unfold State.treeEntry State.nodeBytes
  rw [if_pos h]
  rfl
theorem page_holds (s : State) (w : List Nat) : let top := s.blockMac (codePage []) 0
    (State.blockMac (sealBy s top) (codePage top) 0 != State.treeEntry (sealBy s top) (codePage top) 1 0 w) = false := by
  intro top
  rw [treeEntry_top _ (codePage top) w (by simp only [SRegion.height, SRegion.blocks, codePage]; decide), blockMac_kept]
  have f : (codePage top).top.take 8 = s.blockMac (codePage []) 0 := by
    rw [show ∀ t, (codePage t).top = t from fun _ => rfl]
    exact blockMac_take s (codePage []) 0
  rw [f]
  exact bne_self_eq_false _
theorem page_found (line : Nat) (h : line = 0x400 ∨ line = 0x401) : L.sealedOf line = some (codePage codeTop) := by
  unfold State.sealedOf
  rw [show L.sealed = [codePage codeTop] by unfold L sealBy; rfl]
  rcases h with rfl | rfl <;> exact List.find?_cons_of_pos (by simp only [codePage]; decide)
theorem page_reads (line : Nat) (h : line = 0x400 ∨ line = 0x401) (w : List Nat) : (L.lineRead line 1 w).1 = some (L.linePlain line 1 w) :=
  sealed_reads L (codePage codeTop) line 1 w (by decide +kernel) (page_found line h) (by unfold codePage; rfl) (by simp only [SRegion.blockOf, codePage]; rcases h with rfl | rfl <;> decide)
    (by simp only [SRegion.path, SRegion.height, SRegion.blocks, codePage]; decide) (page_holds (launches L0) w)
theorem okTrue_eq {α : Type} [BEq α] [LawfulBEq α] {c : Cp α} {a : α} (h : okTrue c (fun x => x == a) = true) : c = .ok a := by
  cases c with
  | error e => exact absurd h (by simp [okTrue])
  | ok x => exact congrArg Except.ok (eq_of_beq h)
theorem page_extent : L.cpExtent 1 1 0x10000 192 (codePage codeTop) = .ok [0x10000] := okTrue_eq (by decide +kernel)
theorem okTrue_some {α : Type} {c : Cp α} {f : α → Bool} (h : okTrue c f = true) : ∃ a, c = .ok a ∧ f a = true := by
  cases c with
  | error e => exact absurd h (by simp [okTrue])
  | ok x => exact ⟨x, rfl, h⟩
def leaf0 : Leaf := { size := 2 ^ 30, keyid := 1, w := true, r := true }
theorem cpLine_ok (s : State) (v key va : Nat) (l : Leaf) (bs : List Byte) (e : s.cpLeaf v key va false = .ok l) (k : (l.host || l.pkg != s.pkg) = false)
    (r : (s.lineRead (l.addr (va / 64 * 64) / 64) l.keyid (s.stamp v)).1 = some bs) : s.cpLine v key va = .ok bs := by
  unfold State.cpLine
  rw [e]
  dsimp only
  rw [k, if_neg Bool.false_ne_true, r]
theorem page_line (va : Nat) (h : va = 0x10000 ∨ va = 0x10040) : L.cpLine 1 1 va = .ok (L.linePlain (va / 64) 1 (L.stamp 1)) := by
  have e : L.cpLeaf 1 1 va false = .ok leaf0 := by rcases h with rfl | rfl <;> exact okTrue_eq (by decide +kernel)
  have a : leaf0.addr (va / 64 * 64) / 64 = va / 64 := by rcases h with rfl | rfl <;> decide
  have r := page_reads (va / 64) (by rcases h with rfl | rfl <;> decide) (L.stamp 1)
  rw [← a] at r
  have q := cpLine_ok L 1 1 va leaf0 _ e (by decide +kernel) r
  rw [a] at q
  exact q
theorem cpRead_two (s : State) (v key a : Nat) (x y : List Byte) (h0 : a % 64 = 0) (hx : s.cpLine v key a = .ok x) (hy : s.cpLine v key (a + 64) = .ok y) (hl : (x ++ y).length = 128) :
    s.cpRead v key a 128 = .ok (x ++ y) := by
  obtain ⟨k, rfl⟩ : ∃ k, a = k * 64 := ⟨a / 64, by omega⟩
  have e1 : (k * 64 + 128 - 1) / 64 + 1 - k * 64 / 64 = 2 := by omega
  have e2 : k * 64 / 64 = k := by omega
  have m0 : max (k * 64) (k * 64) = k * 64 := Nat.max_self _
  have m1 : max (k * 64) ((k + 1) * 64) = k * 64 + 64 := by omega
  unfold State.cpRead
  rw [e1, e2]
  simp only [show (128 = 0) = False from by simp, if_false, List.range_succ, List.range_zero, List.nil_append, List.singleton_append, List.map_cons, List.map_nil, Nat.add_zero,
    List.mapM_cons, List.mapM_nil, m0, m1, hx, hy, bind, Except.bind, pure, Except.pure]
  rw [h0]
  simp only [List.flatten_cons, List.flatten_nil, List.append_nil, List.drop_zero]
  rw [List.take_of_length_le (by omega)]
/-- The page's first 128 bytes. -/
def headBytes : List Byte := L.linePlain (0x10000 / 64) 1 (L.stamp 1) ++ L.linePlain (0x10040 / 64) 1 (L.stamp 1)
theorem head_reads : L.cpRead 1 1 0x10000 128 = .ok headBytes :=
  cpRead_two L 1 1 0x10000 _ _ (by decide) (page_line 0x10000 (.inl rfl)) (page_line 0x10040 (.inr rfl)) (by decide +kernel)
theorem make_ok (s : State) (c : CtxRef) (addr n : Nat) (raw hw ms args : List Byte) (l : LaunchRec) (r : SRegion) (hd : Header) (d : CodeKey × List Byte) (pas : List Nat)
    (h1 : s.cpRead c.vd (s.ctx c).keyid addr 256 = .ok raw) (h2 : parseLaunch (wordsOf raw) = some l) (h3 : s.codeRegion c.vd (s.ctx c).keyid l.code = .ok r)
    (h4 : s.cpRead c.vd (s.ctx c).keyid l.code 128 = .ok hw) (h5 : parseHeader (wordsOf hw) = some hd) (h6 : s.cpRead c.vd (s.ctx c).keyid l.muster (8 * l.mcount) = .ok ms)
    (h7 : l.mancnt = 0) (h8 : l.rcount = 0) (h9 : l.grid.form = 0) (h10 : l.grid.cor = false) (h11 : headerAgrees (wordsOf raw) hd = true)
    (h12 : musterOk (wordsOf ms) l.grid.crews = true) (h13 : (l.opn != ((s.allotOfVd c.vd).cls == .opn)) = false) (h14 : ¬ 32 * Allot.mostBanks (s.allotOfVd c.vd) < l.grid.near)
    (h14' : s.cpExtent c.vd (s.ctx c).keyid l.code hd.extent r = .ok pas)
    (h15 : s.digests.find? (fun d => d.1 == ⟨r.num, r.gen, pas, hd.extent⟩) = some d)
    (h16 : s.cpRead c.vd (s.ctx c).keyid l.args l.argLen = .ok args) (h17 : l.grid.cbmp = 0) : ∃ m, s.makeLaunch c addr n = .ok m ∧ m.cached = true := by
  have z0 : ∀ a, s.cpRead c.vd (s.ctx c).keyid a 0 = .ok [] := fun a => rfl
  have z1 : wordsOf [] = [] := rfl
  have z2 : regionsOf [] = some [] := rfl
  unfold State.makeLaunch
  dsimp only
  rw [h1]
  simp only [bind, Except.bind, h2, pure, Except.pure, h3, State.cpWords, h4, Except.map, h5, h6, h7, h8, h9, Nat.mul_zero, z0, z1, z2, List.mapM_nil, if_true]
  simp only [h10, h11, h12, h13, h14, Bool.not_true, Bool.or_false, decide_false, Bool.false_and, Bool.false_eq_true, if_false, State.codeDigest, h14', bind, Except.bind, pure, Except.pure, h15, h16, h17,
    State.cpMayWrite, if_true]
  exact ⟨_, rfl, rfl⟩
def rawBytes : List Byte := ([0x10000, 0, 0x8000000000, 0x100000000, 0x7000, 0, 0x7100, 0, 0, 0, 0, 0, 0, 0, 0, 1] ++ (List.replicate 8 [15, 0]).flatten).flatMap (toBytes 8)
def rawRec : LaunchRec := (parseLaunch (wordsOf rawBytes)).getD { code := 0, muster := 0, mcount := 0, mantab := 0, mancnt := 0, args := 0, argLen := 0, regions := 0, rcount := 0, pseq := 0, opn := false, grid := {} }
def headRec : Header := (parseHeader (wordsOf headBytes)).getD default
theorem codeRegion_ok (s : State) (v key va : Nat) (l : Leaf) (r : SRegion) (e : s.cpLeaf v key va false = .ok l) (k : (l.host || l.pkg != s.pkg) = false)
    (f : s.sealedOf (l.addr va / 64) = some r) (g : (r.st == .sealed) = true) : s.codeRegion v key va = .ok r := by
  unfold State.codeRegion
  simp only [e, bind, Except.bind, k, Bool.false_eq_true, if_false, f, g, if_true]
theorem launch_made : ∃ m, L.makeLaunch c0 0x6000 1 = .ok m ∧ m.cached = true := by
  have hk : (L.ctx c0).keyid = 1 := by decide +kernel
  have hc : rawRec.code = 0x10000 := by decide +kernel
  have hl : leaf0.addr 0x10000 / 64 = 0x400 := by decide
  have he : headRec.extent = 192 := by decide +kernel
  refine make_ok L c0 0x6000 1 rawBytes headBytes (toBytes 8 1) [] rawRec (codePage codeTop) headRec ({ region := 0, gen := 1, pages := [0x10000], len := 192 }, List.replicate 64 0) [0x10000] ?_ ?_ ?_ ?_ ?_ ?_ ?_ ?_ ?_ ?_ ?_ ?_ ?_ ?_ ?_ ?_ ?_ ?_
  · exact okTrue_eq (by decide +kernel)
  · decide +kernel
  · rw [hk, hc]
    exact codeRegion_ok L 1 1 0x10000 leaf0 _ (okTrue_eq (by decide +kernel)) (by decide +kernel) (by rw [hl]; exact page_found 0x400 (.inl rfl)) (by simp only [codePage]; rfl)
  · rw [hk, hc]
    exact head_reads
  · decide +kernel
  · exact okTrue_eq (by decide +kernel)
  · decide +kernel
  · decide +kernel
  · decide +kernel
  · decide +kernel
  · decide +kernel
  · decide +kernel
  · decide +kernel
  · decide +kernel
  · rw [hk, hc, he]
    exact page_extent
  · decide +kernel
  · exact okTrue_eq (by decide +kernel)
  · decide +kernel

theorem launches_sealBy (s : State) (top : List Byte) : launches (sealBy s top) = sealBy (launches s) top := by
  simp only [launches, sealBy, State.setCtx, State.setVd, State.ctx, State.vd]
theorem wit_CommandEntries_launch :
    let s := sealBy L0 codeTop
    (s.ctx c0).active = true ∧ (s.ctx c0).made = none ∧ 0x6000 % 256 = 0 ∧ s.liveGrids 1 < 64 ∧
    ∃ m, (s.setCtx c0 { s.ctx c0 with st := .running, held := none }).makeLaunch c0 0x6000 ((s.ctx c0).launch + 1) = .ok m := by
  have hn : ((sealBy L0 codeTop).ctx c0).launch + 1 = 1 := by decide +kernel
  refine ⟨by decide +kernel, by decide +kernel, by decide, by decide +kernel, ?_⟩
  have h : launches (sealBy L0 codeTop) = L := launches_sealBy L0 codeTop
  unfold launches at h
  rw [h, hn]
  exact ⟨_, launch_made.choose_spec.1⟩

/-- T before its workgroup was placed. -/
def Q : State := { T with grids := [{ T.grid 0 with nextWg := 0 }], wgs := [], crews := [], issue := none }
theorem wit_PlacementEvents :
    let co := wGrid Q (fun g => { g with cor := true })
    let wide := wGrid co (fun g => { g with tiles := 300 })
    let items := wGrid T (fun g => { g with lastItem := 100, queues := [{ core := 0, fell := some 0 }] })
    let f : Fill := { id := 3, core := 0, part := 0, grid := 0, va := 64, data := some (List.replicate 64 0) }
    (Q.passNext 1 = none ∧ 0 < Q.grids.length ∧ Grid.wants (Q.grid 0) 1 = true ∧ (Q.grid 0).cor = false ∧ Q.depsMet (Q.grid 0) (Q.grid 0).nextWg = true ∧
      (Q.findCore 1 (Q.grid 0)).isSome = true) ∧
    (wWg T (fun w => { w with placed := false })).passNext 1 = some 0 ∧
    (Grid.wants (co.grid 0) 1 = true ∧ (co.grid 0).nextWg = 0 ∧ (co.grid 0).cor = true ∧ (∀ w < (co.grid 0).size, co.depsMet (co.grid 0) w = true) ∧
      (State.reserveAll (co.grid 0).size co 0).isSome = true ∧ Grid.wants (wide.grid 0) 1 = true ∧ (∀ w < (wide.grid 0).size, wide.depsMet (wide.grid 0) w = true) ∧
      State.reserveAll (wide.grid 0).size wide 0 = none) ∧
    ((∀ c ∈ (T.wg 0).crews, c < T.crews.length) ∧ (T.wg 0).crews = [0] ∧ (T.crew 0).live = true) ∧
    ((items.grid 0).queues.any (fun q => q.core == 0 && q.fell.isSome) = true ∧ (items.grid 0).nextItem < (items.grid 0).lastItem) ∧
    (State.fills { T with fills := [f] }).find? (fun (x : Fill) => x.id == f.id) = some f ∧ f.data = some (List.replicate 64 0) := by decide +kernel
/-- A mstep of world 0 waits; slot 0 is owned by world 0, and in a layout of its own by nobody. -/
theorem wit_AcceptanceFollowsTheRota :
    let r : Req := ⟨.wharf, 0, .mstep, 0⟩
    let s := { T with reqs := [r] }
    let padded := wVd T (fun d => { d with run := .saving })
    let halted := wVd { T with reqs := [⟨.wharf, 0, .land 0, 0⟩] } (fun d => { d with run := .halted })
    let line : Far := { id := 9, vd := 1, src := .barge 4 0, op := .read, keyid := 1, st := .home }
    let served : State := { padded with reqs := [⟨.hbm 0, 0, .access 9, 0⟩], fars := [line], t := 8 }
    s.acceptNow .wharf = some r ∧ (∀ q, s.acceptNow .cp = some q → q.world ≠ 0) ∧ s.ownerOf (s.slotAt s.t) = some 0 ∧ s.vdOfWorld 0 = some 1 ∧ (s.vd 1).released = false ∧
    (s.vd 1).run ≠ .off ∧ (s.vd 1).run ≠ .starting ∧ s.padRuns 0 = false ∧ (padded.vd 1).run ≠ .off ∧ padded.padRuns 0 = true ∧
    (halted.acceptNow .wharf = some ⟨.wharf, 0, .land 0, 0⟩ ∧ halted.worldRuns 0 = false ∧ halted.padRuns 0 = false) ∧
    (served.acceptNow (.hbm 0) = some ⟨.hbm 0, 0, .access 9, 0⟩ ∧ served.worldRuns 0 = false ∧ served.padRuns 0 = true) ∧
    (let late := { s with t := 63 }
     lastPosition late.rotaS (.hbm 0) < late.posAt late.t) := by decide +kernel

/-! ### Witnesses: translations, homes, packets, messages -/

def rw0 : Leaf := { w := true, r := true, keyid := 1 }
/-- A far request of VD 1 to page 0, and a lookup for it with a result. -/
def far0 : Far := { id := 9, vd := 1, src := .store 0 [0], op := .write, keyid := 1, leaf := some rw0 }
def job0 (cont : TCont) (stage : TStage) (res : TRes) : TJob := { id := 5, vd := 1, core := 0, va := 0, acc := 1, keyid := 1, cont := cont, stage := stage, res := some res }
theorem wit_TranslationAndBargeEvents :
    let s := fun (j : TJob) => { T with jobs := [j], fars := [far0] }
    let w := job0 (.word 0) .core (.leaf rw0)
    let f := job0 (.far 9) .l2 (.leaf rw0)
    let fa := job0 (.far 9) (.walk 1 0) (.absent 0)
    let fv := job0 (.far 9) .l2 .violation
    ((s w).job 5 = some w ∧ w.stage = .core ∧ w.cont = .word 0 ∧ TJob.result (s w) w = .leaf rw0) ∧
    ((s f).job 5 = some f ∧ f.stage = .l2 ∧ f.cont = .far far0.id ∧ (s f).farReq far0.id = some far0 ∧ TJob.result (s f) f = .leaf rw0 ∧ far0.st = .translating ∧
      f.res = some (.leaf rw0) ∧ (∀ sc ∈ f.stale, InvScope.meets sc rw0.va rw0.size = false)) ∧
    ((s fa).job 5 = some fa ∧ fa.stage = .walk 1 0 ∧ TJob.result (s fa) fa = .absent 0) ∧ TJob.result (s fv) fv = .violation ∧
    (let h := fun c => job0 c (.held 1) (.absent 0)
     (s (h (.cp (.endE c0)))).job 5 = some (h (.cp (.endE c0))) ∧ (s (h (.entry 0))).job 5 = some (h (.entry 0)) ∧ (s (h (.far 9))).job 5 = some (h (.far 9)) ∧ (h (.far 9)).stage = .held 1) ∧
    (let d := wVd T (fun d => { d with recs := [{ va := 0 }, { va := 4096 }] })
     let full := wVd d (fun d => { d with fqProd := 16 })
     (d.vd 1).recs = [{ va := 0 }, { va := 4096 }] ∧ (d.vd 1).recordRoom = true ∧ (full.vd 1).recordRoom = false) ∧
    (let g := { far0 with st := .sideLog }
     State.logReady { T with fars := [g] } g = true ∧ State.logReady { T with fars := [{ g with id := 8 }, g] } g = false) ∧
    (let man : Manifest := { rank := 1, dims := [1], box := [1], strides := [0] }
     let r : BReq := { id := 4, vd := 1, man := man, coords := [0], lines := [{ va := 0, leaf := some rw0, st := .done }], chunks := [0] }
     let u := { T with bargeRs := [r] }
     let bad := { T with bargeRs := [{ r with failed := some { code := tcFarAccess, info := 0 } }] }
     u.bargeReq 4 = some r ∧ (r.lines.getD 0 { va := 0 }).leaf = some rw0 ∧ r.kind ≠ .cpo ∧ u.badSram = [] ∧ 0 ∈ r.chunks ∧ r.chunkReady 0 = true ∧
     bad.bargeReq 4 = some { r with failed := some { code := tcFarAccess, info := 0 } } ∧ (∀ l ∈ r.lines, l.st ≠ .started) ∧ ({ st := .filling, len := 1 } : Tile).st = .filling) := by decide +kernel
theorem wit_HomeAndFabricEvents :
    let mem := { far0 with st := .memory }
    let fq := { far0 with st := .flagQ, src := .flag 0 0, op := .flag }
    let h := { T with fars := [mem] }
    let q := { wLane T 0 (fun x => { x with flags := [9] }) with fars := [fq] }
    let sent := { T with fars := [{ far0 with st := .sent }] }
    let dom : State := { T with members := [0, 1, 16] }
    let rep : Packet := { typ := .reply, rtag := 9 }
    let off := wVd sent (fun d => { d with closing := some 0 })
    let peer := fun (st : FarSt) => ({ far0 with src := .peer { src := 1 }, st := st } : Far)
    (State.farReq { T with fars := [peer .answering] } 9 = some (peer .answering) ∧ State.farReq { T with fars := [peer .memory] } 9 = some (peer .memory)) ∧
    (h.farReq 9 = some mem ∧ mem.st = .memory ∧ mem.leaf = some rw0) ∧
    (T.badHalves = [] ∧ T.regions = [] ∧ (∀ d ∈ T.vds, d.snap = none) ∧ (T.vd 1).txs = []) ∧ q.flagReady 0 0 = some fq ∧ T.flagReady 0 0 = none ∧
    (rep.src = sent.pkg ∧ sent.farReq rep.rtag = some { far0 with st := .sent } ∧ (off.vd 1).closing.isSome = true ∧ (sent.vd 1).closing = none ∧ rep.stat = .ok ∧ rep.bad = false) ∧
    (dom.vdOfSlot 0 = some 1 ∧ dom.heartFor 0 = some 1 ∧ (dom.vd 1).run = .running ∧ dom.healthy 0 = true ∧ dom.heartFor 30 = some 16 ∧ dom.healthy 30 = true) ∧ 0 < T.crews.length ∧ 7 < (T.crew 0).lanes.length := by decide +kernel
theorem wit_HomeAndFabricEvents_packets :
    let dom : State := { T with members := [0, 1, 16] }
    (let p : Packet := { src := 1, dst := 0, slot := 0, lseq := 0 }
     let x := T.stream (T.vd 1).tenant p.src
     p.dst = T.pkg ∧ p.src ≠ T.pkg ∧ p.garbled = false ∧ ({ p with garbled := true } : Packet).garbled = true ∧ T.vdOfSlot p.slot = some 1 ∧ T.farReq p.rtag = none ∧ p.lseq = x.want ∧
     serialLt x.want 1 = true ∧ { p with lseq := 1 } ∉ x.early ∧ serialLt 0xFFFF x.want = true ∧ serialLt x.want 0xFFFF = false ∧ T.sameReach p.src = true ∧ T.tenantOfSlot p.slot = some 0 ∧
     (p.wseq - (T.vd 1).am.getD (memberOf p.src) 0).toNat < 2 ^ 14 ∧
     (let held : State := { T with reqs := [⟨.fibre 0, 0, .resend p, 0⟩], t := 44800 }
      (∃ r ∈ held.reqs, r.item = .resend p) ∧ p.left + 44800 ≤ held.t ∧ T.t < p.left + 44800) ∧
     (dom.failFibre 0).route 1 false = some (1, false) ∧ dom.reqs = [] ∧
     ({ dom with replays := [(0, Packet.replayKey { p with dst := 1 }, 3)] }).replays.find? (fun r => r.1 == 0 && r.2.1 == Packet.replayKey { p with dst := 1 }) =
       some (0, Packet.replayKey { p with dst := 1 }, 3)) ∧
    T.frameOwner (2 ^ 37) = none ∧ T.keyHoldsSlot 0 3 1 = true ∧ T.keyHoldsSlot 1 3 1 = false ∧ T.pairRoute 1 false = none ∧ dom.pairRoute 1 false = some 0 := by decide +kernel
/-- A peer's write that races with another's of one line, a first and a later heart mark, and a page table's line that cannot be read. -/
theorem wit_HomeAndFabricEvents_races :
    let a : Far := { id := 8, vd := 1, src := .peer { src := 1, slot := 0, typ := .write, pa := 0, bmask := 15 }, op := .write, keyid := 1, st := .memory }
    let b : Far := { id := 9, vd := 1, src := .peer { src := 2, slot := 0, typ := .write, pa := 0, bmask := 15 }, op := .write, keyid := 1, st := .memory }
    let s : State := { T with fars := [a, b] }
    s.raceMask a b = 15 ∧ 1 ∉ (T.vd 1).heard ∧ 1 ∈ ((wVd T (fun d => { d with heard := [1] })).vd 1).heard ∧ (0xFFFF#16 - 0#16).toNat ≥ 2 ^ 14 ∧ (0#16 - 0xFFFF#16).toNat < 2 ^ 14 := by
  decide +kernel
theorem wit_TranslationAndBargeEvents_hurt :
    let f := job0 (.far 9) .l2 (.hurt 64)
    TJob.result { T with jobs := [f], fars := [far0] } f = .hurt 64 := by decide +kernel
theorem wit_HomeAndFabricEvents_row (p : Packet) : PacketRow p (.readPacket p) { p with typ := .read } := .inl ⟨rfl, rfl⟩
theorem wit_MessageEvents :
    let p : Packet := { typ := .msg, dvd := 1, keyid := 1 }
    let m := Packet.msg p
    let gone := wVd T (fun d => { d with created := false })
    let keyed : State := { T with layout := { T.layout with allots := T.layout.allots.map (fun a => { a with keys := [1] }) } }
    let d1 := wVd T (fun d => { d with fulls := [(0, 0, 0)] })
    let d2 := wVd T (fun d => { d with fulls := [(0, 0, 5)] })
    let tx : Tx := { live := true }
    let sends := wVd T (fun d => { d with txs := [tx] })
    let again := wVd T (fun d => { d with txs := [{ tx with again := some 0 }] })
    let rx : Rx := { live := true, st := .posted }
    let q := fun (e : WIn) (f : Vd → Vd) => wVd T (fun d => f { d with inq := [e], rxs := [rx] })
    let early := q (.arrive p) id
    let taken := q (.arrive p) (fun d => { d with posted := [0] })
    let full := q (.arrive p) (fun d => { d with uqSize := 0 })
    let post := q (.post 0) (fun d => { d with rxs := [{ rx with st := .queued }] })
    let meets := wVd post (fun d => { d with unexp := [m] })
    let orphan := wWg post (fun w => { w with retired := true })
    let cancel := q (.cancel (handleWord false 0 0)) (fun d => { d with posted := [0] })
    let land := wVd T (fun d => { d with rxs := [{ live := true, st := .matched, cap := 64, msg := { m with mlen := 64, bytes := List.replicate 64 0 } }] })
    let box := wVd land (fun d => { d with rxs := d.rxs.map (fun r => { r with place := .box { rank := 1, dims := [1], box := [4], strides := [0] } [100] }) })
    let done := wVd land (fun d => { d with rxs := d.rxs.map (fun r => { r with landed := 1 }) })
    let idle := wLane T 3 (fun x => { x with pend := [{ id := 7, kind := .wharf }] })
    (p.dst = T.pkg ∧ p.src = T.pkg ∧ p.garbled = false ∧ p.off = 0 ∧ (gone.returnSlots 1).wharfCheck p = some .access ∧ (keyed.returnSlots 1).wharfCheck p = none) ∧
    ((T.vd 1).fullOf m = none ∧ (d1.vd 1).fullOf m = some 0 ∧ m.mseq = 0 ∧ (d2.vd 1).fullOf m = some 5) ∧
    ((sends.returnSlots 1).vd 1).sendTo p.src p.svd p.mseq = some 0 ∧
    (((again.vd 1).tx 0).again = some 0 ∧ 0 ≤ again.t ∧ ((again.vd 1).tx 0).live = true ∧ ((again.vd 1).tx 0).stat = .pending ∧ ((sends.vd 1).tx 0).skips = 0 ∧ ({ tx with skips := 1 } : Tx).skips ≠ 0 ∧
      serialLt tx.mseq ({ tx with mseq := 1, sent := true } : Tx).mseq = true ∧ 1 < sends.vds.length ∧ 0 < (sends.vd 1).txs.length) ∧
    ((early.vd 1).inq = [.arrive p] ∧ (taken.vd 1).posted.find? (fun i => matchesRx ((taken.vd 1).rx i) m) = some 0 ∧
      (early.vd 1).posted.find? (fun i => matchesRx ((early.vd 1).rx i) m) = none ∧ (early.vd 1).unexpUsed + m.space ≤ (early.vd 1).uqSize ∧
      (full.vd 1).uqSize < (full.vd 1).unexpUsed + m.space) ∧
    ((post.vd 1).inq = [.post 0] ∧ ((post.vd 1).rx 0).live = true ∧ ((post.vd 1).rx 0).st = .queued ∧ (meets.vd 1).unexp.find? (matchesRx ((meets.vd 1).rx 0)) = some m ∧
      (post.vd 1).unexp.find? (matchesRx ((post.vd 1).rx 0)) = none ∧ post.rxOrphan ((post.vd 1).rx 0) = false ∧ orphan.rxOrphan ((orphan.vd 1).rx 0) = true ∧
      (orphan.vd 1).unexp.find? (matchesRx ((orphan.vd 1).rx 0)) = none) ∧
    ((cancel.vd 1).inq = [.cancel (handleWord false 0 0)] ∧ handleIndex (handleWord false 0 0) = 0 ∧ (handleWord false 0 0).msb = false ∧ ((cancel.vd 1).rx 0).live = true ∧
      ((cancel.vd 1).rx 0).gen = handleGen (handleWord false 0 0) ∧ ((cancel.vd 1).rx 0).st = .posted ∧ (handleWord true 0 0).msb = true) ∧
    ((q (.probe 0 0 7 0 0 0 0) id).vd 1).inq = [.probe 0 0 7 0 0 0 0] ∧ ((q (.test 0 0 7 0) id).vd 1).inq = [.test 0 0 7 0] ∧
    ((idle.crew 0).lane 3).pend.find? (fun q => q.id == 7) = some { id := 7, kind := .wharf } ∧
    (((land.vd 1).rx 0).live = true ∧ ((land.vd 1).rx 0).st = .matched ∧ ((land.vd 1).rx 0).failed = none ∧ ((land.vd 1).rx 0).place = .tile 0 0) ∧
    (((box.vd 1).rx 0).place = .box { rank := 1, dims := [1], box := [4], strides := [0] } [100] ∧
      ((((box.vd 1).rx 0).msg.bytes.drop 0).take (min ((box.vd 1).rx 0).size 64)).zipIdx.filterMap
        (fun p => (Manifest.byteAddr { rank := 1, dims := [1], box := [4], strides := [0] } [100] (0 + p.2)).map (fun a => (a, p.1))) = []) ∧
    ({ live := true, cw := some 8 } : Rx).cw = some 8 ∧ (T.wg 0).live = true ∧
    (((done.vd 1).rx 0).live = true ∧ ((done.vd 1).rx 0).landedAll = true) := by decide +kernel
theorem wit_KitelineEvents :
    let b : Bcast := { faa := true, src := 0, keyid := 1, addr := 8, data := 3, qidx := 2 }
    let keyed : State := { T with layout := { T.layout with allots := T.layout.allots.map (fun a => { a with keys := [1] }) } }
    let mine := wVd keyed (fun d => { d with kq := [{ b := b, crew := 0, lane := 3, entry := some 7, sent := true }] })
    let lane := wLane mine 3 (fun x => { x with pend := [{ id := 7, kind := .kfaa }] })
    (T.tokens.getD 0 0 ≠ 1 ∧ T.tokens.getD 0 0 = 0 ∧ 0 = T.myMember ∧ T.vdOfSlot 0 = some 1 ∧ T.starLost = false ∧ (T.vd 1).run = .running ∧ (T.vd 1).released = false ∧ T.badSram = []) ∧
    (let t : State := { T with tokens := T.tokens.set 0 3 }
     t.tokens.getD 0 0 = 3 ∧ 3 ≠ t.myMember) ∧
    (keyed.vdOfSlot b.slot = some 1 ∧ keyed.keyOfTenant 1 b.keyid = true ∧ ({ b with src := 1 } : Bcast).src ≠ keyed.pkg ∧ 1 < keyed.vds.length) ∧
    (b.src = lane.pkg ∧ lane.vdOfSlot b.slot = some 1 ∧ lane.keyOfTenant 1 b.keyid = true ∧ b.faa = true ∧
      (lane.vd 1).kq.find? (fun q => q.sent && q.b.qidx == b.qidx) = some { b := b, crew := 0, lane := 3, entry := some 7, sent := true } ∧ 0 < lane.crews.length ∧
      3 < (lane.crew 0).lanes.length ∧ ((lane.crew 0).lane 3).pend.any (fun p => p.id == 7) = true) ∧ 5 ≠ T.myMember ∧
    T.atBoundary = true ∧ ({ T with t := 1 }).atBoundary = false := by decide +kernel
theorem wit_MatrixEngineEvents :
    let unit := fun (o : MOp) => T.setUnit { T.matUnit 0 0 with arrQ := [o] }
    let filling := fun (o : MOp) => T.setUnit { T.matUnit 0 0 with fillQ := [o] }
    let o : MOp := { id := 7, crew := 0, wg := 0, op := .clr 1 }
    let two := T.setUnit { T.matUnit 0 0 with arrQ := [{ o with id := 6, start := some 0, done := 50 }, o] }
    let fence : MOp := { o with op := .fence [] }
    let fill : MOp := { o with op := .fill 1 2 0 64 64, start := some 0 }
    let mac : MOp := { o with op := .mac 1 1 1 { fmt := 4 } false false false 0 0, start := some 0 }
    let drain : MOp := { o with op := .drain 1 0 { fmt := 0 } none, start := some 0 }
    let counts : MOp := { drain with op := .drain 1 0 { fmt := 0 } (some 2) }
    (((unit o).matUnit 0 0).queue .array).find? (fun o => o.start.isNone) = some o ∧
    (((unit o).matUnit 0 0).queue .array).any (fun p => decide (p.id < o.id) && p.pending (unit o).t) = false ∧ ((unit o).matUnit 0 0).mayStart (unit o).t o = true ∧
    (unit o).matBad ((unit o).matUnit 0 0) o = false ∧
    ((two.matUnit 0 0).queue .array).find? (fun o => o.start.isNone) = some o ∧ ((two.matUnit 0 0).queue .array).any (fun p => decide (p.id < o.id) && p.pending two.t) = true ∧
    (((unit fence).matUnit 0 0).queue .array).find? (fun o => o.start.isNone) = some fence ∧ ((unit fence).matUnit 0 0).mayStart (unit fence).t fence = true ∧
    ((filling fill).matUnit 0 0).finished .fill (filling fill).t (fun _ => true) = some fill ∧ (filling fill).badSram = [] ∧
    ((unit mac).matUnit 0 0).finished .array (unit mac).t (fun op => match op with | .mac _ _ _ _ _ _ _ _ _ => true | _ => false) = some mac ∧
    ((unit { o with start := some 0 }).matUnit 0 0).finished .array (unit o).t (fun op => match op with | .clr _ => true | _ => false) = some { o with start := some 0 } ∧
    ((unit drain).matUnit 0 0).finished .array (unit drain).t (fun op => match op with | .drain _ _ _ _ => true | _ => false) = some drain ∧
    (counts.pending 0 = false ∧ counts.counted = false ∧ { counts with done := 9 }.pending 0 = true) ∧
    (0x7F800000#32).toNat / 2 ^ 23 % 256 = 255 ∧ (0x3F800000#32).toNat / 2 ^ 23 % 256 ≠ 255 := by decide +kernel

/-- R300, R295: a lane that waits at a set goes on at the next word with the greater of the two marks for each member. -/
theorem test_barrier_merges_clocks :
    let done : Clock := Clock.zero.set 3 5
    let x : Lane := { st := .barwait 2, pc := 7, clock := (Clock.zero.set 3 2).set 4 9 }
    let y := Lane.passBarrier 2 done x
    y.st = .run ∧ y.pc = 8 ∧ y.clock = (Clock.zero.set 3 5).set 4 9 := by decide +kernel

/-! ### Witnesses: retirement, worlds, housekeeping -/

theorem wit_RetirementEvents :
    let due := wWg T (fun w => { w with retired := true })
    let bit := wWg P (fun w => { w with live := false, retired := true })
    let map := wGrid bit (fun g => { g with cbmp := 0x5000 })
    let x := P.ctx c0
    let done := wGrid P (fun g => { g with bits := [0], launch := 1 })
    let meas := wCtx (wGrid done (fun g => { g with meas := true, phase := 1, regions := [(0x5000, 8)] })) (fun x => { x with measFor := some 0 })
    let last := wGrid done (fun g => { g with phase := 2 })
    let flying : State := { done with fars := [{ far0 with src := .cp 0 (.record 0) }] }
    let saved := wWg T (fun w => { w with saved := true })
    let noRoom := wGrid saved (fun g => { g with tiles := 300 })
    (due.wgDue 0 = true ∧ T.wgDue 0 = false) ∧
    ((bit.wg 0).live = false ∧ (bit.wg 0).retired = true ∧ (bit.wg 0).cut = false ∧ (bit.grid 0).st = .active ∧ (bit.wg 0).num ∉ (bit.grid 0).bits ∧ bit.wgWritesDone 0 = true ∧ bit.putPending 1 0 (.bit 0) = false ∧
      (bit.grid 0).cbmp = 0 ∧ 0 < bit.grids.length ∧ 0 < bit.wgs.length ∧ (map.grid 0).cbmp ≠ 0 ∧ map.wgWritesDone 0 = true ∧
      okTrue ((map.setWg 0 { map.wg 0 with asked := true }).cpMayWrite 1 1 0x5000 4) (fun _ => true) = true) ∧
    (P.gridDone 0 = false ∧ done.gridDone 0 = true ∧ done.putPending 1 0 (.record 0) = false ∧ flying.gridDone 0 = true ∧ flying.putPending 1 0 (.record 0) = true ∧
      (done.grid 0).phase = 0 ∧ (done.grid 0).meas = false ∧ meas.gridDone 0 = true ∧ (meas.grid 0).phase = 1 ∧ (meas.ctx c0).measFor = some 0 ∧
      meas.putPending 1 0 (.record 0) = false ∧ okTrue (meas.regionDigests (meas.grid 0)) (fun ds => ds.length == 1) = true ∧
      (wGrid meas (fun g => { g with phase := 0 })).gridDone 0 = true ∧ ((wCtx meas (fun x => { x with measFor := none })).ctx c0).measFor ≠ some 0 ∧
      last.gridDone 0 = true ∧ 2 ≤ (last.grid 0).phase ∧ last.putPending 1 0 (.record 0) = false ∧ okTrue (last.cpMayWrite 1 x.keyid (x.recordAt (last.grid 0)) 64) (fun _ => true) = true) ∧
    ((saved.vd 1).run = .running ∧ (saved.savedWgs 1).head? = some 0 ∧ (saved.restoreAll (saved.restoreGroup 1 0)).isSome = true ∧ (saved.restoreOne 0).isSome = true ∧
      (noRoom.savedWgs 1).head? = some 0 ∧ (noRoom.restoreAll (noRoom.restoreGroup 1 0)).isNone = true) := by decide +kernel
theorem wit_WorldEvents :
    let r := fun (st : RunSt) => wVd T (fun d => { d with run := st })
    let emerg : State := { r .starting with health := { T.health with emerg := true } }
    let quiet : State := { wVd T (fun d => { d with quiet := some 7 }) with t := 64 }
    let closing := wVd T (fun d => { d with closing := some 0 })
    let retiring : State := { T with keys := [{ id := 3, st := .retiring 0 }] }
    let flight : State := { retiring with fars := [{ far0 with keyid := 3, st := .sent }] }
    1 < T.vds.length ∧ (((r .starting).vd 1).run = .starting ∧ (r .starting).health.emerg = false ∧ (emerg.vd 1).run = .starting ∧ emerg.health.emerg = true ∧ (T.vd 1).run ≠ .starting) ∧
    (quiet.t % quiet.roundLen = 0 ∧ (quiet.vd 1).run = .running ∧ (quiet.vd 1).released = false ∧ 7 < quiet.t ∧ (quiet.vd 1).quiet = some 7 ∧ { T with t := 5 }.t % T.roundLen ≠ 0) ∧
    ((T.vd 1).halting = false ∧ ((wVd T (fun d => { d with halting := true })).vd 1).halting = true) ∧ (T.vd 1).run ≠ .halted ∧
    ((r .halted).vd 1).halting = false ∧ ((wVd (r .halted) (fun d => { d with halting := true })).vd 1).halting = true ∧ (((r .halted).vd 1).run = .halted ∧ ((r .halted).vd 1).closing = none ∧ (r .halted).health.emerg = false ∧ (r .halted).unitOut 1 = false ∧
      State.unitOut { r .halted with outOf := [.core 0] } 1 = true) ∧
    (((wVd T (fun d => { d with world := none })).vd 1).world = none ∧ (T.vd 1).world = some 0 ∧ ((r .saving).vd 1).run = .saving ∧ ((r .saving).vd 1).world = some 0 ∧
      ((T.setVd 2 { created := true }).vd 2).created = true ∧ ((T.setVd 2 { created := true }).vd 2).closing = none ∧ ((T.setVd 2 { created := true }).vd 2).world = none) ∧
    ((T.vd 1).created = true ∧ (T.vd 1).closing = none ∧ (T.vd 2).created = false) ∧
    (({ wVd closing (fun d => { d with created := false }) with t := 44800 }.vd 1).created = false ∧ ({ closing with t := 44801 }).t % T.roundLen ≠ 0) ∧
    ((closing.vd 1).closing = some 0 ∧ closing.t < 0 + 44800 ∧ ({ closing with t := 44800 }.vd 1).closing = some 0 ∧ 0 + 44800 ≤ { closing with t := 44800 }.t) ∧
    (retiring.keys.find? (fun x => x.id == 3) = some { id := 3, st := .retiring 0 } ∧ retiring.keyInFlight 3 = false ∧ flight.keyInFlight 3 = true ∧ flight.t < 0 + 44800) := by
  decide +kernel
theorem wit_HousekeepingEvents :
    let free : State := { wVd T (fun d => { d with released := true, zeroing := [(2, 2)] }) with t := 8 }
    let reg : WRegion := { idx := 3, pfn := 16, macPfn := 32, len := 1, keyid := 1 }
    let h : State := { free with regions := [reg] }
    let pre : State := { h with t := 0, regions := [{ reg with usable := true }] }
    let snap := wVd free (fun d => { d with snapNext := [(0x100000, 0x200000)] })
    let run := wVd free (fun d => { d with snap := some { area := 0x100000, bitmap := 0x200000, ptr := 4 } })
    let q : Inval := { id := 9 }
    let inv := wVd T (fun d => { d with invals := [q] })
    let wait : State := { wVd T (fun d => { d with invals := [{ q with fars := [9] }] }) with fars := [far0] }
    let build : SRegion := { num := 2, vd := 1, pfn := 16, len := 2, keyid := 1, tree := 32 }
    let sealing : State := { T with sealed := [build] }
    (free.houseOpen (channelOf 8192) = true ∧ free.zeroOn (channelOf 8192) = some (1, 128) ∧ 1 < free.vds.length ∧ T.zeroOn 0 = none ∧ (free.vd 1).zeroing ≠ [] ∧ (free.vd 1).zeroLeft = true) ∧
    (h.regions.find? (fun q => q.idx == reg.idx) = some reg ∧ reg.usable = false ∧ h.houseOpen (channelOf (reg.pfn * 4096 + reg.zeroed * 64)) = true ∧ ¬ reg.len * 64 ≤ reg.zeroed + 1 ∧
      reg.len * 64 ≤ { reg with zeroed := 63 }.zeroed + 1) ∧
    (pre.regions.find? (fun q => q.idx == reg.idx) = some { reg with usable := true } ∧ reg.roll = none ∧ pre.t % pre.roundLen = 0) ∧
    ((snap.vd 1).snapNext = [(0x100000, 0x200000)] ∧ snap.snapOver 1 = true ∧ { snap with t := 64 }.t % snap.roundLen = 0) ∧
    ((run.vd 1).snapNext = [] ∧ run.snapOver 1 = false ∧ (run.vd 1).snap.isSome = true ∧ run.snapLine 1 = some 4 ∧ run.houseOpen (channelOf (4 * 64)) = true) ∧
    ((inv.vd 1).invals = [q] ∧ inv.drained 1 q = true ∧ wait.drained 1 { q with fars := [9] } = false) ∧
    (sealing.sealed.find? (fun q => q.num == build.num) = some build ∧ sealing.sealOpen build = true ∧ build.ptr + 1 < build.nodes 1 ∧ { build with ptr := 1 }.nodes 1 ≤ { build with ptr := 1 }.ptr + 1) ∧
    (T.power = .on ∧ T.inRefresh = true) := by decide +kernel

/-- A region that is ROLLING, with the MAC that its first line calls for. -/
def rollR : WRegion := { idx := 3, pfn := 16, macPfn := 32, len := 1, keyid := 1, usable := true, roll := some 0 }
def rolling (mac : List Byte) : State := { wVd T (fun d => { d with released := true }) with t := 8, regions := [rollR], mem := T.mem.write (rollR.macAt 0x400) mac }
theorem wit_HousekeepingEvents_roll :
    let s := rolling [0xAC, 0xF1, 0x82, 0x5F, 0x43, 0x96, 0xD3, 0x82]
    s.regions.find? (fun q => q.idx == rollR.idx) = some rollR ∧ rollR.roll = some 0 ∧ s.houseOpen (channelOf (0x400 * 64)) = true ∧
    (s.countAccept (.hbm (channelOf (0x400 * 64)))).macOk rollR 0x400 rollR.keyid = true ∧ s.lineHurt 0x400 = false ∧ 0 + 1 < rollR.len * 64 ∧ rollR.len * 64 ≤ 63 + 1 := by decide +kernel

/-! ### Witnesses: administration -/

theorem wit_AdminCommands :
    let fz : State := { T with health := { T.health with hfrz := true } }
    let a : VdArgs := { vdid := 2, tenant := 0, uqSize := 65536, root := 0, stack := 0, ctxArea := 0, ctxKey := 1, frames := [] }
    let taken := (T.vds.flatMap (fun (x : Vd) => x.frames ++ x.uncovered)) ++ Config.deviceReserve
    let off := wVd T (fun d => { d with world := none, run := .off })
    let hal := wVd T (fun d => { d with run := .halted })
    (T.power = .on ∧ T.health.hfrz = false ∧ State.reset.power ≠ .on ∧ fz.power = .on ∧ fz.health.hfrz = true) ∧
    ((T.vd 1).created = true ∧ (T.vd 2).created = false ∧ (T.vd 2).ready = true ∧ 1 ≤ a.vdid ∧ a.vdid < 128 ∧ isPow2 a.uqSize = true ∧ 65536 ≤ a.uqSize ∧ a.uqSize ≤ 2 ^ 26 ∧ a.stack < 8 ∧
      (T.vd 2).world = none ∧ (∀ r ∈ a.frames, r.1 + r.2 ≤ 2 ^ 27) ∧ rangesMeet a.frames taken = false ∧ T.bankOut a.frames = false ∧ T.incoming 2 = false ∧ off.incoming 1 = false ∧ ¬ (∀ r ∈ [(2 ^ 27, 1)], r.1 + r.2 ≤ 2 ^ 27) ∧ ¬ 1 ≤ { a with vdid := 0 }.vdid) ∧
    ((off.vd 1).created = true ∧ (off.vd 1).world = none ∧ (off.vd 1).closing = none ∧ off.awaits (.teardownBoundary 1) = false ∧ (off.allotOf 0).any (fun a => a.stack == (off.vd 1).stack) = true ∧ off.outOf = [] ∧ hal.unitOut 1 = false ∧
      off.vdOfWorld 0 = none ∧ off.commitKeeps 0 = true ∧ (off.allotOf 1).isSome = false ∧ (T.vd 1).world ≠ none) ∧
    ((T.vd 1).run = .running ∧ (T.vd 1).halting = false ∧ (hal.vd 1).run = .halted ∧ (hal.vd 1).closing = none ∧ hal.health.emerg = false ∧ hal.awaits (.resumeEffect 1) = false) := by decide +kernel
theorem wit_AdminCommands_more :
    let two := T.setVd 2 { created := true }
    let ca : CtxArgs := { eptr := 0, key := 1, ring := 0, size := 16 }
    let held : State := { T with jobs := [job0 (.word 0) (.held 1) (.absent 0)] }
    ((two.vd 1).world = some 0 ∧ (two.vd 1).run ≠ .saving ∧ (two.vd 1).closing = none ∧ (two.vd 2).created = true ∧ (two.vd 2).world = none ∧ (two.vd 2).closing = none ∧ (two.vd 2).stack = (two.vd 1).stack ∧
      ((T.setVd 2 { created := true, stack := 3 }).vd 2).stack ≠ (T.vd 1).stack) ∧
    T.awaits (.teardownBoundary 1) = false ∧
    (c0.ctx < 16 ∧ ca.key ∈ (T.vd 1).grants ∧ ca.eptr % 32 = 0 ∧ ca.ring % 64 = 0 ∧ isPow2 ca.size = true ∧ 16 ≤ ca.size ∧ ca.size ≤ 4096 ∧ 2 ∉ (T.vd 1).grants) ∧
    (1 < T.vds.length ∧ held.jobs = [job0 (.word 0) (.held 1) (.absent 0)] ∧ (job0 (.word 0) (.held 1) (.absent 0)).vd = 1) := by decide +kernel
theorem wit_AdminCommands_snap :
    let s := wVd T (fun d => { d with frames := [(16, 8)] })
    framesHold (s.vd 1).frames (0x10000 / 4096) = true ∧ (spanLines 0x17000 ((frameCount (s.vd 1).frames + 7) / 8)).all (fun l => framesHold (s.vd 1).frames (l / 64)) = true ∧
    spanLines 0x17000 ((frameCount (s.vd 1).frames + 7) / 8) = [0x5C0] ∧ s.snapOver 1 = true ∧ (s.vd 1).snapNext = [] ∧ (s.vd 1).created = true ∧
    framesHold (s.vd 1).frames (0x18000 / 4096) = false := by decide +kernel
theorem wit_AdminCommands_regions :
    let ra : RegionArgs := { words := WRegion.record { idx := 3, pfn := 16, macPfn := 32, len := 1, keyid := 1 } }
    let x := RegionArgs.region ra
    let ik : State := { T with keys := [{ id := 1, st := .installed }] }
    let rolls : State := { ik with regions := [{ idx := 3, pfn := 16, macPfn := 32, len := 1, keyid := 1, usable := true }] }
    let sa : SealArgs := { num := 4, pfn := 64, len := 1, keyid := 1, tree := 96 }
    let sealedS : State := { T with sealed := [{ num := 4, vd := 1, pfn := 64, len := 1, keyid := 1, tree := 96, st := .damaged }] }
    (RegionArgs.ok ra = true ∧ x = { idx := 3, pfn := 16, macPfn := 32, len := 1, keyid := 1 } ∧ 1 ≤ x.len ∧ 1 ≤ x.keyid ∧ ik.keyInstalled x.keyid = true ∧
      (∀ q ∈ ik.regions, q.idx = x.idx → q.usable = true ∧ q.roll = none ∧ q.keyid ≠ x.keyid ∧ ik.awaits (.rollSweep q.idx) = false) ∧ x.pfn + x.len ≤ 2 ^ 27 ∧
      x.macPfn + (x.len * 512 + 4095) / 4096 ≤ 2 ^ 27 ∧
      rangesMeet [(x.pfn, x.len), (x.macPfn, (x.len * 512 + 4095) / 4096)] ((ik.regions.filter (fun q => q.idx != x.idx)).flatMap WRegion.spans ++ ik.sealed.flatMap SRegion.spans) = false ∧
      rangesMeet [(x.pfn, x.len)] [(x.macPfn, (x.len * 512 + 4095) / 4096)] = false ∧ T.keyInstalled x.keyid = false) ∧
    ((∃ r ∈ rolls.regions, r.idx = 3 ∧ r.usable = true ∧ r.roll = none ∧ r.counter < 0xFFFFFFFF) ∧ rolls.awaits (.rollSweep 3) = false ∧ ¬ ∃ r ∈ T.regions, r.idx = 3) ∧
    (1 ≤ sa.len ∧ sa.len ≤ 2 ^ 24 ∧ 1 ≤ sa.keyid ∧ ik.keyInstalled sa.keyid = true ∧ (∀ r ∈ ik.sealed, r.num ≠ sa.num) ∧
      (∀ d ∈ ik.vds, d.created = true → sa.keyid ∈ d.grants → ik.sealedFor d.grants < 64) ∧ sa.pfn + sa.len ≤ 2 ^ 27 ∧
      sa.tree + SRegion.treeFrames { num := 4, vd := 1, pfn := 64, len := 1, keyid := 1, tree := 96 } ≤ 2 ^ 27 ∧
      rangesMeet [(sa.pfn, sa.len)] (ik.regions.flatMap WRegion.spans ++ ik.sealed.flatMap SRegion.spans) = false) ∧
    ((∃ r ∈ sealedS.sealed, r.num = 4 ∧ (r.st = .sealed ∨ r.st = .damaged)) ∧ ¬ ∃ r ∈ T.sealed, r.num = 4) ∧ T.frzMgmt ≠ some T.t ∧ { T with frzMgmt := some 0 }.frzMgmt = some T.t := by
  decide +kernel
/-- Commands of VD 1 that wait: a HALT and, behind it, an answered RANKS. -/
def waits : Cmd := { vds := [1], kind := some (.halt 1) }
def behind : Cmd := { vds := [1], answer := some (.ok, []) }
theorem wit_AdminCommands_order :
    let s : State := { T with cmds := [waits, { waits with kind := some (.snap 1) }] }
    Written T ∧ T.cmds = [] ∧ Written s ∧ (∃ c ∈ s.cmds, ∃ v ∈ [1], v ∈ c.vds) ∧ s.cmds = [] ++ waits :: [{ waits with kind := some (.snap 1) }] ∧
    s.cmds = [waits] ++ { waits with kind := some (.snap 1) } :: [] ∧ waits.kind = some (.halt 1) ∧ waits.answer = none ∧ waits.kind ≠ some (.snap 1) := by
  unfold Written; decide +kernel
/-- R348: a RANKS of a VD whose HALT has not taken effect is answered behind it; one of another VD at once. -/
theorem test_completion_order :
    (State.complete { T with cmds := [waits] } [1] .ok []).outs = T.outs ∧ (State.complete { T with cmds := [waits] } [2] .ok []).outs = T.outs ++ [.completion (AStat.completion .ok) []] ∧
    (State.finish { T with cmds := [waits, behind] } (.halt 1) .vdState).outs = T.outs ++ [.completion (AStat.completion .vdState) [], .completion (AStat.completion .ok) []] := by decide +kernel
theorem wit_AdminCommands_row : AdminRow (.halt 1) := .inr (.inr (.inl ⟨1, rfl⟩))
theorem wit_DebugCommands :
    let armed := wVd T (fun d => { d with dbg := { d.dbg with armed := true } })
    let all := wVd armed (fun d => { d with dbg := { d.dbg with stopWorld := true } })
    let stopped := wCrew armed (fun k => { k with halted := some .host })
    T.power = .on ∧ T.health.hfrz = false ∧ (T.vd 2).created = false ∧ (T.vd 1).created = true ∧ (List.replicate 4 ({} : Comparator)).length ≤ 4 ∧
    4 < (List.replicate 5 ({} : Comparator)).length ∧ (armed.crew 0).live = true ∧ 0 < armed.crews.length ∧ armed.vdOf 0 = 1 ∧ (armed.vd 1).dbg.armed = true ∧
    (armed.vd 1).dbg.stopWorld = false ∧ (T.vd 1).dbg.armed = false ∧ (all.vd 1).dbg.armed = true ∧ (all.vd 1).dbg.stopWorld = true ∧ (all.crew 0).live = true ∧ all.vdOf 0 = 1 ∧
    (stopped.crew 0).halted.isSome = true ∧ (stopped.crew 0).live = true ∧ stopped.vdOf 0 = 1 ∧ (armed.crew 0).halted.isSome = false := by decide +kernel
/-- What the ROM does with the fuses and the version, and units that a world holds or does not. -/
theorem wit_BootAndLayout :
    let c : State := { T with commit := some (1, 0), shadow := some ({}, 0) }
    let off : State := { State.reset with sigOk := false }
    let sess : State := { T with mgmtSess := true, version := 3, fuses := List.replicate 64 (false, false) }
    (T.power = .on ∧ T.health.mfrz = false ∧ T.committing = false ∧ T.shadow = none ∧ c.committing = true ∧ c.shadow = some ({}, 0) ∧ { c with commit := none }.committing = false) ∧
    (State.reset.power ≠ .on ∧ State.reset.sigOk = true ∧ State.reset.sigKey = State.reset.fusedKey ∧ fuseCounter (completeFuses State.reset.fuses) ≤ State.reset.version ∧ off.sigOk = false) ∧
    (State.reset.power = .off ∧ { T with power := .recovery }.power = .recovery) ∧
    (sess.mgmtSess = true ∧ 2 ≤ 64 ∧ 2 ≤ sess.version ∧ T.mgmtSess = false ∧ blowNext 0 sess.fuses = none ∧ blowNext 2 sess.fuses = some (sess.fuses.set 0 (true, false)) ∧
      blowNext 2 (sess.fuses.set 0 (true, false)) = some (sess.fuses.set 0 (true, true))) ∧
    (T.t % T.roundLen = 0 ∧ { T with t := 1 }.t % T.roundLen ≠ 0 ∧ T.outOf = [] ∧ T.peerFailed = [] ∧ T.sameReach 16 = false ∧ T.reqs = [] ∧ (∀ v < T.vds.length, (T.vd v).world.isSome = true → T.holdsUnit v (.core 5) = false) ∧
      1 < T.vds.length ∧ (T.vd 1).world.isSome = true ∧ T.holdsUnit 1 (.core 0) = true ∧ (T.vd 1).run = .running) := by decide +kernel
theorem wit_BootAndLayout_peer :
    let dom : State := { T with members := [0, 1, 16], reqs := [⟨.fibre 30, 0, .send { dst := 16 }, 0⟩] }
    dom.sameReach 16 = false ∧ (16, 30) ∉ dom.peerFailed ∧ ({ dom with peerFailed := dom.peerFailed ++ [(16, 30)] } : State).planeTo 16 = some 1 := by decide +kernel
theorem wit_BootAndLayout_layout :
    let l : Layout := { owners := [none] }
    let s := wVd T (fun d => { d with world := none, run := .off })
    s.layoutOk l = true ∧ s.layoutOk { l with owners := [] } = false ∧ T.layoutOk l = false := by decide +kernel
theorem wit_BootAndLayout_crc : layoutCrc {} = layoutCrc {} ∧ layoutCrc {} ≠ layoutCrc {} + 1 := ⟨rfl, by bv_omega⟩
theorem wit_MastersAndKeys :
    let fh : State := { T with health := { T.health with hfrz := true } }
    let fm : State := { T with health := { T.health with mfrz := true } }
    let s : State := { T with hostSess := true, keys := [{ id := 1, st := .installed }, { id := 2 }] }
    let h := wVd s (fun d => { d with run := .halted })
    let none' : State := { T with vds := List.replicate 128 {} }
    (T.power = .on ∧ fh.frozen .host = true ∧ fm.frozen .mgmt = true ∧ T.frozen .host = false ∧ T.health.hfrz = false ∧ T.health.mfrz = false) ∧
    (s.session .host = true ∧ s.session .mgmt = false ∧ fm.frzMgmt ≠ some fm.t ∧ fh.frzHost ≠ some fh.t) ∧
    ((∃ x ∈ s.keys, x.id = 2 ∧ x.st = .free) ∧ s.keyInstalled 1 = true ∧ (h.vd 1).created = true ∧ (h.vd 1).closing = none ∧ (h.vd 1).run = .halted ∧ 1 ∈ (h.vd 1).grants ∧
      1 ∉ ((wVd h (fun d => { d with grants := [] })).vd 1).grants ∧ s.keyInstalled 2 = false ∧ h.sealedFor (h.vd 1).grants ≤ 64 ∧ ({} : Keys).reserved = 0) ∧
    (State.measured T [5] ≠ [] ∧ State.measured T [9] = [] ∧ { T with power := .recovery }.power = .recovery ∧
      T.inWindow .host { reg := .fqProd 1, read := true } = true ∧ T.inWindow .mgmt { reg := .health, read := true } = true ∧
      RegName.function (.vecMask 1) = some 1 ∧ RegName.function .powerLimit = none ∧ RegName.powerLimit ∉ [RegName.adminProd, .adminCons, .health, .bootFail] ∧ 2 ^ 39 < 2 ^ 39 + 1) ∧
    (1 < T.vds.length ∧ 64 % 32 = 0 ∧ isPow2 65536 = true ∧ isPow2 24 = false ∧ (T.vd 1).recs = [] ∧ ((wVd T (fun d => { d with recs := [{ va := 0 }] })).vd 1).recs ≠ []) ∧
    ((∀ d ∈ none'.vds, d.created = false) ∧ 3 < 1024 ∧ 3 ∈ [1, 3] ∧ 1 ≤ 16 ∧ 16 ≤ 16 ∧ 256 ∈ [16, 32, 64, 128, 256] ∧ ¬ (∀ d ∈ T.vds, d.created = false)) ∧
    ((spanLines 0x10 100).foldl hostLoad (some [], T)).1.isSome = true ∧ ((spanLines 0x10 100).foldl hostLoad (some [], { T with badHalves := [(2, none)] })).1 = none := by decide +kernel

end Sys2Proof.Tests
end

section
/-! SUPPORT. The pair words (R89-R92, Table 5.8): a pair word is two writes of a register, each on the lanes of its half's guard, whose values are fixed
before the first of them. -/
namespace Sys2Proof.Machine
open Sys2Proof

/-! ### Float results under the policy INF fit their type and never trap -/

theorem withSign_lt (t : Fty) (neg : Bool) {mag : Nat} (h : mag ≤ t.infMag) : t.withSign neg mag < 2 ^ t.width := by
  cases t <;> cases neg <;> simp [Fty.withSign, Fty.width, Fty.infMag, Fty.emax, Fty.mbits] at h ⊢ <;> omega

theorem canonNaN_lt (t : Fty) : t.canonNaN < 2 ^ t.width := by cases t <;> decide

theorem overflowF_inf (t : Fty) (rm : Rm) (neg : Bool) : ∃ n, overflowF t rm .inf neg = some n ∧ n < 2 ^ t.width := by
  refine ⟨_, rfl, withSign_lt t neg ?_⟩
  cases rm <;> cases neg <;> simp

theorem roundF_inf (t : Fty) (rm : Rm) (ftz : Bool) (d : Dy) : ∃ n, roundF t ⟨rm, .inf, ftz⟩ d = some n ∧ n < 2 ^ t.width := by
  unfold roundF
  split
  · exact ⟨_, rfl, withSign_lt t _ (Nat.zero_le _)⟩
  · dsimp only
    split
    · exact overflowF_inf t rm d.neg
    · next hmag =>
      split
      · exact ⟨_, rfl, withSign_lt t _ (Nat.zero_le _)⟩
      · exact ⟨_, rfl, withSign_lt t _ (by omega)⟩

theorem resultF_inf (t : Fty) (rm : Rm) (ftz : Bool) (v : FVal) : ∃ n, resultF t ⟨rm, .inf, ftz⟩ v = some n ∧ n < 2 ^ t.width := by
  cases v with
  | nan => exact ⟨_, rfl, canonNaN_lt t⟩
  | inf neg => exact ⟨_, rfl, withSign_lt t neg le_rfl⟩
  | fin d => exact roundF_inf t rm ftz d

theorem fAdd_pairMod (t : Fty) (x y : Nat) : ∃ n, fAdd t pairMod x y = some n ∧ n < 2 ^ t.width := resultF_inf t ..

theorem fMul_pairMod (t : Fty) (x y : Nat) : ∃ n, fMul t pairMod x y = some n ∧ n < 2 ^ t.width := resultF_inf t ..

/-- A result that exists and fits a register is what the register holds. -/
theorem some_toNat_ofNat_getD {o : Option Nat} (h : ∃ n, o = some n ∧ n < 2 ^ 32) : some (BitVec.ofNat 32 (o.getD 0)).toNat = o := by
  obtain ⟨n, rfl, hn⟩ := h
  simpa using hn

/-- A packed operation of which no element traps has a result. -/
theorem some_getD_packed {f : Nat → Nat → Option Nat} {P : Nat → Prop} (hf : ∀ x y, ∃ n, f x y = some n ∧ P n) (d s : Word) :
    some ((packed f d s).getD 0) = packed f d s := by
  obtain ⟨lo, hlo, -⟩ := hf (d.toNat % 65536) (s.toNat % 65536)
  obtain ⟨hi, hhi, -⟩ := hf (d.toNat / 65536) (s.toNat / 65536)
  simp [packed, hlo, hhi]

theorem flushF_false (t : Fty) (x : Nat) : flushF t false x = x := by simp [flushF]

/-- minimumNumber of two registers is one of them or the canonical NaN. -/
theorem fMin_lt (x y : Word) : fMin .f32 false x.toNat y.toNat < 2 ^ 32 := by
  have hx := x.isLt
  have hy := y.isLt
  have hnan : Fty.canonNaN .f32 < 2 ^ 32 := canonNaN_lt .f32
  simp only [fMin, flushF_false]
  split_ifs <;> assumption

/-- maximumNumber of two registers is one of them or the canonical NaN. -/
theorem fMax_lt (x y : Word) : fMax .f32 false x.toNat y.toNat < 2 ^ 32 := by
  have hx := x.isLt
  have hy := y.isLt
  have hnan : Fty.canonNaN .f32 < 2 ^ 32 := canonNaN_lt .f32
  simp only [fMax, flushF_false]
  split_ifs <;> assumption

/-! ### Whole-number results -/

theorem addResult_wrap (d s : Word) : addResult false false d s = d + s := by
  apply BitVec.eq_of_toInt_eq
  simp [addResult, finish, wrap, ival, BitVec.toInt_ofInt, BitVec.toInt_add]

theorem subResult_wrap (d s : Word) : subResult false false d s = d - s := by
  apply BitVec.eq_of_toInt_eq
  simp [subResult, finish, wrap, ival, BitVec.toInt_ofInt, BitVec.toInt_sub]

theorem shlResult_of_lt {k : Nat} (hk : k < 32) (s : Word) : shlResult s k = s <<< k := if_neg (by omega)

theorem shrResult_of_lt {k : Nat} (hk : k < 32) (s : Word) : shrResult s k = s >>> k := if_neg (by omega)

theorem sarResult_of_lt {k : Nat} (hk : k < 32) (s : Word) : sarResult s k = s.sshiftRight k := by
  rw [sarResult, min_eq_left (by omega)]

/-! ### A register below the launch's count lies in every lane -/

theorem Crew.Shaped.regs_length {k : Crew} {n l : Nat} (hk : k.Shaped n) (hl : l < 8) : (k.lane l).regs.length = n := by
  refine hk.regs _ ?_
  rw [Crew.lane, List.getD_eq_getElem _ _ (hk.lanes.symm ▸ hl)]
  exact List.getElem_mem _

theorem Needs.dst_le_of_check {n : Needs} {k : Crew} {count : Nat} (h : n.check k count = none) {d : BitVec 8} {c : Nat} (hd : (d, c) ∈ n.dst) :
    d.toNat + c ≤ count := by
  have hok : n.regsOk count = true := by
    by_contra hno
    rw [Bool.not_eq_true] at hno
    simp [Needs.check, hno] at h
  simp only [Needs.regsOk, List.all_eq_true, decide_eq_true_eq] at hok
  exact hok (d, c) (by simp [hd])

/-! ### One half's write -/

/-- A lane after a half's write of register d: it takes the value where the half acts. -/
def halfLane (on : Prop) [Decidable on] (d : Nat) (v : Word) (x : Lane) : Lane := if on then regWrite x d v else x

section
variable {on : Prop} [Decidable on] {d : Nat} {v : Word} {x : Lane}

theorem halfLane_neg (h : ¬ on) : halfLane on d v x = x := if_neg h

theorem halfLane_rest : halfLane on d v x = { x with regs := (halfLane on d v x).regs, pend := (halfLane on d v x).pend } := by
  unfold halfLane
  split <;> rfl

theorem halfLane_length : (halfLane on d v x).regs.length = x.regs.length := by
  unfold halfLane
  split <;> simp [regWrite]

theorem halfLane_getD (hd : d < x.regs.length) (n : Nat) : (halfLane on d v x).regs.getD n 0 = if on ∧ n = d then v else x.regs.getD n 0 := by
  have w := regWrite_writes hd v
  by_cases ho : on
  · by_cases hn : n = d
    · simp only [halfLane, ho, hn, and_self, if_true, w.value]
    · simp only [halfLane, ho, hn, and_false, if_true, if_false, w.frame n hn]
  · simp [halfLane, ho]

end

/-- One half's write: its lanes of the issuing crew take its values in its destination, which holds good data again. -/
def writeHalf (t : State) (c : Nat) (q : Half) (act : List Nat) (v : Nat → Word) : State :=
  (t.updCur (fun k => k.onLanes act (fun l x => regWrite x q.d.toNat (v l)))).mendRegs c act [(q.d, 1)]

theorem State.mendRegs_updCur (t : State) (f : Crew → Crew) (c : Nat) (act : List Nat) (rs : List (BitVec 8 × Nat)) :
    (t.updCur f).mendRegs c act rs = (t.mendRegs c act rs).updCur f := by
  by_cases hb : t.badSram.isEmpty = true <;> simp [State.mendRegs, State.updCur, hb, State.cur, State.setCrew, State.crew]

@[simp] theorem State.crews_mendRegs (t : State) (c : Nat) (act : List Nat) (rs : List (BitVec 8 × Nat)) : (t.mendRegs c act rs).crews = t.crews := by
  rw [State.mendRegs_frame]

@[simp] theorem State.crew_mendRegs (t : State) (c : Nat) (act : List Nat) (rs : List (BitVec 8 × Nat)) (d : Nat) : (t.mendRegs c act rs).crew d = t.crew d := by
  rw [State.mendRegs_frame]; rfl

theorem State.crew_updCur_cur {t : State} {c : Nat} (hc : t.cur = c) (hlen : c < t.crews.length) (f : Crew → Crew) : (t.updCur f).crew c = f (t.crew c) := by
  subst hc
  exact State.crew_setCrew_self _ hlen

theorem State.crew_updCur_ne {t : State} {c d : Nat} (hc : t.cur = c) (hd : d ≠ c) (f : Crew → Crew) : (t.updCur f).crew d = t.crew d := by
  subst hc
  exact State.crew_setCrew_ne _ hd

@[simp] theorem State.crews_length_updCur (t : State) (f : Crew → Crew) : (t.updCur f).crews.length = t.crews.length := by
  simp [State.updCur, State.setCrew]

theorem RegErrors.mono {s t : State} {c : Nat} {act act' : List Nat} (e : RegErrors s t c act) (h : ∀ l ∈ act, l ∈ act') : RegErrors s t c act' :=
  ⟨e.old, fun x hx => (e.mended x hx).imp_right (fun ⟨l, hl, hr⟩ => ⟨l, h l hl, hr⟩)⟩

/-- What changes crews and errors after a word has issued leaves the rest as the word's issue leaves it. -/
theorem State.rest_trans {s t u : State} {i : Option Issue} (hu : u = { t with crews := u.crews, badSram := u.badSram })
    (ht : t = { s with crews := t.crews, badSram := t.badSram, issue := i }) : u = { s with crews := u.crews, badSram := u.badSram, issue := i } :=
  hu.trans (congrArg (fun w : State => { w with crews := u.crews, badSram := u.badSram }) ht)

/-- What the issuing of a path and the writes of its lanes so far have led to: lane l of the path has gone by `f l` from where it stands after issuing, errors have
gone in the lanes `act` alone, and nothing else has changed. -/
structure LaneRun (s t : State) (is : Issue) (act : List Nat) (f : Nat → Lane → Lane) : Prop where
  resident : is.crew < t.crews.length
  eight    : (t.crew is.crew).lanes.length = 8
  path     : ∀ l ∈ lanesOf is.path, (t.crew is.crew).lane l = f l ((s.crew is.crew).lane l).issueOne
  others   : ∀ l, l ∉ lanesOf is.path → (t.crew is.crew).lane l = (s.crew is.crew).lane l
  crew     : t.crew is.crew = { s.crew is.crew with lanes := (t.crew is.crew).lanes }
  crews    : ∀ c, c ≠ is.crew → t.crew c = s.crew c
  errors   : RegErrors s t is.crew act
  rest     : t = { s with crews := t.crews, badSram := t.badSram, issue := some { is with issued := is.issued ||| is.path, spent := true } }

/-- Before any write, the path's lanes have issued. -/
theorem LaneRun.of_issueWord {s : State} {is : Issue} (hc : is.crew < s.crews.length) (hk : (s.crew is.crew).lanes.length = 8) :
    LaneRun s (s.issueWord is) is [] (fun _ x => x) := by
  have hcrew : (s.issueWord is).crew is.crew = (s.crew is.crew).issuePath is.path := State.issueWord_crew hc
  constructor
  case resident => simpa [State.issueWord_crews] using hc
  case eight => rw [hcrew, Crew.issuePath_length, hk]
  case path => intro l hl; rw [hcrew, Crew.lane_issuePath hk, if_pos hl]
  case others => intro l hl; rw [hcrew, Crew.lane_issuePath hk, if_neg hl]
  case crew => rw [hcrew]; exact Crew.issuePath_frame _ _
  case crews => exact fun c hne => State.issueWord_crew_ne hne
  case errors => exact ⟨fun e he => he, fun e he => .inl he⟩
  case rest => rfl

theorem LaneRun.cur {s t : State} {is : Issue} {act : List Nat} {f : Nat → Lane → Lane} (r : LaneRun s t is act f) : t.cur = is.crew := by
  rw [r.rest]; rfl

/-- After a half's write, its lanes have taken its values on top of what the writes before it left. -/
theorem LaneRun.of_writeHalf {s t : State} {is : Issue} {act on : List Nat} {f : Nat → Lane → Lane} (r : LaneRun s t is act f) (q : Half) (v : Nat → Word)
    (hn : on.Nodup) (hon : ∀ l ∈ on, l ∈ lanesOf is.path) :
    LaneRun s (writeHalf t is.crew q on v) is (act ++ on) (fun l x => halfLane (l ∈ on) q.d.toNat (v l) (f l x)) := by
  have hcrew : (writeHalf t is.crew q on v).crew is.crew = (t.crew is.crew).onLanes on (fun l x => regWrite x q.d.toNat (v l)) := by
    rw [writeHalf, State.crew_mendRegs, State.crew_updCur_cur r.cur r.resident]
  have hlane : ∀ l, ((writeHalf t is.crew q on v).crew is.crew).lane l =
      halfLane (l ∈ on) q.d.toNat (v l) ((t.crew is.crew).lane l) := by
    rw [hcrew]
    exact Crew.lane_onLanes _ hn _ (fun l hl => r.eight.symm ▸ (mem_lanesOf.mp (hon l hl)).1)
  constructor
  case resident => simpa [writeHalf] using r.resident
  case eight => rw [hcrew, Crew.onLanes_length, r.eight]
  case path => intro l hl; rw [hlane, r.path l hl]
  case others => intro l hl; rw [hlane, halfLane_neg (fun h => hl (hon l h)), r.others l hl]
  case crew =>
    rw [hcrew]
    exact Crew.lanes_frame ⟨_, Crew.onLanes_frame _ _ _⟩ ⟨_, r.crew⟩
  case crews =>
    intro c hc
    rw [writeHalf, State.crew_mendRegs, State.crew_updCur_ne r.cur hc, r.crews c hc]
  case errors =>
    refine ⟨fun e he => r.errors.old e (State.mendRegs_sub (s := t.updCur _) he), fun e he => ?_⟩
    rcases r.errors.mended e he with h | ⟨l, hl, hr⟩
    · exact (State.mendRegs_mended (s := t.updCur _) h).imp_right (fun ⟨l, hl, hr⟩ => ⟨l, List.mem_append_right _ hl, .inl hr⟩)
    · exact .inr ⟨l, List.mem_append_left _ hl, hr⟩
  case rest => exact State.rest_trans (by rw [writeHalf, State.mendRegs_frame]; rfl) r.rest

/-- A run in which the lanes outside `act` have only issued says what `LanesOnly` asks. -/
theorem LaneRun.lanesOnly {s t : State} {is : Issue} {act act' : List Nat} {f : Nat → Lane → Lane} {R : Nat → Lane → Lane → Prop} (r : LaneRun s t is act f)
    (hsub : ∀ l ∈ act', l ∈ lanesOf is.path) (hact : ∀ l, l ∈ act → l ∈ act') (hid : ∀ l x, l ∉ act' → f l x = x)
    (hR : ∀ l ∈ act', R l ((s.crew is.crew).lane l).issueOne (f l ((s.crew is.crew).lane l).issueOne)) : LanesOnly s t is act' R := by
  constructor
  case active => intro l hl; rw [r.path l (hsub l hl)]; exact hR l hl
  case frame =>
    refine ⟨fun l hl hno hp => ?_, fun l hp => r.others l (by simp [mem_lanesOf, hp]), r.crew, r.crews⟩
    rw [r.path l (mem_lanesOf.mpr ⟨hl, hp⟩), hid l _ hno]
  case errors => exact r.errors.mono hact
  case rest => exact r.rest

/-! ### The pair word as two writes -/

theorem Half.holds_iff {q : Half} {x : Lane} : Half.holds q x = true ↔ q.g = 7 ∨ x.preds.getLsbD q.g.toNat = true := by
  have : (q.g.toNat = 7) ↔ q.g = 7 := by rw [← BitVec.toNat_inj]; rfl
  simp [Half.holds, this]

theorem mem_halfLanes {q : Half} {k : Crew} {p : BitVec 8} {l : Nat} :
    l ∈ halfLanes q k p ↔ l ∈ lanesOf p ∧ (q.g = 7 ∨ (k.lane l).preds.getLsbD q.g.toNat = true) := by
  rw [halfLanes, List.mem_filter, Half.holds_iff]

theorem halfLanes_nodup (q : Half) (k : Crew) (p : BitVec 8) : (halfLanes q k p).Nodup := (lanesOf_nodup p).filter _

theorem State.regBad_append {s : State} {c l : Nat} {xs ys : List (BitVec 8 × Nat)} (h : s.regBad c l (xs ++ ys) = false) :
    s.regBad c l xs = false ∧ s.regBad c l ys = false := by
  simp only [State.regBad, regNumbers, List.flatMap_append, List.any_append, Bool.and_or_distrib_left, Bool.or_eq_false_iff] at h
  exact h

/-- The value of half q in lane l, its operands the fields n and n + 1 as they stand when the word issues. -/
def halfVal (s : State) (is : Issue) (q : Half) (n l : Nat) : Word := halfResult q.op (s.operand is n l q.d) (s.operand is (n + 1) l q.s) q.x

/-- The state in which a pair word ends: the path has issued, then H0 has written, then H1. -/
def pairEnd (s : State) (is : Issue) (a b : Half) : State :=
  writeHalf (writeHalf (s.issueWord is) is.crew a (halfLanes a (s.crew is.crew) is.path) (halfVal s is a 0))
    is.crew b (halfLanes b (s.crew is.crew) is.path) (halfVal s is b 2)

theorem pairPacket_next {s : State} {is : Issue} {a b : Half} (ht : s.issue = some is)
    (hp : (pairNeeds a b).check (s.crew is.crew) (s.gridOf is.crew).regs = none)
    (hs : ∀ l < 8, s.regBad is.crew l (Half.reads a ++ Half.reads b) = false ∧ s.predBad is.crew l (Half.guards a ++ Half.guards b) = false) :
    pairPacket a b s = .next (pairEnd s is a b) := by
  have hlt : ∀ l ∈ lanesOf is.path, l < 8 := fun l hl => (mem_lanesOf.mp hl).1
  have hsound : (lanesOf is.path).find? (fun l => s.predBad is.crew l (Half.guards a ++ Half.guards b)
      || ((halfLanes a (s.crew is.crew) is.path).filter (fun l => s.regBad is.crew l (Half.reads a))).contains l
      || ((halfLanes b (s.crew is.crew) is.path).filter (fun l => s.regBad is.crew l (Half.reads b))).contains l) = none := by
    rw [List.find?_eq_none]
    intro l hl
    obtain ⟨hreg, hpred⟩ := hs l (hlt l hl)
    obtain ⟨hra, hrb⟩ := State.regBad_append hreg
    simp [hpred, hra, hrb]
  simp only [pairPacket, ht, hp, hsound]
  simp only [pairEnd, writeHalf, State.mendRegs_updCur]
  rfl

theorem exec_pairForms (s : State) (g : BitVec 3) (d r : BitVec 8) (x5 : BitVec 5) (x6 : BitVec 6) (h : Half) :
    ∀ f ∈ pairForms g d r x5 x6 h, exec f.1 s = pairPacket f.2 h s := by
  simp only [pairForms, List.forall_mem_cons]
  exact ⟨rfl, rfl, rfl, rfl, rfl, rfl, rfl, rfl, rfl, rfl, rfl, rfl, rfl, rfl, rfl, rfl, rfl, rfl, rfl, rfl, List.forall_mem_nil _⟩

/-! ### The pair word's effect -/

theorem pairPacket_gives {s : State} {is : Issue} {a b : Half} (ht : s.issue = some is) (hc : is.crew < s.crews.length)
    (hk : (s.crew is.crew).Shaped (s.gridOf is.crew).regs) (hp : (pairNeeds a b).check (s.crew is.crew) (s.gridOf is.crew).regs = none)
    (hs : ∀ l < 8, s.regBad is.crew l (Half.reads a ++ Half.reads b) = false ∧ s.predBad is.crew l (Half.guards a ++ Half.guards b) = false)
    {act : List Nat} (hact : ∀ l, l ∈ act ↔ l ∈ halfLanes a (s.crew is.crew) is.path ∨ l ∈ halfLanes b (s.crew is.crew) is.path) :
    ∃ t, pairPacket a b s = .next t ∧ LanesOnly s t is act (fun l x y => y = { x with regs := y.regs, pend := y.pend } ∧ y.regs.length = x.regs.length ∧
      ∀ n, y.regs.getD n 0 =
        if l ∈ halfLanes b (s.crew is.crew) is.path ∧ n = b.d.toNat then halfVal s is b 2 l
        else if l ∈ halfLanes a (s.crew is.crew) is.path ∧ n = a.d.toNat then halfVal s is a 0 l
        else x.regs.getD n 0) := by
  have hsub : ∀ q, ∀ l ∈ halfLanes q (s.crew is.crew) is.path, l ∈ lanesOf is.path := fun q l hl => (mem_halfLanes.mp hl).1
  have run := ((LaneRun.of_issueWord hc hk.lanes).of_writeHalf a (halfVal s is a 0) (halfLanes_nodup a _ _) (hsub a)).of_writeHalf b (halfVal s is b 2)
    (halfLanes_nodup b _ _) (hsub b)
  refine ⟨_, pairPacket_next ht hp hs, run.lanesOnly ?_ ?_ ?_ ?_⟩
  · intro l hl
    exact ((hact l).mp hl).elim (hsub a l) (hsub b l)
  · intro l hl
    exact (hact l).mpr (by simpa using hl)
  · intro l x hl
    obtain ⟨hna, hnb⟩ := not_or.mp (mt (hact l).mpr hl)
    rw [halfLane_neg hnb, halfLane_neg hna]
  · intro l hl
    have hl8 : l < 8 := (mem_lanesOf.mp (((hact l).mp hl).elim (hsub a l) (hsub b l))).1
    have hlen := hk.regs_length hl8
    have ha : a.d.toNat + 1 ≤ _ := Needs.dst_le_of_check hp (d := a.d) (c := 1) (by simp [pairNeeds])
    have hb : b.d.toNat + 1 ≤ _ := Needs.dst_le_of_check hp (d := b.d) (c := 1) (by simp [pairNeeds])
    refine ⟨?_, by rw [halfLane_length, halfLane_length], fun n => ?_⟩
    · rw [halfLane_rest, halfLane_rest (x := Lane.issueOne _)]
    · rw [halfLane_getD (by rw [halfLane_length, Lane.issueOne_regs, hlen]; omega), halfLane_getD (by rw [Lane.issueOne_regs, hlen]; omega)]

/-- Settles O38: a pair word is two writes whose values are fixed before the first of them, so H1's stands where both name one register. -/
theorem pairWords : Obligations.PairWords := by
  unfold Obligations.PairWords
  refine ⟨rfl, fun s is g d r x5 x6 h1 f hf ht hc hk hp hs => ?_, fun d s x => ?_⟩
  · intro on val
    rw [exec_pairForms s g d r x5 x6 h1 f hf]
    obtain ⟨t, hnext, hlanes⟩ := pairPacket_gives ht hc hk hp hs
      (act := (lanesOf is.path).filter (fun l => decide (on f.2 l ∨ on h1 l))) (fun l => by simp [mem_halfLanes, on, and_or_left])
    refine ⟨t, hnext, hlanes.mono (fun l hl x y ⟨hrest, hlen, hregs⟩ => ⟨hrest, hlen, fun n => (hregs n).trans ?_⟩)⟩
    have hon : ∀ q, l ∈ halfLanes q (s.crew is.crew) is.path ↔ on q l := by simp [mem_halfLanes, (List.mem_filter.mp hl).1, on]
    exact if_congr (and_congr_left' (hon h1)) rfl (if_congr (and_congr_left' (hon f.2)) rfl rfl)
  · exact ⟨addResult_wrap d s, subResult_wrap d s, rfl, rfl, rfl, rfl, rfl, rfl,
      some_toNat_ofNat_getD (fAdd_pairMod ..), some_toNat_ofNat_getD (fMul_pairMod ..),
      (BitVec.toNat_ofNat ..).trans (Nat.mod_eq_of_lt (fMin_lt d s)), (BitVec.toNat_ofNat ..).trans (Nat.mod_eq_of_lt (fMax_lt d s)),
      some_getD_packed (fAdd_pairMod .f16) d s, some_getD_packed (fMul_pairMod .f16) d s,
      fun hx => ⟨shlResult_of_lt hx s, shrResult_of_lt hx s, sarResult_of_lt hx s⟩, rfl, rfl, rfl⟩

end Sys2Proof.Machine
end

section
/-! SUPPORT. The words of control flow (R121-R125): branches, returns and joins; and the words that hold lanes of their path at the word itself (R129, R263,
R297). -/
namespace Sys2Proof.Machine
open Sys2Proof

/-! ### What issuing leaves of the crews -/

theorem Crew.issuePath_joins (k : Crew) (p : BitVec 8) : (k.issuePath p).joins = k.joins := by
  rw [Crew.issuePath_frame]

theorem State.issueWord_joinReg {s : State} {is : Issue} (hc : is.crew < s.crews.length) (j : Nat) :
    ((s.issueWord is).crew is.crew).joinReg j = (s.crew is.crew).joinReg j := by
  rw [State.issueWord_crew hc, Crew.joinReg, Crew.issuePath_joins, Crew.joinReg]

theorem State.issueWord_wg {s : State} {is : Issue} (hc : is.crew < s.crews.length) : ((s.issueWord is).crew is.crew).wg = (s.crew is.crew).wg := by
  rw [State.issueWord_crew hc, Crew.issuePath_frame]

theorem State.issueWord_role {s : State} {is : Issue} (hc : is.crew < s.crews.length) : ((s.issueWord is).crew is.crew).role = (s.crew is.crew).role := by
  rw [State.issueWord_crew hc, Crew.issuePath_frame]

theorem State.issueWord_gridOf {s : State} {is : Issue} (hc : is.crew < s.crews.length) : (s.issueWord is).gridOf is.crew = s.gridOf is.crew := by
  rw [State.gridOf, State.wgOf, State.issueWord_wg hc]
  rfl

theorem State.issueWord_vdOf {s : State} {is : Issue} (hc : is.crew < s.crews.length) : (s.issueWord is).vdOf is.crew = s.vdOf is.crew := by
  rw [State.vdOf, State.issueWord_gridOf hc, State.vdOf]

@[simp] theorem State.issueWord_curPc (s : State) (is : Issue) : (s.issueWord is).curPc = is.at := rfl

/-! ### Words that need and write nothing -/

/-- Mending what a word without destinations writes changes nothing. -/
theorem State.mend_empty (s : State) (c : Nat) (act : List Nat) : s.mend c act {} = s := by
  by_cases hb : s.badSram.isEmpty = true
  · simp [State.mend, State.mendPreds, State.mendRegs, hb]
  · have hregs : s.mendRegs c act [] = s := by
      simp only [State.mendRegs, hb, Bool.false_eq_true, if_false]
      exact State.badSram_filter_self s _ (by intro e; cases e <;> simp [regNumbers])
    simp only [State.mend, hregs, State.mendPreds, hb, Bool.false_eq_true, if_false]
    exact State.badSram_filter_self s _ (by intro e; cases e <;> simp)

theorem word_bare {s s' : State} {is : Issue} {h : Hdr} {body : State → Crew → List Nat → Eff} (r : Ready s is h {})
    (ha : s.acting is h ≠ []) (hb : body (s.issueWord is) (s.crew is.crew) (s.acting is h) = .ok s') : word h {} body s = .next s' :=
  (word_ok r ha hb).trans (by rw [State.mend_empty])

/-- A word whose effect is a change of its crew's record alone. -/
theorem word_updCur {s : State} {is : Issue} {h : Hdr} {body : State → Crew → List Nat → Eff} (r : Ready s is h {}) (ha : s.acting is h ≠ [])
    {f : Crew → Crew} (hb : body (s.issueWord is) (s.crew is.crew) (s.acting is h) = .ok ((s.issueWord is).updCur f)) :
    ∃ t, word h {} body s = .next t ∧ t = { s.issueWord is with crews := t.crews } ∧ (∀ c, c ≠ is.crew → t.crew c = s.crew c) ∧
      t.crew is.crew = f ((s.issueWord is).crew is.crew) := by
  refine ⟨_, word_bare r ha hb, State.updCur_frame _ f, fun c hc => ?_, State.crew_updCur_cur rfl ?_ f⟩
  · rw [State.crew_updCur_ne (State.issueWord_cur s is) hc, State.issueWord_crew_ne hc]
  · simpa [State.issueWord_crews] using r.resident

/-! ### Branches and returns (R122-R124) -/

theorem branchTarget_of_lt {pc off : BitVec 32} {words : Nat} (h0 : 0 ≤ (pc.toNat : Int) + off.toInt) (h1 : (pc.toNat : Int) + off.toInt < words) :
    branchTarget pc off words = some (BitVec.ofInt 32 ((pc.toNat : Int) + off.toInt)) := if_pos ⟨h0, h1⟩

theorem branchTarget_off_text {pc off : BitVec 32} {words : Nat}
    (h : (pc.toNat : Int) + off.toInt < 0 ∨ (words : Int) ≤ (pc.toNat : Int) + off.toInt) : branchTarget pc off words = none := if_neg (by omega)

theorem branchWord_inside {s : State} {is : Issue} {h : Hdr} {n : Needs} {off t : BitVec 32} {body : BitVec 32 → State → Crew → List Nat → Eff}
    (ht : s.issue = some is) (hb : branchTarget is.at off (s.gridOf is.crew).words = some t) : branchWord h n off body s = word h n (body t) s := by
  simp only [branchWord, ht, hb]

theorem branchWord_off_text {s : State} {is : Issue} {h : Hdr} {n : Needs} {off : BitVec 32} {body : BitVec 32 → State → Crew → List Nat → Eff}
    (ht : s.issue = some is) (hb : branchTarget is.at off (s.gridOf is.crew).words = none) :
    branchWord h n off body s = .next (s.trapPath is tcIllegalEncoding 0) := by
  simp only [branchWord, ht, hb]

/-- A format C word whose target lies in the text changes its active lanes by f. -/
theorem branchWord_goes {s : State} {is : Issue} {h : Hdr} {n : Needs} {off : BitVec 32} {body : BitVec 32 → State → Crew → List Nat → Eff}
    (r : Ready s is h n) (h0 : 0 ≤ (is.at.toNat : Int) + off.toInt) (hw : (is.at.toNat : Int) + off.toInt < (s.gridOf is.crew).words)
    (f : Lane → Lane) {R : Nat → Lane → Lane → Prop}
    (hb : body (BitVec.ofInt 32 ((is.at.toNat : Int) + off.toInt)) (s.issueWord is) (s.crew is.crew) (s.acting is h) =
      .ok ((s.issueWord is).updCur (fun k => k.onLanes (s.acting is h) (fun _ => f))))
    (hR : ∀ l ∈ s.acting is h, R l ((s.crew is.crew).lane l).issueOne (f ((s.crew is.crew).lane l).issueOne)) :
    ∃ t, branchWord h n off body s = .next t ∧ LanesOnly s t is (s.acting is h) R := by
  rw [branchWord_inside r.turn (branchTarget_of_lt h0 hw)]
  exact word_lanes r (fun _ => f) R hb hR

/-- A target inside 32 bits is where the lanes go. -/
theorem toNat_ofInt_of_lt {x : Int} (h0 : 0 ≤ x) (h1 : x < 2 ^ 32) : ((BitVec.ofInt 32 x).toNat : Int) = x := by
  rw [BitVec.toNat_ofInt]
  omega

/-- The link's register lies in every active lane. -/
theorem Ready.link_writes {s : State} {is : Issue} {h : Hdr} {n : Needs} (r : Ready s is h n) {d : BitVec 8} (hd : (d, 1) ∈ n.dst) (v : Word) {l : Nat}
    (hl : l ∈ s.acting is h) : WritesReg d.toNat v ((s.crew is.crew).lane l).issueOne (regWrite ((s.crew is.crew).lane l).issueOne d.toNat v) := by
  refine regWrite_writes ?_ v
  have := r.inRange (List.mem_append_left _ (List.mem_append_left _ hd)) (r.acting_lt hl)
  rw [Lane.issueOne_regs]
  omega

/-- The lowest active lane of those that meet a condition is the first that is found. -/
theorem find?_acting {s : State} {is : Issue} {h : Hdr} {p : Nat → Bool} {l : Nat} (hl : l ∈ s.acting is h) (hp : p l = true)
    (hlow : ∀ k ∈ s.acting is h, k < l → p k = false) : (s.acting is h).find? p = some l := by
  simp only [State.acting, activeLanes, lanesOf, List.find?_filter, List.find?_range_eq_some] at hl hlow ⊢
  simp only [List.mem_filter, List.mem_range] at hl hlow
  obtain ⟨⟨h8, hpath⟩, hguard⟩ := hl
  refine ⟨by simp [hpath, hguard, hp], by simp [h8], fun k hk => ?_⟩
  cases hkpath : is.path.getLsbD k <;> cases hkguard : guardTrue h ((s.crew is.crew).lane k)
  case true.true => simp [hlow k ⟨⟨hk.trans h8, hkpath⟩, hkguard⟩ hk]
  all_goals simp

section
variable {s : State} {is : Issue} {h : Hdr} {a : BitVec 8} {link : Option (BitVec 8)}

/-- A lane after it has gone to its register target, with the link where there is one. -/
def branchLane (link : Option (BitVec 8)) (ret : BitVec 32) (target : Word) (x : Lane) : Lane :=
  { link.elim x (fun d => regWrite x d.toNat ret) with pc := target }

theorem registerBranch_goes (r : Ready s is h { dst := (link.map (·, 1)).toList, src := [(a, 1)] })
    (ht : ∀ l ∈ s.acting is h, (s.operand is 0 l a).toNat < (s.gridOf is.crew).words) {R : Nat → Lane → Lane → Prop}
    (hR : ∀ l ∈ s.acting is h, R l ((s.crew is.crew).lane l).issueOne
      (branchLane link (is.at + 1) (s.operand is 0 l a) ((s.crew is.crew).lane l).issueOne)) :
    ∃ t, registerBranch h link a s = .next t ∧ LanesOnly s t is (s.acting is h) R := by
  refine word_lanes r (fun l x => branchLane link (is.at + 1) (s.operand is 0 l a) x) R ?_ hR
  have hnone : (s.acting is h).find? (fun l => decide ((s.gridOf is.crew).words ≤ (s.operand is 0 l a).toNat)) = none := by
    rw [List.find?_eq_none]
    intro l hl
    simpa using ht l hl
  simp only [State.issueWord_cur, State.issueWord_curPc, State.issueWord_gridOf r.resident, operand_eq, hnone]
  cases link <;> rfl

theorem registerBranch_traps (r : Ready s is h { dst := (link.map (·, 1)).toList, src := [(a, 1)] }) {l : Nat} (hl : l ∈ s.acting is h)
    (hoff : (s.gridOf is.crew).words ≤ (s.operand is 0 l a).toNat)
    (hlow : ∀ k ∈ s.acting is h, k < l → (s.operand is 0 k a).toNat < (s.gridOf is.crew).words) :
    registerBranch h link a s = .next (s.trapPath is tcHandle ((s.operand is 0 l a).setWidth 64)) := by
  refine word_trap r (List.ne_nil_of_mem hl) ?_
  have hfind : (s.acting is h).find? (fun l => decide ((s.gridOf is.crew).words ≤ (s.operand is 0 l a).toNat)) = some l :=
    find?_acting hl (by simpa using hoff) (fun k hk hkl => by simpa using hlow k hk hkl)
  simp only [State.issueWord_cur, State.issueWord_gridOf r.resident, operand_eq, hfind]

end

/-- Settles O21: a format C word checks its target before its guard, and a register branch has read each active lane's target before it writes the link. -/
theorem branchesAndReturns : Obligations.BranchesAndReturns := by
  unfold Obligations.BranchesAndReturns
  refine ⟨fun s is h d off => ⟨fun h0 hw h32 => ⟨fun r => ?bra, fun r => ?call⟩, fun ht hoff => ⟨?braOff, ?callOff⟩⟩,
    fun s is h d a => ⟨fun r => ⟨fun hin => ⟨?brx, ?ret⟩, fun l hl hoff hlow => ⟨?brxOff, ?retOff⟩⟩,
      fun r => ⟨fun hin => ?callx, fun l hl hoff hlow => ?callxOff⟩⟩⟩
  case bra => exact branchWord_goes r h0 hw (fun x => { x with pc := _ }) rfl (fun l _ => ⟨rfl, toNat_ofInt_of_lt h0 h32⟩)
  case call =>
    exact branchWord_goes r h0 hw (fun x => { regWrite x d.toNat (is.at + 1) with pc := _ }) rfl
      (fun l hl => ⟨_, r.link_writes (by simp) _ hl, rfl, toNat_ofInt_of_lt h0 h32⟩)
  case braOff | callOff => exact branchWord_off_text ht (branchTarget_off_text hoff)
  case brx | ret => exact registerBranch_goes (link := none) r hin (fun _ _ => rfl)
  case brxOff | retOff => exact registerBranch_traps (link := none) r hl hoff hlow
  case callx => exact registerBranch_goes (link := some d) r hin (fun l hl => ⟨_, r.link_writes (by simp) _ hl, rfl⟩)
  case callxOff => exact registerBranch_traps (link := some d) r hl hoff hlow

/-! ### Joins (R118, R125) -/

theorem Crew.joinReg_of_joins_set {k q : Crew} {j : Nat} {r : Join} (h : k.joins = q.joins.set j r) (hj : j < q.joins.length) : k.joinReg j = r := by
  simp [Crew.joinReg, h, hj]

theorem Crew.joinReg_of_joins_set_ne {k q : Crew} {i j : Nat} {r : Join} (h : k.joins = q.joins.set j r) (hne : i ≠ j) : k.joinReg i = q.joinReg i := by
  simp [Crew.joinReg, h, List.getD_eq_getElem?_getD, Ne.symm hne]

/-- Release(jk) has something to release: lanes are recorded, and every recorded lane that has not exited waits. -/
def Crew.JoinDone (k : Crew) (j : Nat) : Prop := (k.joinReg j).mask ≠ 0 ∧ ((k.joinReg j).mask &&& k.aliveMask) &&& ~~~(k.joinReg j).wait = 0

/-- The crew after a join has let its lanes go on. -/
def Crew.released (k : Crew) (j : Nat) : Crew :=
  { k.onLanes (lanesOf (k.joinReg j).wait) (fun _ x => { x with pc := x.pc + 1, st := .run }) with
    joins := k.joins.set j { k.joinReg j with wait := 0 } }

theorem Crew.release_of_done {k : Crew} {j : Nat} (h : k.JoinDone j) : k.release j = k.released j := by
  rw [Crew.release, if_pos (by simpa [Crew.JoinDone] using h)]
  rfl

theorem Crew.release_of_not_done {k : Crew} {j : Nat} (h : ¬ k.JoinDone j) : k.release j = k := by
  rw [Crew.release, if_neg (by simpa [Crew.JoinDone] using h)]

theorem Crew.released_lane {k : Crew} (hk : k.lanes.length = 8) (j l : Nat) :
    (k.released j).lane l = if l ∈ lanesOf (k.joinReg j).wait then { k.lane l with pc := (k.lane l).pc + 1, st := .run } else k.lane l :=
  Crew.lane_onLanes _ (lanesOf_nodup _) k (fun _ hl => hk.symm ▸ (mem_lanesOf.mp hl).1) l

theorem Crew.released_joinReg_self {k : Crew} {j : Nat} (hj : j < k.joins.length) : (k.released j).joinReg j = { k.joinReg j with wait := 0 } :=
  Crew.joinReg_of_joins_set (q := k) rfl hj

theorem Crew.release_joinReg_ne {k : Crew} {i j : Nat} (h : i ≠ j) : (k.release j).joinReg i = k.joinReg i := by
  by_cases hd : k.JoinDone j
  · rw [Crew.release_of_done hd]
    exact Crew.joinReg_of_joins_set_ne (q := k) rfl h
  · rw [Crew.release_of_not_done hd]

section
variable {k : Crew} {j : Nat} {pc : BitVec 32} {act : List Nat}

/-- The recorded lanes among those that come to a join. -/
def Crew.recorded (k : Crew) (j : Nat) (act : List Nat) : List Nat := act.filter (fun l => (k.joinReg j).mask.getLsbD l)

theorem Crew.arriveJoin_lane (hn : act.Nodup) (hlt : ∀ l ∈ act, l < k.lanes.length) (l : Nat) :
    (k.arriveJoin j pc act).lane l = if l ∈ k.recorded j act then { k.lane l with st := .joinwait j, pc := pc } else k.lane l :=
  Crew.lane_onLanes (fun _ x => { x with st := .joinwait j, pc := pc }) (hn.filter _) k (fun l hl => hlt l (List.mem_filter.mp hl).1) l

theorem Crew.arriveJoin_lanes_length : (k.arriveJoin j pc act).lanes.length = k.lanes.length := Crew.onLanes_length k _ _

theorem Crew.arriveJoin_joins : (k.arriveJoin j pc act).joins =
    k.joins.set j { k.joinReg j with wait := (k.joinReg j).wait ||| laneMask (k.recorded j act) } := by
  simp only [Crew.arriveJoin, Crew.recorded]
  rw [Crew.onLanes_frame]

theorem Crew.arriveJoin_joinReg_self (hj : j < k.joins.length) :
    (k.arriveJoin j pc act).joinReg j = { k.joinReg j with wait := (k.joinReg j).wait ||| laneMask (k.recorded j act) } :=
  Crew.joinReg_of_joins_set Crew.arriveJoin_joins hj

theorem Crew.arriveJoin_joinReg_ne {i : Nat} (h : i ≠ j) : (k.arriveJoin j pc act).joinReg i = k.joinReg i :=
  Crew.joinReg_of_joins_set_ne Crew.arriveJoin_joins h

end

/-- The crew after jmark: the join register records the active lanes (R125). -/
def Crew.marked (k : Crew) (j : Nat) (act : List Nat) : Crew := { k with joins := k.joins.set j { k.joinReg j with mask := laneMask act } }

section
variable {s : State} {is : Issue} {h : Hdr} {j : BitVec 2} (r : Ready s is h {}) (ha : s.acting is h ≠ [])
include r ha

theorem execJmark_traps (hw : ((s.crew is.crew).joinReg j.toNat).wait ≠ 0) : execJmark h j s = .next (s.trapPath is tcConvergence 0) := by
  unfold execJmark
  exact word_trap r ha (if_pos (bne_iff_ne.mpr hw))

theorem execJmark_marks (hw : ((s.crew is.crew).joinReg j.toNat).wait = 0) :
    ∃ t, execJmark h j s = .next t ∧ t = { s.issueWord is with crews := t.crews } ∧ (∀ c, c ≠ is.crew → t.crew c = s.crew c) ∧
      t.crew is.crew = ((s.issueWord is).crew is.crew).marked j.toNat (s.acting is h) := by
  unfold execJmark
  exact word_updCur r ha (f := fun k => k.marked j.toNat (s.acting is h)) (if_neg (by simp [hw]))

theorem execJoin_arrives :
    ∃ t, execJoin h j s = .next t ∧ t = { s.issueWord is with crews := t.crews } ∧ (∀ c, c ≠ is.crew → t.crew c = s.crew c) ∧
      t.crew is.crew = (((s.issueWord is).crew is.crew).arriveJoin j.toNat is.at (s.acting is h)).release j.toNat := by
  unfold execJoin
  exact word_updCur r ha (f := fun k => (k.arriveJoin j.toNat is.at (s.acting is h)).release j.toNat) rfl

end

/-- Settles O22: jmark writes its join register; join is an arrival and then Release(jk), which lets every waiting lane go on or nobody. -/
theorem joinWords : Obligations.JoinWords := by
  unfold Obligations.JoinWords
  intro s is h k hr ha r
  have hj : k.toNat < (s.crew is.crew).joins.length := hr.shaped.joins.symm ▸ k.isLt
  have hreg : ∀ j, ((s.issueWord is).crew is.crew).joinReg j = (s.crew is.crew).joinReg j := State.issueWord_joinReg hr.resident
  have hjoins : ((s.issueWord is).crew is.crew).joins = (s.crew is.crew).joins := by rw [State.issueWord_crew hr.resident, Crew.issuePath_joins]
  have hlanes : ((s.issueWord is).crew is.crew).lanes.length = 8 := by rw [State.issueWord_crew hr.resident, Crew.issuePath_length, hr.shaped.lanes]
  refine ⟨execJmark_traps hr ha, fun hw => ?_, ?_⟩
  · obtain ⟨t, hx, hrest, hcrews, hcrew⟩ := execJmark_marks hr ha hw
    refine ⟨t, hx, hrest, hcrews, ?_⟩
    rw [hcrew, Crew.marked, hreg, hjoins, ← hw]
  · intro here wait b alive released
    obtain ⟨t, hx, hrest, hcrews, hcrew⟩ := execJoin_arrives hr ha
    refine ⟨t, hx, hrest, hcrews, ?_⟩
    rw [hcrew]
    generalize hq : ((s.issueWord is).crew is.crew).arriveJoin k.toNat is.at (s.acting is h) = q
    have hqreg : q.joinReg k.toNat = { r with wait := wait } := by
      rw [← hq, Crew.arriveJoin_joinReg_self (hjoins ▸ hj), Crew.recorded, hreg]
    have hqne : ∀ j, j ≠ k.toNat → q.joinReg j = (s.crew is.crew).joinReg j := fun j hne => by rw [← hq, Crew.arriveJoin_joinReg_ne hne, hreg]
    have hqlane : ∀ l, q.lane l = b l := fun l => by
      rw [← hq, Crew.arriveJoin_lane (act := s.acting is h) (activeLanes_nodup ..) (fun l hl => hlanes.symm ▸ hr.acting_lt hl), Crew.recorded, hreg]
    have hqlen : q.lanes.length = 8 := by rw [← hq, Crew.arriveJoin_lanes_length, hlanes]
    have hqj : k.toNat < q.joins.length := by rw [← hq, Crew.arriveJoin_joins, List.length_set, hjoins]; exact hj
    have hdone : q.JoinDone k.toNat ↔ released := by
      have halive : q.aliveMask = alive := by simp only [Crew.aliveMask, hqlane]; rfl
      rw [Crew.JoinDone, hqreg, halive]
    refine ⟨fun hno => ?_, fun hyes => ?_, fun j hne => ?_, fun l hl => ⟨fun hno => ?_, fun hyes hwait => ?_⟩⟩
    · rw [Crew.release_of_not_done (mt hdone.mp hno), hqreg]
    · rw [Crew.release_of_done (hdone.mpr hyes), Crew.released_joinReg_self hqj, hqreg]
    · rw [Crew.release_joinReg_ne hne, hqne j hne]
    · by_cases hyes : released
      · have hstays : l ∉ lanesOf wait := fun hm => hno ⟨hyes, (mem_lanesOf.mp hm).2⟩
        rw [Crew.release_of_done (hdone.mpr hyes), Crew.released_lane hqlen, hqreg, if_neg hstays, hqlane]
      · rw [Crew.release_of_not_done (mt hdone.mp hyes), hqlane]
    · rw [Crew.release_of_done (hdone.mpr hyes), Crew.released_lane hqlen, hqreg, if_pos (mem_lanesOf.mpr ⟨hl, hwait⟩), hqlane]

/-! ### Lanes that stand at their word (R129, R263, R297) -/

theorem getLsbD_laneMask_foldl (ls : List Nat) (m : BitVec 8) {i : Nat} (hi : i < 8) :
    (ls.foldl (fun m l => m ||| (1#8 <<< l)) m).getLsbD i = (m.getLsbD i || decide (i ∈ ls)) := by
  induction ls generalizing m with
  | nil => simp
  | cons l ls ih =>
    have hbit : (1#8 <<< l).getLsbD i = decide (i = l) := by
      rw [BitVec.getLsbD_shiftLeft, BitVec.getLsbD_one, Bool.eq_iff_iff]
      simp [hi]
      omega
    rw [List.foldl_cons, ih, BitVec.getLsbD_or, hbit, Bool.or_assoc]
    simp

theorem getLsbD_laneMask (ls : List Nat) {i : Nat} (hi : i < 8) : (laneMask ls).getLsbD i = decide (i ∈ ls) := by
  rw [laneMask, getLsbD_laneMask_foldl ls _ hi, BitVec.getLsbD_zero, Bool.false_or]

theorem laneMask_congr {ls ms : List Nat} (h : ∀ l, l ∈ ls ↔ l ∈ ms) : laneMask ls = laneMask ms :=
  BitVec.eq_of_getLsbD_eq (fun i hi => by rw [getLsbD_laneMask ls hi, getLsbD_laneMask ms hi, decide_eq_decide, h])

theorem laneMask_append (ls ms : List Nat) : laneMask (ls ++ ms) = laneMask ls ||| laneMask ms :=
  BitVec.eq_of_getLsbD_eq (fun i hi => by
    rw [BitVec.getLsbD_or, getLsbD_laneMask _ hi, getLsbD_laneMask _ hi, getLsbD_laneMask _ hi, ← Bool.decide_or, decide_eq_decide, List.mem_append])

/-- A lane as it stood before the word, but for its state. -/
def Crew.standing (before : Crew) (st : Lane → LaneSt) (l : Nat) (_ : Lane) : Lane := { before.lane l with st := st (before.lane l) }

theorem State.unissue_crews (t : State) (before : Crew) (ls : List Nat) (st : Lane → LaneSt) :
    (t.unissue before ls st).crews = (t.updCur (fun k => k.onLanes ls (before.standing st))).crews := by
  unfold State.unissue
  cases hi : t.issue <;> simp only [State.updCur, State.issue_setCrew, hi] <;> rfl

theorem State.crew_unissue (t : State) (before : Crew) (ls : List Nat) (st : Lane → LaneSt) (c : Nat) :
    (t.unissue before ls st).crew c = (t.updCur (fun k => k.onLanes ls (before.standing st))).crew c := by
  rw [State.crew, State.unissue_crews, State.crew]

theorem State.unissue_rest {t : State} {i : Issue} (hi : t.issue = some i) (before : Crew) (ls : List Nat) (st : Lane → LaneSt) :
    t.unissue before ls st = { t with
      crews := (t.unissue before ls st).crews, issue := some { i with issued := i.issued &&& ~~~laneMask ls } } := by
  unfold State.unissue
  simp only [State.updCur, State.issue_setCrew, hi]
  rfl

theorem State.unissue_frame {s t u : State} {i j : Option Issue} (hu : u = { t with crews := u.crews, issue := j })
    (ht : t = { s with crews := t.crews, issue := i }) : u = { s with crews := u.crews, issue := j } :=
  hu.trans (congrArg (fun w : State => { w with crews := u.crews, issue := j }) ht)

/-- What a word leads to whose lanes `ls` do not issue after all: they stand as they stood, in the states that `st` gives, while the path's other lanes have
issued, and nothing else has changed. -/
structure Stood (s t : State) (is : Issue) (ls : List Nat) (st : Nat → LaneSt) : Prop where
  resident : is.crew < t.crews.length
  eight    : (t.crew is.crew).lanes.length = 8
  lanes    : ∀ l, (t.crew is.crew).lane l = if l ∈ ls then { (s.crew is.crew).lane l with st := st l }
    else if l ∈ lanesOf is.path then ((s.crew is.crew).lane l).issueOne else (s.crew is.crew).lane l
  crews    : ∀ c, c ≠ is.crew → t.crew c = s.crew c
  rest     : t = { s with crews := t.crews, issue := some { is with issued := (is.issued ||| is.path) &&& ~~~laneMask ls, spent := true } }

/-- Before any lane is held, the whole path has issued. -/
theorem Stood.of_issueWord {s : State} {is : Issue} (hc : is.crew < s.crews.length) (hk : (s.crew is.crew).lanes.length = 8) (st : Nat → LaneSt) :
    Stood s (s.issueWord is) is [] st := by
  have run := LaneRun.of_issueWord hc hk
  constructor
  case resident => exact run.resident
  case eight => exact run.eight
  case lanes => intro l; rw [if_neg List.not_mem_nil, State.issueWord_crew hc, Crew.lane_issuePath hk]
  case crews => exact run.crews
  case rest =>
    have hmask : (is.issued ||| is.path) &&& ~~~laneMask [] = is.issued ||| is.path := BitVec.and_allOnes
    rw [hmask]
    exact State.issueWord_frame s is

/-- Lanes that do not issue after all stand beside those that stood already. -/
theorem Stood.unissue {s t : State} {is : Issue} {ls ms : List Nat} {st : Nat → LaneSt} {f : Lane → LaneSt} (k : Stood s t is ls st) (hn : ms.Nodup)
    (hlt : ∀ l ∈ ms, l < 8) (hf : ∀ l ∈ ms, f ((s.crew is.crew).lane l) = st l) : Stood s (t.unissue (s.crew is.crew) ms f) is (ls ++ ms) st := by
  have hi : t.issue = some { is with issued := (is.issued ||| is.path) &&& ~~~laneMask ls, spent := true } := by rw [k.rest]
  have hcur : t.cur = is.crew := by rw [State.cur, hi]
  have hcrew : (t.unissue (s.crew is.crew) ms f).crew is.crew = (t.crew is.crew).onLanes ms ((s.crew is.crew).standing f) := by
    rw [State.crew_unissue, State.crew_updCur_cur hcur k.resident]
  constructor
  case resident => rw [State.unissue_crews, State.crews_length_updCur]; exact k.resident
  case eight => rw [hcrew, Crew.onLanes_length, k.eight]
  case lanes =>
    intro l
    rw [hcrew, Crew.lane_onLanes _ hn _ (fun l hl => k.eight.symm ▸ hlt l hl), k.lanes]
    by_cases hm : l ∈ ms
    · rw [if_pos hm, if_pos (List.mem_append_right _ hm), Crew.standing, hf l hm]
    · simp only [hm, List.mem_append, or_false, if_false]
  case crews => intro c hc; rw [State.crew_unissue, State.crew_updCur_ne hcur hc, k.crews c hc]
  case rest =>
    rw [laneMask_append, BitVec.not_or, ← BitVec.and_assoc]
    exact State.unissue_frame (State.unissue_rest hi _ ms f) k.rest

theorem Stood.congr {s t : State} {is : Issue} {ls ms : List Nat} {st st' : Nat → LaneSt} (k : Stood s t is ls st) (h : ∀ l, l ∈ ls ↔ l ∈ ms)
    (hst : ∀ l ∈ ls, st l = st' l) : Stood s t is ms st' := by
  constructor
  case resident => exact k.resident
  case eight => exact k.eight
  case lanes =>
    intro l
    rw [k.lanes]
    by_cases hl : l ∈ ls
    · rw [if_pos hl, if_pos ((h l).mp hl), hst l hl]
    · rw [if_neg hl, if_neg (mt (h l).mpr hl)]
  case crews => exact k.crews
  case rest => rw [← laneMask_congr h]; exact k.rest

/-- The lanes of a word whose active lanes each wait as `w` says, or go on. -/
theorem Stood.lane_of_waits {s t : State} {is : Issue} {act : List Nat} {w : Nat → Option LaneSt} {d : LaneSt}
    (k : Stood s t is (act.filter (fun l => (w l).isSome)) (fun l => (w l).getD d)) (hact : ∀ l ∈ act, l ∈ lanesOf is.path) {l : Nat} (hl : l < 8) :
    (t.crew is.crew).lane l = if l ∈ act then (w l).elim ((s.crew is.crew).lane l).issueOne (fun st => { (s.crew is.crew).lane l with st := st })
      else if is.path.getLsbD l then ((s.crew is.crew).lane l).issueOne else (s.crew is.crew).lane l := by
  rw [k.lanes]
  by_cases ha : l ∈ act
  · cases hw : w l <;> simp [ha, hw, hact l ha]
  · simp [ha, mem_lanesOf, hl]

/-- A word that holds those of its active lanes that `ls` names, active lanes or none. -/
theorem word_stands {s s' : State} {is : Issue} {h : Hdr} {body : State → Crew → List Nat → Eff} {ls : List Nat} {st : Nat → LaneSt} (r : Ready s is h {})
    (hsub : ∀ l ∈ ls, l ∈ s.acting is h) (hb : body (s.issueWord is) (s.crew is.crew) (s.acting is h) = .ok s') (hs : Stood s s' is ls st) :
    ∃ t, word h {} body s = .next t ∧ Stood s t is ls st := by
  by_cases ha : s.acting is h = []
  · have hnil : ls = [] := List.eq_nil_iff_forall_not_mem.mpr (fun l hl => by simpa [ha] using hsub l hl)
    subst hnil
    exact ⟨_, word_idle body r.turn r.passes r.guard ha, Stood.of_issueWord r.resident r.shaped.lanes st⟩
  · exact ⟨s', word_bare r ha hb, hs⟩

/-- The path has issued, and then the lanes of a list stand after all. -/
theorem Stood.of_unissue {s : State} {is : Issue} {h : Hdr} (r : Ready s is h {}) {ls : List Nat} (hn : ls.Nodup) (hsub : ∀ l ∈ ls, l ∈ s.acting is h)
    (f : Lane → LaneSt) {st : Nat → LaneSt} (hf : ∀ l ∈ ls, f ((s.crew is.crew).lane l) = st l) :
    Stood s ((s.issueWord is).unissue (s.crew is.crew) ls f) is ls st :=
  (Stood.of_issueWord r.resident r.shaped.lanes st).unissue hn (fun l hl => r.acting_lt (hsub l hl)) hf

/-! ### The conditions of the fences after issuing -/

section
variable {s : State} {is : Issue} (hc : is.crew < s.crews.length)
include hc

theorem State.issueWord_fenceFar (sc : Scope) (l : Nat) : (s.issueWord is).fenceFar sc is.crew l = s.fenceFar sc is.crew l := by
  have hkite : (s.issueWord is).kiteDone is.crew l = s.kiteDone is.crew l := by rw [State.kiteDone, State.issueWord_vdOf hc]; rfl
  cases sc <;> simp only [State.fenceFar, hkite] <;> rfl

theorem State.issueWord_matrixDone : (s.issueWord is).matrixDone is.crew = s.matrixDone is.crew := by
  rw [State.matrixDone, State.issueWord_role hc]
  rfl

theorem State.issueWord_fenceWait (sc : Scope) (l : Nat) : (s.issueWord is).fenceWait sc is.crew l = s.fenceWait sc is.crew l := by
  rw [State.fenceWait, State.issueWord_fenceFar hc, State.issueWord_matrixDone hc]
  rfl

end

theorem State.issueWord_fencefDone (s : State) (is : Issue) (sc : Scope) (l : Nat) : (s.issueWord is).fencefDone sc is.crew l = s.fencefDone sc is.crew l := by
  cases sc <;> rfl

theorem mem_parked_append_held {w : Nat → Option LaneSt} {act : List Nat} {l : Nat} :
    l ∈ (laneWaits act w).filter (fun l => w l == some .parked) ++ (laneWaits act w).filter (fun l => w l != some .parked) ↔
      l ∈ act.filter (fun l => (w l).isSome) := by
  simp only [List.mem_append, List.mem_filter, laneWaits]
  by_cases hp : w l = some .parked <;> simp [hp]

/-- What a lane waits as before fencef, or nothing (R263). -/
def State.fencefWait (s : State) (sc : Scope) (c l : Nat) : Option LaneSt := if s.fencefDone sc c l then none else some .parked

/-- A fence's lanes wait PARKED or HELD. -/
theorem State.fenceWait_of_not_parked {s : State} {sc : Scope} {c l : Nat} (hp : s.fenceWait sc c l ≠ some .parked) :
    (s.fenceWait sc c l).getD .held = .held := by
  unfold State.fenceWait at hp ⊢
  split
  · next hfar => exact absurd (if_pos hfar) hp
  · split <;> rfl

section
variable {s : State} {is : Issue} {h : Hdr} (r : Ready s is h {})
include r

theorem execFence_stands (sc : Scope) : ∃ t, execFence h sc s = .next t ∧
    Stood s t is ((s.acting is h).filter (fun l => (s.fenceWait sc is.crew l).isSome)) (fun l => (s.fenceWait sc is.crew l).getD .held) := by
  generalize hw : s.fenceWait sc is.crew = w
  have hnodup : ∀ p : Nat → Bool, ((laneWaits (s.acting is h) w).filter p).Nodup := fun p => ((activeLanes_nodup _ _ _).filter _).filter _
  have hsub : ∀ (p : Nat → Bool), ∀ l ∈ (laneWaits (s.acting is h) w).filter p, l ∈ s.acting is h :=
    fun p l hl => (List.mem_filter.mp (List.mem_filter.mp hl).1).1
  have hparked := Stood.of_unissue r (hnodup (fun l => w l == some .parked)) (hsub _) (fun _ => .parked) (st := fun l => (w l).getD .held)
    (fun l hl => by simp [eq_of_beq (List.mem_filter.mp hl).2])
  have hboth := (hparked.unissue (hnodup (fun l => w l != some .parked)) (fun l hl => r.acting_lt (hsub _ l hl)) (f := fun _ => .held)
    (fun l hl => by
      subst hw
      exact (State.fenceWait_of_not_parked (bne_iff_ne.mp (List.mem_filter.mp hl).2)).symm)).congr
    (fun l => mem_parked_append_held) (fun _ _ => rfl)
  unfold execFence
  refine word_stands r (fun l hl => (List.mem_filter.mp hl).1) ?_ hboth
  have hwait : (s.issueWord is).fenceWait sc is.crew = w := (funext (State.issueWord_fenceWait r.resident sc)).trans hw
  simp only [State.issueWord_cur, hwait]

theorem execFencef_stands (sc : Scope) : ∃ t, execFencef h sc s = .next t ∧
    Stood s t is ((s.acting is h).filter (fun l => (s.fencefWait sc is.crew l).isSome)) (fun l => (s.fencefWait sc is.crew l).getD .held) := by
  have hstood := Stood.of_unissue r (ls := (s.acting is h).filter (fun l => !s.fencefDone sc is.crew l)) ((activeLanes_nodup _ _ _).filter _)
    (fun l hl => (List.mem_filter.mp hl).1) (fun _ => .parked) (st := fun l => (s.fencefWait sc is.crew l).getD .held)
    (fun l hl => by rw [State.fencefWait, if_neg (by simpa using (List.mem_filter.mp hl).2)]; rfl)
  unfold execFencef
  refine word_stands r (fun l hl => (List.mem_filter.mp hl).1) ?_ (hstood.congr (fun l => ?_) (fun _ _ => rfl))
  · simp only [State.issueWord_cur, State.issueWord_fencefDone]
  · simp [List.mem_filter, State.fencefWait]

theorem execDrain_stands : ∃ t, execDrain h s = .next t ∧
    Stood s t is ((s.acting is h).filter (fun l => !((s.crew is.crew).lane l).pend.isEmpty)) (fun l => waitState ((s.crew is.crew).lane l).pend) := by
  unfold execDrain
  exact word_stands r (fun l hl => (List.mem_filter.mp hl).1) rfl
    (Stood.of_unissue r ((activeLanes_nodup _ _ _).filter _) (fun l hl => (List.mem_filter.mp hl).1) (fun x => waitState x.pend) (fun _ _ => rfl))

end

/-- Settles O36: the words let the path issue and then take back the lanes whose conditions do not hold. -/
theorem drainAndFenceWords : Obligations.DrainAndFenceWords := by
  unfold Obligations.DrainAndFenceWords
  refine ⟨?_, ?_⟩
  · intro s is h sc r stays
    have stays_of_stood : ∀ i w, (∃ t, exec i s = .next t ∧
        Stood s t is ((s.acting is h).filter (fun l => (w l).isSome)) (fun l => (w l).getD .held)) → stays i w := by
      rintro i w ⟨t, hx, hs⟩
      refine ⟨t, hx, by rw [hs.rest], hs.crews, by rw [hs.rest], fun l hl => ?_⟩
      rw [hs.lane_of_waits (fun _ => activeLanes_sub) hl]
      cases w l <;> rfl
    exact ⟨stays_of_stood _ _ (execFence_stands r sc), stays_of_stood _ _ (execFencef_stands r sc)⟩
  · intro s is h r waits
    obtain ⟨t, hx, hs⟩ := execDrain_stands r
    refine ⟨t, hx, hs.rest, hs.crews, fun l hl => ?_⟩
    rw [hs.lanes]
    simp only [mem_lanesOf, hl, true_and]
    rfl

end Sys2Proof.Machine
end

section
/-! SUPPORT. The bit words (R135, R136): what the bit counts, the reversal and the bit fields give. -/
namespace Sys2Proof.Machine
open Sys2Proof

/-! ### The indices of the 1 bits -/

theorem mem_onesOf {a : Word} {i : Nat} : i ∈ onesOf a ↔ i < 32 ∧ a.getLsbD i = true := by
  simp [onesOf]

theorem onesOf_pairwise (a : Word) : (onesOf a).Pairwise (· < ·) := List.pairwise_lt_range.filter _

/-- A word without indices of 1 bits has no 1 bit. -/
theorem getLsbD_of_onesOf_nil {a : Word} (h : onesOf a = []) (i : Nat) : a.getLsbD i = false := by
  by_contra hi
  rw [Bool.not_eq_false] at hi
  exact List.ne_nil_of_mem (mem_onesOf.mpr ⟨BitVec.lt_of_getLsbD hi, hi⟩) h

/-- The first index is that of the lowest 1 bit. -/
theorem onesOf_head {a : Word} {i : Nat} (h : (onesOf a).head? = some i) : i < 32 ∧ a.getLsbD i = true ∧ ∀ j < i, a.getLsbD j = false := by
  obtain ⟨is, his⟩ := List.head?_eq_some_iff.mp h
  have hi := mem_onesOf.mp (his ▸ List.mem_cons_self)
  have hsorted := his ▸ onesOf_pairwise a
  refine ⟨hi.1, hi.2, fun j hj => ?_⟩
  by_contra hbit
  rw [Bool.not_eq_false] at hbit
  have hmem : j ∈ i :: is := his ▸ mem_onesOf.mpr ⟨by omega, hbit⟩
  rcases List.mem_cons.mp hmem with rfl | hmem
  · omega
  · have := List.rel_of_pairwise_cons hsorted hmem
    omega

/-- The last index is that of the highest 1 bit. -/
theorem onesOf_getLast {a : Word} {i : Nat} (h : (onesOf a).getLast? = some i) : i < 32 ∧ a.getLsbD i = true ∧ ∀ j > i, a.getLsbD j = false := by
  obtain ⟨is, his⟩ := List.getLast?_eq_some_iff.mp h
  have hi := mem_onesOf.mp (his ▸ List.mem_append_right is (List.mem_singleton_self i))
  have hsorted := (List.pairwise_append.mp (his ▸ onesOf_pairwise a)).2.2
  refine ⟨hi.1, hi.2, fun j hj => ?_⟩
  by_contra hbit
  rw [Bool.not_eq_false] at hbit
  have hmem : j ∈ is ++ [i] := his ▸ mem_onesOf.mpr ⟨BitVec.lt_of_getLsbD hbit, hbit⟩
  rcases List.mem_append.mp hmem with hmem | hmem
  · have := hsorted j hmem i (List.mem_singleton_self i)
    omega
  · have := List.mem_singleton.mp hmem
    omega

/-! ### Counts, reversal and fields of a word (Table 7.4) -/

theorem popcResult_toNat (a : Word) : (popcResult a).toNat = ((List.range 32).filter (fun i => a.getLsbD i)).length := by
  have hle : (onesOf a).length ≤ 32 := (List.length_filter_le _ _).trans_eq List.length_range
  rw [popcResult, BitVec.toNat_ofNat, Nat.mod_eq_of_lt (by omega), onesOf]

/-- clz gives the number of 0 bits above the highest 1 bit, or 32 for 0. -/
theorem clzResult_leads (a : Word) : (clzResult a).toNat ≤ 32 ∧ (∀ i < (clzResult a).toNat, a.getLsbD (31 - i) = false) ∧
    ((clzResult a).toNat < 32 → a.getLsbD (31 - (clzResult a).toNat) = true) := by
  unfold clzResult
  cases h : (onesOf a).getLast? with
  | none =>
    have hzero := getLsbD_of_onesOf_nil (List.getLast?_eq_none_iff.mp h)
    simp [hzero]
  | some i =>
    obtain ⟨hi, hone, hzero⟩ := onesOf_getLast h
    have hval : (BitVec.ofNat 32 (31 - i)).toNat = 31 - i := by rw [BitVec.toNat_ofNat]; omega
    simp only [hval, show 31 - (31 - i) = i by omega, hone, implies_true, and_true]
    exact ⟨by omega, fun j hj => hzero _ (by omega)⟩

/-- ctz gives the index of the lowest 1 bit, or 32 for 0. -/
theorem ctzResult_trails (a : Word) : (ctzResult a).toNat ≤ 32 ∧ (∀ i < (ctzResult a).toNat, a.getLsbD i = false) ∧
    ((ctzResult a).toNat < 32 → a.getLsbD (ctzResult a).toNat = true) := by
  unfold ctzResult
  cases h : (onesOf a).head? with
  | none =>
    have hzero := getLsbD_of_onesOf_nil (List.head?_eq_none_iff.mp h)
    simp [hzero]
  | some i =>
    obtain ⟨hi, hone, hzero⟩ := onesOf_head h
    have hval : (BitVec.ofNat 32 i).toNat = i := by rw [BitVec.toNat_ofNat]; omega
    simp only [hval, hone, implies_true, and_true]
    exact ⟨by omega, hzero⟩

theorem brevResult_getLsbD (a : Word) {i : Nat} (hi : i < 32) : (brevResult a).getLsbD i = a.getLsbD (31 - i) := by
  rw [brevResult, BitVec.getLsbD_reverse, BitVec.getMsbD_eq_getLsbD]
  simp [hi]

theorem bfxResult_eq (u : Bool) (a b : Word) : bfxResult u a b =
    let f := a.toNat / 2 ^ fieldPos b % 2 ^ fieldLen b
    if u = false ∧ 1 ≤ fieldLen b ∧ 2 ^ (fieldLen b - 1) ≤ f then BitVec.ofInt 32 ((f : Int) - 2 ^ fieldLen b) else BitVec.ofNat 32 f := by
  simp [bfxResult, wrap, and_assoc]

/-! ### The words -/

/-- A result may be told by what is true of it. -/
theorem GivesReg.such_that {i : Instr} {s : State} {is : Issue} {h : Hdr} {d : BitVec 8} {v : Nat → Word} (k : GivesReg i s is h d v)
    {P : Nat → Word → Prop} (hP : ∀ l, P l (v l)) :
    ∃ t, exec i s = .next t ∧ LanesOnly s t is (s.acting is h) (fun l x y => ∃ w, WritesReg d.toNat w x y ∧ P l w) := by
  obtain ⟨t, hx, hl⟩ := k
  exact ⟨t, hx, hl.mono (fun l _ _ _ hw => ⟨v l, hw, hP l⟩)⟩

section
variable {s : State} {is : Issue} {h : Hdr} {d a : BitVec 8} (r : Ready s is h { dst := [(d, 1)], src := [(a, 1)] })
include r

theorem popc_gives : GivesReg (.popc h d a) s is h d (fun l => popcResult (s.operand is 0 l a)) := unary_gives popcResult r

theorem clz_gives : GivesReg (.clz h d a) s is h d (fun l => clzResult (s.operand is 0 l a)) := unary_gives clzResult r

theorem ctz_gives : GivesReg (.ctz h d a) s is h d (fun l => ctzResult (s.operand is 0 l a)) := unary_gives ctzResult r

theorem brev_gives : GivesReg (.brev h d a) s is h d (fun l => brevResult (s.operand is 0 l a)) := unary_gives brevResult r

end

theorem bfx_gives {s : State} {is : Issue} {h : Hdr} {d a b : BitVec 8} (u : Bool) (r : Ready s is h { dst := [(d, 1)], src := [(a, 1), (b, 1)] }) :
    GivesReg (.bfx h d a b u) s is h d (fun l => bfxResult u (s.operand is 0 l a) (s.operand is 1 l b)) := binary_gives (bfxResult u) r

theorem bfi_gives {s : State} {is : Issue} {h : Hdr} {d a b c : BitVec 8} (r : Ready s is h { dst := [(d, 1)], src := [(a, 1), (b, 1), (c, 1)] }) :
    GivesReg (.bfi h d a b c) s is h d (fun l => bfiResult (s.operand is 0 l a) (s.operand is 1 l b) (s.operand is 2 l c)) :=
  ternary_gives bfiResult r

/-- Settles O11: each word writes its result in the active lanes, and the result is the count, the reversal or the field that the rules name. -/
theorem bitWords : Obligations.BitWords := by
  unfold Obligations.BitWords
  intro s is h d a b c u A B C
  refine ⟨fun r => ⟨?popc, ?clz, ?ctz, ?brev⟩, fun r => ?bfx, fun r => ?bfi⟩
  case popc => exact (popc_gives r).such_that (fun l => popcResult_toNat (A l))
  case clz => exact (clz_gives r).such_that (fun l => clzResult_leads (A l))
  case ctz => exact (ctz_gives r).such_that (fun l => ctzResult_trails (A l))
  case brev => exact (brev_gives r).such_that (fun l _ => brevResult_getLsbD (A l))
  case bfx => exact (bfx_gives u r).of_eq (fun l _ => bfxResult_eq u (A l) (B l))
  case bfi => exact bfi_gives r

end Sys2Proof.Machine
end

section
/-! SUPPORT. Check(addr) of the memory words (R198): the check is the lowest lane's that is found, and a word whose check finds a lane traps before its access. -/
namespace Sys2Proof.Machine
open Sys2Proof

theorem Width2.bytes_wide (w : Width2) : Width.bytes (Width2.wide w) = Width2.bytes w := by
  cases w <;> rfl

/-! ### The check -/

section
variable {s : State} {is : Issue} {h : Hdr} {sp : Space} {w l : Nat} {addr : Nat → Nat}

/-- Issuing the word moves no bound. -/
theorem State.issueWord_spaceCheck (k : Crew) (act : List Nat) : (s.issueWord is).spaceCheck k sp w act addr = s.spaceCheck k sp w act addr := by
  cases sp <;> rfl

/-- The lowest active lane past the bound decides the check, whatever the alignment of any lane. -/
theorem State.spaceCheck_past_bound {k : Crew} (hl : l ∈ s.acting is h) (hpast : (s.spaceBound k sp).1 < addr l + w)
    (hlow : ∀ m ∈ s.acting is h, m < l → addr m + w ≤ (s.spaceBound k sp).1) :
    s.spaceCheck k sp w (s.acting is h) addr = some ((s.spaceBound k sp).2, spaceInfo (addr l) l (Space.code sp)) := by
  have hfind : (s.acting is h).find? (fun m => decide ((s.spaceBound k sp).1 < addr m + w)) = some l :=
    find?_acting hl (by simpa using hpast) (fun m hm hml => by simpa using hlow m hm hml)
  simp only [State.spaceCheck, hfind]

/-- With no active lane past the bound, the lowest misaligned one decides the check. -/
theorem State.spaceCheck_misaligned {k : Crew} (hin : ∀ m ∈ s.acting is h, addr m + w ≤ (s.spaceBound k sp).1) (hl : l ∈ s.acting is h)
    (hodd : addr l % w ≠ 0) (hlow : ∀ m ∈ s.acting is h, m < l → addr m % w = 0) :
    s.spaceCheck k sp w (s.acting is h) addr = some (tcMisaligned, spaceInfo (addr l) l (Space.code sp)) := by
  have hnone : (s.acting is h).find? (fun m => decide ((s.spaceBound k sp).1 < addr m + w)) = none := by
    rw [List.find?_eq_none]
    intro m hm
    simpa using hin m hm
  have hfind : (s.acting is h).find? (fun m => addr m % w != 0) = some l :=
    find?_acting hl (by simpa using hodd) (fun m hm hml => by simpa using hlow m hm hml)
  simp only [State.spaceCheck, hnone, hfind]

end

/-! ### The words -/

/-- A word whose check finds a lane traps as the check says, on the state in which nothing has been read or written. -/
theorem spaceWord_traps {s : State} {is : Issue} {h : Hdr} {n : Needs} {la : BitVec 4} {kind : Nat} {op : Aop} {ty : Aty} {sp : Space} {wd : Width}
    {d : Option (BitVec 8)} {a : BitVec 8} {ofs : Int} {b c : Option (BitVec 8)} {code : BitVec 8} {info : DWord} (r : Ready s is h n)
    (ha : s.acting is h ≠ [])
    (hcheck : s.spaceCheck (s.crew is.crew) sp (Width.bytes wd) (s.acting is h) (fun l => addr32 (s.operand is 0 l a) ofs) = some (code, info)) :
    spaceWord h n la kind op ty sp wd d a ofs b c s = .next (s.trapPath is code info) := by
  refine word_trap r ha ?_
  simp only [operand_eq, State.issueWord_spaceCheck, hcheck]

/-- Each of the four words is an access of its own kind, over its own width. -/
theorem memoryForms_exec {h : Hdr} {la : BitVec 4} {sp : Space} {wd : Width} {w2 : Width2} {op : Aop} {ty : Aty} {d a b c o8 : BitVec 8}
    {o10 : BitVec 10} {f : Instr × Needs × Nat × Int} (hf : f ∈ memoryForms h la sp wd w2 op ty d a b c o8 o10) :
    ∃ (la' : BitVec 4) (kind : Nat) (op' : Aop) (ty' : Aty) (wd' : Width) (d' b' c' : Option (BitVec 8)), Width.bytes wd' = f.2.2.1 ∧
      ∀ s, exec f.1 s = spaceWord h f.2.1 la' kind op' ty' sp wd' d' a f.2.2.2 b' c' s := by
  simp only [memoryForms, List.mem_cons, List.not_mem_nil, or_false] at hf
  rcases hf with rfl | rfl | rfl | rfl
  case inl => exact ⟨la, 0, .add, .i32, wd, some d, none, none, rfl, fun _ => rfl⟩
  case inr.inl => exact ⟨0, 1, .add, .i32, wd, none, some b, none, rfl, fun _ => rfl⟩
  case inr.inr.inl => exact ⟨la, 2, op, ty, .b32, some d, some b, none, rfl, fun _ => rfl⟩
  case inr.inr.inr => exact ⟨la, 3, .exch, .i32, Width2.wide w2, some d, some b, some c, Width2.bytes_wide w2, fun _ => rfl⟩

/-- Each of the four words checks every active lane's address before its access. -/
theorem memoryForms_trap {s : State} {is : Issue} {h : Hdr} {la : BitVec 4} {sp : Space} {wd : Width} {w2 : Width2} {op : Aop} {ty : Aty}
    {d a b c o8 : BitVec 8} {o10 : BitVec 10} {f : Instr × Needs × Nat × Int} (hf : f ∈ memoryForms h la sp wd w2 op ty d a b c o8 o10)
    (r : Ready s is h f.2.1) (ha : s.acting is h ≠ []) {code : BitVec 8} {info : DWord}
    (hcheck : s.spaceCheck (s.crew is.crew) sp f.2.2.1 (s.acting is h) (fun l => addr32 (s.operand is 0 l a) f.2.2.2) = some (code, info)) :
    Traps f.1 s is code info := by
  obtain ⟨la', kind, op', ty', wd', d', b', c', hwidth, hexec⟩ := memoryForms_exec hf
  rw [← hwidth] at hcheck
  exact (hexec s).trans (spaceWord_traps r ha hcheck)

/-- Settles O29: the check's first look is for the lowest lane past the bound, its second for the lowest misaligned one, and what it finds is the trap. -/
theorem memoryWordsCheckEveryLane : Obligations.MemoryWordsCheckEveryLane := by
  unfold Obligations.MemoryWordsCheckEveryLane
  intro s is h la sp wd w2 op ty d a b c o8 o10 f hf r w addr bound code info
  have hcode : (s.spaceBound (s.crew is.crew) sp).2 = code := by cases sp <;> rfl
  have hinfo : ∀ l, spaceInfo (addr l) l (Space.code sp) = info l := fun l => by cases sp <;> rfl
  refine ⟨fun l hl hpast hlow => ?bound, fun hin l hl hodd hlow => ?misaligned⟩
  case bound =>
    rw [← hcode, ← hinfo]
    exact memoryForms_trap hf r (List.ne_nil_of_mem hl) (State.spaceCheck_past_bound hl hpast hlow)
  case misaligned =>
    rw [← hinfo]
    exact memoryForms_trap hf r (List.ne_nil_of_mem hl) (State.spaceCheck_misaligned hin hl hodd hlow)

end Sys2Proof.Machine
end
